-- ==== Sys2Proof/Word.lean ====
section
/-! DEFINITION. The word types of the block: bytes, 16-bit fields, 32-bit registers (spec/10_state.md R20 to R37;
spec/00_scope.md R10, R11: all integers unsigned, bit 0 the least significant). -/

namespace Sys2Proof

/-- A byte is 8 bits (R11). -/
abbrev Byte := BitVec 8

/-- A 16-bit field: a header field, or a stored code (R7 `CodeFieldBits`). -/
abbrev Half := BitVec 16

/-- A 32-bit register (R21, R27). -/
abbrev Word := BitVec 32

end Sys2Proof
end

