-- ==== Sys2Proof/Config.lean ====
section
/-! DEFINITION. What is fixed for the machine: the parameters of spec/00_scope.md R6 and R7, and the free values, constants
with no body, so that no proof can see what they are. -/

namespace Sys2Proof

/-- `MaxCodes` (R6). -/
abbrev Config.maxCodes : Nat := 4096

/-- `MaxCodeBits` (R6). -/
abbrev Config.maxCodeBits : Nat := 12

/-- `MaxBlock` (R6): the most data bytes in one sub-block. -/
abbrev Config.maxBlock : Nat := 255

/-- `ResetAt` = `MaxCodes - 1` (R6). -/
abbrev Config.resetAt : Nat := 4095

/-- `MinRootBits` (R7). -/
abbrev Config.minRootBits : Nat := 3

/-- `MaxRootBits` (R7). -/
abbrev Config.maxRootBits : Nat := 12

/-- `NONE`: the "root/unused" sentinel of `prev` and the "not found" result (R7). -/
abbrev Config.none : Half := 0xFFFF

/-- `FileHeaderLen` (R6). -/
abbrev Config.fileHeaderLen : Nat := 13

/-- `ImageHeaderLen` (R6). -/
abbrev Config.imageHeaderLen : Nat := 9

/-- The length of a Graphics Control block (R101). -/
abbrev Config.gcbLen : Nat := 6

/-- `GcbBlockSize` (R6). -/
abbrev Config.gcbBlockSize : Byte := 4

/-- The signature `"GIF89a"` (R99). -/
abbrev Config.signature : List Byte := [0x47, 0x49, 0x46, 0x38, 0x39, 0x61]

/-- FREE VALUE. The contents of `SRC` after the n-th power-on reset, by address (R321: "unspecified"). Log 3. -/
opaque Config.srcPowerOn : Nat → Nat → Byte

/-- FREE VALUE. The contents of `SNK` after the n-th power-on reset, by address (R321: "unspecified"). Log 3. -/
opaque Config.snkPowerOn : Nat → Nat → Byte

/-- FREE VALUE. The byte `SrcRead8` yields when its precondition `SrcAvail() >= 1` does not hold (R65, R76, R329). Log 6. -/
opaque Config.freeByte : Nat → Byte

/-- FREE VALUE. `SRC_POS` after an advance that would carry it past `2^32 - 1` (R24, R65, R68). Log 7. -/
opaque Config.freeCursor : Nat → Word

end Sys2Proof
end

