-- ==== Sys2Proof/Syntax.lean ====
section
/-! DEFINITION. The commands of the block, one constructor per row of spec/opcode_table.json (spec/30_encoding.md R92), the
fields of the one command format (R90), the host-visible registers (spec/10_state.md R37) and the packer's routing mode
(spec/43_bitpacker.md R208). -/

namespace Sys2Proof

/-- The 31 commands (R92). No command word carries an operand (R90), so no constructor has a field. -/
inductive Instr where
  | nop
  | stReset
  | stAdd
  | stFind
  | stWrstr
  | stFirst
  | stUnused
  | stBase
  | lzwCompress
  | lzwEstimate
  | lzwDecompress
  | bpInit
  | bpPut
  | bpFlush
  | bpGet
  | sbOpen
  | sbPut
  | sbClose
  | sbRopen
  | sbGet
  | sbSkip
  | hdrWrFile
  | hdrRdFile
  | hdrWrImage
  | hdrRdImage
  | hdrWrGcb
  | hdrRdGcb
  | hdrWrComment
  | hdrRdComment
  | clrFault
  | softReset
  deriving DecidableEq, Repr

/-- The fields of format `C` (R90): `opcode` is `CMD[7:0]`, `zero` is `CMD[31:8]`. -/
structure CommandWord where
  opcode : BitVec 8
  zero : BitVec 24
  deriving DecidableEq, Repr

/-- The host registers by name (R37). -/
inductive HostReg where
  | cmd | status | err | errCmd
  | arg0 | arg1 | arg2
  | res0 | res1 | res2 | res3
  | srcLen | srcPos | snkCap | snkPos
  | stRootBits | stCodeBits | stNextFree | stResetCode | stEndCode
  | bpWacc | bpWcnt | bpRacc | bpRcnt
  | sbWcnt | sbRrem | sbRend
  | lzCur | lzPrev | lzResets
  | fhWidth | fhHeight | fhResolution | fhBackground | fhAspect
  | ihLeft | ihTop | ihWidth | ihHeight | ihFlags
  | gcFlags | gcDelay | gcTransp
  deriving DecidableEq, Repr

/-- Where the packer's bytes go to and come from (R208). -/
inductive Mode where
  | framed
  | raw
  deriving DecidableEq, Repr

end Sys2Proof
end

