-- ==== Sys2Proof/WellFormed.lean ====
section
/-! DEFINITION. When a command word is one of the 31 (spec/30_encoding.md R90, R93), written as the two checks of R93 and
independently of the decoder. A command carries no operand, so an `Instr` itself is always well formed; the operand registers
are checked when the command runs (Machine/Operands.lean). -/

namespace Sys2Proof

/-- The opcodes of R92, family by family. -/
def assignedOpcodes : List (BitVec 8) :=
  [0x00, 0x01, 0x02, 0x03, 0x04, 0x05, 0x06, 0x07] ++ [0x10, 0x11, 0x12] ++ [0x20, 0x21, 0x22, 0x23] ++
    [0x30, 0x31, 0x32, 0x33, 0x34, 0x35] ++ [0x40, 0x41, 0x42, 0x43, 0x44, 0x45, 0x46, 0x47] ++ [0xF0, 0xFF]

/-- Check 1 of R93: `CMD[31:8] == 0`. -/
def CommandWord.zeroOk (c : CommandWord) : Bool := c.zero == 0

/-- Check 2 of R93: the opcode is in the table. -/
def CommandWord.opcodeOk (c : CommandWord) : Bool := assignedOpcodes.contains c.opcode

/-- A legal command word (R93). -/
def CommandWord.wellFormed (c : CommandWord) : Bool := c.zeroOk && c.opcodeOk

end Sys2Proof
end

