-- ==== Sys2Proof/Decode.lean ====
section
/-! DEFINITION. From a 32-bit command word to a command or a named rejection (spec/30_encoding.md R90 to R93), and the encoder. -/

namespace Sys2Proof

/-- Why a word is no command (R93). Either way dispatch raises `IllegalCommand`. -/
inductive DecodeError where
  | zeroFieldSet (zero : BitVec 24)
  | unassignedOpcode (opcode : BitVec 8)
  deriving DecidableEq, Repr

/-- The fields of a word (R90). -/
def splitWord (w : Word) : CommandWord := ⟨w.extractLsb' 0 8, w.extractLsb' 8 24⟩

/-- The word of the fields (R90). -/
def joinWord (c : CommandWord) : Word := c.zero ++ c.opcode

/-- The opcode map (R92), opcode to command. -/
def decodeOpcode (op : BitVec 8) : Option Instr :=
  match op.toNat with
  | 0x00 => some .nop
  | 0x01 => some .stReset
  | 0x02 => some .stAdd
  | 0x03 => some .stFind
  | 0x04 => some .stWrstr
  | 0x05 => some .stFirst
  | 0x06 => some .stUnused
  | 0x07 => some .stBase
  | 0x10 => some .lzwCompress
  | 0x11 => some .lzwEstimate
  | 0x12 => some .lzwDecompress
  | 0x20 => some .bpInit
  | 0x21 => some .bpPut
  | 0x22 => some .bpFlush
  | 0x23 => some .bpGet
  | 0x30 => some .sbOpen
  | 0x31 => some .sbPut
  | 0x32 => some .sbClose
  | 0x33 => some .sbRopen
  | 0x34 => some .sbGet
  | 0x35 => some .sbSkip
  | 0x40 => some .hdrWrFile
  | 0x41 => some .hdrRdFile
  | 0x42 => some .hdrWrImage
  | 0x43 => some .hdrRdImage
  | 0x44 => some .hdrWrGcb
  | 0x45 => some .hdrRdGcb
  | 0x46 => some .hdrWrComment
  | 0x47 => some .hdrRdComment
  | 0xF0 => some .clrFault
  | 0xFF => some .softReset
  | _ => none

/-- The decoder: total on every word, rejecting by name (R93). -/
def decode (w : Word) : Except DecodeError Instr :=
  let c := splitWord w
  if c.zero = 0 then
    match decodeOpcode c.opcode with
    | some i => .ok i
    | none => .error (.unassignedOpcode c.opcode)
  else .error (.zeroFieldSet c.zero)

/-- The opcode map (R92), command to opcode. -/
def opcodeOf (i : Instr) : BitVec 8 :=
  match i with
  | .nop => 0x00
  | .stReset => 0x01
  | .stAdd => 0x02
  | .stFind => 0x03
  | .stWrstr => 0x04
  | .stFirst => 0x05
  | .stUnused => 0x06
  | .stBase => 0x07
  | .lzwCompress => 0x10
  | .lzwEstimate => 0x11
  | .lzwDecompress => 0x12
  | .bpInit => 0x20
  | .bpPut => 0x21
  | .bpFlush => 0x22
  | .bpGet => 0x23
  | .sbOpen => 0x30
  | .sbPut => 0x31
  | .sbClose => 0x32
  | .sbRopen => 0x33
  | .sbGet => 0x34
  | .sbSkip => 0x35
  | .hdrWrFile => 0x40
  | .hdrRdFile => 0x41
  | .hdrWrImage => 0x42
  | .hdrRdImage => 0x43
  | .hdrWrGcb => 0x44
  | .hdrRdGcb => 0x45
  | .hdrWrComment => 0x46
  | .hdrRdComment => 0x47
  | .clrFault => 0xF0
  | .softReset => 0xFF

/-- The encoder: `CMD = zext_32(opcode)` (R92). -/
def encode (i : Instr) : Word := joinWord ⟨opcodeOf i, 0⟩

/-- The word the table's `nbits` low bits `w` stand for, every bit above them 0; `none` if it is longer than a command word. -/
def tableWord (nbits w : Nat) : Option Word :=
  if w % 2 ^ nbits < 2 ^ 32 then some (BitVec.ofNat 32 (w % 2 ^ nbits)) else none

/-- What the decoder reads from an instruction whose bits are `w`, numbered as spec/opcode_table.json numbers them. -/
def decodeTableWord (nbits w : Nat) : Option Instr :=
  match tableWord nbits w with
  | some word =>
    match decode word with
    | .ok i => some i
    | .error _ => none
  | none => none

end Sys2Proof
end

