-- ==== Sys2Proof/Machine/State.lean ====
section
/-! DEFINITION. The state of the block (spec/10_state.md R20 to R37; spec/70_reset_and_hazards.md R321), group by group as R20
groups it, the fault kinds (spec/60_exceptions.md R281), the host's actions (spec/46_system_commands.md R274) and the state
after power-on reset. -/

namespace Sys2Proof.Machine

/-- `STATUS`, `ERR`, `ERR_CMD` (R25, R26). The bits 31:3 of `STATUS` have no storage: they read as 0. -/
structure StatusRegs where
  busy : Bool
  fault : Bool
  done : Bool
  err : BitVec 8
  errCmd : BitVec 8
  deriving DecidableEq, Repr

/-- The operand registers (R21). -/
structure ArgRegs where
  arg0 : Word
  arg1 : Word
  arg2 : Word
  deriving DecidableEq, Repr

/-- The result registers (R21). -/
structure ResRegs where
  res0 : Word
  res1 : Word
  res2 : Word
  res3 : Word
  deriving DecidableEq, Repr

/-- The stream cursors (R27). -/
structure Cursors where
  srcLen : Word
  srcPos : Word
  snkCap : Word
  snkPos : Word
  deriving DecidableEq, Repr

/-- One entry of the string table (R29). -/
structure Entry where
  char : Byte
  prev : Half
  first : Byte
  deriving DecidableEq, Repr

/-- The table proper, by code; a code not listed holds the cleared entry (R29). Log 15. -/
abbrev Table := List (Nat × Entry)

/-- The string table and its control registers (R28, R29). -/
structure StringTable where
  table : Table
  rootBits : BitVec 4
  codeBits : BitVec 4
  nextFree : BitVec 13
  resetCode : BitVec 12
  endCode : BitVec 12
  deriving DecidableEq, Repr

/-- The bit packer and unpacker (R31). -/
structure Packer where
  wacc : BitVec 19
  wcnt : BitVec 5
  racc : BitVec 19
  rcnt : BitVec 5
  deriving DecidableEq, Repr

/-- The sub-block framer (R32, R33). `wbuf` lists the bytes of `SB_WBUF` that are not 0, by index. Log 15. -/
structure Framer where
  wbuf : List Host.Cell
  wcnt : BitVec 8
  rrem : BitVec 8
  rend : Bool
  deriving DecidableEq, Repr

/-- The LZW run registers (R34). -/
structure LzwRegs where
  cur : Half
  prev : Half
  resets : Word
  deriving DecidableEq, Repr

/-- The header field registers (R35). -/
structure HeaderRegs where
  fhWidth : Half
  fhHeight : Half
  fhResolution : Byte
  fhBackground : Byte
  fhAspect : Byte
  ihLeft : Half
  ihTop : Half
  ihWidth : Half
  ihHeight : Half
  ihFlags : Byte
  gcFlags : Byte
  gcDelay : Half
  gcTransp : Byte
  deriving DecidableEq, Repr

/-- What the outside world can do to the block: the four steps of R274, a host store to `SNK` (R328, log 10) and the reset
input (R320, log 5). -/
inductive HostAction where
  | readReg (n : Nat)
  | writeReg (n : Nat) (v : Word)
  | storeSrc (a : Word) (b : Byte)
  | storeSnk (a : Word) (b : Byte)
  | loadSnk (a : Word)
  | powerOn
  deriving DecidableEq, Repr

/-- The MODEL's own: the host's pending actions, oldest first (log 1), and the value the last read returned (log 13). -/
structure HostPort where
  pending : List HostAction
  data : Word
  deriving DecidableEq, Repr

/-- The MODEL's own: the indexes of the free values (log 5, log 6, log 7). -/
structure FreeIndex where
  tick : Nat
  powerOns : Nat
  deriving DecidableEq, Repr

/-- A byte memory: the bytes that have been stored, by address, strictly rising (log 3). -/
abbrev Memory := List Host.Cell

/-- The state of the machine (R20). -/
structure State where
  status : StatusRegs
  args : ArgRegs
  res : ResRegs
  cur : Cursors
  st : StringTable
  bp : Packer
  sb : Framer
  lz : LzwRegs
  hdr : HeaderRegs
  src : Memory
  snk : Memory
  host : HostPort
  free : FreeIndex
  deriving DecidableEq, Repr

/-- The six fault kinds of the block (R281). Taking one is a NEXT state of the machine (R290). -/
inductive FaultKind where
  | invalidFormat
  | corruptStream
  | truncatedStream
  | tableTooLarge
  | insufficientSpace
  | illegalCommand
  deriving DecidableEq, Repr

/-- How a command's pseudocode ends (R14): normally, with a value, or at a `raise`. Either way the assignments made stay. -/
inductive Run (α : Type) where
  | ok (a : α) (s : State)
  | raise (k : FaultKind) (s : State)
  deriving DecidableEq, Repr

/-- Why the machine stops. -/
inductive Fault where
  /-- Raised by a step that would perform a host access while `STATUS.BUSY = 1`, other than reading `STATUS`: the spec gives it
  no step (R81, R326, I27). Safe: the machine stops where the hardware goes on. Never reached from reset. Log 9. -/
  | hostAccessWhileBusy
  deriving DecidableEq, Repr

/-- Why an instruction has no meaning. -/
inductive Refusal where
  /-- Raised by an arm of `exec` that has no meaning yet; none does. Safe. -/
  | notModelled (mnemonic : String)
  deriving DecidableEq, Repr

/-- The state after power-on reset (R321). Memory lists nothing: every byte is unspecified (log 3). -/
def State.reset : State where
  status := ⟨false, false, false, 0, 0⟩
  args := ⟨0, 0, 0⟩
  res := ⟨0, 0, 0, 0⟩
  cur := ⟨0, 0, 0, 0⟩
  st := ⟨[], 0, 0, 0, 0, 0⟩
  bp := ⟨0, 0, 0, 0⟩
  sb := ⟨[], 0, 0, false⟩
  lz := ⟨0xFFFF, 0xFFFF, 0⟩
  hdr := ⟨0, 0, 0xFF, 0, 0, 0, 0, 0, 0, 0, 0, 0, 0⟩
  src := []
  snk := []
  host := ⟨[], 0⟩
  free := ⟨0, 0⟩

end Sys2Proof.Machine
end

