-- ==== Sys2Proof/Machine/Memory.lean ====
section
/-! DEFINITION. Lists of (key, value) pairs with strictly rising keys: the form of `SRC`, `SNK` (spec/20_memory.md R60), of the
string table (spec/10_state.md R29) and of `SB_WBUF` (R32). Reading one key and writing one key. -/

namespace Sys2Proof.Machine

/-- The value listed at key `a`, if any. -/
def cellGet {α : Type} : List (Nat × α) → Nat → Option α
  | [], _ => none
  | (k, v) :: m, a => if a = k then some v else cellGet m a

/-- List the value `v` at key `a`, in place of what was listed there. -/
def cellPut {α : Type} : List (Nat × α) → Nat → α → List (Nat × α)
  | [], a, v => [(a, v)]
  | (k, w) :: m, a, v =>
    if a < k then (a, v) :: (k, w) :: m
    else if a = k then (a, v) :: m
    else (k, w) :: cellPut m a v

/-- List nothing at key `a`. -/
def cellErase {α : Type} (m : List (Nat × α)) (a : Nat) : List (Nat × α) := m.filter fun c => c.1 ≠ a

/-- Store `v` at key `a` where an unlisted key reads as `d`: the form lists no value equal to `d`. -/
def cellSet {α : Type} [DecidableEq α] (d : α) (m : List (Nat × α)) (a : Nat) (v : α) : List (Nat × α) :=
  if v = d then cellErase m a else cellPut m a v

/-- The keys rise strictly. -/
abbrev cellsRising {α : Type} (m : List (Nat × α)) : Prop := m.Pairwise fun x y => x.1 < y.1

/-- The canonical form of a byte memory: addresses strictly rising and inside the `2^32` bytes of its space (R60). At this level
an unlisted address reads as no value (log 3), so no listed byte equals it. -/
abbrev Memory.wf (m : Memory) : Prop := cellsRising m ∧ ∀ c ∈ m, c.1 < 2 ^ 32

/-- The canonical form of a list whose unlisted keys read as `d`, with keys below `n`. -/
abbrev cellsCanonical {α : Type} [DecidableEq α] (d : α) (n : Nat) (m : List (Nat × α)) : Prop :=
  cellsRising m ∧ ∀ c ∈ m, c.1 < n ∧ c.2 ≠ d

end Sys2Proof.Machine
end

