-- ==== Sys2Proof/Machine/Flags.lean ====
section
/-! DEFINITION. The `STATUS` flags and the error code (spec/10_state.md R25, R26; spec/60_exceptions.md R281). The block has no
arithmetic condition codes (R25), so these are all its flags. -/

namespace Sys2Proof.Machine

/-- The value `ERR` takes for each fault kind (R281). -/
def FaultKind.code (k : FaultKind) : BitVec 8 :=
  match k with
  | .invalidFormat => 1
  | .corruptStream => 2
  | .truncatedStream => 3
  | .tableTooLarge => 4
  | .insufficientSpace => 5
  | .illegalCommand => 6

/-- `STATUS` as a 32-bit word (R25): `BUSY` bit 0, `FAULT` bit 1, `DONE` bit 2, bits 31:3 read as 0. -/
def statusWord (f : StatusRegs) : Word :=
  BitVec.ofNat 32 (f.busy.toNat + 2 * f.fault.toNat + 4 * f.done.toNat)

/-- The start of a command (R273): `DONE <- 0`, `BUSY <- 1`. -/
def beginFlags (f : StatusRegs) : StatusRegs := { f with done := false, busy := true }

/-- The normal end of a command (R273): `DONE <- 1`, `BUSY <- 0`. -/
def completeFlags (f : StatusRegs) : StatusRegs := { f with done := true, busy := false }

/-- Fault entry (R290): `ERR`, `ERR_CMD`, `FAULT <- 1`, `DONE <- 0`. -/
def faultFlags (k : FaultKind) (op : BitVec 8) (f : StatusRegs) : StatusRegs :=
  { f with err := k.code, errCmd := op, fault := true, done := false }

/-- The end of a command that faulted (R273): `BUSY <- 0`. -/
def idleFlags (f : StatusRegs) : StatusRegs := { f with busy := false }

/-- The acknowledgement of a fault (R271): `FAULT <- 0`, `ERR <- 0`, `ERR_CMD <- 0`. -/
def ackFlags (f : StatusRegs) : StatusRegs := { f with fault := false, err := 0, errCmd := 0 }

end Sys2Proof.Machine
end

