-- ==== Sys2Proof/Machine/Operands.lean ====
section
/-! DEFINITION. The operand kinds (spec/30_encoding.md R91): an operand register is read whole, unsigned, and checked against
the range its command's rule gives (spec/60_exceptions.md R287). A code or `rootBits` operand admits any 32-bit value. -/

namespace Sys2Proof.Machine

/-- A byte operand: 0..255 (R91). -/
def isByteOperand (v : Word) : Bool := v.toNat ≤ 255

/-- A flag operand: 0 or 1 (R91). -/
def isFlagOperand (v : Word) : Bool := v.toNat ≤ 1

/-- A width operand: 1..12 (R91). -/
def isWidthOperand (v : Word) : Bool := 1 ≤ v.toNat && v.toNat ≤ 12

/-- A code operand of width `w`: below `2^w` (R203). -/
def fitsWidth (v w : Word) : Bool := v.toNat < 2 ^ w.toNat

/-- The byte of a byte operand, `v[7:0]`. -/
def byteOperand (v : Word) : Byte := v.setWidth 8

/-- The truth of a flag operand, `v[0] = 1`. -/
def flagOperand (v : Word) : Bool := v.getLsbD 0

/-- The routing mode of a raw flag (R208): 0 is `FRAMED`, 1 is `RAW`. -/
def modeOperand (v : Word) : Mode := if flagOperand v then .raw else .framed

/-- Operand check of `ST_ADD` (R136): `ARG1` a byte, `ARG2` a flag. -/
def stAddOperandsOk (a : ArgRegs) : Bool := isByteOperand a.arg1 && isFlagOperand a.arg2

/-- Operand check of `BP_PUT` (R203). -/
def bpPutOperandsOk (a : ArgRegs) : Bool :=
  isWidthOperand a.arg1 && isFlagOperand a.arg2 && fitsWidth a.arg0 a.arg1

/-- Operand check of `BP_FLUSH` (R204). -/
def bpFlushOperandsOk (a : ArgRegs) : Bool := isFlagOperand a.arg2

/-- Operand check of `BP_GET` (R206). -/
def bpGetOperandsOk (a : ArgRegs) : Bool := isWidthOperand a.arg1 && isFlagOperand a.arg2

/-- Operand check of `SB_PUT` (R225). -/
def sbPutOperandsOk (a : ArgRegs) : Bool := isByteOperand a.arg0

end Sys2Proof.Machine
end

