-- ==== Sys2Proof/Machine/Ops.lean ====
section
/-! DEFINITION. The shared operations: one named update per group of State, sequencing of pseudocode (spec/00_scope.md R14), the
seven cursor primitives (spec/20_memory.md R64 to R70), fault entry and its acknowledgement (spec/60_exceptions.md R290, R292),
and running a command (spec/46_system_commands.md R273). -/

namespace Sys2Proof.Machine

/-! ### One update per group -/

def State.setStatus (s : State) (x : StatusRegs) : State := { s with status := x }
def State.setRes (s : State) (x : ResRegs) : State := { s with res := x }
def State.setCur (s : State) (x : Cursors) : State := { s with cur := x }
def State.setSt (s : State) (x : StringTable) : State := { s with st := x }
def State.setBp (s : State) (x : Packer) : State := { s with bp := x }
def State.setSb (s : State) (x : Framer) : State := { s with sb := x }
def State.setLz (s : State) (x : LzwRegs) : State := { s with lz := x }
def State.setHdr (s : State) (x : HeaderRegs) : State := { s with hdr := x }
def State.setArgs (s : State) (x : ArgRegs) : State := { s with args := x }
def State.setSrc (s : State) (x : Memory) : State := { s with src := x }
def State.setSnk (s : State) (x : Memory) : State := { s with snk := x }
def State.setHost (s : State) (x : HostPort) : State := { s with host := x }
def State.setFree (s : State) (x : FreeIndex) : State := { s with free := x }

/-! ### Pseudocode in sequence -/

/-- The state a run ends in. -/
def Run.state {α : Type} : Run α → State
  | .ok _ s => s
  | .raise _ s => s

/-- Go on with `f` unless a fault was raised: nothing after a `raise` is done (R14, R291). -/
def Run.bind {α β : Type} (r : Run α) (f : α → State → Run β) : Run β :=
  match r with
  | .ok a s => f a s
  | .raise k s => .raise k s

/-! ### The memories -/

/-- The byte at address `a` of `SRC`: what the host stored, else the unspecified power-on contents (R61, R321). Log 3. -/
def srcByte (s : State) (a : Nat) : Byte := (cellGet s.src a).getD (Config.srcPowerOn s.free.powerOns a)

/-- The byte at address `a` of `SNK`: what was written, else the unspecified power-on contents (R62, R321). Log 3. -/
def snkByte (s : State) (a : Nat) : Byte := (cellGet s.snk a).getD (Config.snkPowerOn s.free.powerOns a)

/-! ### Cursor primitives -/

/-- `SrcAvail()` (R64). -/
def srcAvail (s : State) : Nat :=
  if s.cur.srcLen.toNat ≤ s.cur.srcPos.toNat then 0 else s.cur.srcLen.toNat - s.cur.srcPos.toNat

/-- `SRC_POS <- SRC_POS + k`. Under the primitives' preconditions the sum fits (R65); a sum past `2^32 - 1` has no value in the
spec and leaves a free one. Log 7. -/
def srcAdvance (k : Nat) (s : State) : State :=
  if s.cur.srcPos.toNat + k < 2 ^ 32 then
    s.setCur { s.cur with srcPos := BitVec.ofNat 32 (s.cur.srcPos.toNat + k) }
  else
    (s.setCur { s.cur with srcPos := Config.freeCursor s.free.tick }).setFree { s.free with tick := s.free.tick + 1 }

/-- `SrcRead8()` (R65). Where its precondition `SrcAvail() >= 1` does not hold the byte is a free value. Log 6. -/
def srcRead8 (s : State) : Run Byte :=
  if 1 ≤ srcAvail s then .ok (srcByte s s.cur.srcPos.toNat) (srcAdvance 1 s)
  else .ok (Config.freeByte s.free.tick) (srcAdvance 1 (s.setFree { s.free with tick := s.free.tick + 1 }))

/-- `SrcPeek8(k)` (R66), precondition `SrcAvail() >= k + 1`. -/
def srcPeek8 (k : Nat) (s : State) : Byte := srcByte s (s.cur.srcPos.toNat + k)

/-- The `n` bytes at the cursor, by `SrcPeek8` (R66). -/
def srcPeekList (n : Nat) (s : State) : List Byte := (List.range n).map fun i => srcPeek8 i s

/-- `SrcRead16()` (R67): low byte first. -/
def srcRead16 (s : State) : Run Half :=
  (srcRead8 s).bind fun lo s => (srcRead8 s).bind fun hi s => .ok (hi ++ lo) s

/-- `SrcSkip(k)` (R68). Log 8. -/
def srcSkip (k : Nat) (s : State) : State := srcAdvance k s

/-- `SnkWrite8(v)` (R69). -/
def snkWrite8 (v : Byte) (s : State) : Run Unit :=
  if s.cur.snkCap.toNat ≤ s.cur.snkPos.toNat then .raise .insufficientSpace s
  else
    .ok () ((s.setSnk (cellPut s.snk s.cur.snkPos.toNat v)).setCur
      { s.cur with snkPos := BitVec.ofNat 32 (s.cur.snkPos.toNat + 1) })

/-- `SnkWrite16(v)` (R70): low byte first. -/
def snkWrite16 (v : Half) (s : State) : Run Unit :=
  (snkWrite8 (v.extractLsb' 0 8) s).bind fun _ s => snkWrite8 (v.extractLsb' 8 8) s

/-- `SnkWrite8` of each byte in turn. -/
def snkWriteList : List Byte → State → Run Unit
  | [], s => .ok () s
  | b :: bs, s => (snkWrite8 b s).bind fun _ s => snkWriteList bs s

/-- The all-or-nothing check of R143, R221 and R240: `n` bytes fit at `SNK_POS`, the sum taken without wrap. -/
def snkFits (n : Nat) (s : State) : Bool := s.cur.snkPos.toNat + n ≤ s.cur.snkCap.toNat

/-! ### Fault entry, its acknowledgement, and running a command -/

/-- Fault entry (R290): nothing is saved elsewhere, `RES0` to `RES3` keep their values. -/
def faultEntry (k : FaultKind) (op : BitVec 8) (s : State) : State := s.setStatus (faultFlags k op s.status)

/-- The acknowledgement of a fault (R271, R292): it restores nothing and resumes nothing. -/
def ackFault (s : State) : State := s.setStatus (ackFlags s.status)

/-- The end of a command's body (R273): `DONE`, or fault entry with the opcode of the command; then `BUSY <- 0`. -/
def endCommand (op : BitVec 8) (r : Run Unit) : State :=
  match r with
  | .ok _ s => s.setStatus (completeFlags s.status)
  | .raise k s =>
    let t := faultEntry k op s
    t.setStatus (idleFlags t.status)

/-- Dispatch of a legal command other than `CLR_FAULT` and `SOFT_RESET` (R273): ignored while `FAULT = 1` (R294). -/
def runCommand (i : Instr) (body : State → Run Unit) (s : State) : Host.Outcome State Fault Refusal :=
  if s.status.fault then .next s
  else .next (endCommand (opcodeOf i) (body (s.setStatus (beginFlags s.status))))

/-- Dispatch of an illegal command word (R93, R273): `IllegalCommand` with `ERR_CMD <- CMD[7:0]`; ignored while `FAULT = 1`. -/
def illegalWord (w : Word) (s : State) : Host.Outcome State Fault Refusal :=
  if s.status.fault then .next s
  else .next (endCommand (splitWord w).opcode (.raise .illegalCommand (s.setStatus (beginFlags s.status))))

/-- Write one result register and complete. -/
def finish1 (v0 : Nat) (s : State) : Run Unit := .ok () (s.setRes { s.res with res0 := BitVec.ofNat 32 v0 })

/-- Write `RES0` and `RES1` and complete. -/
def finish2 (v0 v1 : Nat) (s : State) : Run Unit :=
  .ok () (s.setRes { s.res with res0 := BitVec.ofNat 32 v0, res1 := BitVec.ofNat 32 v1 })

end Sys2Proof.Machine
end

