-- ==== Sys2Proof/Machine/Framer.lean ====
section
/-! DEFINITION. The sub-block framer and its commands (spec/44_subblock_framer.md). -/

namespace Sys2Proof.Machine

/-- `SB_WBUF[i]`; an index not listed holds 0 (R32, R321). -/
def wbufAt (f : Framer) (i : Nat) : Byte := (cellGet f.wbuf i).getD 0

/-- The buffered bytes, `SB_WBUF[0 .. SB_WCNT - 1]`. -/
def wbufBytes (f : Framer) : List Byte := (List.range f.wcnt.toNat).map (wbufAt f)

/-- `FramerEmit()` (R221): the block, length byte first, all of it or none of it. -/
def framerEmit (s : State) : Run Unit :=
  if snkFits (1 + s.sb.wcnt.toNat) s = false then .raise .insufficientSpace s
  else (snkWriteList (s.sb.wcnt :: wbufBytes s.sb) s).bind fun _ s => .ok () (s.setSb { s.sb with wcnt := 0 })

/-- `FramerEmit()` if the buffer is full (R222). -/
def framerEmitIfFull (s : State) : Run Unit := if s.sb.wcnt = 255 then framerEmit s else .ok () s

/-- `SB_WBUF[SB_WCNT] <- b` and `SB_WCNT <- SB_WCNT + 1` (R222). -/
def framerBuffer (b : Byte) (s : State) : State :=
  s.setSb { s.sb with wbuf := cellSet 0 s.sb.wbuf s.sb.wcnt.toNat b, wcnt := s.sb.wcnt + 1 }

/-- `FramerPut(b)` (R222). -/
def framerPut (b : Byte) (s : State) : Run Unit :=
  (framerEmitIfFull s).bind fun _ s => framerEmitIfFull (framerBuffer b s)

/-- `FramerOpen()` (R224). -/
def framerOpen (s : State) : State := s.setSb { s.sb with wcnt := 0 }

/-- `FramerClose()` (R223). -/
def framerClose (s : State) : Run Unit :=
  (if s.sb.wcnt = 0 then .ok () s else framerEmit s).bind fun _ s => snkWrite8 0 s

/-- `FramerROpen()` (R228). -/
def framerROpen (s : State) : State := s.setSb { s.sb with rrem := 0, rend := false }

/-- The data byte of a block that has one left (R227, last lines). -/
def framerTake (s : State) : Run (Option Byte) :=
  (srcRead8 s).bind fun b s => .ok (some b) (s.setSb { s.sb with rrem := s.sb.rrem - 1 })

/-- The length byte of the next block (R227, R230): `TruncatedStream` if none is left, or if it claims more bytes than remain. It
leaves `SB_RREM` the length, or `SB_REND = 1` for a zero. -/
def framerLength (s : State) : Run Unit :=
  if srcAvail s = 0 then .raise .truncatedStream s
  else
    (srcRead8 s).bind fun n s =>
      if n = 0 then .ok () (s.setSb { s.sb with rend := true })
      else if srcAvail s < n.toNat then .raise .truncatedStream s
      else .ok () (s.setSb { s.sb with rrem := n })

/-- `FramerGet()` (R227): the next data byte, or `none` for `END`. -/
def framerGet (s : State) : Run (Option Byte) :=
  if s.sb.rend then .ok none s
  else if s.sb.rrem = 0 then
    (framerLength s).bind fun _ s => if s.sb.rend then .ok none s else framerTake s
  else framerTake s

/-- `SrcSkip(SB_RREM) ; SB_RREM <- 0` (R230). -/
def framerSkipBlock (s : State) : State :=
  let t := srcSkip s.sb.rrem.toNat s
  t.setSb { t.sb with rrem := 0 }

/-- The loop of `FramerSkip()` (R230), at most `n` times round. -/
def framerSkipLoop : Nat → State → Run Unit
  | 0, s => if s.sb.rend then .ok () s else .raise .truncatedStream s
  | n + 1, s =>
    if s.sb.rend then .ok () s
    else (framerLength (framerSkipBlock s)).bind fun _ s => framerSkipLoop n s

/-- `FramerSkip()` (R230). Each round consumes a byte of `SRC` after the first skip, so the bound is never what ends the loop
(log 11). -/
def framerSkip (s : State) : Run Unit := framerSkipLoop (srcAvail (framerSkipBlock s) + 1) s

/-! ### The commands -/

def sbOpenBody (s : State) : Run Unit := .ok () (framerOpen s)

/-- `SB_OPEN` (R224). -/
def execSbOpen (s : State) : Host.Outcome State Fault Refusal := runCommand .sbOpen sbOpenBody s

def sbPutBody (s : State) : Run Unit :=
  if sbPutOperandsOk s.args = false then .raise .illegalCommand s else framerPut (byteOperand s.args.arg0) s

/-- `SB_PUT` (R225). -/
def execSbPut (s : State) : Host.Outcome State Fault Refusal := runCommand .sbPut sbPutBody s

def sbCloseBody (s : State) : Run Unit := framerClose s

/-- `SB_CLOSE` (R226). -/
def execSbClose (s : State) : Host.Outcome State Fault Refusal := runCommand .sbClose sbCloseBody s

def sbRopenBody (s : State) : Run Unit := .ok () (framerROpen s)

/-- `SB_ROPEN` (R228). -/
def execSbRopen (s : State) : Host.Outcome State Fault Refusal := runCommand .sbRopen sbRopenBody s

def sbGetBody (s : State) : Run Unit :=
  (framerGet s).bind fun r s =>
    match r with
    | none => finish2 0 1 s
    | some b => finish2 b.toNat 0 s

/-- `SB_GET` (R229). -/
def execSbGet (s : State) : Host.Outcome State Fault Refusal := runCommand .sbGet sbGetBody s

def sbSkipBody (s : State) : Run Unit := framerSkip s

/-- `SB_SKIP` (R231). -/
def execSbSkip (s : State) : Host.Outcome State Fault Refusal := runCommand .sbSkip sbSkipBody s

end Sys2Proof.Machine
end

