-- ==== Sys2Proof/Machine/BitPacker.lean ====
section
/-! DEFINITION. The bit packer and unpacker and their commands (spec/43_bitpacker.md). -/

namespace Sys2Proof.Machine

/-- `PutByte(b, mode)` (R208). -/
def putByte (b : Byte) (mode : Mode) (s : State) : Run Unit :=
  match mode with
  | .framed => framerPut b s
  | .raw => snkWrite8 b s

/-- `GetByte(mode)` (R208). -/
def getByte (mode : Mode) (s : State) : Run Byte :=
  match mode with
  | .framed =>
    (framerGet s).bind fun r s =>
      match r with
      | none => .raise .corruptStream s
      | some b => .ok b s
  | .raw => if srcAvail s = 0 then .raise .truncatedStream s else srcRead8 s

/-- The state with the low byte of `BP_WACC` taken out (R201). -/
def packShift (s : State) : State := s.setBp { s.bp with wacc := s.bp.wacc >>> 8, wcnt := s.bp.wcnt - 8 }

/-- `n` rounds of `PackDrain` (R201). The byte is handed on after the accumulator has shifted, so a fault loses it. -/
def packDrainLoop (mode : Mode) : Nat → State → Run Unit
  | 0, s => .ok () s
  | n + 1, s =>
    (putByte (s.bp.wacc.setWidth 8) mode (packShift s)).bind fun _ s => packDrainLoop mode n s

/-- `PackDrain(mode)` (R201): as many rounds as `BP_WCNT` holds whole bytes. -/
def packDrain (mode : Mode) (s : State) : Run Unit := packDrainLoop mode (s.bp.wcnt.toNat / 8) s

/-- The merge of a code (R201): `BP_WACC | (c << BP_WCNT)`, `BP_WCNT + w`. -/
def packMerge (c w : Nat) (s : State) : State :=
  s.setBp { s.bp with
    wacc := s.bp.wacc ||| (BitVec.ofNat 19 c <<< s.bp.wcnt.toNat)
    wcnt := s.bp.wcnt + BitVec.ofNat 5 w }

/-- `PackBits(c, w, mode)` (R201). -/
def packBits (c w : Nat) (mode : Mode) (s : State) : Run Unit :=
  (packDrain mode s).bind fun _ s => packDrain mode (packMerge c w s)

/-- `PackFlush(mode)` (R204). -/
def packFlush (mode : Mode) (s : State) : Run Unit :=
  (packDrain mode s).bind fun _ s =>
    if s.bp.wcnt = 0 then .ok () s
    else putByte (s.bp.wacc.setWidth 8) mode (s.setBp { s.bp with wacc := 0, wcnt := 0 })

/-- The merge of a fetched byte (R205): `BP_RACC | (b << BP_RCNT)`, `BP_RCNT + 8`. -/
def unpackMerge (b : Byte) (s : State) : State :=
  s.setBp { s.bp with racc := s.bp.racc ||| (b.setWidth 19 <<< s.bp.rcnt.toNat), rcnt := s.bp.rcnt + 8 }

/-- The fetch loop of `UnpackBits` (R205), at most `n` rounds. -/
def unpackFill (w : Nat) (mode : Mode) : Nat → State → Run Unit
  | 0, s => .ok () s
  | n + 1, s =>
    if s.bp.rcnt.toNat < w then
      (getByte mode s).bind fun b s => unpackFill w mode n (unpackMerge b s)
    else .ok () s

/-- `UnpackBits(w, mode)` (R205), for `1 <= w <= 12`: two fetches give 16 bits, which is enough for any such `w`. -/
def unpackBits (w : Nat) (mode : Mode) (s : State) : Run Nat :=
  (unpackFill w mode 2 s).bind fun _ s =>
    .ok (s.bp.racc.toNat % 2 ^ w)
      (s.setBp { s.bp with racc := s.bp.racc >>> w, rcnt := s.bp.rcnt - BitVec.ofNat 5 w })

/-! ### The commands -/

def bpInitBody (s : State) : Run Unit := .ok () (s.setBp ⟨0, 0, 0, 0⟩)

/-- `BP_INIT` (R202). -/
def execBpInit (s : State) : Host.Outcome State Fault Refusal := runCommand .bpInit bpInitBody s

def bpPutBody (s : State) : Run Unit :=
  if bpPutOperandsOk s.args = false then .raise .illegalCommand s
  else packBits s.args.arg0.toNat s.args.arg1.toNat (modeOperand s.args.arg2) s

/-- `BP_PUT` (R203). -/
def execBpPut (s : State) : Host.Outcome State Fault Refusal := runCommand .bpPut bpPutBody s

def bpFlushBody (s : State) : Run Unit :=
  if bpFlushOperandsOk s.args = false then .raise .illegalCommand s else packFlush (modeOperand s.args.arg2) s

/-- `BP_FLUSH` (R204). -/
def execBpFlush (s : State) : Host.Outcome State Fault Refusal := runCommand .bpFlush bpFlushBody s

def bpGetBody (s : State) : Run Unit :=
  if bpGetOperandsOk s.args = false then .raise .illegalCommand s
  else (unpackBits s.args.arg1.toNat (modeOperand s.args.arg2) s).bind finish1

/-- `BP_GET` (R206). -/
def execBpGet (s : State) : Host.Outcome State Fault Refusal := runCommand .bpGet bpGetBody s

end Sys2Proof.Machine
end

