-- ==== Sys2Proof/Machine/Table.lean ====
section
/-! DEFINITION. The string table and its commands (spec/40_string_table.md). -/

namespace Sys2Proof.Machine

/-- The cleared entry (R29, R132). -/
def clearedEntry : Entry := ⟨0, Config.none, 0⟩

/-- `T[c]`; a code not listed holds the cleared entry (R29). -/
def entryAt (t : Table) (c : Nat) : Entry := (cellGet t c).getD clearedEntry

/-- `T[c] <- e`. -/
def setEntry (t : Table) (c : Nat) (e : Entry) : Table := cellSet clearedEntry t c e

/-- The entry of root code `c` (R132). -/
def rootEntry (c : Nat) : Entry := ⟨BitVec.ofNat 8 c, Config.none, BitVec.ofNat 8 c⟩

/-- The table with root codes `0 .. n - 1` and nothing else (R135). -/
def rootTable (n : Nat) : Table := ((List.range n).map fun c => (c, rootEntry c)).filter fun x => x.2 ≠ clearedEntry

/-- `Valid(c)` (R133), for any unsigned `c`. -/
def validCode (t : StringTable) (c : Nat) : Bool :=
  c < t.nextFree.toNat && c ≠ t.resetCode.toNat && c ≠ t.endCode.toNat

/-- `String(c)` (R134), following at most `n` entries. -/
def stringFuel (t : Table) : Nat → Nat → List Byte
  | 0, _ => []
  | n + 1, c =>
    let e := entryAt t c
    if e.prev = Config.none then [e.char] else stringFuel t n e.prev.toNat ++ [e.char]

/-- `String(c)` (R134). Every `prev` is below its code (R139), so `c + 1` entries are enough. Log 12. -/
def stringOf (t : Table) (c : Nat) : List Byte := stringFuel t (c + 1) c

/-- `Find(seq)` (R141): the smallest valid code whose string is `seq`. -/
def findCode (t : StringTable) (seq : List Byte) : Option Nat :=
  (List.range t.nextFree.toNat).find? fun c => validCode t c && stringOf t.table c == seq

/-- The table state after a reset with a legal `rootBits` (R135). -/
def resetTable (rb : Nat) : StringTable where
  table := rootTable (2 ^ (rb - 1))
  rootBits := BitVec.ofNat 4 rb
  codeBits := BitVec.ofNat 4 rb
  nextFree := BitVec.ofNat 13 (2 ^ (rb - 1) + 2)
  resetCode := BitVec.ofNat 12 (2 ^ (rb - 1))
  endCode := BitVec.ofNat 12 (2 ^ (rb - 1) + 1)

/-- `TableReset(rb)` (R135). -/
def tableReset (rb : Nat) (s : State) : Run Unit :=
  if rb < Config.minRootBits then .raise .invalidFormat s
  else if Config.maxRootBits < rb then .raise .tableTooLarge s
  else .ok () (s.setSt (resetTable rb))

/-- `Widen(fw)` (R137). -/
def widen (fw : Bool) (t : StringTable) : StringTable :=
  let thr := if fw then 2 ^ t.codeBits.toNat else 2 ^ t.codeBits.toNat - 1
  if thr < t.nextFree.toNat ∧ t.codeBits.toNat < Config.maxCodeBits then
    { t with codeBits := BitVec.ofNat 4 (t.codeBits.toNat + 1) }
  else t

/-- The table state after an add that is allowed (R136, R137). -/
def addEntry (base : Nat) (b : Byte) (fw : Bool) (t : StringTable) : StringTable :=
  widen fw
    { t with
      table := setEntry t.table t.nextFree.toNat ⟨b, BitVec.ofNat 16 base, (entryAt t.table base).first⟩
      nextFree := BitVec.ofNat 13 (t.nextFree.toNat + 1) }

/-- `TableAdd(base, byte, fw)` (R136): the base is tested before the capacity (R289). -/
def tableAdd (base : Nat) (b : Byte) (fw : Bool) (s : State) : Run Nat :=
  if validCode s.st base = false then .raise .corruptStream s
  else if Config.maxCodes ≤ s.st.nextFree.toNat then .raise .corruptStream s
  else .ok s.st.nextFree.toNat (s.setSt (addEntry base b fw s.st))

/-- `TableWrite(c)` (R143): all of the string or none of it. -/
def tableWrite (c : Nat) (s : State) : Run Nat :=
  if validCode s.st c = false then .raise .corruptStream s
  else
    let str := stringOf s.st.table c
    if snkFits str.length s = false then .raise .insufficientSpace s
    else (snkWriteList str s).bind fun _ s => .ok str.length s

/-! ### The commands -/

def stResetBody (s : State) : Run Unit := tableReset s.args.arg0.toNat s

/-- `ST_RESET` (R135). -/
def execStReset (s : State) : Host.Outcome State Fault Refusal := runCommand .stReset stResetBody s

def stAddBody (s : State) : Run Unit :=
  if stAddOperandsOk s.args = false then .raise .illegalCommand s
  else (tableAdd s.args.arg0.toNat (byteOperand s.args.arg1) (flagOperand s.args.arg2) s).bind finish1

/-- `ST_ADD` (R136). -/
def execStAdd (s : State) : Host.Outcome State Fault Refusal := runCommand .stAdd stAddBody s

/-- A found code, or `NONE` (R141). -/
def foundValue (r : Option Nat) : Nat := r.getD Config.none.toNat

def stFindBody (s : State) : Run Unit :=
  if srcAvail s < s.args.arg0.toNat then .raise .illegalCommand s
  else finish1 (foundValue (findCode s.st (srcPeekList s.args.arg0.toNat s))) s

/-- `ST_FIND` (R142). -/
def execStFind (s : State) : Host.Outcome State Fault Refusal := runCommand .stFind stFindBody s

def stWrstrBody (s : State) : Run Unit := (tableWrite s.args.arg0.toNat s).bind finish1

/-- `ST_WRSTR` (R143). -/
def execStWrstr (s : State) : Host.Outcome State Fault Refusal := runCommand .stWrstr stWrstrBody s

def stFirstBody (s : State) : Run Unit :=
  if Config.maxCodes ≤ s.args.arg0.toNat then .raise .corruptStream s
  else finish1 (entryAt s.st.table s.args.arg0.toNat).first.toNat s

/-- `ST_FIRST` (R144). -/
def execStFirst (s : State) : Host.Outcome State Fault Refusal := runCommand .stFirst stFirstBody s

def stUnusedBody (s : State) : Run Unit := finish1 (if validCode s.st s.args.arg0.toNat then 0 else 1) s

/-- `ST_UNUSED` (R145). -/
def execStUnused (s : State) : Host.Outcome State Fault Refusal := runCommand .stUnused stUnusedBody s

def stBaseBody (s : State) : Run Unit :=
  if Config.maxCodes ≤ s.args.arg0.toNat then .raise .corruptStream s
  else finish1 (entryAt s.st.table s.args.arg0.toNat).prev.toNat s

/-- `ST_BASE` (R146). -/
def execStBase (s : State) : Host.Outcome State Fault Refusal := runCommand .stBase stBaseBody s

end Sys2Proof.Machine
end

