-- ==== Sys2Proof/Machine/Compressor.lean ====
section
/-! DEFINITION. The compressor and the size estimate (spec/41_compressor.md). The pseudocode of R161 is written once, with what
`PutCode` does to an accumulator as a parameter: `LZW_COMPRESS` packs the code, `LZW_ESTIMATE` counts its bits (R167). -/

namespace Sys2Proof.Machine

/-- What `PutCode(c)` does: from a code, an accumulator and a state. -/
abbrev PutCode (α : Type) := Nat → α → State → Run α

/-- `PutCode(c)` of `LZW_COMPRESS` (R162): at the current width, through the packer into the framer. -/
def putPacked : PutCode Unit := fun c _ s => packBits c s.st.codeBits.toNat .framed s

/-- `PutCode(c)` of `LZW_ESTIMATE` (R167): add the current width to the bit count. -/
def putCounted : PutCode Nat := fun _ bits s => .ok (bits + s.st.codeBits.toNat) s

/-- Step 5 (R161, R164): a `ResetCode` and a table reset when the allocated-code count is 4095. -/
def capacityReset {α : Type} (put : PutCode α) (rb : Nat) (o : α) (s : State) : Run α :=
  if s.st.nextFree.toNat = Config.resetAt then
    (put s.st.resetCode.toNat o s).bind fun o s =>
      (tableReset rb (s.setLz { s.lz with resets := s.lz.resets + 1 })).bind fun _ s => .ok o s
  else .ok o s

/-- Steps 4 and 5 (R161): emit the matched prefix at the width before the add, register the extension, restart from `b`. -/
def emitAndRegister {α : Type} (put : PutCode α) (rb : Nat) (b : Byte) (o : α) (s : State) : Run α :=
  (put s.lz.cur.toNat o s).bind fun o s =>
    (tableAdd s.lz.cur.toNat b true s).bind fun _ s =>
      (capacityReset put rb o s).bind fun o s => .ok o (s.setLz { s.lz with cur := b.setWidth 16 })

/-- The loop of steps 3 to 5 (R161), one input byte a round: `n` bytes are left, `pfx` is the prefix buffer `PFX`. -/
def compressLoop {α : Type} (put : PutCode α) (rb : Nat) : Nat → List Byte → α → State → Run α
  | 0, _, o, s => .ok o s
  | n + 1, pfx, o, s =>
    (srcRead8 s).bind fun b s =>
      if s.st.resetCode.toNat ≤ b.toNat then .raise .corruptStream s
      else if s.lz.cur = Config.none then
        compressLoop put rb n [b] o (s.setLz { s.lz with cur := b.setWidth 16 })
      else
        match findCode s.st (pfx ++ [b]) with
        | some k => compressLoop put rb n (pfx ++ [b]) o (s.setLz { s.lz with cur := BitVec.ofNat 16 k })
        | none => (emitAndRegister put rb b o s).bind fun o s => compressLoop put rb n [b] o s

/-- The width rule at the end of input (R165). -/
def widenAtEnd (s : State) : State :=
  if 2 ^ s.st.codeBits.toNat < s.st.nextFree.toNat + 1 ∧ s.st.codeBits.toNat < Config.maxCodeBits then
    s.setSt { s.st with codeBits := BitVec.ofNat 4 (s.st.codeBits.toNat + 1) }
  else s

/-- Step 6 (R161): the code of what is left in the prefix buffer, then `EndCode`. -/
def compressTail {α : Type} (put : PutCode α) (o : α) (s : State) : Run α :=
  (if s.lz.cur = Config.none then .ok o s
    else (put s.lz.cur.toNat o s).bind fun o s => .ok o (widenAtEnd s)).bind fun o s =>
    put s.st.endCode.toNat o s

/-- Steps 2 to 6 (R161), from a table just reset. -/
def compressCodes {α : Type} (put : PutCode α) (rb : Nat) (o : α) (s : State) : Run α :=
  (put s.st.resetCode.toNat o (s.setLz { s.lz with cur := Config.none, resets := 0 })).bind fun o s =>
    (compressLoop put rb (srcAvail s) [] o (s.setLz { s.lz with resets := 1 })).bind fun o s => compressTail put o s

/-- Step 1 (R161): the code-size byte, the framer opened, the write accumulator cleared. -/
def compressOpen (rb : Nat) (s : State) : Run Unit :=
  (tableReset rb s).bind fun _ s =>
    (snkWrite8 (BitVec.ofNat 8 (rb - 1)) s).bind fun _ s =>
      let t := framerOpen s
      .ok () (t.setBp { t.bp with wacc := 0, wcnt := 0 })

/-- Step 7 (R161): flush and close. -/
def compressClose (s : State) : Run Unit := (packFlush .framed s).bind fun _ s => framerClose s

def lzwCompressBody (s0 : State) : Run Unit :=
  (compressOpen s0.args.arg0.toNat s0).bind fun _ s =>
    (compressCodes putPacked s0.args.arg0.toNat () s).bind fun _ s =>
      (compressClose s).bind fun _ s =>
        finish2 (s.cur.snkPos.toNat - s0.cur.snkPos.toNat) (s.cur.srcPos.toNat - s0.cur.srcPos.toNat) s

/-- `LZW_COMPRESS` (R161). -/
def execLzwCompress (s : State) : Host.Outcome State Fault Refusal := runCommand .lzwCompress lzwCompressBody s

/-- The bit count of `LZW_ESTIMATE`, computed on a private copy of the state (R167, R169). -/
def estimateBits (rb : Nat) (shadow : State) : Run Nat :=
  (tableReset rb shadow).bind fun _ s => compressCodes putCounted rb 0 s

/-- The byte count of a stream of `bits` code bits (R167, R168). -/
def estimateBytes (bits : Nat) : Nat :=
  let d := (bits + 7) / 8
  1 + d + (d + 254) / 255 + 1

/-- The four results of `LZW_ESTIMATE` (R167): two 64-bit numbers, low word first. -/
def estimateResults (bits : Nat) : ResRegs where
  res0 := BitVec.ofNat 32 bits
  res1 := BitVec.ofNat 32 (bits / 2 ^ 32)
  res2 := BitVec.ofNat 32 (estimateBytes bits)
  res3 := BitVec.ofNat 32 (estimateBytes bits / 2 ^ 32)

/-- The shadow is dropped whole: only its fault kind or its bit count comes back (R169). -/
def lzwEstimateBody (s : State) : Run Unit :=
  match estimateBits s.args.arg0.toNat s with
  | .ok bits _ => .ok () (s.setRes (estimateResults bits))
  | .raise k _ => .raise k s

/-- `LZW_ESTIMATE` (R167). -/
def execLzwEstimate (s : State) : Host.Outcome State Fault Refusal := runCommand .lzwEstimate lzwEstimateBody s

end Sys2Proof.Machine
end

