-- ==== Sys2Proof/Machine/Decompressor.lean ====
section
/-! DEFINITION. The decompressor (spec/42_decompressor.md). -/

namespace Sys2Proof.Machine

/-- The registration a data code causes (R181, R182): the ordinary add, the deferred add, or `CorruptStream`. -/
def decompressAdd (code : Nat) (s : State) : Run Unit :=
  if s.lz.prev = Config.none then
    if validCode s.st code then .ok () s else .raise .corruptStream s
  else if validCode s.st code then
    (tableAdd s.lz.prev.toNat (entryAt s.st.table code).first false s).bind fun _ s => .ok () s
  else if code = s.st.nextFree.toNat then
    (tableAdd s.lz.prev.toNat (entryAt s.st.table s.lz.prev.toNat).first false s).bind fun _ s => .ok () s
  else .raise .corruptStream s

/-- A `ResetCode` read (R181, R185). -/
def decompressReset (s : State) : Run Unit :=
  (tableReset s.st.rootBits.toNat s).bind fun _ s =>
    .ok () (s.setLz { s.lz with prev := Config.none, resets := s.lz.resets + 1 })

/-- A data code read (R181): register, write the string, remember the code. -/
def decompressData (code : Nat) (s : State) : Run Unit :=
  (decompressAdd code s).bind fun _ s =>
    (tableWrite code s).bind fun _ s => .ok () (s.setLz { s.lz with prev := BitVec.ofNat 16 code })

/-- The loop of step 2 (R181), at most `n` codes. `EndCode` and `ResetCode` are tested first (R289). -/
def decompressLoop : Nat → State → Run Unit
  | 0, s => .raise .truncatedStream s
  | n + 1, s =>
    (unpackBits s.st.codeBits.toNat .framed s).bind fun code s =>
      if code = s.st.endCode.toNat then .ok () s
      else if code = s.st.resetCode.toNat then (decompressReset s).bind fun _ s => decompressLoop n s
      else (decompressData code s).bind fun _ s => decompressLoop n s

/-- A bound on the codes of a run: each takes at least 3 of the 8 bits of a byte of `SRC` (R188). Log 11. -/
def decompressBound (s : State) : Nat := 8 * srcAvail s + 1

/-- `FramerDrain()` after its first two lines (R184): one more block, as far as it exists, and the chain ended. -/
def drainTail (s : State) : Run Unit :=
  (if srcAvail s = 0 then Run.ok () s
    else (srcRead8 s).bind fun n s => .ok () (srcSkip (min n.toNat (srcAvail s)) s)).bind fun _ s =>
    .ok () (s.setSb { s.sb with rend := true })

/-- `FramerDrain()` (R184). It raises nothing. -/
def framerDrain (s : State) : Run Unit := drainTail (framerSkipBlock s)

/-- Step 1 (R181): the code-size byte, the table reset, the read side of the packer and the framer cleared. -/
def decompressOpen (s : State) : Run Unit :=
  if srcAvail s = 0 then .raise .truncatedStream s
  else
    (srcRead8 s).bind fun cs s =>
      (tableReset (cs.toNat + 1) s).bind fun _ s =>
        let t := framerROpen (s.setBp { s.bp with racc := 0, rcnt := 0 })
        .ok () (t.setLz { t.lz with prev := Config.none, resets := 0 })

def lzwDecompressBody (s0 : State) : Run Unit :=
  (decompressOpen s0).bind fun _ s =>
    (decompressLoop (decompressBound s) s).bind fun _ s =>
      (framerDrain s).bind fun _ s =>
        finish2 (s.cur.snkPos.toNat - s0.cur.snkPos.toNat) (s.cur.srcPos.toNat - s0.cur.srcPos.toNat) s

/-- `LZW_DECOMPRESS` (R181). -/
def execLzwDecompress (s : State) : Host.Outcome State Fault Refusal := runCommand .lzwDecompress lzwDecompressBody s

end Sys2Proof.Machine
end

