-- ==== Sys2Proof/Machine/Header.lean ====
section
/-! DEFINITION. The header record commands (spec/45_header_records.md), over the layouts of spec/30_encoding.md R99 to R102. -/

namespace Sys2Proof.Machine

/-- The two bytes of a 16-bit field, low byte first (R71). -/
def halfBytes (v : Half) : List Byte := [v.extractLsb' 0 8, v.extractLsb' 8 8]

/-- The File Header of the field registers (R99). -/
def fileHeaderBytes (h : HeaderRegs) : List Byte :=
  Config.signature ++ halfBytes h.fhWidth ++ halfBytes h.fhHeight ++ [h.fhResolution, h.fhBackground, h.fhAspect]

/-- The Image Header of the field registers (R100). -/
def imageHeaderBytes (h : HeaderRegs) : List Byte :=
  halfBytes h.ihLeft ++ halfBytes h.ihTop ++ halfBytes h.ihWidth ++ halfBytes h.ihHeight ++ [h.ihFlags]

/-- The Graphics Control block of the field registers (R101). -/
def gcbBytes (h : HeaderRegs) : List Byte :=
  [Config.gcbBlockSize, h.gcFlags] ++ halfBytes h.gcDelay ++ [h.gcTransp, 0]

/-- Append a fixed-size record: all of it or none of it (R240). -/
def writeRecord (bytes : List Byte) (s : State) : Run Unit :=
  if snkFits bytes.length s = false then .raise .insufficientSpace s else snkWriteList bytes s

def hdrWrFileBody (s : State) : Run Unit := writeRecord (fileHeaderBytes s.hdr) s

/-- `HDR_WR_FILE` (R241). -/
def execHdrWrFile (s : State) : Host.Outcome State Fault Refusal := runCommand .hdrWrFile hdrWrFileBody s

/-- The loads of a File Header after its signature (R242). -/
def readFileFields (s : State) : Run Unit :=
  (srcRead16 s).bind fun width s =>
    (srcRead16 s).bind fun height s =>
      (srcRead8 s).bind fun resolution s =>
        (srcRead8 s).bind fun background s =>
          (srcRead8 s).bind fun aspect s =>
            .ok () (s.setHdr { s.hdr with
              fhWidth := width, fhHeight := height, fhResolution := resolution,
              fhBackground := background, fhAspect := aspect })

def hdrRdFileBody (s : State) : Run Unit :=
  if srcAvail s < Config.fileHeaderLen then .raise .invalidFormat s
  else if srcPeekList 6 s ≠ Config.signature then .raise .invalidFormat s
  else readFileFields (srcSkip 6 s)

/-- `HDR_RD_FILE` (R242): checked whole before anything is consumed (R240). -/
def execHdrRdFile (s : State) : Host.Outcome State Fault Refusal := runCommand .hdrRdFile hdrRdFileBody s

def hdrWrImageBody (s : State) : Run Unit := writeRecord (imageHeaderBytes s.hdr) s

/-- `HDR_WR_IMAGE` (R243). -/
def execHdrWrImage (s : State) : Host.Outcome State Fault Refusal := runCommand .hdrWrImage hdrWrImageBody s

def hdrRdImageBody (s : State) : Run Unit :=
  if srcAvail s < Config.imageHeaderLen then .raise .invalidFormat s
  else
    (srcRead16 s).bind fun left s =>
      (srcRead16 s).bind fun top s =>
        (srcRead16 s).bind fun width s =>
          (srcRead16 s).bind fun height s =>
            (srcRead8 s).bind fun flags s =>
              .ok () (s.setHdr { s.hdr with
                ihLeft := left, ihTop := top, ihWidth := width, ihHeight := height, ihFlags := flags })

/-- `HDR_RD_IMAGE` (R244). -/
def execHdrRdImage (s : State) : Host.Outcome State Fault Refusal := runCommand .hdrRdImage hdrRdImageBody s

def hdrWrGcbBody (s : State) : Run Unit := writeRecord (gcbBytes s.hdr) s

/-- `HDR_WR_GCB` (R245). -/
def execHdrWrGcb (s : State) : Host.Outcome State Fault Refusal := runCommand .hdrWrGcb hdrWrGcbBody s

/-- The loads of a Graphics Control block after its size byte, and the skip of its terminator (R246). -/
def readGcbFields (s : State) : Run Unit :=
  (srcRead8 s).bind fun flags s =>
    (srcRead16 s).bind fun delay s =>
      (srcRead8 s).bind fun transp s =>
        .ok () (srcSkip 1 (s.setHdr { s.hdr with gcFlags := flags, gcDelay := delay, gcTransp := transp }))

def hdrRdGcbBody (s : State) : Run Unit :=
  if srcAvail s < Config.gcbLen then .raise .invalidFormat s
  else if srcPeek8 0 s ≠ Config.gcbBlockSize then .raise .invalidFormat s
  else if srcPeek8 5 s ≠ 0 then .raise .invalidFormat s
  else readGcbFields (srcSkip 1 s)

/-- `HDR_RD_GCB` (R246): length, block size and terminator are checked before anything is consumed (R240, R289). -/
def execHdrRdGcb (s : State) : Host.Outcome State Fault Refusal := runCommand .hdrRdGcb hdrRdGcbBody s

/-- `n` rounds of `FramerPut(SrcRead8())` (R247). -/
def commentPutLoop : Nat → State → Run Unit
  | 0, s => .ok () s
  | n + 1, s => (srcRead8 s).bind fun b s => (framerPut b s).bind fun _ s => commentPutLoop n s

def hdrWrCommentBody (s : State) : Run Unit :=
  (commentPutLoop (srcAvail s) (framerOpen s)).bind fun _ t =>
    (framerClose t).bind fun _ t => finish1 (srcAvail s) t

/-- `HDR_WR_COMMENT` (R247): the text is the rest of `SRC`. -/
def execHdrWrComment (s : State) : Host.Outcome State Fault Refusal := runCommand .hdrWrComment hdrWrCommentBody s

/-- The loop of R248, at most `n` rounds; `count` bytes have been written. -/
def commentGetLoop : Nat → Nat → State → Run Nat
  | 0, _, s => .raise .truncatedStream s
  | n + 1, count, s =>
    (framerGet s).bind fun r s =>
      match r with
      | none => .ok count s
      | some b => (snkWrite8 b s).bind fun _ s => commentGetLoop n (count + 1) s

def hdrRdCommentBody (s : State) : Run Unit :=
  (commentGetLoop (srcAvail s + 1) 0 (framerROpen s)).bind finish1

/-- `HDR_RD_COMMENT` (R248). Each round consumes a byte of `SRC` or ends, so the bound is never what ends the loop. Log 11. -/
def execHdrRdComment (s : State) : Host.Outcome State Fault Refusal := runCommand .hdrRdComment hdrRdCommentBody s

end Sys2Proof.Machine
end

