-- ==== Sys2Proof/Machine/System.lean ====
section
/-! DEFINITION. The system commands (spec/46_system_commands.md R270 to R272) and the two resets (spec/70_reset_and_hazards.md
R320 to R322). -/

namespace Sys2Proof.Machine

def nopBody (s : State) : Run Unit := .ok () s

/-- `NOP` (R270). -/
def execNop (s : State) : Host.Outcome State Fault Refusal := runCommand .nop nopBody s

def clrFaultBody (s : State) : Run Unit := .ok () (ackFault s)

/-- `CLR_FAULT` (R271, R273): with `FAULT = 1` it acknowledges the fault and `DONE` stays 0; with `FAULT = 0` it completes like
any command. -/
def execClrFault (s : State) : Host.Outcome State Fault Refusal :=
  if s.status.fault then .next (ackFault s) else runCommand .clrFault clrFaultBody s

/-- Every register, table entry and buffer byte at its power-on value, `SRC` and `SNK` kept (R272, R322). -/
def softReset (s : State) : State :=
  { State.reset with src := s.src, snk := s.snk, host := s.host, free := s.free }

/-- `SOFT_RESET` (R272, R273): accepted whatever `FAULT` is; leaves `STATUS = 0`. -/
def execSoftReset (s : State) : Host.Outcome State Fault Refusal := .next (softReset s)

/-- Power-on reset, the reset input (R320, R321): as `SOFT_RESET`, and the contents of `SRC` and `SNK` unspecified anew. Log 5. -/
def powerOn (s : State) : State :=
  { State.reset with host := s.host, free := { s.free with powerOns := s.free.powerOns + 1 } }

end Sys2Proof.Machine
end

