-- ==== Sys2Proof/Machine/Dispatch.lean ====
section
/-! DEFINITION. One arm per command (spec/30_encoding.md R92). -/

namespace Sys2Proof.Machine

def exec (i : Instr) (s : State) : Host.Outcome State Fault Refusal :=
  match i with
  | .nop => Sys2Proof.Machine.execNop s
  | .stReset => Sys2Proof.Machine.execStReset s
  | .stAdd => Sys2Proof.Machine.execStAdd s
  | .stFind => Sys2Proof.Machine.execStFind s
  | .stWrstr => Sys2Proof.Machine.execStWrstr s
  | .stFirst => Sys2Proof.Machine.execStFirst s
  | .stUnused => Sys2Proof.Machine.execStUnused s
  | .stBase => Sys2Proof.Machine.execStBase s
  | .lzwCompress => Sys2Proof.Machine.execLzwCompress s
  | .lzwEstimate => Sys2Proof.Machine.execLzwEstimate s
  | .lzwDecompress => Sys2Proof.Machine.execLzwDecompress s
  | .bpInit => Sys2Proof.Machine.execBpInit s
  | .bpPut => Sys2Proof.Machine.execBpPut s
  | .bpFlush => Sys2Proof.Machine.execBpFlush s
  | .bpGet => Sys2Proof.Machine.execBpGet s
  | .sbOpen => Sys2Proof.Machine.execSbOpen s
  | .sbPut => Sys2Proof.Machine.execSbPut s
  | .sbClose => Sys2Proof.Machine.execSbClose s
  | .sbRopen => Sys2Proof.Machine.execSbRopen s
  | .sbGet => Sys2Proof.Machine.execSbGet s
  | .sbSkip => Sys2Proof.Machine.execSbSkip s
  | .hdrWrFile => Sys2Proof.Machine.execHdrWrFile s
  | .hdrRdFile => Sys2Proof.Machine.execHdrRdFile s
  | .hdrWrImage => Sys2Proof.Machine.execHdrWrImage s
  | .hdrRdImage => Sys2Proof.Machine.execHdrRdImage s
  | .hdrWrGcb => Sys2Proof.Machine.execHdrWrGcb s
  | .hdrRdGcb => Sys2Proof.Machine.execHdrRdGcb s
  | .hdrWrComment => Sys2Proof.Machine.execHdrWrComment s
  | .hdrRdComment => Sys2Proof.Machine.execHdrRdComment s
  | .clrFault => Sys2Proof.Machine.execClrFault s
  | .softReset => Sys2Proof.Machine.execSoftReset s

end Sys2Proof.Machine
end

