-- ==== Sys2Proof/Machine/HostPort.lean ====
section
/-! DEFINITION. The host interface (spec/46_system_commands.md R273, R274; spec/10_state.md R22, R37). -/

namespace Sys2Proof.Machine

/-- The register of a number (R37); 30, 31 and 45 upward are unassigned. -/
def regOfNumber (n : Nat) : Option HostReg :=
  match n with
  | 0 => some .cmd
  | 1 => some .status
  | 2 => some .err
  | 3 => some .errCmd
  | 4 => some .arg0
  | 5 => some .arg1
  | 6 => some .arg2
  | 7 => some .res0
  | 8 => some .res1
  | 9 => some .res2
  | 10 => some .res3
  | 11 => some .srcLen
  | 12 => some .srcPos
  | 13 => some .snkCap
  | 14 => some .snkPos
  | 15 => some .stRootBits
  | 16 => some .stCodeBits
  | 17 => some .stNextFree
  | 18 => some .stResetCode
  | 19 => some .stEndCode
  | 20 => some .bpWacc
  | 21 => some .bpWcnt
  | 22 => some .bpRacc
  | 23 => some .bpRcnt
  | 24 => some .sbWcnt
  | 25 => some .sbRrem
  | 26 => some .sbRend
  | 27 => some .lzCur
  | 28 => some .lzPrev
  | 29 => some .lzResets
  | 32 => some .fhWidth
  | 33 => some .fhHeight
  | 34 => some .fhResolution
  | 35 => some .fhBackground
  | 36 => some .fhAspect
  | 37 => some .ihLeft
  | 38 => some .ihTop
  | 39 => some .ihWidth
  | 40 => some .ihHeight
  | 41 => some .ihFlags
  | 42 => some .gcFlags
  | 43 => some .gcDelay
  | 44 => some .gcTransp
  | _ => none

/-- The value a register reads as, zero-extended to 32 bits (R274); `CMD` reads 0 (R23). -/
def regValue (r : HostReg) (s : State) : Word :=
  match r with
  | .cmd => 0
  | .status => statusWord s.status
  | .err => s.status.err.setWidth 32
  | .errCmd => s.status.errCmd.setWidth 32
  | .arg0 => s.args.arg0
  | .arg1 => s.args.arg1
  | .arg2 => s.args.arg2
  | .res0 => s.res.res0
  | .res1 => s.res.res1
  | .res2 => s.res.res2
  | .res3 => s.res.res3
  | .srcLen => s.cur.srcLen
  | .srcPos => s.cur.srcPos
  | .snkCap => s.cur.snkCap
  | .snkPos => s.cur.snkPos
  | .stRootBits => s.st.rootBits.setWidth 32
  | .stCodeBits => s.st.codeBits.setWidth 32
  | .stNextFree => s.st.nextFree.setWidth 32
  | .stResetCode => s.st.resetCode.setWidth 32
  | .stEndCode => s.st.endCode.setWidth 32
  | .bpWacc => s.bp.wacc.setWidth 32
  | .bpWcnt => s.bp.wcnt.setWidth 32
  | .bpRacc => s.bp.racc.setWidth 32
  | .bpRcnt => s.bp.rcnt.setWidth 32
  | .sbWcnt => s.sb.wcnt.setWidth 32
  | .sbRrem => s.sb.rrem.setWidth 32
  | .sbRend => if s.sb.rend then 1 else 0
  | .lzCur => s.lz.cur.setWidth 32
  | .lzPrev => s.lz.prev.setWidth 32
  | .lzResets => s.lz.resets
  | .fhWidth => s.hdr.fhWidth.setWidth 32
  | .fhHeight => s.hdr.fhHeight.setWidth 32
  | .fhResolution => s.hdr.fhResolution.setWidth 32
  | .fhBackground => s.hdr.fhBackground.setWidth 32
  | .fhAspect => s.hdr.fhAspect.setWidth 32
  | .ihLeft => s.hdr.ihLeft.setWidth 32
  | .ihTop => s.hdr.ihTop.setWidth 32
  | .ihWidth => s.hdr.ihWidth.setWidth 32
  | .ihHeight => s.hdr.ihHeight.setWidth 32
  | .ihFlags => s.hdr.ihFlags.setWidth 32
  | .gcFlags => s.hdr.gcFlags.setWidth 32
  | .gcDelay => s.hdr.gcDelay.setWidth 32
  | .gcTransp => s.hdr.gcTransp.setWidth 32

/-- A write of a host-writable register keeps the low bits and discards the rest; a write of any other register is ignored
(R22, R37). A write of `CMD` is a dispatch and is not performed here. -/
def setReg (r : HostReg) (v : Word) (s : State) : State :=
  match r with
  | .arg0 => s.setArgs { s.args with arg0 := v }
  | .arg1 => s.setArgs { s.args with arg1 := v }
  | .arg2 => s.setArgs { s.args with arg2 := v }
  | .srcLen => s.setCur { s.cur with srcLen := v }
  | .srcPos => s.setCur { s.cur with srcPos := v }
  | .snkCap => s.setCur { s.cur with snkCap := v }
  | .snkPos => s.setCur { s.cur with snkPos := v }
  | .fhWidth => s.setHdr { s.hdr with fhWidth := v.setWidth 16 }
  | .fhHeight => s.setHdr { s.hdr with fhHeight := v.setWidth 16 }
  | .fhResolution => s.setHdr { s.hdr with fhResolution := v.setWidth 8 }
  | .fhBackground => s.setHdr { s.hdr with fhBackground := v.setWidth 8 }
  | .fhAspect => s.setHdr { s.hdr with fhAspect := v.setWidth 8 }
  | .ihLeft => s.setHdr { s.hdr with ihLeft := v.setWidth 16 }
  | .ihTop => s.setHdr { s.hdr with ihTop := v.setWidth 16 }
  | .ihWidth => s.setHdr { s.hdr with ihWidth := v.setWidth 16 }
  | .ihHeight => s.setHdr { s.hdr with ihHeight := v.setWidth 16 }
  | .ihFlags => s.setHdr { s.hdr with ihFlags := v.setWidth 8 }
  | .gcFlags => s.setHdr { s.hdr with gcFlags := v.setWidth 8 }
  | .gcDelay => s.setHdr { s.hdr with gcDelay := v.setWidth 16 }
  | .gcTransp => s.setHdr { s.hdr with gcTransp := v.setWidth 8 }
  | .cmd => s
  | .status => s
  | .err => s
  | .errCmd => s
  | .res0 => s
  | .res1 => s
  | .res2 => s
  | .res3 => s
  | .stRootBits => s
  | .stCodeBits => s
  | .stNextFree => s
  | .stResetCode => s
  | .stEndCode => s
  | .bpWacc => s
  | .bpWcnt => s
  | .bpRacc => s
  | .bpRcnt => s
  | .sbWcnt => s
  | .sbRrem => s
  | .sbRend => s
  | .lzCur => s
  | .lzPrev => s
  | .lzResets => s

/-- `HostRead(n)` (R274): 0 for an unassigned number. -/
def hostRead (n : Nat) (s : State) : Word :=
  match regOfNumber n with
  | some r => regValue r s
  | none => 0

/-- `HostWrite(n, v)` for `n` other than `CMD` (R274): an unassigned number is ignored. -/
def hostWrite (n : Nat) (v : Word) (s : State) : State :=
  match regOfNumber n with
  | some r => setReg r v s
  | none => s

/-- `Dispatch(W)` (R273): a word that decodes runs its command, any other is illegal (R93). -/
def dispatchWord (w : Word) (s : State) : Host.Outcome State Fault Refusal :=
  match decode w with
  | .ok i => exec i s
  | .error _ => illegalWord w s

/-- Hand a value to the host (log 13). -/
def giveHost (v : Word) (s : State) : State := s.setHost { s.host with data := v }

/-- Whether an action is allowed at this moment (R81, R326): while `BUSY = 1` only a read of `STATUS`, and the reset input, which
is no host access. Log 9. -/
def actionAllowed (a : HostAction) (s : State) : Bool :=
  !s.status.busy || a == .readReg 1 || a == .powerOn

/-- What an allowed action does (R274; log 5, log 10). -/
def performAction (a : HostAction) (s : State) : Host.Outcome State Fault Refusal :=
  match a with
  | .readReg n => .next (giveHost (hostRead n s) s)
  | .writeReg n v => if n = 0 then dispatchWord v s else .next (hostWrite n v s)
  | .storeSrc a b => .next (s.setSrc (cellPut s.src a.toNat b))
  | .storeSnk a b => .next (s.setSnk (cellPut s.snk a.toNat b))
  | .loadSnk a => .next (giveHost ((snkByte s a.toNat).setWidth 32) s)
  | .powerOn => .next (powerOn s)

/-- One action of the host. -/
def hostAction (a : HostAction) (s : State) : Host.Outcome State Fault Refusal :=
  if actionAllowed a s then performAction a s else .fault .hostAccessWhileBusy

/-- The state with its host queue replaced. -/
def withPending (q : List HostAction) (s : State) : State := s.setHost { s.host with pending := q }

/-- The host write of a command word of the opcode table, put first in the queue (log 2). -/
def withCommandWord (nbits w : Nat) (s : State) : State :=
  withPending (.writeReg 0 ((tableWord nbits w).getD 0) :: s.host.pending) s

/-- One step: the oldest pending action, or nothing while the host is idle (R298). -/
def hostStep (s : State) : Host.Outcome State Fault Refusal :=
  match s.host.pending with
  | [] => .next s
  | a :: q => hostAction a (withPending q s)

end Sys2Proof.Machine
end

