-- ==== Sys2Proof/Machine/Step.lean ====
section
/-! DEFINITION. The step of the machine (spec/46_system_commands.md R274: a step is one host action; log 1). -/

namespace Sys2Proof.Machine

/-- One step: the host's oldest pending action (R274); with none pending the block is idle and keeps all state (R298). -/
def step (s : State) : Host.Outcome State Fault Refusal := hostStep s

/-- `s` with the command word as the host's next action, so that the next step runs it (log 2). -/
def State.withFetchWord (s : State) (nbits w : Nat) : State := withCommandWord nbits w s

end Sys2Proof.Machine
end

