-- ==== Sys2Proof/Safety.lean ====
section
/-! DEFINITION. The terms in which claims about the machine are written: how a command ended, what it left unchanged, what it
appended to `SNK`, and the invariants of the state (spec/10_state.md R25, R30, R31, R32; spec/20_memory.md R62). -/

namespace Sys2Proof.Machine

/-! ### How a command ended -/

/-- No fault is pending, so a command other than `CLR_FAULT` and `SOFT_RESET` is not ignored (R294). -/
abbrev Ready (s : State) : Prop := s.status.fault = false

/-- The command completed (R273): `DONE = 1`, `BUSY = 0`, `FAULT = 0`, the error registers as they were. -/
abbrev Completed (s t : State) : Prop := t.status = ⟨false, false, true, s.status.err, s.status.errCmd⟩

/-- Command `i` ended in fault entry with kind `k` (R273, R290). -/
abbrev FaultedWith (k : FaultKind) (i : Instr) (t : State) : Prop := t.status = ⟨false, true, false, k.code, opcodeOf i⟩

/-! ### What a command left unchanged -/

/-- The groups of R20, the two memories apart, and the model's own two. -/
inductive Group where
  | status | args | res | cur | st | bp | sb | lz | hdr | src | snk | host | free
  deriving DecidableEq, Repr

/-- Group `g` is the same in both states; a memory, when every byte reads the same. -/
def SameGroup (s t : State) (g : Group) : Prop :=
  match g with
  | .status => t.status = s.status
  | .args => t.args = s.args
  | .res => t.res = s.res
  | .cur => t.cur = s.cur
  | .st => t.st = s.st
  | .bp => t.bp = s.bp
  | .sb => t.sb = s.sb
  | .lz => t.lz = s.lz
  | .hdr => t.hdr = s.hdr
  | .src => ∀ a, srcByte t a = srcByte s a
  | .snk => ∀ a, snkByte t a = snkByte s a
  | .host => t.host = s.host
  | .free => t.free = s.free

/-- Every group but those listed is the same in both states. -/
def SameBut (gs : List Group) (s t : State) : Prop := ∀ g, g ∉ gs → SameGroup s t g

/-- The bytes `bs` stand in `SNK` from the old `SNK_POS` on, and every other byte reads as before (R62). -/
def SnkAppends (s t : State) (bs : List Byte) : Prop :=
  (∀ i b, bs[i]? = some b → snkByte t (s.cur.snkPos.toNat + i) = b) ∧
    ∀ a, a < s.cur.snkPos.toNat ∨ s.cur.snkPos.toNat + bs.length ≤ a → snkByte t a = snkByte s a

/-- The cursors after `m` bytes were consumed and `n` were produced. -/
def cursorsAfter (m n : Nat) (c : Cursors) : Cursors :=
  { c with srcPos := BitVec.ofNat 32 (c.srcPos.toNat + m), snkPos := BitVec.ofNat 32 (c.snkPos.toNat + n) }

/-! ### Invariants -/

/-- Both memories are in canonical form. -/
abbrev MemInv (s : State) : Prop := Memory.wf s.src ∧ Memory.wf s.snk

/-- `STATUS`, `ERR` and `ERR_CMD` agree (R25, R26, R281): not busy between commands; a pending fault has a kind and no `DONE`;
without one both error registers are 0. -/
abbrev StatusInv (s : State) : Prop :=
  s.status.busy = false ∧
    (s.status.fault = true → s.status.done = false ∧ 1 ≤ s.status.err.toNat ∧ s.status.err.toNat ≤ 6) ∧
    (s.status.fault = false → s.status.err = 0 ∧ s.status.errCmd = 0)

/-- No table reset yet (R30 (e)): all five registers 0, every entry cleared. -/
abbrev TableUnset (t : StringTable) : Prop := t = ⟨[], 0, 0, 0, 0, 0⟩

/-- A table some reset set up (R30): the register ranges, the root codes, the dynamic codes, and nothing listed for a code that
is not valid. The width addresses every allocated code (R95). -/
abbrev TableSet (t : StringTable) : Prop :=
  (3 ≤ t.rootBits.toNat ∧ t.rootBits.toNat ≤ t.codeBits.toNat ∧ t.codeBits.toNat ≤ 12) ∧
  (t.resetCode.toNat = 2 ^ (t.rootBits.toNat - 1) ∧ t.endCode.toNat = t.resetCode.toNat + 1) ∧
  (t.endCode.toNat + 1 ≤ t.nextFree.toNat ∧ t.nextFree.toNat ≤ 4096 ∧ t.nextFree.toNat ≤ 2 ^ t.codeBits.toNat) ∧
  (∀ c < t.resetCode.toNat, entryAt t.table c = rootEntry c) ∧
  (∀ c < t.nextFree.toNat, t.endCode.toNat < c →
    (entryAt t.table c).prev.toNat < c ∧ validCode t (entryAt t.table c).prev.toNat = true ∧
      (entryAt t.table c).first = (entryAt t.table (entryAt t.table c).prev.toNat).first) ∧
  (∀ x ∈ t.table, validCode t x.1 = true)

/-- The string table (R29, R30): canonical form, and either never reset or set up. -/
abbrev TableInv (s : State) : Prop :=
  cellsCanonical clearedEntry 4096 s.st.table ∧ (TableUnset s.st ∨ TableSet s.st)

/-- The accumulators (R31): the counts are at most 11 between commands and no bit at or above the count is set. -/
abbrev PackInv (s : State) : Prop :=
  (s.bp.wcnt.toNat ≤ 11 ∧ s.bp.wacc.toNat < 2 ^ s.bp.wcnt.toNat) ∧
    (s.bp.rcnt.toNat ≤ 11 ∧ s.bp.racc.toNat < 2 ^ s.bp.rcnt.toNat)

/-- `SB_WBUF` (R32): 255 bytes, in canonical form. -/
abbrev BufferInv (s : State) : Prop := cellsCanonical (0 : Byte) 255 s.sb.wbuf

/-- A good state: every invariant together. -/
abbrev Inv (s : State) : Prop := MemInv s ∧ StatusInv s ∧ TableInv s ∧ PackInv s ∧ BufferInv s

end Sys2Proof.Machine
end

