-- ==== Sys2Proof/Claims.lean ====
section
/-! DEFINITION. The functions the statements of Certificates/Slice0/Obligations.lean use to say what the rules say, written from
the rules and not from the machine's loops: the opcode map as a list, packed bytes, framed bytes, chains in `SRC`, the records. -/

namespace Sys2Proof.Claims

open Sys2Proof.Machine

/-! ### The opcode map and the register map -/

/-- The rows of R92: each command and the one word that encodes it. -/
def opcodeMap : List (Instr × Word) :=
  [(.nop, 0x00), (.stReset, 0x01), (.stAdd, 0x02), (.stFind, 0x03), (.stWrstr, 0x04), (.stFirst, 0x05),
    (.stUnused, 0x06), (.stBase, 0x07)] ++
  [(.lzwCompress, 0x10), (.lzwEstimate, 0x11), (.lzwDecompress, 0x12)] ++
  [(.bpInit, 0x20), (.bpPut, 0x21), (.bpFlush, 0x22), (.bpGet, 0x23)] ++
  [(.sbOpen, 0x30), (.sbPut, 0x31), (.sbClose, 0x32), (.sbRopen, 0x33), (.sbGet, 0x34), (.sbSkip, 0x35)] ++
  [(.hdrWrFile, 0x40), (.hdrRdFile, 0x41), (.hdrWrImage, 0x42), (.hdrRdImage, 0x43), (.hdrWrGcb, 0x44),
    (.hdrRdGcb, 0x45), (.hdrWrComment, 0x46), (.hdrRdComment, 0x47)] ++
  [(.clrFault, 0xF0), (.softReset, 0xFF)]

/-- The host-writable registers of R37 other than `CMD`: number and width. -/
def writableRegs : List (Nat × Nat) :=
  [(4, 32), (5, 32), (6, 32), (11, 32), (12, 32), (13, 32), (14, 32)] ++
  [(32, 16), (33, 16), (34, 8), (35, 8), (36, 8)] ++
  [(37, 16), (38, 16), (39, 16), (40, 16), (41, 8), (42, 8), (43, 16), (44, 8)]

/-! ### What each command may change -/

/-- The groups a command's rule lets it write (every rule of `40` to `46`, read for its assignments; `SRC` is in none: R61).
`free` is listed where a read's precondition can be broken (R329), and for the run and comment commands, whose reads share it. -/
def mayWrite (i : Instr) : List Group :=
  match i with
  | .nop | .clrFault => [.status]
  | .stReset => [.status, .st]
  | .stAdd => [.status, .res, .st]
  | .stFind | .stFirst | .stUnused | .stBase | .lzwEstimate => [.status, .res]
  | .stWrstr => [.status, .res, .cur, .snk]
  | .lzwCompress | .lzwDecompress => [.status, .res, .cur, .st, .bp, .sb, .lz, .snk, .free]
  | .bpInit => [.status, .bp]
  | .bpPut | .bpFlush => [.status, .bp, .sb, .cur, .snk]
  | .bpGet => [.status, .res, .bp, .sb, .cur, .free]
  | .sbOpen | .sbRopen => [.status, .sb]
  | .sbPut | .sbClose => [.status, .sb, .cur, .snk]
  | .sbGet => [.status, .res, .sb, .cur, .free]
  | .sbSkip => [.status, .sb, .cur, .free]
  | .hdrWrFile | .hdrWrImage | .hdrWrGcb => [.status, .cur, .snk]
  | .hdrRdFile | .hdrRdImage | .hdrRdGcb => [.status, .cur, .hdr, .free]
  | .hdrWrComment | .hdrRdComment => [.status, .res, .cur, .sb, .snk, .free]
  | .softReset => [.status, .args, .res, .cur, .st, .bp, .sb, .lz, .hdr]

/-- The operand checks of R287, on the registers' unsigned values. -/
def operandsIllegal (i : Instr) (s : State) : Prop :=
  match i with
  | .stAdd => 255 < s.args.arg1.toNat ∨ 1 < s.args.arg2.toNat
  | .stFind => srcAvail s < s.args.arg0.toNat
  | .bpPut =>
    s.args.arg1.toNat < 1 ∨ 12 < s.args.arg1.toNat ∨ 1 < s.args.arg2.toNat ∨
      2 ^ s.args.arg1.toNat ≤ s.args.arg0.toNat
  | .bpFlush => 1 < s.args.arg2.toNat
  | .bpGet => s.args.arg1.toNat < 1 ∨ 12 < s.args.arg1.toNat ∨ 1 < s.args.arg2.toNat
  | .sbPut => 255 < s.args.arg0.toNat
  | _ => False

/-! ### Bytes -/

/-- The input that is left: `SRC[SRC_POS .. SRC_LEN - 1]`. -/
def inputBytes (s : State) : List Byte := (List.range (srcAvail s)).map fun i => srcByte s (s.cur.srcPos.toNat + i)

/-- The `n` bytes of `SRC` from address `p` on. -/
def srcBytes (s : State) (p n : Nat) : List Byte := (List.range n).map fun i => srcByte s (p + i)

/-- Bytes as one number, the first the least significant (R71). -/
def leValue : List Byte → Nat
  | [] => 0
  | b :: bs => b.toNat + 256 * leValue bs

/-- The first `k` bytes of the bit string `v`, least significant first (R96). -/
def lowBytes (v k : Nat) : List Byte := (List.range k).map fun i => BitVec.ofNat 8 (v / 256 ^ i)

/-- `n` more bytes fit in `SNK`; no byte needs room, wherever `SNK_POS` stands (R69, R329). -/
abbrev Room (s : State) (n : Nat) : Prop := n = 0 ∨ s.cur.snkPos.toNat + n ≤ s.cur.snkCap.toNat

/-- How many bytes fit: none where the host set `SNK_CAP` below `SNK_POS` (R329). -/
def roomLeft (s : State) : Nat := s.cur.snkCap.toNat - s.cur.snkPos.toNat

/-- `SRC_POS` at address `p`. -/
def srcAt (p : Nat) (c : Cursors) : Cursors := { c with srcPos := BitVec.ofNat 32 p }

/-! ### Framing -/

/-- The writer's pending block and its output so far, after one more data byte (R222): a block left full by a faulted emission
goes out first, and a block that reaches 255 bytes goes out at once, length byte first (R221). -/
def framePush (st : List Byte × List Byte) (b : Byte) : List Byte × List Byte :=
  let out := if st.2.length = 255 then st.1 ++ 255 :: st.2 else st.1
  let p := if st.2.length = 255 then [b] else st.2 ++ [b]
  if p.length = 255 then (out ++ 255 :: p, []) else (out, p)

/-- What goes to `SNK` and what stays pending when the bytes `bs` are put behind the pending block `p`. -/
def frameBytes (p bs : List Byte) : List Byte × List Byte := bs.foldl framePush ([], p)

/-- What closing the chain writes with the block `p` pending (R223). -/
def closeBytes (p : List Byte) : List Byte := if p = [] then [0] else BitVec.ofNat 8 p.length :: p ++ [0]

/-- The chain of the data bytes `bs` (R97). -/
def chainBytes (bs : List Byte) : List Byte := (frameBytes [] bs).1 ++ closeBytes (frameBytes [] bs).2

/-- In room for `room` bytes, the number of the data byte, counted from 1, that fills the first block of 255 that does not fit
(R221): each block before it takes 256 bytes. -/
def frameLimit (room : Nat) : Nat := 255 * (room / 256 + 1)

/-- What a chain in progress has put in `SNK` and what is pending, after the data bytes `bs`, in room for `room` bytes: all of `bs` is
taken, or the byte that fills a block with no room for it is the last one taken, and that block stays pending (R222). -/
def frameInto (room : Nat) (bs : List Byte) : List Byte × List Byte :=
  if bs.length < frameLimit room then frameBytes [] bs
  else
    ((frameBytes [] (bs.take (frameLimit room - 1))).1, (bs.take (frameLimit room)).drop (frameLimit room - 255))

/-- The same with the chain closed after `bs` (R223): all of it, or the last block kept for want of room, or only the terminator
left out. -/
def chainInto (room : Nat) (bs : List Byte) : List Byte × List Byte :=
  let (out, p) := frameInto room bs
  if frameLimit room ≤ bs.length ∨ room + 1 < out.length + (closeBytes p).length then (out, p)
  else ((out ++ closeBytes p).take room, [])

/-- At address `p` of `SRC` stand sub-blocks of the lengths `ns`, each 1..255, and then the zero length byte (R97). -/
def blocksAt (s : State) : Nat → List Nat → Prop
  | p, [] => srcByte s p = 0
  | p, n :: ns => (srcByte s p).toNat = n ∧ n ≠ 0 ∧ blocksAt s (p + 1 + n) ns

/-- The address just past that chain. -/
def blocksEnd (p : Nat) (ns : List Nat) : Nat := p + ns.sum + ns.length + 1

/-- The data bytes of that chain. -/
def blocksData (s : State) : Nat → List Nat → List Byte
  | _, [] => []
  | p, n :: ns => srcBytes s (p + 1) n ++ blocksData s (p + 1 + n) ns

/-- At address `p` of `SRC` stand whole sub-blocks of the lengths `ns`, each 1..255, with no word on what follows them (R97). -/
def blocksFrom (s : State) : Nat → List Nat → Prop
  | _, [] => True
  | p, n :: ns => (srcByte s p).toNat = n ∧ n ≠ 0 ∧ blocksFrom s (p + 1 + n) ns

/-- The address just past these sub-blocks. -/
def blocksPast (p : Nat) (ns : List Nat) : Nat := p + ns.sum + ns.length

/-- How reading data bytes of a chain comes to an end (R227): all were there; the zero length byte was met; a length byte was
missing or claimed more than remains; a byte of a block was missing, which R227's check rules out unless the host moved a cursor
(R329; log 6). -/
inductive ChainStop where
  | got | ended | truncated | past
  deriving DecidableEq, Repr

/-- The data bytes read, where the cursor then stands, how much of the block is left, and how it ended. -/
structure ChainRead where
  bytes : List Byte
  pos : Nat
  rem : Nat
  stop : ChainStop
  deriving DecidableEq, Repr

/-- Reading `k` data bytes of the chain at address `p` of `SRC` with `r` bytes left in the block there (R227). -/
def chainRead (s : State) : Nat → Nat → Nat → ChainRead
  | 0, p, r => ⟨[], p, r, .got⟩
  | k + 1, p, r + 1 =>
    if s.cur.srcLen.toNat ≤ p then ⟨[], p, r + 1, .past⟩
    else
      let x := chainRead s k (p + 1) r
      { x with bytes := srcByte s p :: x.bytes }
  | k + 1, p, 0 =>
    if s.cur.srcLen.toNat ≤ p then ⟨[], p, 0, .truncated⟩
    else if srcByte s p = 0 then ⟨[], p + 1, 0, .ended⟩
    else if s.cur.srcLen.toNat < p + 1 + (srcByte s p).toNat then ⟨[], p + 1, 0, .truncated⟩
    else
      let x := chainRead s k (p + 2) ((srcByte s p).toNat - 1)
      { x with bytes := srcByte s (p + 1) :: x.bytes }

/-- The host has copied the `n` bytes of `t`'s `SNK` from address `p` on to where `u` reads next (R105, `SRC <= SNK`). -/
abbrev HostCopied (t : State) (p n : Nat) (u : State) : Prop :=
  n ≤ srcAvail u ∧ ∀ i < n, srcByte u (u.cur.srcPos.toNat + i) = snkByte t (p + i)

/-! ### Records -/

/-- The low byte of a 16-bit field. -/
def lo (v : Half) : Byte := v.setWidth 8

/-- The high byte of a 16-bit field. -/
def hi (v : Half) : Byte := (v >>> 8).setWidth 8

/-- R99. -/
def fileRecord (h : HeaderRegs) : List Byte :=
  [0x47, 0x49, 0x46, 0x38, 0x39, 0x61, lo h.fhWidth, hi h.fhWidth, lo h.fhHeight, hi h.fhHeight, h.fhResolution,
    h.fhBackground, h.fhAspect]

/-- R100. -/
def imageRecord (h : HeaderRegs) : List Byte :=
  [lo h.ihLeft, hi h.ihLeft, lo h.ihTop, hi h.ihTop, lo h.ihWidth, hi h.ihWidth, lo h.ihHeight, hi h.ihHeight,
    h.ihFlags]

/-- R101. -/
def gcbRecord (h : HeaderRegs) : List Byte := [4, h.gcFlags, lo h.gcDelay, hi h.gcDelay, h.gcTransp, 0]

/-- The 16-bit little-endian field of `SRC` at address `p` (R71). -/
def srcHalf (s : State) (p : Nat) : Half := srcByte s (p + 1) ++ srcByte s p

/-! ### The packer -/

/-- The write accumulator with the code `c` merged behind its bits, as one number (R201). -/
def merged (s : State) (c : Nat) : Nat := s.bp.wacc.toNat + c * 2 ^ s.bp.wcnt.toNat

/-- The accumulator after a put of `c` in `w` bits whose byte number `j` was not taken (R201): that byte is shifted out already. The
code is not merged yet if it was a byte an earlier fault had left behind. -/
def putLost (s : State) (c w j : Nat) : Packer :=
  if j = 0 ∧ 8 ≤ s.bp.wcnt.toNat then
    { s.bp with wacc := BitVec.ofNat 19 (s.bp.wacc.toNat / 256), wcnt := BitVec.ofNat 5 (s.bp.wcnt.toNat - 8) }
  else
    { s.bp with
      wacc := BitVec.ofNat 19 (merged s c / 256 ^ (j + 1))
      wcnt := BitVec.ofNat 5 (s.bp.wcnt.toNat + w - 8 * (j + 1)) }

/-- The accumulator after a flush whose byte number `j` was not taken (R204): a whole byte is shifted out, the padded last byte has
emptied it. -/
def flushLost (s : State) (j : Nat) : Packer :=
  if j = 0 ∧ 8 ≤ s.bp.wcnt.toNat then
    { s.bp with wacc := BitVec.ofNat 19 (s.bp.wacc.toNat / 256), wcnt := BitVec.ofNat 5 (s.bp.wcnt.toNat - 8) }
  else { s.bp with wacc := 0, wcnt := 0 }

/-- `bs` handed to the framer would make it emit a block that does not fit: the block it holds is full already, or fills (R222). -/
abbrev FramerFull (s : State) (bs : List Byte) : Prop :=
  bs ≠ [] ∧ 255 ≤ s.sb.wcnt.toNat + bs.length ∧ s.cur.snkCap.toNat < s.cur.snkPos.toNat + 256

/-- The number of the byte at which that happens. -/
def fullAt (s : State) : Nat := 254 - s.sb.wcnt.toNat

/-- What is pending then (R222): a full block as it was, the byte lost; or the block just filled, that byte in it. -/
def fullBlock (s : State) (bs : List Byte) : List Byte :=
  if s.sb.wcnt.toNat = 255 then wbufBytes s.sb else wbufBytes s.sb ++ bs.take (fullAt s + 1)

/-- How many bytes a get of width `w` fetches (R205). -/
def fetches (s : State) (w : Nat) : Nat := (w - s.bp.rcnt.toNat + 7) / 8

/-- The read accumulator with the bytes `bs` fetched behind its bits, as one number (R205). -/
def fetched (s : State) (bs : List Byte) : Nat := s.bp.racc.toNat + leValue bs * 2 ^ s.bp.rcnt.toNat

/-- The unpacker's registers after a code of width `w` is taken from the number `v` made of `n` bits (R205). -/
def afterGet (bp : Packer) (v n w : Nat) : Packer :=
  { bp with racc := BitVec.ofNat 19 (v / 2 ^ w), rcnt := BitVec.ofNat 5 (n - w) }

/-- Raw packing of a list of codes with their widths, then a raw flush (R201, R204). -/
def packAll : List (Nat × Nat) → State → Run Unit
  | [], s => packFlush .raw s
  | (c, w) :: cs, s => (packBits c w .raw s).bind fun _ s => packAll cs s

/-- Raw unpacking of codes of the given widths (R205). -/
def unpackAll : List Nat → State → Run (List Nat)
  | [], s => .ok [] s
  | w :: ws, s => (unpackBits w .raw s).bind fun c s => (unpackAll ws s).bind fun cs s => .ok (c :: cs) s

/-- The bits of a list of codes with their widths. -/
def totalBits (cs : List (Nat × Nat)) : Nat := (cs.map Prod.snd).sum

/-! ### The run commands -/

/-- `rootBits` is legal (R7, R135). -/
abbrev LegalRootBits (rb : Nat) : Prop := 3 ≤ rb ∧ rb ≤ 12

/-- Every input byte left has a root code (R170). -/
abbrev InputInRange (s : State) (rb : Nat) : Prop := ∀ b ∈ inputBytes s, b.toNat < 2 ^ (rb - 1)

/-- The byte count `LZW_ESTIMATE` returned: `{RES3, RES2}` (R167). -/
def estimatedBytes (u : State) : Nat := u.res.res2.toNat + 2 ^ 32 * u.res.res3.toNat

/-! ### The strings of a table generation -/

/-- The strings of the dynamic codes, in code order, for a `rootBits`. -/
structure Strings where
  rootBits : Nat
  dict : List (List Byte)
  deriving DecidableEq, Repr

def Strings.resetCode (d : Strings) : Nat := 2 ^ (d.rootBits - 1)

def Strings.endCode (d : Strings) : Nat := d.resetCode + 1

/-- The allocated-code count, and the code allocated next. -/
def Strings.count (d : Strings) : Nat := d.resetCode + 2 + d.dict.length

/-- The string of a valid code (R132 to R134). -/
def Strings.string (d : Strings) (c : Nat) : Option (List Byte) :=
  if c < d.resetCode then some [BitVec.ofNat 8 c]
  else if c ≤ d.endCode then none
  else d.dict[c - (d.resetCode + 2)]?

/-- The smallest code with the string `x` (R141): a root code for one byte, else the first of the dynamic codes. -/
def Strings.code (d : Strings) (x : List Byte) : Option Nat :=
  match x with
  | [b] => if b.toNat < d.resetCode then some b.toNat else none
  | _ => (d.dict.idxOf? x).map (d.resetCode + 2 + ·)

/-- The table holds these codes and strings, at the width `w`. -/
def StringsHeld (t : StringTable) (d : Strings) (w : Nat) : Prop :=
  t.rootBits.toNat = d.rootBits ∧ t.codeBits.toNat = w ∧ t.nextFree.toNat = d.count ∧
    t.resetCode.toNat = d.resetCode ∧ t.endCode.toNat = d.endCode ∧
    ∀ c, d.string c = if validCode t c then some (stringOf t.table c) else none

/-! ### The writer of a code stream

What R161, R164 and R165 make of an input, written with the strings of the dynamic codes and the prefix buffer in place of the table
and `LZ_CUR` (R163), and with the width in closed form (R137 for the writer, R95) in place of the widening. -/

/-- Where coding stands. -/
structure Coding extends Strings where
  /-- The prefix buffer. -/
  pfx : List Byte
  resets : Nat
  /-- The bytes of the input read so far. -/
  read : Nat
  /-- The codes put so far, each with its width. -/
  codes : List (Nat × Nat)
  /-- 1 once the last data code is put: the width rule counts one code more (R165). -/
  ahead : Nat
  deriving DecidableEq, Repr

/-- Before the first code (R161). -/
def Coding.start (rb : Nat) : Coding := ⟨⟨rb, []⟩, [], 0, 0, [], 0⟩

/-- The writer's width: the least that holds every allocated code, at most 12 (R137). -/
def Coding.width (e : Coding) : Nat := min 12 (Nat.log2 (e.count + e.ahead - 1) + 1)

/-- `LZ_CUR` (R163): the code of the prefix buffer, `NONE` while it is empty. -/
def Coding.cur (e : Coding) : Nat := (e.code e.pfx).getD 0xFFFF

/-- Where coding stands, and the fault that ended it, if one did. -/
structure Coded where
  final : Coding
  fault : Option FaultKind
  deriving DecidableEq, Repr

/-- Go on unless a fault was raised (R14). -/
def Coded.bind (x : Coded) (f : Coding → Coded) : Coded := if x.fault = none then f x.final else x

/-- Put a code at the width of the moment (R162). `lim`, where there is one, is the number of the packed byte that fills a block with
no room for it. -/
def Coding.put (lim : Option Nat) (c : Nat) (e : Coding) : Coded :=
  let e := { e with codes := e.codes ++ [(c, e.width)] }
  ⟨e, if lim.any fun l => 8 * l ≤ totalBits e.codes then some .insufficientSpace else none⟩

/-- Steps 4 and 5: the code of the longest match, at the width before the add; its string and the byte that broke it registered; at
`MaxCodes - 1` a `ResetCode` and a fresh table (R164); the buffer restarted from the byte. -/
def Coding.emit (lim : Option Nat) (b : Byte) (e : Coding) : Coded :=
  (e.put lim e.cur).bind fun e =>
    let e := { e with dict := e.dict ++ [e.pfx ++ [b]] }
    let x := if e.count = 4095 then
        (e.put lim e.resetCode).bind fun e => ⟨{ e with dict := [], resets := e.resets + 1 }, none⟩
      else ⟨e, none⟩
    x.bind fun e => ⟨{ e with pfx := [b] }, none⟩

/-- One byte of the input, steps 3 to 5 (R161): no root code for it (R170); the first byte; the match goes on; it ends. -/
def Coding.take (lim : Option Nat) (b : Byte) (e : Coding) : Coded :=
  let e := { e with read := e.read + 1 }
  if e.resetCode ≤ b.toNat then ⟨e, some .corruptStream⟩
  else if e.pfx = [] ∨ (e.code (e.pfx ++ [b])).isSome then ⟨{ e with pfx := e.pfx ++ [b] }, none⟩
  else e.emit lim b

/-- Step 6: the code of what is left in the buffer, and `EndCode` (R161, R165). -/
def Coding.finish (lim : Option Nat) (e : Coding) : Coded :=
  (if e.pfx = [] then ⟨e, none⟩ else (e.put lim e.cur).bind fun e => ⟨{ e with ahead := 1 }, none⟩).bind fun e =>
    e.put lim e.endCode

/-- The codes of the bytes `x`, from where coding stands. -/
def encodeBytes (lim : Option Nat) : List Byte → Coding → Coded
  | [], e => e.finish lim
  | b :: x, e => (e.take lim b).bind (encodeBytes lim x)

/-- The codes `LZW_COMPRESS` makes of the input `x` (R161, steps 2 to 6). -/
def encodeInput (lim : Option Nat) (rb : Nat) (x : List Byte) : Coded :=
  ((Coding.start rb).put lim (2 ^ (rb - 1))).bind fun e => encodeBytes lim x { e with resets := 1 }

/-- Codes as one bit string, the first in the lowest bits (R96). -/
def codesValue : List (Nat × Nat) → Nat
  | [] => 0
  | (c, w) :: cs => c + 2 ^ w * codesValue cs

/-- The whole bytes of the codes put so far. -/
def wholeBytes (e : Coding) : List Byte := lowBytes (codesValue e.codes) (totalBits e.codes / 8)

/-- All bytes of the codes, the last one padded with zero bits (R204). -/
def paddedBytes (e : Coding) : List Byte := lowBytes (codesValue e.codes) ((totalBits e.codes + 7) / 8)

/-- The write accumulator with the bits of the codes behind the first `n` bytes (R201). -/
def heldBits (bp : Packer) (e : Coding) (n : Nat) : Packer :=
  { bp with
    wacc := BitVec.ofNat 19 (codesValue e.codes / 256 ^ n)
    wcnt := BitVec.ofNat 5 (totalBits e.codes - 8 * n) }

/-- What `LZW_COMPRESS` appends for the codes (R161): the code-size byte and the chain. -/
def streamBytes (e : Coding) : List Byte := BitVec.ofNat 8 (e.rootBits - 1) :: chainBytes (paddedBytes e)

/-! ### The reader of a code stream

What R181 and R182 make of a stream, written with the strings of the dynamic codes in place of the table and with the width in
closed form (R137 for the reader, R95) in place of the widening. -/

/-- Where decoding stands. -/
structure Decoding extends Strings where
  /-- The last data code since the last reset. -/
  prev : Option Nat
  resets : Nat
  out : List Byte
  /-- The bits of the stream taken as codes so far. -/
  used : Nat
  deriving DecidableEq, Repr

/-- At the start of a stream (R181). -/
def Decoding.start (rb : Nat) : Decoding := ⟨⟨rb, []⟩, none, 0, [], 0⟩

/-- The reader's width: the least that holds the allocated-code count itself, at most 12 (R137). -/
def Decoding.width (d : Decoding) : Nat := min 12 (Nat.log2 d.count + 1)

/-- A new dynamic code with the string `x`; none in a full table (R136, R187). -/
def Decoding.extend (d : Decoding) (x : List Byte) : Option Decoding :=
  if 4096 ≤ d.count then none else some { d with dict := d.dict ++ [x] }

/-- The registration a data code causes (R181, R182): none for the first code after a reset, the ordinary add, the deferred add; or no
result, which is `CorruptStream`. -/
def Decoding.register (d : Decoding) (code : Nat) : Option Decoding :=
  match d.prev.bind d.string, d.string code with
  | none, some _ => some d
  | none, none => none
  | some p, some x => d.extend (p ++ x.take 1)
  | some p, none => if code = d.count then d.extend (p ++ p.take 1) else none

/-- The output of a data code (R181): all of its string, or no result, which is `InsufficientSpace`. -/
def Decoding.emit (d : Decoding) (room code : Nat) : Option Decoding :=
  let out := d.out ++ (d.string code).getD []
  if room < out.length then none else some { d with out := out, prev := some code }

/-- A finished run: where decoding stood, the bytes read of the chain, and the fault, if any. -/
structure Decoded where
  final : Decoding
  read : ChainRead
  fault : Option FaultKind
  deriving DecidableEq, Repr

/-- The codes of the chain at address `p` of `SRC`, with room for `room` bytes of output, `n` codes at most (R181, R183). -/
def decodeCodes (s : State) (room p : Nat) : Nat → Decoding → Decoded
  | 0, d => ⟨d, chainRead s ((d.used + 7) / 8) p 0, some .truncatedStream⟩
  | n + 1, d =>
    let x := chainRead s ((d.used + d.width + 7) / 8) p 0
    match x.stop with
    | .ended => ⟨d, x, some .corruptStream⟩
    | .truncated => ⟨d, x, some .truncatedStream⟩
    | .past => ⟨d, x, some .truncatedStream⟩
    | .got =>
      let code := leValue x.bytes / 2 ^ d.used % 2 ^ d.width
      let d := { d with used := d.used + d.width }
      if code = d.endCode then ⟨d, x, none⟩
      else if code = d.resetCode then
        decodeCodes s room p n { d with dict := [], prev := none, resets := d.resets + 1 }
      else
        match d.register code with
        | none => ⟨d, x, some .corruptStream⟩
        | some e =>
          match e.emit room code with
          | none => ⟨e, x, some .insufficientSpace⟩
          | some f => decodeCodes s room p n f

/-- The table holds the codes and strings that decoding stands at. -/
def TableHolds (t : StringTable) (d : Decoding) : Prop := StringsHeld t d.toStrings d.width

/-- The read accumulator with the bits of the bytes read that no code has taken (R205). -/
def leftover (bp : Packer) (x : ChainRead) (used : Nat) : Packer :=
  { bp with racc := BitVec.ofNat 19 (leValue x.bytes / 2 ^ used), rcnt := BitVec.ofNat 5 (8 * x.bytes.length - used) }

/-- Where the drain leaves the cursor (R184), from the address `q` just past the block that held `EndCode`. -/
def drainedTo (s : State) (q : Nat) : Nat :=
  if s.cur.srcLen.toNat ≤ q then q
  else q + 1 + min (srcByte s q).toNat (s.cur.srcLen.toNat - (q + 1))

end Sys2Proof.Claims
end

