-- ==== Sys2Proof/Certificates/Slice0/Obligations.lean ====
section
/-! DEFINITION. The statements for the provers. Each says which rule of spec/ it formalises; one that rests on a choice of the
model names the log entry. -/

open Sys2Proof Sys2Proof.Machine Sys2Proof.Claims

/-! ### Encoding, dispatch, the host interface -/

/-- R92. Every command has exactly one word, the row of the opcode map, and the decoder accepts exactly these words. -/
def Obligations.OpcodeMapIsExact : Prop :=
  (∀ i w, (i, w) ∈ opcodeMap ↔ encode i = w) ∧ ∀ (w : Word) (i : Instr), decode w = .ok i ↔ (i, w) ∈ opcodeMap

/-- R90, R92. A few words, one of each family, written out from the table. -/
def Obligations.CommandWordsDecode : Prop :=
  decode 0x00000000 = .ok .nop ∧ decode 0x00000002 = .ok .stAdd ∧ decode 0x00000010 = .ok .lzwCompress ∧
  decode 0x00000012 = .ok .lzwDecompress ∧ decode 0x00000023 = .ok .bpGet ∧ decode 0x00000035 = .ok .sbSkip ∧
  decode 0x00000046 = .ok .hdrWrComment ∧ decode 0x000000F0 = .ok .clrFault ∧ decode 0x000000FF = .ok .softReset ∧
  decode 0x000001FF = .error (.zeroFieldSet 1) ∧ decode 0x00000008 = .error (.unassignedOpcode 8)

/-- R93. A word is illegal exactly when it is none of the 31; it raises `IllegalCommand` with `ERR_CMD <- CMD[7:0]` and changes
nothing else; while `FAULT = 1` it is ignored. -/
def Obligations.IllegalWordsFault : Prop :=
  (∀ w : Word, (splitWord w).wellFormed = false ↔ ∀ i, encode i ≠ w) ∧
  ∀ (w : Word) (s : State), (∀ i, encode i ≠ w) →
    (Ready s → dispatchWord w s = .next (s.setStatus ⟨false, true, false, 6, w.setWidth 8⟩)) ∧
    (¬ Ready s → dispatchWord w s = .next s)

/-- R23, R273. With a write of `CMD` as the oldest host action (log 1, log 2), a step is `exec` of the command the word decodes to,
on the state whose queue has lost that action and which is otherwise the same. -/
def Obligations.StepRunsDecodedCommand : Prop :=
  ∀ (s : State) (w : Word) (i : Instr) (q : List HostAction), s.status.busy = false → decode w = .ok i →
    (s.host.pending = .writeReg 0 w :: q → step s = exec i (s.setHost { s.host with pending := q })) ∧
    step (s.withFetchWord 32 w.toNat) = exec i s

/-- R274 and the model's host queue (log 1, log 5, log 10, log 13): what each action does when it is the oldest pending one, and
that an idle block keeps all state (R298). -/
def Obligations.StepPerformsHostActions : Prop :=
  ∀ (s : State) (q : List HostAction), s.status.busy = false →
    (s.host.pending = [] → step s = .next s) ∧
    (∀ n, s.host.pending = .readReg n :: q → step s = .next (s.setHost ⟨q, hostRead n s⟩)) ∧
    (∀ n v, n ≠ 0 → s.host.pending = .writeReg n v :: q →
      step s = .next (hostWrite n v (s.setHost { s.host with pending := q }))) ∧
    (∀ a b, s.host.pending = .storeSrc a b :: q → ∃ t, step s = .next t ∧ SameBut [.src, .host] s t ∧
      t.host = ⟨q, s.host.data⟩ ∧ ∀ x, srcByte t x = if x = a.toNat then b else srcByte s x) ∧
    (∀ a b, s.host.pending = .storeSnk a b :: q → ∃ t, step s = .next t ∧ SameBut [.snk, .host] s t ∧
      t.host = ⟨q, s.host.data⟩ ∧ ∀ x, snkByte t x = if x = a.toNat then b else snkByte s x) ∧
    (∀ a, s.host.pending = .loadSnk a :: q → step s = .next (s.setHost ⟨q, (snkByte s a.toNat).setWidth 32⟩)) ∧
    (s.host.pending = .powerOn :: q → ∃ t, step s = .next t ∧
      SameBut [.src, .snk, .host, .free] State.reset t ∧ t.host = ⟨q, s.host.data⟩ ∧
      t.free = ⟨s.free.tick, s.free.powerOns + 1⟩ ∧
      ∀ x, srcByte t x = Config.srcPowerOn (s.free.powerOns + 1) x ∧
        snkByte t x = Config.snkPowerOn (s.free.powerOns + 1) x)

/-- R37 (numbers and names), R25 (the `STATUS` word): what a host read of each number returns; 0 for an unassigned one. -/
def Obligations.RegistersReadByNumber : Prop :=
  ∀ s : State,
    (hostRead 0 s = 0 ∧
      (∀ k, (hostRead 1 s).getLsbD k =
        ((k = 0 && s.status.busy) || (k = 1 && s.status.fault) || (k = 2 && s.status.done))) ∧
      hostRead 2 s = s.status.err.setWidth 32 ∧ hostRead 3 s = s.status.errCmd.setWidth 32) ∧
    (hostRead 4 s = s.args.arg0 ∧ hostRead 5 s = s.args.arg1 ∧ hostRead 6 s = s.args.arg2) ∧
    (hostRead 7 s = s.res.res0 ∧ hostRead 8 s = s.res.res1 ∧ hostRead 9 s = s.res.res2 ∧ hostRead 10 s = s.res.res3) ∧
    (hostRead 11 s = s.cur.srcLen ∧ hostRead 12 s = s.cur.srcPos ∧ hostRead 13 s = s.cur.snkCap ∧
      hostRead 14 s = s.cur.snkPos) ∧
    (hostRead 15 s = s.st.rootBits.setWidth 32 ∧ hostRead 16 s = s.st.codeBits.setWidth 32 ∧
      hostRead 17 s = s.st.nextFree.setWidth 32 ∧ hostRead 18 s = s.st.resetCode.setWidth 32 ∧
      hostRead 19 s = s.st.endCode.setWidth 32) ∧
    (hostRead 20 s = s.bp.wacc.setWidth 32 ∧ hostRead 21 s = s.bp.wcnt.setWidth 32 ∧
      hostRead 22 s = s.bp.racc.setWidth 32 ∧ hostRead 23 s = s.bp.rcnt.setWidth 32) ∧
    (hostRead 24 s = s.sb.wcnt.setWidth 32 ∧ hostRead 25 s = s.sb.rrem.setWidth 32 ∧
      hostRead 26 s = (if s.sb.rend then 1 else 0)) ∧
    (hostRead 27 s = s.lz.cur.setWidth 32 ∧ hostRead 28 s = s.lz.prev.setWidth 32 ∧ hostRead 29 s = s.lz.resets) ∧
    (hostRead 32 s = s.hdr.fhWidth.setWidth 32 ∧ hostRead 33 s = s.hdr.fhHeight.setWidth 32 ∧
      hostRead 34 s = s.hdr.fhResolution.setWidth 32 ∧ hostRead 35 s = s.hdr.fhBackground.setWidth 32 ∧
      hostRead 36 s = s.hdr.fhAspect.setWidth 32) ∧
    (hostRead 37 s = s.hdr.ihLeft.setWidth 32 ∧ hostRead 38 s = s.hdr.ihTop.setWidth 32 ∧
      hostRead 39 s = s.hdr.ihWidth.setWidth 32 ∧ hostRead 40 s = s.hdr.ihHeight.setWidth 32 ∧
      hostRead 41 s = s.hdr.ihFlags.setWidth 32) ∧
    (hostRead 42 s = s.hdr.gcFlags.setWidth 32 ∧ hostRead 43 s = s.hdr.gcDelay.setWidth 32 ∧
      hostRead 44 s = s.hdr.gcTransp.setWidth 32) ∧
    ∀ n, n = 30 ∨ n = 31 ∨ 45 ≤ n → hostRead n s = 0

/-- R22. A host write keeps the low `width` bits, bits above the width read as zero, every other register reads as before; a write
of a number that is not host-writable (read-only or unassigned) is ignored. -/
def Obligations.HostWriteTruncates : Prop :=
  (∀ p ∈ writableRegs, ∀ (v : Word) (s : State), (hostRead p.1 (hostWrite p.1 v s)).toNat = v.toNat % 2 ^ p.2 ∧
    ∀ m, m ≠ p.1 → hostRead m (hostWrite p.1 v s) = hostRead m s) ∧
  ∀ n, n ≠ 0 → (∀ p ∈ writableRegs, p.1 ≠ n) → ∀ (v : Word) (s : State), hostWrite n v s = s

/-- R81, R326 as the model takes them (log 9): while `BUSY = 1` a host access other than a read of `STATUS` has no step. -/
def Obligations.BusyAccessStops : Prop :=
  ∀ (s : State) (a : HostAction) (q : List HostAction), s.status.busy = true → s.host.pending = a :: q →
    (a ≠ .readReg 1 → a ≠ .powerOn → step s = .fault .hostAccessWhileBusy) ∧
    (a = .readReg 1 → step s = .next (s.setHost ⟨q, hostRead 1 s⟩))

/-! ### Reset, faults, the system commands -/

/-- R321. The reset value of every register, table entry and buffer byte; no code is valid; `SOFT_RESET` gives the same and keeps
the memories. That the memories are unspecified at power-on is `ResetMeetsInvariants`. -/
def Obligations.ResetState : Prop :=
  State.reset.status = ⟨false, false, false, 0, 0⟩ ∧ State.reset.args = ⟨0, 0, 0⟩ ∧ State.reset.res = ⟨0, 0, 0, 0⟩ ∧
  State.reset.cur = ⟨0, 0, 0, 0⟩ ∧
  (State.reset.st.rootBits = 0 ∧ State.reset.st.codeBits = 0 ∧ State.reset.st.nextFree = 0 ∧
    State.reset.st.resetCode = 0 ∧ State.reset.st.endCode = 0) ∧
  (∀ c, entryAt State.reset.st.table c = ⟨0, 0xFFFF, 0⟩ ∧ validCode State.reset.st c = false) ∧
  State.reset.bp = ⟨0, 0, 0, 0⟩ ∧ (∀ i, wbufAt State.reset.sb i = 0) ∧
  (State.reset.sb.wcnt = 0 ∧ State.reset.sb.rrem = 0 ∧ State.reset.sb.rend = false) ∧
  State.reset.lz = ⟨0xFFFF, 0xFFFF, 0⟩ ∧ State.reset.hdr = ⟨0, 0, 0xFF, 0, 0, 0, 0, 0, 0, 0, 0, 0, 0⟩ ∧
  hostRead 0 State.reset = 0 ∧
  ∀ s, exec .softReset s = .next { State.reset with src := s.src, snk := s.snk, host := s.host, free := s.free }

/-- R30, R31 and the canonical forms hold at reset, and every byte of `SRC` and `SNK` is then a free value, the model's form of
"unspecified" (R321; log 3). -/
def Obligations.ResetMeetsInvariants : Prop :=
  Inv State.reset ∧
    ∀ a, srcByte State.reset a = Config.srcPowerOn 0 a ∧ snkByte State.reset a = Config.snkPowerOn 0 a

/-- R272, R322. `SOFT_RESET` is accepted with `FAULT = 1` and with `FAULT = 0`; it puts every register, table entry and buffer byte
at its power-on value and keeps the contents of `SRC` and `SNK`. -/
def Obligations.SoftResetCompletes : Prop :=
  ∀ s : State, ∃ t, exec .softReset s = .next t ∧ SameBut [.src, .snk, .host, .free] State.reset t ∧
    SameGroup s t .src ∧ SameGroup s t .snk ∧ t.host = s.host ∧ hostRead 1 t = 0 ∧ hostRead 17 t = 0 ∧
    hostRead 34 t = 0xFF ∧ hostRead 27 t = 0xFFFF

/-- R270. `NOP` sets `DONE` and changes nothing else; while `FAULT = 1` it is ignored. -/
def Obligations.NopCompletes : Prop :=
  ∀ s : State, (Ready s → exec .nop s = .next (s.setStatus ⟨false, false, true, s.status.err, s.status.errCmd⟩)) ∧
    (¬ Ready s → exec .nop s = .next s)

/-- R271. `CLR_FAULT` clears `FAULT`, `ERR` and `ERR_CMD` and changes nothing else; run with `FAULT = 1` it leaves `DONE` as it
was (0, in every state that keeps R25), run with `FAULT = 0` it sets `DONE`. -/
def Obligations.ClrFaultAcknowledges : Prop :=
  ∀ s : State,
    (¬ Ready s → exec .clrFault s = .next (s.setStatus ⟨s.status.busy, false, s.status.done, 0, 0⟩)) ∧
    (¬ Ready s → StatusInv s → s.status.done = false) ∧
    (Ready s → exec .clrFault s = .next (s.setStatus ⟨false, false, true, 0, 0⟩))

/-- R294. While `FAULT = 1` every word but `CLR_FAULT` and `SOFT_RESET` is ignored, illegal words too; register and memory access
works as always. -/
def Obligations.FaultedMachineIgnores : Prop :=
  ∀ s : State, ¬ Ready s → s.status.busy = false →
    (∀ w : Word, w ≠ 0x000000F0 → w ≠ 0x000000FF → hostAction (.writeReg 0 w) s = .next s) ∧
    (∀ n v, n ≠ 0 → hostAction (.writeReg n v) s = .next (hostWrite n v s)) ∧
    (∀ n, ∃ t, hostAction (.readReg n) s = .next t ∧ t.host.data = hostRead n s ∧ SameBut [.host] s t) ∧
    (∀ a b, ∃ t, hostAction (.storeSrc a b) s = .next t ∧ srcByte t a.toNat = b ∧ SameBut [.src] s t) ∧
    ∀ a, ∃ t, hostAction (.loadSnk a) s = .next t ∧ t.host.data = (snkByte s a.toNat).setWidth 32 ∧ SameBut [.host] s t

/-- R287 (operands), R289. An operand out of its command's range raises `IllegalCommand` before any other effect. -/
def Obligations.IllegalOperandsFault : Prop :=
  ∀ (i : Instr) (s : State), Ready s → operandsIllegal i s →
    exec i s = .next (s.setStatus ⟨false, true, false, 6, opcodeOf i⟩)

/-- R25, R273, R290. Every command but `SOFT_RESET`, issued with no fault pending, ends idle: either done, with no fault, or in
fault entry with one of the six kinds, the command's own opcode in `ERR_CMD`, and `RES0` to `RES3` as before. -/
def Obligations.CommandEndsDoneOrFaulted : Prop :=
  ∀ (i : Instr) (s : State), i ≠ .softReset → Ready s → ∃ t, exec i s = .next t ∧ t.status.busy = false ∧
    ((t.status.done = true ∧ t.status.fault = false ∧ (i ≠ .clrFault → Completed s t)) ∨
      ∃ k, FaultedWith k i t ∧ t.res = s.res)

/-- R21, R28, R31 to R36, R61. No command writes a group its rule does not name: operands and `SRC` are never written, the table
only by its own commands and the runs, the header registers only by the header reads. -/
def Obligations.CommandsChangeOnlyTheirGroups : Prop :=
  ∀ (i : Instr) (s t : State), exec i s = .next t → SameBut (mayWrite i) s t

/-- R62, R69, R76. Output is append-only: `SNK_POS` never moves back, no byte below the old `SNK_POS` or at or beyond the new one
changes, nothing moves past `SNK_CAP`, and the engine writes neither bound. -/
def Obligations.OutputIsAppendOnly : Prop :=
  ∀ (i : Instr) (s t : State), i ≠ .softReset → exec i s = .next t →
    s.cur.snkPos.toNat ≤ t.cur.snkPos.toNat ∧
    (∀ a, a < s.cur.snkPos.toNat ∨ t.cur.snkPos.toNat ≤ a → snkByte t a = snkByte s a) ∧
    (t.cur.snkPos = s.cur.snkPos ∨ t.cur.snkPos.toNat ≤ s.cur.snkCap.toNat) ∧
    t.cur.snkCap = s.cur.snkCap ∧ t.cur.srcLen = s.cur.srcLen

/-- The free values of a broken precondition (R65, R68, R329; log 6, log 7) are used by no command but `SB_GET`, `SB_SKIP` and
`BP_GET`, and by these only when the host left `SB_RREM` above the bytes that remain. -/
def Obligations.FreeValuesOnlyPastInput : Prop :=
  ∀ (i : Instr) (s t : State), exec i s = .next t →
    (i ≠ .sbGet ∧ i ≠ .sbSkip ∧ i ≠ .bpGet) ∨ s.sb.rrem.toNat ≤ srcAvail s → t.free = s.free

/-- R62, R77, R80. The engine never reads `SNK`: with other contents of `SNK` a command does the same to everything else, and the
bytes it appends are the same; every other byte of `SNK` keeps the contents it had. -/
def Obligations.OutputIsNeverRead : Prop :=
  ∀ (i : Instr) (s t : State) (m : Memory), exec i s = .next t →
    ∃ m', exec i (s.setSnk m) = .next (t.setSnk m') ∧
      ∀ a, snkByte (t.setSnk m') a =
        if s.cur.snkPos.toNat ≤ a ∧ a < t.cur.snkPos.toNat then snkByte t a else snkByte (s.setSnk m) a

/-- R76, R321. The engine reads no byte of `SRC` at or beyond `SRC_LEN`: other contents there change nothing. -/
def Obligations.InputBeyondLengthIsNeverRead : Prop :=
  ∀ (i : Instr) (s t : State) (m : Memory), (∀ a < s.cur.srcLen.toNat, srcByte (s.setSrc m) a = srcByte s a) →
    exec i s = .next t → exec i (s.setSrc m) = .next (t.setSrc m)

/-! ### The string table -/

/-- R135. `ST_RESET`: the registers and every entry of the table for a legal `rootBits`; the two faults, with nothing changed. -/
def Obligations.StResetBuildsRoots : Prop :=
  ∀ s : State, Ready s →
    (LegalRootBits s.args.arg0.toNat → ∃ t, exec .stReset s = .next t ∧ Completed s t ∧ SameBut [.status, .st] s t ∧
      t.st.rootBits.toNat = s.args.arg0.toNat ∧ t.st.codeBits.toNat = s.args.arg0.toNat ∧
      t.st.resetCode.toNat = 2 ^ (s.args.arg0.toNat - 1) ∧ t.st.endCode.toNat = 2 ^ (s.args.arg0.toNat - 1) + 1 ∧
      t.st.nextFree.toNat = 2 ^ (s.args.arg0.toNat - 1) + 2 ∧
      (∀ c < 2 ^ (s.args.arg0.toNat - 1),
        entryAt t.st.table c = ⟨BitVec.ofNat 8 c, 0xFFFF, BitVec.ofNat 8 c⟩) ∧
      ∀ c, 2 ^ (s.args.arg0.toNat - 1) ≤ c → entryAt t.st.table c = ⟨0, 0xFFFF, 0⟩) ∧
    (s.args.arg0.toNat < 3 → exec .stReset s = .next (s.setStatus ⟨false, true, false, 1, 1⟩)) ∧
    (12 < s.args.arg0.toNat → exec .stReset s = .next (s.setStatus ⟨false, true, false, 4, 1⟩))

/-- R136, R137. `ST_ADD`: the new entry, the count, the width rule, every other entry as before; `CorruptStream` for a base that is
not valid or a full table, `IllegalCommand` for an operand out of range, the table unchanged in all three cases. -/
def Obligations.StAddRegisters : Prop :=
  ∀ s : State, Ready s →
    (s.args.arg1.toNat ≤ 255 → s.args.arg2.toNat ≤ 1 →
      (validCode s.st s.args.arg0.toNat = true → s.st.nextFree.toNat < 4096 →
        ∃ t, exec .stAdd s = .next t ∧ Completed s t ∧ SameBut [.status, .res, .st] s t ∧
          t.res = { s.res with res0 := s.st.nextFree.setWidth 32 } ∧
          t.st.nextFree.toNat = s.st.nextFree.toNat + 1 ∧
          t.st.codeBits.toNat = s.st.codeBits.toNat +
            (if (if s.args.arg2 = 1 then 2 ^ s.st.codeBits.toNat else 2 ^ s.st.codeBits.toNat - 1) <
                s.st.nextFree.toNat + 1 ∧ s.st.codeBits.toNat < 12 then 1 else 0) ∧
          t.st.rootBits = s.st.rootBits ∧ t.st.resetCode = s.st.resetCode ∧ t.st.endCode = s.st.endCode ∧
          entryAt t.st.table s.st.nextFree.toNat =
            ⟨s.args.arg1.setWidth 8, s.args.arg0.setWidth 16, (entryAt s.st.table s.args.arg0.toNat).first⟩ ∧
          ∀ c, c ≠ s.st.nextFree.toNat → entryAt t.st.table c = entryAt s.st.table c) ∧
      (validCode s.st s.args.arg0.toNat = false ∨ 4096 ≤ s.st.nextFree.toNat →
        exec .stAdd s = .next (s.setStatus ⟨false, true, false, 2, 2⟩))) ∧
    (255 < s.args.arg1.toNat ∨ 1 < s.args.arg2.toNat →
      exec .stAdd s = .next (s.setStatus ⟨false, true, false, 6, 2⟩))

/-- R134, R139. In a table that keeps R30, the string of a valid code is its terminal byte after the string of its parent, it
begins with the cached first byte, only a root code has no parent, it has at most `c - ST_ENDCODE + 1` bytes for a dynamic code `c`, at most 4091 in all. -/
def Obligations.StringFollowsParents : Prop :=
  ∀ (s : State) (c : Nat), TableInv s → validCode s.st c = true →
    ((entryAt s.st.table c).prev = 0xFFFF →
      c < s.st.resetCode.toNat ∧ stringOf s.st.table c = [(entryAt s.st.table c).char]) ∧
    ((entryAt s.st.table c).prev ≠ 0xFFFF → (entryAt s.st.table c).prev.toNat < c ∧
      stringOf s.st.table c =
        stringOf s.st.table (entryAt s.st.table c).prev.toNat ++ [(entryAt s.st.table c).char]) ∧
    (stringOf s.st.table c).head? = some (entryAt s.st.table c).first ∧
    (s.st.endCode.toNat < c → (stringOf s.st.table c).length ≤ c - s.st.endCode.toNat + 1) ∧
    (stringOf s.st.table c).length ≤ 4091

/-- R141, R142. `ST_FIND`: the smallest valid code whose string is the sequence at the cursor, or `NONE`; nothing but `RES0`
changes; `IllegalCommand` if the sequence would run past `SRC_LEN`. -/
def Obligations.StFindReturnsSmallest : Prop :=
  ∀ s : State, Ready s →
    (s.args.arg0.toNat ≤ srcAvail s → ∃ t, exec .stFind s = .next t ∧ Completed s t ∧ SameBut [.status, .res] s t ∧
      t.res = { s.res with res0 := t.res.res0 } ∧
      ((∃ c, validCode s.st c = true ∧
          stringOf s.st.table c = srcBytes s s.cur.srcPos.toNat s.args.arg0.toNat ∧
          (∀ d < c, validCode s.st d = true →
            stringOf s.st.table d ≠ srcBytes s s.cur.srcPos.toNat s.args.arg0.toNat) ∧ t.res.res0.toNat = c) ∨
        ((∀ c, validCode s.st c = true →
            stringOf s.st.table c ≠ srcBytes s s.cur.srcPos.toNat s.args.arg0.toNat) ∧ t.res.res0 = 0xFFFF)) ∧
      (s.args.arg0 = 0 → t.res.res0 = 0xFFFF)) ∧
    (srcAvail s < s.args.arg0.toNat → exec .stFind s = .next (s.setStatus ⟨false, true, false, 6, 3⟩))

/-- R143. `ST_WRSTR`: the whole string is appended and its length returned, or nothing is written: `CorruptStream` for a code that
is not valid, `InsufficientSpace` if the string does not fit. -/
def Obligations.StWrstrAppendsString : Prop :=
  ∀ s : State, Ready s →
    (validCode s.st s.args.arg0.toNat = true →
      (s.cur.snkPos.toNat + (stringOf s.st.table s.args.arg0.toNat).length ≤ s.cur.snkCap.toNat →
        ∃ t, exec .stWrstr s = .next t ∧ Completed s t ∧ SameBut [.status, .res, .cur, .snk] s t ∧
          SnkAppends s t (stringOf s.st.table s.args.arg0.toNat) ∧
          t.cur = cursorsAfter 0 (stringOf s.st.table s.args.arg0.toNat).length s.cur ∧
          t.res = { s.res with res0 := BitVec.ofNat 32 (stringOf s.st.table s.args.arg0.toNat).length }) ∧
      (s.cur.snkCap.toNat < s.cur.snkPos.toNat + (stringOf s.st.table s.args.arg0.toNat).length →
        exec .stWrstr s = .next (s.setStatus ⟨false, true, false, 5, 4⟩))) ∧
    (validCode s.st s.args.arg0.toNat = false → exec .stWrstr s = .next (s.setStatus ⟨false, true, false, 2, 4⟩))

/-- R144, R145, R146. The accessors: the first byte, whether a code is unused, the parent; `CorruptStream` from the first and the
last for a code that is not below 4096. In a table that keeps R30 an unused code reads as cleared and a root code has no parent. -/
def Obligations.AccessorsRead : Prop :=
  ∀ s : State, Ready s →
    (s.args.arg0.toNat < 4096 →
      exec .stFirst s = .next ((s.setRes { s.res with
          res0 := (entryAt s.st.table s.args.arg0.toNat).first.setWidth 32 }).setStatus
        ⟨false, false, true, s.status.err, s.status.errCmd⟩) ∧
      exec .stBase s = .next ((s.setRes { s.res with
          res0 := (entryAt s.st.table s.args.arg0.toNat).prev.setWidth 32 }).setStatus
        ⟨false, false, true, s.status.err, s.status.errCmd⟩)) ∧
    (4096 ≤ s.args.arg0.toNat →
      exec .stFirst s = .next (s.setStatus ⟨false, true, false, 2, 5⟩) ∧
      exec .stBase s = .next (s.setStatus ⟨false, true, false, 2, 7⟩)) ∧
    exec .stUnused s = .next ((s.setRes { s.res with
        res0 := if s.args.arg0.toNat < s.st.nextFree.toNat ∧ s.args.arg0.toNat ≠ s.st.resetCode.toNat ∧
          s.args.arg0.toNat ≠ s.st.endCode.toNat then 0 else 1 }).setStatus
      ⟨false, false, true, s.status.err, s.status.errCmd⟩) ∧
    (TableInv s →
      (validCode s.st s.args.arg0.toNat = false → entryAt s.st.table s.args.arg0.toNat = ⟨0, 0xFFFF, 0⟩) ∧
      (s.args.arg0.toNat < s.st.resetCode.toNat → (entryAt s.st.table s.args.arg0.toNat).prev = 0xFFFF) ∧
      (4096 ≤ s.args.arg0.toNat → validCode s.st s.args.arg0.toNat = false))

/-- R30, R138, R140. Every step keeps the table invariants: chains that strictly decrease to a root code, cached first bytes, root
codes, at most 4096 codes, the register relations; from every state that has them. -/
def Obligations.EveryStepKeepsTable : Prop := ∀ s t : State, TableInv s → step s = .next t → TableInv t

/-! ### The bit packer -/

/-- R202. `BP_INIT` clears both halves and nothing else; pending bits are discarded. -/
def Obligations.BpInitClears : Prop :=
  ∀ s : State, Ready s →
    exec .bpInit s = .next ((s.setBp ⟨0, 0, 0, 0⟩).setStatus ⟨false, false, true, s.status.err, s.status.errCmd⟩)

/-- R201, R203, R208. `BP_PUT` in raw mode: with `v` the old bits and the code behind them, `n` bits in all, every whole byte of `v`
is appended to `SNK` and the rest stays in the accumulator. If only the first of them fit, they are appended and
`InsufficientSpace` is raised with the next one shifted out and lost; after it 8 to 11 bits may be left. -/
def Obligations.BpPutRaw : Prop :=
  ∀ s : State, Ready s → PackInv s → 1 ≤ s.args.arg1.toNat → s.args.arg1.toNat ≤ 12 → s.args.arg2 = 1 →
    s.args.arg0.toNat < 2 ^ s.args.arg1.toNat →
    ∀ bs, bs = lowBytes (merged s s.args.arg0.toNat) ((s.bp.wcnt.toNat + s.args.arg1.toNat) / 8) →
    (Room s bs.length →
      ∃ t, exec .bpPut s = .next t ∧ Completed s t ∧ SameBut [.status, .bp, .cur, .snk] s t ∧
        SnkAppends s t bs ∧ t.cur = cursorsAfter 0 bs.length s.cur ∧
        t.bp = { s.bp with
          wacc := BitVec.ofNat 19 (merged s s.args.arg0.toNat / 256 ^ bs.length)
          wcnt := BitVec.ofNat 5 ((s.bp.wcnt.toNat + s.args.arg1.toNat) % 8) }) ∧
    (roomLeft s < bs.length →
      ∃ t, exec .bpPut s = .next t ∧ FaultedWith .insufficientSpace .bpPut t ∧
        SameBut [.status, .bp, .cur, .snk] s t ∧ SnkAppends s t (bs.take (roomLeft s)) ∧
        t.cur = cursorsAfter 0 (roomLeft s) s.cur ∧
        t.bp = putLost s s.args.arg0.toNat s.args.arg1.toNat (roomLeft s))

/-- R201, R203, R208, R222. `BP_PUT` in framed mode: the same bytes go into the pending sub-block; a block that reaches 255 bytes
goes out, length byte first. If that block does not fit, `InsufficientSpace` is raised with nothing written, the byte that filled it
in it (or, where it was full already, lost), and the accumulator shifted past that byte. -/
def Obligations.BpPutFramed : Prop :=
  ∀ s : State, Ready s → PackInv s → 1 ≤ s.args.arg1.toNat → s.args.arg1.toNat ≤ 12 → s.args.arg2 = 0 →
    s.args.arg0.toNat < 2 ^ s.args.arg1.toNat →
    ∀ bs, bs = lowBytes (merged s s.args.arg0.toNat) ((s.bp.wcnt.toNat + s.args.arg1.toNat) / 8) →
    (∀ out p, frameBytes (wbufBytes s.sb) bs = (out, p) → Room s out.length →
      ∃ t, exec .bpPut s = .next t ∧ Completed s t ∧ SameBut [.status, .bp, .sb, .cur, .snk] s t ∧
        SnkAppends s t out ∧ t.cur = cursorsAfter 0 out.length s.cur ∧
        (wbufBytes t.sb = p ∧ t.sb.rrem = s.sb.rrem ∧ t.sb.rend = s.sb.rend) ∧
        t.bp = { s.bp with
          wacc := BitVec.ofNat 19 (merged s s.args.arg0.toNat / 256 ^ bs.length)
          wcnt := BitVec.ofNat 5 ((s.bp.wcnt.toNat + s.args.arg1.toNat) % 8) }) ∧
    (FramerFull s bs →
      ∃ t, exec .bpPut s = .next t ∧ FaultedWith .insufficientSpace .bpPut t ∧ SameBut [.status, .bp, .sb] s t ∧
        (wbufBytes t.sb = fullBlock s bs ∧ t.sb.rrem = s.sb.rrem ∧ t.sb.rend = s.sb.rend) ∧
        t.bp = putLost s s.args.arg0.toNat s.args.arg1.toNat (fullAt s))

/-- R204, R208, R222. `BP_FLUSH` in either mode: what is in the accumulator goes out padded with zero bits to whole bytes, none if it
is empty, and the accumulator is cleared. A byte that is not taken raises `InsufficientSpace` with the bytes before it handed on and
that byte out of the accumulator. -/
def Obligations.BpFlushPads : Prop :=
  ∀ s : State, Ready s → PackInv s →
    ∀ bs, bs = lowBytes s.bp.wacc.toNat ((s.bp.wcnt.toNat + 7) / 8) →
    (s.args.arg2 = 1 →
      (Room s bs.length →
        ∃ t, exec .bpFlush s = .next t ∧ Completed s t ∧ SameBut [.status, .bp, .cur, .snk] s t ∧
          SnkAppends s t bs ∧ t.cur = cursorsAfter 0 bs.length s.cur ∧ t.bp = { s.bp with wacc := 0, wcnt := 0 }) ∧
      (roomLeft s < bs.length →
        ∃ t, exec .bpFlush s = .next t ∧ FaultedWith .insufficientSpace .bpFlush t ∧
          SameBut [.status, .bp, .cur, .snk] s t ∧ SnkAppends s t (bs.take (roomLeft s)) ∧
          t.cur = cursorsAfter 0 (roomLeft s) s.cur ∧ t.bp = flushLost s (roomLeft s))) ∧
    (s.args.arg2 = 0 →
      (∀ out p, frameBytes (wbufBytes s.sb) bs = (out, p) → Room s out.length →
        ∃ t, exec .bpFlush s = .next t ∧ Completed s t ∧ SameBut [.status, .bp, .sb, .cur, .snk] s t ∧
          SnkAppends s t out ∧ t.cur = cursorsAfter 0 out.length s.cur ∧
          (wbufBytes t.sb = p ∧ t.sb.rrem = s.sb.rrem ∧ t.sb.rend = s.sb.rend) ∧
          t.bp = { s.bp with wacc := 0, wcnt := 0 }) ∧
      (FramerFull s bs →
        ∃ t, exec .bpFlush s = .next t ∧ FaultedWith .insufficientSpace .bpFlush t ∧ SameBut [.status, .bp, .sb] s t ∧
          (wbufBytes t.sb = fullBlock s bs ∧ t.sb.rrem = s.sb.rrem ∧ t.sb.rend = s.sb.rend) ∧
          t.bp = flushLost s (fullAt s)))

/-- R205, R206, R208. `BP_GET` in raw mode: only the bytes that are needed are fetched from `SRC`; the code is the low bits of what
is then at hand. -/
def Obligations.BpGetRaw : Prop :=
  ∀ s : State, Ready s → PackInv s → 1 ≤ s.args.arg1.toNat → s.args.arg1.toNat ≤ 12 → s.args.arg2 = 1 →
    fetches s s.args.arg1.toNat ≤ srcAvail s →
    ∀ v, v = fetched s (srcBytes s s.cur.srcPos.toNat (fetches s s.args.arg1.toNat)) →
    ∃ t, exec .bpGet s = .next t ∧ Completed s t ∧ SameBut [.status, .res, .bp, .cur] s t ∧
      t.res = { s.res with res0 := BitVec.ofNat 32 (v % 2 ^ s.args.arg1.toNat) } ∧
      t.cur = cursorsAfter (fetches s s.args.arg1.toNat) 0 s.cur ∧
      t.bp = afterGet s.bp v (s.bp.rcnt.toNat + 8 * fetches s s.args.arg1.toNat) s.args.arg1.toNat

/-- R205, R206, R208, R227. `BP_GET` in framed mode. Inside a sub-block the bytes come from the block, whose count goes down; and
wherever the chain holds the bytes that are needed, they come from it, across as many length bytes as are due: the first get of a
chain, a code that crosses sub-blocks. -/
def Obligations.BpGetFramed : Prop :=
  ∀ s : State, Ready s → PackInv s → 1 ≤ s.args.arg1.toNat → s.args.arg1.toNat ≤ 12 → s.args.arg2 = 0 →
    (fetches s s.args.arg1.toNat = 0 ∨ s.sb.rend = false) →
    (fetches s s.args.arg1.toNat ≤ s.sb.rrem.toNat → fetches s s.args.arg1.toNat ≤ srcAvail s →
      ∀ v, v = fetched s (srcBytes s s.cur.srcPos.toNat (fetches s s.args.arg1.toNat)) →
      ∃ t, exec .bpGet s = .next t ∧ Completed s t ∧ SameBut [.status, .res, .bp, .sb, .cur] s t ∧
        t.res = { s.res with res0 := BitVec.ofNat 32 (v % 2 ^ s.args.arg1.toNat) } ∧
        t.cur = cursorsAfter (fetches s s.args.arg1.toNat) 0 s.cur ∧
        t.sb = { s.sb with rrem := BitVec.ofNat 8 (s.sb.rrem.toNat - fetches s s.args.arg1.toNat) } ∧
        t.bp = afterGet s.bp v (s.bp.rcnt.toNat + 8 * fetches s s.args.arg1.toNat) s.args.arg1.toNat) ∧
    (∀ x v, x = chainRead s (fetches s s.args.arg1.toNat) s.cur.srcPos.toNat s.sb.rrem.toNat → x.stop = .got →
      v = fetched s x.bytes →
      ∃ t, exec .bpGet s = .next t ∧ Completed s t ∧ SameBut [.status, .res, .bp, .sb, .cur] s t ∧
        t.res = { s.res with res0 := BitVec.ofNat 32 (v % 2 ^ s.args.arg1.toNat) } ∧
        t.cur = srcAt x.pos s.cur ∧ t.sb = { s.sb with rrem := BitVec.ofNat 8 x.rem } ∧
        t.bp = afterGet s.bp v (s.bp.rcnt.toNat + 8 * fetches s s.args.arg1.toNat) s.args.arg1.toNat)

/-- R206, R208, R227, R284. `BP_GET` when bits are still needed and none are left: `TruncatedStream` in raw mode, with the bytes that
were left fetched; `CorruptStream` in framed mode when the chain has ended, or ends at a zero length byte met in the get;
`TruncatedStream` where a length byte is missing or claims more than remains. What was fetched before stays in the accumulator. -/
def Obligations.BpGetUnderrun : Prop :=
  ∀ s : State, Ready s → PackInv s → 1 ≤ s.args.arg1.toNat → s.args.arg1.toNat ≤ 12 →
    (s.args.arg2 = 1 → srcAvail s < fetches s s.args.arg1.toNat →
      ∃ t, exec .bpGet s = .next t ∧ FaultedWith .truncatedStream .bpGet t ∧ SameBut [.status, .bp, .cur] s t ∧
        t.cur = cursorsAfter (srcAvail s) 0 s.cur ∧
        t.bp = afterGet s.bp (fetched s (srcBytes s s.cur.srcPos.toNat (srcAvail s)))
          (s.bp.rcnt.toNat + 8 * srcAvail s) 0) ∧
    (s.args.arg2 = 0 → s.sb.rend = true → 0 < fetches s s.args.arg1.toNat →
      exec .bpGet s = .next (s.setStatus ⟨false, true, false, 2, 0x23⟩)) ∧
    (s.args.arg2 = 0 → s.sb.rend = false →
      ∀ x k, x = chainRead s (fetches s s.args.arg1.toNat) s.cur.srcPos.toNat s.sb.rrem.toNat →
        (x.stop = .ended ∧ k = .corruptStream ∨ x.stop = .truncated ∧ k = .truncatedStream) →
        ∃ t, exec .bpGet s = .next t ∧ FaultedWith k .bpGet t ∧ SameBut [.status, .bp, .sb, .cur] s t ∧
          t.cur = srcAt x.pos s.cur ∧ t.sb = { s.sb with rrem := 0, rend := x.stop = .ended } ∧
          t.bp = afterGet s.bp (fetched s x.bytes) (s.bp.rcnt.toNat + 8 * x.bytes.length) 0)

/-- R209. Codes packed raw from an empty accumulator and flushed, then unpacked raw with the same widths, come back; what is left
in the read accumulator is zero padding. -/
def Obligations.UnpackInvertsPack : Prop :=
  ∀ (cs : List (Nat × Nat)) (s u : State), (∀ p ∈ cs, 1 ≤ p.2 ∧ p.2 ≤ 12 ∧ p.1 < 2 ^ p.2) →
    s.bp.wacc = 0 → s.bp.wcnt = 0 → Room s ((totalBits cs + 7) / 8) →
    u.bp.racc = 0 → u.bp.rcnt = 0 →
    ∃ t, packAll cs s = .ok () t ∧ t.cur = cursorsAfter 0 ((totalBits cs + 7) / 8) s.cur ∧
      (HostCopied t s.cur.snkPos.toNat ((totalBits cs + 7) / 8) u →
        ∃ v, unpackAll (cs.map Prod.snd) u = .ok (cs.map Prod.fst) v ∧ v.bp.racc = 0 ∧
          v.cur = cursorsAfter ((totalBits cs + 7) / 8) 0 u.cur)

/-- R31, R201, R205. Every step keeps the accumulators in bounds (at most 11 bits between commands, no bit above the count), from
every state that keeps the table invariants as well: a run packs codes at the table's width. -/
def Obligations.EveryStepKeepsAccumulators : Prop :=
  ∀ s t : State, TableInv s → PackInv s → step s = .next t → PackInv t

/-! ### The sub-block framer -/

/-- R224, R228. `SB_OPEN` discards what is buffered, `SB_ROPEN` starts the reader at `SRC_POS`; neither reads or writes a byte. -/
def Obligations.SbOpensReset : Prop :=
  ∀ s : State, Ready s →
    exec .sbOpen s = .next ((s.setSb { s.sb with wcnt := 0 }).setStatus
      ⟨false, false, true, s.status.err, s.status.errCmd⟩) ∧
    exec .sbRopen s = .next ((s.setSb { s.sb with rrem := 0, rend := false }).setStatus
      ⟨false, false, true, s.status.err, s.status.errCmd⟩)

/-- R222, R225. `SB_PUT`: the byte joins the pending block; a block of 255 goes out at once, length byte first. If that block does
not fit, `InsufficientSpace` is raised with the block intact and nothing written. -/
def Obligations.SbPutBuffers : Prop :=
  ∀ s : State, Ready s → s.args.arg0.toNat ≤ 255 →
    (∀ out p, frameBytes (wbufBytes s.sb) [s.args.arg0.setWidth 8] = (out, p) →
      Room s out.length →
      ∃ t, exec .sbPut s = .next t ∧ Completed s t ∧ SameBut [.status, .sb, .cur, .snk] s t ∧
        SnkAppends s t out ∧ t.cur = cursorsAfter 0 out.length s.cur ∧
        wbufBytes t.sb = p ∧ t.sb.rrem = s.sb.rrem ∧ t.sb.rend = s.sb.rend) ∧
    (s.sb.wcnt = 254 → s.cur.snkCap.toNat < s.cur.snkPos.toNat + 256 →
      ∃ t, exec .sbPut s = .next t ∧ FaultedWith .insufficientSpace .sbPut t ∧ SameBut [.status, .sb] s t ∧
        t.sb.wcnt = 255 ∧ wbufBytes t.sb = wbufBytes s.sb ++ [s.args.arg0.setWidth 8] ∧
        t.sb.rrem = s.sb.rrem ∧ t.sb.rend = s.sb.rend) ∧
    (s.sb.wcnt = 255 → s.cur.snkCap.toNat < s.cur.snkPos.toNat + 256 →
      exec .sbPut s = .next (s.setStatus ⟨false, true, false, 5, 0x31⟩))

/-- R221, R223, R226. `SB_CLOSE`: the pending block, if any, and exactly one zero byte. If the block does not fit nothing is
written and it is kept; if only the terminator does not fit the block is written. -/
def Obligations.SbCloseEndsChain : Prop :=
  ∀ s : State, Ready s →
    (s.cur.snkPos.toNat + (closeBytes (wbufBytes s.sb)).length ≤ s.cur.snkCap.toNat →
      ∃ t, exec .sbClose s = .next t ∧ Completed s t ∧ SameBut [.status, .sb, .cur, .snk] s t ∧
        SnkAppends s t (closeBytes (wbufBytes s.sb)) ∧
        t.cur = cursorsAfter 0 (closeBytes (wbufBytes s.sb)).length s.cur ∧ t.sb = { s.sb with wcnt := 0 }) ∧
    (s.sb.wcnt ≠ 0 → s.cur.snkCap.toNat < s.cur.snkPos.toNat + 1 + s.sb.wcnt.toNat →
      exec .sbClose s = .next (s.setStatus ⟨false, true, false, 5, 0x32⟩)) ∧
    (s.sb.wcnt = 0 → s.cur.snkCap.toNat ≤ s.cur.snkPos.toNat →
      exec .sbClose s = .next (s.setStatus ⟨false, true, false, 5, 0x32⟩)) ∧
    (s.sb.wcnt ≠ 0 → s.cur.snkPos.toNat + 1 + s.sb.wcnt.toNat = s.cur.snkCap.toNat →
      ∃ t, exec .sbClose s = .next t ∧ FaultedWith .insufficientSpace .sbClose t ∧
        SameBut [.status, .sb, .cur, .snk] s t ∧ SnkAppends s t (s.sb.wcnt :: wbufBytes s.sb) ∧
        t.cur = cursorsAfter 0 (1 + s.sb.wcnt.toNat) s.cur ∧ t.sb = { s.sb with wcnt := 0 })

/-- R227, R229. `SB_GET` in every case in which its reads have their bytes: the chain ended; a byte left in the block; a length
byte due (missing, zero, too long, good). -/
def Obligations.SbGetReads : Prop :=
  ∀ s : State, Ready s →
    (s.sb.rend = true →
      exec .sbGet s = .next ((s.setRes { s.res with res0 := 0, res1 := 1 }).setStatus
        ⟨false, false, true, s.status.err, s.status.errCmd⟩)) ∧
    (s.sb.rend = false → s.sb.rrem ≠ 0 → 1 ≤ srcAvail s →
      ∃ t, exec .sbGet s = .next t ∧ Completed s t ∧ SameBut [.status, .res, .sb, .cur] s t ∧
        t.res = { s.res with res0 := (srcByte s s.cur.srcPos.toNat).setWidth 32, res1 := 0 } ∧
        t.cur = cursorsAfter 1 0 s.cur ∧ t.sb = { s.sb with rrem := s.sb.rrem - 1 }) ∧
    (s.sb.rend = false → s.sb.rrem = 0 → srcAvail s = 0 →
      exec .sbGet s = .next (s.setStatus ⟨false, true, false, 3, 0x34⟩)) ∧
    (s.sb.rend = false → s.sb.rrem = 0 → 1 ≤ srcAvail s → srcByte s s.cur.srcPos.toNat = 0 →
      ∃ t, exec .sbGet s = .next t ∧ Completed s t ∧ SameBut [.status, .res, .sb, .cur] s t ∧
        t.res = { s.res with res0 := 0, res1 := 1 } ∧ t.cur = cursorsAfter 1 0 s.cur ∧
        t.sb = { s.sb with rend := true }) ∧
    (s.sb.rend = false → s.sb.rrem = 0 → 1 ≤ srcAvail s →
      srcAvail s - 1 < (srcByte s s.cur.srcPos.toNat).toNat →
      ∃ t, exec .sbGet s = .next t ∧ FaultedWith .truncatedStream .sbGet t ∧ SameBut [.status, .cur] s t ∧
        t.cur = cursorsAfter 1 0 s.cur) ∧
    (s.sb.rend = false → s.sb.rrem = 0 → srcByte s s.cur.srcPos.toNat ≠ 0 →
      (srcByte s s.cur.srcPos.toNat).toNat + 1 ≤ srcAvail s →
      ∃ t, exec .sbGet s = .next t ∧ Completed s t ∧ SameBut [.status, .res, .sb, .cur] s t ∧
        t.res = { s.res with res0 := (srcByte s (s.cur.srcPos.toNat + 1)).setWidth 32, res1 := 0 } ∧
        t.cur = cursorsAfter 2 0 s.cur ∧ t.sb = { s.sb with rrem := srcByte s s.cur.srcPos.toNat - 1 })

/-- The model's choice (log 6, log 8) where the host moved a cursor under a half-read block (R329): `SB_GET` with a byte due in
the block and none left in `SRC` completes with a free byte; `SB_SKIP` steps over the claimed bytes and then finds none. -/
def Obligations.ReaderPastInput : Prop :=
  ∀ s : State, Ready s → s.sb.rend = false → s.sb.rrem ≠ 0 →
    (srcAvail s = 0 → s.cur.srcPos.toNat + 1 < 2 ^ 32 →
      ∃ t, exec .sbGet s = .next t ∧ Completed s t ∧ SameBut [.status, .res, .sb, .cur, .free] s t ∧
        t.res = { s.res with res0 := (Config.freeByte s.free.tick).setWidth 32, res1 := 0 } ∧
        t.cur = cursorsAfter 1 0 s.cur ∧ t.sb = { s.sb with rrem := s.sb.rrem - 1 } ∧
        t.free = { s.free with tick := s.free.tick + 1 }) ∧
    (s.cur.srcLen.toNat ≤ s.cur.srcPos.toNat + s.sb.rrem.toNat → s.cur.srcPos.toNat + s.sb.rrem.toNat < 2 ^ 32 →
      ∃ t, exec .sbSkip s = .next t ∧ FaultedWith .truncatedStream .sbSkip t ∧ SameBut [.status, .sb, .cur] s t ∧
        t.cur = cursorsAfter s.sb.rrem.toNat 0 s.cur ∧ t.sb = { s.sb with rrem := 0 })

/-- R230, R231. `SB_SKIP`: the rest of the block being read, then any chain of sub-blocks, is stepped over; the cursor ends just
past the zero length byte. With the chain already ended it does nothing. Where a length byte is due and none is left, or it claims
more bytes than remain, `TruncatedStream` is raised, with the blocks before it stepped over and a length byte that was there
consumed. -/
def Obligations.SbSkipEndsChain : Prop :=
  ∀ s : State, Ready s →
    (s.sb.rend = true →
      exec .sbSkip s = .next (s.setStatus ⟨false, false, true, s.status.err, s.status.errCmd⟩)) ∧
    (∀ ns, s.sb.rend = false → blocksAt s (s.cur.srcPos.toNat + s.sb.rrem.toNat) ns →
      blocksEnd (s.cur.srcPos.toNat + s.sb.rrem.toNat) ns ≤ s.cur.srcLen.toNat →
      ∃ t, exec .sbSkip s = .next t ∧ Completed s t ∧ SameBut [.status, .sb, .cur] s t ∧
        t.cur = cursorsAfter (s.sb.rrem.toNat + ns.sum + ns.length + 1) 0 s.cur ∧
        t.sb = { s.sb with rrem := 0, rend := true }) ∧
    (s.sb.rend = false → s.sb.rrem = 0 → srcAvail s = 0 →
      exec .sbSkip s = .next (s.setStatus ⟨false, true, false, 3, 0x35⟩)) ∧
    ∀ ns q, s.sb.rend = false → blocksFrom s (s.cur.srcPos.toNat + s.sb.rrem.toNat) ns →
      q = blocksPast (s.cur.srcPos.toNat + s.sb.rrem.toNat) ns →
      (q = s.cur.srcLen.toNat →
        ∃ t, exec .sbSkip s = .next t ∧ FaultedWith .truncatedStream .sbSkip t ∧ SameBut [.status, .sb, .cur] s t ∧
          t.cur = srcAt q s.cur ∧ t.sb = { s.sb with rrem := 0 }) ∧
      (q < s.cur.srcLen.toNat → s.cur.srcLen.toNat < q + 1 + (srcByte s q).toNat →
        ∃ t, exec .sbSkip s = .next t ∧ FaultedWith .truncatedStream .sbSkip t ∧ SameBut [.status, .sb, .cur] s t ∧
          t.cur = srcAt (q + 1) s.cur ∧ t.sb = { s.sb with rrem := 0 })

/-! ### The header records -/

/-- R240, R241, R243, R245. The three fixed-size header writes append exactly the record of the field registers, or raise
`InsufficientSpace` with nothing written. -/
def Obligations.HeaderWritesAppendRecords : Prop :=
  ∀ s : State, Ready s →
    (∀ i r op, (i, r, op) ∈ [(Instr.hdrWrFile, fileRecord s.hdr, (0x40 : BitVec 8)),
        (.hdrWrImage, imageRecord s.hdr, 0x42), (.hdrWrGcb, gcbRecord s.hdr, 0x44)] →
      (s.cur.snkPos.toNat + r.length ≤ s.cur.snkCap.toNat →
        ∃ t, exec i s = .next t ∧ Completed s t ∧ SameBut [.status, .cur, .snk] s t ∧ SnkAppends s t r ∧
          t.cur = cursorsAfter 0 r.length s.cur) ∧
      (s.cur.snkCap.toNat < s.cur.snkPos.toNat + r.length →
        exec i s = .next (s.setStatus ⟨false, true, false, 5, op⟩)))

/-- R242. `HDR_RD_FILE`: 13 bytes with the signature load the five registers and are consumed; otherwise `InvalidFormat`, nothing
consumed and no register changed. -/
def Obligations.HdrRdFileLoads : Prop :=
  ∀ s : State, Ready s →
    (13 ≤ srcAvail s → srcBytes s s.cur.srcPos.toNat 6 = [0x47, 0x49, 0x46, 0x38, 0x39, 0x61] →
      ∃ t, exec .hdrRdFile s = .next t ∧ Completed s t ∧ SameBut [.status, .cur, .hdr] s t ∧
        t.cur = cursorsAfter 13 0 s.cur ∧
        t.hdr = { s.hdr with
          fhWidth := srcHalf s (s.cur.srcPos.toNat + 6), fhHeight := srcHalf s (s.cur.srcPos.toNat + 8),
          fhResolution := srcByte s (s.cur.srcPos.toNat + 10),
          fhBackground := srcByte s (s.cur.srcPos.toNat + 11),
          fhAspect := srcByte s (s.cur.srcPos.toNat + 12) }) ∧
    (srcAvail s < 13 ∨ srcBytes s s.cur.srcPos.toNat 6 ≠ [0x47, 0x49, 0x46, 0x38, 0x39, 0x61] →
      exec .hdrRdFile s = .next (s.setStatus ⟨false, true, false, 1, 0x41⟩))

/-- R244. `HDR_RD_IMAGE`: 9 bytes load the five registers; fewer raise `InvalidFormat` with nothing changed. -/
def Obligations.HdrRdImageLoads : Prop :=
  ∀ s : State, Ready s →
    (9 ≤ srcAvail s →
      ∃ t, exec .hdrRdImage s = .next t ∧ Completed s t ∧ SameBut [.status, .cur, .hdr] s t ∧
        t.cur = cursorsAfter 9 0 s.cur ∧
        t.hdr = { s.hdr with
          ihLeft := srcHalf s s.cur.srcPos.toNat, ihTop := srcHalf s (s.cur.srcPos.toNat + 2),
          ihWidth := srcHalf s (s.cur.srcPos.toNat + 4), ihHeight := srcHalf s (s.cur.srcPos.toNat + 6),
          ihFlags := srcByte s (s.cur.srcPos.toNat + 8) }) ∧
    (srcAvail s < 9 → exec .hdrRdImage s = .next (s.setStatus ⟨false, true, false, 1, 0x43⟩))

/-- R246. `HDR_RD_GCB`: 6 bytes with size byte 4 and terminator 0 load the three registers; otherwise `InvalidFormat` with nothing
changed. -/
def Obligations.HdrRdGcbLoads : Prop :=
  ∀ s : State, Ready s →
    (6 ≤ srcAvail s → srcByte s s.cur.srcPos.toNat = 4 → srcByte s (s.cur.srcPos.toNat + 5) = 0 →
      ∃ t, exec .hdrRdGcb s = .next t ∧ Completed s t ∧ SameBut [.status, .cur, .hdr] s t ∧
        t.cur = cursorsAfter 6 0 s.cur ∧
        t.hdr = { s.hdr with
          gcFlags := srcByte s (s.cur.srcPos.toNat + 1), gcDelay := srcHalf s (s.cur.srcPos.toNat + 2),
          gcTransp := srcByte s (s.cur.srcPos.toNat + 4) }) ∧
    (srcAvail s < 6 ∨ srcByte s s.cur.srcPos.toNat ≠ 4 ∨ srcByte s (s.cur.srcPos.toNat + 5) ≠ 0 →
      exec .hdrRdGcb s = .next (s.setStatus ⟨false, true, false, 1, 0x45⟩))

/-- R249. Writing then reading each of the three fixed-size records, and a comment of any text, gives back what was written and
consumes exactly the bytes written. -/
def Obligations.HeaderRoundTrip : Prop :=
  ∀ s t u : State, Ready s → Ready u →
    (exec .hdrWrFile s = .next t → Completed s t → HostCopied t s.cur.snkPos.toNat 13 u →
      ∃ v, exec .hdrRdFile u = .next v ∧ Completed u v ∧ v.cur = cursorsAfter 13 0 u.cur ∧
        v.hdr.fhWidth = s.hdr.fhWidth ∧ v.hdr.fhHeight = s.hdr.fhHeight ∧
        v.hdr.fhResolution = s.hdr.fhResolution ∧ v.hdr.fhBackground = s.hdr.fhBackground ∧
        v.hdr.fhAspect = s.hdr.fhAspect) ∧
    (exec .hdrWrImage s = .next t → Completed s t → HostCopied t s.cur.snkPos.toNat 9 u →
      ∃ v, exec .hdrRdImage u = .next v ∧ Completed u v ∧ v.cur = cursorsAfter 9 0 u.cur ∧
        v.hdr.ihLeft = s.hdr.ihLeft ∧ v.hdr.ihTop = s.hdr.ihTop ∧ v.hdr.ihWidth = s.hdr.ihWidth ∧
        v.hdr.ihHeight = s.hdr.ihHeight ∧ v.hdr.ihFlags = s.hdr.ihFlags) ∧
    (exec .hdrWrGcb s = .next t → Completed s t → HostCopied t s.cur.snkPos.toNat 6 u →
      ∃ v, exec .hdrRdGcb u = .next v ∧ Completed u v ∧ v.cur = cursorsAfter 6 0 u.cur ∧
        v.hdr.gcFlags = s.hdr.gcFlags ∧ v.hdr.gcDelay = s.hdr.gcDelay ∧ v.hdr.gcTransp = s.hdr.gcTransp) ∧
    (exec .hdrWrComment s = .next t → Completed s t →
      HostCopied t s.cur.snkPos.toNat (t.cur.snkPos.toNat - s.cur.snkPos.toNat) u →
      Room u (srcAvail s) →
      ∃ v, exec .hdrRdComment u = .next v ∧ Completed u v ∧ SnkAppends u v (inputBytes s) ∧
        v.cur = cursorsAfter (t.cur.snkPos.toNat - s.cur.snkPos.toNat) (srcAvail s) u.cur)

/-- R97, R247. `HDR_WR_COMMENT`: the rest of `SRC` is appended as one chain, `D + ceil(D/255) + 1` bytes for `D` text bytes. Where
the chain does not fit, `InsufficientSpace` is raised with the whole blocks before it kept, the block that does not fit pending (or
nothing, where only the terminator does not), and the bytes consumed up to the one that filled that block. -/
def Obligations.HdrWrCommentChains : Prop :=
  ∀ s : State, Ready s →
    (chainBytes (inputBytes s)).length = srcAvail s + (srcAvail s + 254) / 255 + 1 ∧
    (s.cur.snkPos.toNat + (chainBytes (inputBytes s)).length ≤ s.cur.snkCap.toNat →
      ∃ t, exec .hdrWrComment s = .next t ∧ Completed s t ∧ SameBut [.status, .res, .cur, .sb, .snk] s t ∧
        SnkAppends s t (chainBytes (inputBytes s)) ∧
        t.cur = cursorsAfter (srcAvail s) (chainBytes (inputBytes s)).length s.cur ∧
        t.res = { s.res with res0 := BitVec.ofNat 32 (srcAvail s) } ∧
        t.sb.wcnt = 0 ∧ t.sb.rrem = s.sb.rrem ∧ t.sb.rend = s.sb.rend) ∧
    (roomLeft s < (chainBytes (inputBytes s)).length →
      ∀ out p, chainInto (roomLeft s) (inputBytes s) = (out, p) →
      ∃ t, exec .hdrWrComment s = .next t ∧ FaultedWith .insufficientSpace .hdrWrComment t ∧
        SameBut [.status, .cur, .sb, .snk] s t ∧ SnkAppends s t out ∧
        t.cur = cursorsAfter (min (srcAvail s) (frameLimit (roomLeft s))) out.length s.cur ∧
        wbufBytes t.sb = p ∧ t.sb.rrem = s.sb.rrem ∧ t.sb.rend = s.sb.rend)

/-- R97, R227, R248. `HDR_RD_COMMENT`: the data bytes of any chain, of blocks of any sizes, are appended and counted. It raises
`TruncatedStream` where a length byte is missing or claims more than remains, with the bytes before it written, and
`InsufficientSpace` at the first byte with no room, that byte read. The first part names the blocks, the second takes them as they
stand, one byte more than there is room for at most. -/
def Obligations.HdrRdCommentReads : Prop :=
  (∀ (s : State) (ns : List Nat), Ready s → blocksAt s s.cur.srcPos.toNat ns →
    blocksEnd s.cur.srcPos.toNat ns ≤ s.cur.srcLen.toNat → Room s ns.sum →
    ∃ t, exec .hdrRdComment s = .next t ∧ Completed s t ∧ SameBut [.status, .res, .cur, .sb, .snk] s t ∧
      SnkAppends s t (blocksData s s.cur.srcPos.toNat ns) ∧
      t.cur = cursorsAfter (ns.sum + ns.length + 1) ns.sum s.cur ∧
      t.res = { s.res with res0 := BitVec.ofNat 32 ns.sum } ∧ t.sb = { s.sb with rrem := 0, rend := true }) ∧
  ∀ (s : State) (x : ChainRead), Ready s → x = chainRead s (roomLeft s + 1) s.cur.srcPos.toNat 0 →
    (x.stop = .ended →
      ∃ t, exec .hdrRdComment s = .next t ∧ Completed s t ∧ SameBut [.status, .res, .cur, .sb, .snk] s t ∧
        SnkAppends s t x.bytes ∧ t.cur = srcAt x.pos (cursorsAfter 0 x.bytes.length s.cur) ∧
        t.res = { s.res with res0 := BitVec.ofNat 32 x.bytes.length } ∧
        t.sb = { s.sb with rrem := 0, rend := true }) ∧
    ∀ k bs, (x.stop = .truncated ∧ k = .truncatedStream ∧ bs = x.bytes ∨
        x.stop = .got ∧ k = .insufficientSpace ∧ bs = x.bytes.take (roomLeft s)) →
      ∃ t, exec .hdrRdComment s = .next t ∧ FaultedWith k .hdrRdComment t ∧ SameBut [.status, .cur, .sb, .snk] s t ∧
        SnkAppends s t bs ∧ t.cur = srcAt x.pos (cursorsAfter 0 bs.length s.cur) ∧
        t.sb = { s.sb with rrem := BitVec.ofNat 8 x.rem, rend := false }

/-! ### The run commands -/

/-- R167, R168, R169, R170. `LZW_ESTIMATE` changes nothing but its results and `STATUS`; for a legal `rootBits` it completes exactly
when every input byte has a root code, with the bits of the codes of Claims.lean's encoder and the bytes R168 makes of them; else it
raises `CorruptStream`; a `rootBits` out of range faults; never `InsufficientSpace`. -/
def Obligations.EstimateIsIsolated : Prop :=
  ∀ s : State, Ready s → ∃ t, exec .lzwEstimate s = .next t ∧ SameBut [.status, .res] s t ∧
    t.src = s.src ∧ t.snk = s.snk ∧
    (LegalRootBits s.args.arg0.toNat → InputInRange s s.args.arg0.toNat → Completed s t ∧
      ∃ bits, t.res = estimateResults bits ∧ 2 * s.args.arg0.toNat ≤ bits ∧
        bits = totalBits (encodeInput none s.args.arg0.toNat (inputBytes s)).final.codes ∧
        estimatedBytes t = 1 + (bits + 7) / 8 + ((bits + 7) / 8 + 254) / 255 + 1) ∧
    (LegalRootBits s.args.arg0.toNat → ¬ InputInRange s s.args.arg0.toNat →
      FaultedWith .corruptStream .lzwEstimate t ∧ t.res = s.res) ∧
    (s.args.arg0.toNat < 3 → FaultedWith .invalidFormat .lzwEstimate t ∧ t.res = s.res) ∧
    (12 < s.args.arg0.toNat → FaultedWith .tableTooLarge .lzwEstimate t ∧ t.res = s.res)

/-- R161, R163, R164, R165, R168, R331. `LZW_COMPRESS` completes whenever the input has root codes and the sink has room for the bytes
that `LZW_ESTIMATE` returns on the same state, and it appends exactly that many: the code-size byte and the chain of the packed codes
of Claims.lean's encoder (greedy longest match, each code at the width before its add, a reset at a count of 4095, `EndCode` at the
width of R165), which also gives the table, `LZ_CUR` and `LZ_RESETS`. It consumes the rest of `SRC`, leaves the writer side empty
and the reader side untouched. -/
def Obligations.CompressWritesTheEstimate : Prop :=
  ∀ s u : State, Ready s → LegalRootBits s.args.arg0.toNat → InputInRange s s.args.arg0.toNat →
    exec .lzwEstimate s = .next u → s.cur.snkPos.toNat + estimatedBytes u ≤ s.cur.snkCap.toNat →
    ∃ t, exec .lzwCompress s = .next t ∧ Completed s t ∧
      SameBut [.status, .res, .cur, .st, .bp, .sb, .lz, .snk] s t ∧
      t.cur = cursorsAfter (srcAvail s) (estimatedBytes u) s.cur ∧
      t.res = { s.res with res0 := BitVec.ofNat 32 (estimatedBytes u), res1 := BitVec.ofNat 32 (srcAvail s) } ∧
      (∀ a, a < s.cur.snkPos.toNat ∨ s.cur.snkPos.toNat + estimatedBytes u ≤ a → snkByte t a = snkByte s a) ∧
      t.bp = { s.bp with wacc := 0, wcnt := 0 } ∧ t.sb.wcnt = 0 ∧ t.sb.rrem = s.sb.rrem ∧ t.sb.rend = s.sb.rend ∧
      t.lz.prev = s.lz.prev ∧ t.st.nextFree.toNat ≤ 4094 ∧
      ∀ e, e = (encodeInput none s.args.arg0.toNat (inputBytes s)).final →
        SnkAppends s t (streamBytes e) ∧ (streamBytes e).length = estimatedBytes u ∧ StringsHeld t.st e.toStrings e.width ∧
        t.lz = ⟨BitVec.ofNat 16 e.cur, s.lz.prev, BitVec.ofNat 32 e.resets⟩

/-- R166. `LZW_COMPRESS` of the empty input, for every legal `rootBits`: the code-size byte, one sub-block holding `ResetCode` and
`EndCode`, both `rootBits` wide, and the terminator. -/
def Obligations.CompressEmptyInput : Prop :=
  ∀ s : State, Ready s → LegalRootBits s.args.arg0.toNat → srcAvail s = 0 →
    ∀ out, out = BitVec.ofNat 8 (s.args.arg0.toNat - 1) :: BitVec.ofNat 8 ((2 * s.args.arg0.toNat + 7) / 8) ::
        (lowBytes (2 ^ (s.args.arg0.toNat - 1) +
            (2 ^ (s.args.arg0.toNat - 1) + 1) * 2 ^ s.args.arg0.toNat) ((2 * s.args.arg0.toNat + 7) / 8) ++ [0]) →
    s.cur.snkPos.toNat + out.length ≤ s.cur.snkCap.toNat →
    ∃ t, exec .lzwCompress s = .next t ∧ Completed s t ∧
      SameBut [.status, .res, .cur, .st, .bp, .sb, .lz, .snk] s t ∧ SnkAppends s t out ∧
      t.cur = cursorsAfter 0 out.length s.cur ∧ t.lz = ⟨0xFFFF, s.lz.prev, 1⟩ ∧
      t.res = { s.res with res0 := BitVec.ofNat 32 out.length, res1 := 0 }

/-- R161, R170, the faults of `LZW_COMPRESS`: a `rootBits` out of range faults before anything is written; a first input
byte with no root code raises `CorruptStream` after the code-size byte, the byte consumed; no room for that byte raises
`InsufficientSpace` with the table reset and nothing else changed. With room for it, whatever the input and the room (R286, R291): a
run that ends at an input byte with no root code, or at a code whose packed bytes fill a block with no room for it, leaves the whole
blocks before, the pending block, the bits at hand, the table, `LZ_CUR`, `LZ_RESETS` and the bytes consumed as Claims.lean's encoder
has them there; a run that codes all its input and has no room for the last block, or for the terminator only, leaves them as they
are after the flush. -/
def Obligations.CompressRejects : Prop :=
  ∀ s : State, Ready s →
    (s.args.arg0.toNat < 3 → exec .lzwCompress s = .next (s.setStatus ⟨false, true, false, 1, 0x10⟩)) ∧
    (12 < s.args.arg0.toNat → exec .lzwCompress s = .next (s.setStatus ⟨false, true, false, 4, 0x10⟩)) ∧
    (LegalRootBits s.args.arg0.toNat → 1 ≤ srcAvail s →
      2 ^ (s.args.arg0.toNat - 1) ≤ (srcByte s s.cur.srcPos.toNat).toNat →
      s.cur.snkPos.toNat + 1 ≤ s.cur.snkCap.toNat →
      ∃ t, exec .lzwCompress s = .next t ∧ FaultedWith .corruptStream .lzwCompress t ∧ t.res = s.res ∧
        SnkAppends s t [BitVec.ofNat 8 (s.args.arg0.toNat - 1)] ∧ t.cur = cursorsAfter 1 1 s.cur ∧
        t.lz = ⟨0xFFFF, s.lz.prev, 1⟩) ∧
    (LegalRootBits s.args.arg0.toNat → s.cur.snkCap.toNat ≤ s.cur.snkPos.toNat →
      ∃ t, exec .lzwCompress s = .next t ∧ FaultedWith .insufficientSpace .lzwCompress t ∧ SameBut [.status, .st] s t ∧
        TableHolds t.st (Decoding.start s.args.arg0.toNat)) ∧
    ∀ room lim x, LegalRootBits s.args.arg0.toNat → roomLeft s = room + 1 → lim = frameLimit room →
      x = encodeInput (some lim) s.args.arg0.toNat (inputBytes s) →
      ∀ k out p bp,
        (x.fault = some k ∧ frameInto room (wholeBytes x.final) = (out, p) ∧
            bp = heldBits s.bp x.final (min (wholeBytes x.final).length lim) ∨
          x.fault = none ∧ k = .insufficientSpace ∧ room < (chainBytes (paddedBytes x.final)).length ∧
            chainInto room (paddedBytes x.final) = (out, p) ∧ bp = { s.bp with wacc := 0, wcnt := 0 }) →
        ∃ t, exec .lzwCompress s = .next t ∧ FaultedWith k .lzwCompress t ∧
          SameBut [.status, .cur, .st, .bp, .sb, .lz, .snk] s t ∧
          SnkAppends s t (BitVec.ofNat 8 (s.args.arg0.toNat - 1) :: out) ∧
          t.cur = cursorsAfter x.final.read (1 + out.length) s.cur ∧ t.bp = bp ∧
          (wbufBytes t.sb = p ∧ t.sb.rrem = s.sb.rrem ∧ t.sb.rend = s.sb.rend) ∧
          StringsHeld t.st x.final.toStrings x.final.width ∧
          t.lz = ⟨BitVec.ofNat 16 x.final.cur, s.lz.prev, BitVec.ofNat 32 x.final.resets⟩

/-- R183, the first three rows. `LZW_DECOMPRESS` with no code-size byte, and with one out of range. -/
def Obligations.DecompressRejectsCodeSize : Prop :=
  ∀ s : State, Ready s →
    (srcAvail s = 0 → exec .lzwDecompress s = .next (s.setStatus ⟨false, true, false, 3, 0x12⟩)) ∧
    (1 ≤ srcAvail s → (srcByte s s.cur.srcPos.toNat).toNat < 2 →
      exec .lzwDecompress s = .next ((s.setCur (cursorsAfter 1 0 s.cur)).setStatus ⟨false, true, false, 1, 0x12⟩)) ∧
    (1 ≤ srcAvail s → 11 < (srcByte s s.cur.srcPos.toNat).toNat →
      exec .lzwDecompress s = .next ((s.setCur (cursorsAfter 1 0 s.cur)).setStatus ⟨false, true, false, 4, 0x12⟩))

/-- R181, R182, R183, R184. `LZW_DECOMPRESS` of any stream with a legal code size, whoever made it: the output, the table, the run
registers, the leftover bits and the cursors are those of the reader of Claims.lean, for codes of every kind (`EndCode`, `ResetCode`,
the first code after a reset, the ordinary add, the deferred add) and for every fault after the code-size byte (no length byte, one
that claims too much, the chain's end before `EndCode`, a code out of range or with nothing before it, a full table, no room for a
string). `n` is any bound above the bits that `SRC` holds. First, byte by byte, a stream whose first code is `EndCode`: it completes
with no output; the rest of the block is skipped, and one length byte after it, if there is one, with what it claims as far as that
exists. -/
def Obligations.DecompressDecodesStream : Prop :=
  (∀ (s : State) (rb n p : Nat), Ready s → LegalRootBits rb → p = s.cur.srcPos.toNat →
    (srcByte s p).toNat + 1 = rb → (srcByte s (p + 1)).toNat = n → (rb + 7) / 8 ≤ n → n + 2 ≤ srcAvail s →
    leValue (srcBytes s (p + 2) ((rb + 7) / 8)) % 2 ^ rb = 2 ^ (rb - 1) + 1 →
    ∀ m, m = (if srcAvail s = n + 2 then n + 2
      else n + 3 + min (srcByte s (p + 2 + n)).toNat (srcAvail s - (n + 3))) →
    ∃ t, exec .lzwDecompress s = .next t ∧ Completed s t ∧ SameBut [.status, .res, .cur, .st, .bp, .sb, .lz] s t ∧
      t.cur = cursorsAfter m 0 s.cur ∧ t.res = { s.res with res0 := 0, res1 := BitVec.ofNat 32 m } ∧
      t.st.rootBits.toNat = rb ∧ t.lz = ⟨s.lz.cur, 0xFFFF, 0⟩ ∧
      t.sb = { s.sb with rrem := 0, rend := true } ∧ t.bp.wacc = s.bp.wacc ∧ t.bp.wcnt = s.bp.wcnt ∧
      t.bp.rcnt.toNat = 8 * ((rb + 7) / 8) - rb) ∧
  ∀ (s : State) (rb n : Nat) (x : Decoded), Ready s → LegalRootBits rb → 1 ≤ srcAvail s →
    (srcByte s s.cur.srcPos.toNat).toNat + 1 = rb → 8 * srcAvail s < n →
    x = decodeCodes s (roomLeft s) (s.cur.srcPos.toNat + 1) n (Decoding.start rb) →
    ∃ t, exec .lzwDecompress s = .next t ∧ SameBut [.status, .res, .cur, .st, .bp, .sb, .lz, .snk] s t ∧
      SnkAppends s t x.final.out ∧ TableHolds t.st x.final ∧ t.bp = leftover s.bp x.read x.final.used ∧
      t.lz = ⟨s.lz.cur, BitVec.ofNat 16 (x.final.prev.getD 0xFFFF), BitVec.ofNat 32 x.final.resets⟩ ∧
      (x.fault = none → ∀ q, q = drainedTo s (x.read.pos + x.read.rem) →
        Completed s t ∧ t.cur = srcAt q (cursorsAfter 0 x.final.out.length s.cur) ∧
        t.sb = { s.sb with rrem := 0, rend := true } ∧
        t.res = { s.res with
          res0 := BitVec.ofNat 32 x.final.out.length, res1 := BitVec.ofNat 32 (q - s.cur.srcPos.toNat) }) ∧
      ∀ k, x.fault = some k →
        FaultedWith k .lzwDecompress t ∧ t.res = s.res ∧
        t.cur = srcAt x.read.pos (cursorsAfter 0 x.final.out.length s.cur) ∧
        t.sb = { s.sb with rrem := BitVec.ofNat 8 x.read.rem, rend := x.read.stop = .ended }

/-- R188 and the loops of R230, R248: the bound the model puts on a loop (log 11) is never what ends it; more rounds change
nothing. -/
def Obligations.LoopBoundsSuffice : Prop :=
  ∀ (s : State) (k : Nat),
    framerSkipLoop (srcAvail (framerSkipBlock s) + 1 + k) s = framerSkip s ∧
    commentGetLoop (srcAvail s + 1 + k) 0 (framerROpen s) = commentGetLoop (srcAvail s + 1) 0 (framerROpen s) ∧
    ∀ t, decompressOpen s = .ok () t →
      decompressLoop (decompressBound t + k) t = decompressLoop (decompressBound t) t

/-- R186. `decompress(compress(x)) == x`: after a completed `LZW_COMPRESS`, `LZW_DECOMPRESS` on the bytes it produced completes,
appends exactly the input, consumes exactly those bytes, and ends with the same `LZ_RESETS`. -/
def Obligations.DecompressInvertsCompress : Prop :=
  ∀ s t u : State, Ready s → LegalRootBits s.args.arg0.toNat → InputInRange s s.args.arg0.toNat →
    exec .lzwCompress s = .next t → Completed s t → Ready u →
    HostCopied t s.cur.snkPos.toNat (t.cur.snkPos.toNat - s.cur.snkPos.toNat) u →
    Room u (srcAvail s) →
    ∃ v, exec .lzwDecompress u = .next v ∧ Completed u v ∧ SnkAppends u v (inputBytes s) ∧
      v.cur = cursorsAfter (t.cur.snkPos.toNat - s.cur.snkPos.toNat) (srcAvail s) u.cur ∧
      v.lz.resets = t.lz.resets

/-! ### Invariants of the whole machine -/

/-- Every step keeps both memories and the framer's buffer in canonical form (log 3, log 15; R60, R32 for the bounds). -/
def Obligations.EveryStepKeepsMemories : Prop :=
  ∀ s t : State, MemInv s → BufferInv s → step s = .next t → MemInv t ∧ BufferInv t

/-- R25, R26, R281. Every step keeps `STATUS`, `ERR` and `ERR_CMD` in agreement: idle; a pending fault has a kind 1 to 6 and no
`DONE`; with none pending both error registers are 0. -/
def Obligations.EveryStepKeepsStatus : Prop := ∀ s t : State, StatusInv s → step s = .next t → StatusInv t
end

