-- ==== Sys2Proof/Laws/Memory.lean ====
section
/-! SUPPORT. Reading after writing, and that every write keeps the canonical form. -/

namespace Sys2Proof.Machine

section
variable {α : Type}

theorem cellGet_put (m : List (Nat × α)) (a b : Nat) (v : α) :
    cellGet (cellPut m a v) b = if b = a then some v else cellGet m b := by
  induction m with
  | nil => simp [cellPut, cellGet]
  | cons c m ih =>
    obtain ⟨k, w⟩ := c
    simp only [cellPut]
    split
    · simp [cellGet]
    · split
      · subst_vars; simp only [cellGet]; split <;> rfl
      · simp only [cellGet, ih]
        by_cases hb : b = a
        · subst hb; simp_all
        · simp [hb]

@[simp] theorem cellGet_put_same (m : List (Nat × α)) (a : Nat) (v : α) : cellGet (cellPut m a v) a = some v := by
  simp [cellGet_put]

theorem cellGet_put_other (m : List (Nat × α)) {a b : Nat} (v : α) (h : b ≠ a) :
    cellGet (cellPut m a v) b = cellGet m b := by
  simp [cellGet_put, h]

theorem cellGet_erase (m : List (Nat × α)) (a b : Nat) :
    cellGet (cellErase m a) b = if b = a then none else cellGet m b := by
  induction m with
  | nil => simp [cellErase, cellGet]
  | cons c m ih =>
    obtain ⟨k, w⟩ := c
    simp only [cellErase, List.filter_cons] at ih ⊢
    by_cases hk : k = a
    · subst hk
      simp only [ne_eq, not_true_eq_false, decide_false, Bool.false_eq_true, if_false, ih, cellGet]
      split <;> rfl
    · simp only [ne_eq, hk, not_false_eq_true, decide_true, if_true, cellGet, ih]
      by_cases hb : b = a
      · subst hb; simp [Ne.symm hk]
      · simp [hb]

/-- Reading a list whose unlisted keys read as `d`, after a write. -/
theorem cellGet_set [DecidableEq α] (d : α) (m : List (Nat × α)) (a b : Nat) (v : α) :
    (cellGet (cellSet d m a v) b).getD d = if b = a then v else (cellGet m b).getD d := by
  unfold cellSet
  split
  · rw [cellGet_erase]; split <;> simp_all
  · rw [cellGet_put]; split <;> simp

theorem mem_cellPut {m : List (Nat × α)} {a : Nat} {v : α} {c : Nat × α} (h : c ∈ cellPut m a v) :
    c = (a, v) ∨ c ∈ m := by
  induction m with
  | nil => simpa [cellPut] using h
  | cons x m ih =>
    obtain ⟨k, w⟩ := x
    simp only [cellPut] at h
    split at h
    · simpa using h
    · split at h
      · rcases List.mem_cons.1 h with h | h
        · exact .inl h
        · exact .inr (List.mem_cons_of_mem _ h)
      · rcases List.mem_cons.1 h with h | h
        · exact .inr (h ▸ List.mem_cons_self)
        · rcases ih h with h | h
          · exact .inl h
          · exact .inr (List.mem_cons_of_mem _ h)

theorem cellPut_rising {m : List (Nat × α)} (h : cellsRising m) (a : Nat) (v : α) : cellsRising (cellPut m a v) := by
  induction m with
  | nil => simp [cellPut, cellsRising]
  | cons x m ih =>
    obtain ⟨k, w⟩ := x
    obtain ⟨hx, hm⟩ := List.pairwise_cons.1 h
    simp only [cellPut]
    split
    · rename_i hak
      refine List.pairwise_cons.2 ⟨fun c hc => ?_, h⟩
      rcases List.mem_cons.1 hc with rfl | hc
      · exact hak
      · exact Nat.lt_trans hak (hx c hc)
    · split
      · subst_vars
        exact List.pairwise_cons.2 ⟨hx, hm⟩
      · refine List.pairwise_cons.2 ⟨fun c hc => ?_, ih hm⟩
        rcases mem_cellPut hc with rfl | hc
        · simp only; omega
        · exact hx c hc

theorem cellErase_rising {m : List (Nat × α)} (h : cellsRising m) (a : Nat) : cellsRising (cellErase m a) :=
  h.sublist List.filter_sublist

/-- A write keeps the canonical form of a list whose unlisted keys read as `d`. -/
theorem cellSet_canonical [DecidableEq α] {d : α} {n : Nat} {m : List (Nat × α)} (h : cellsCanonical d n m) {a : Nat}
    (ha : a < n) (v : α) : cellsCanonical d n (cellSet d m a v) := by
  unfold cellSet
  split
  · refine ⟨cellErase_rising h.1 a, fun c hc => h.2 c (List.mem_filter.1 hc).1⟩
  · rename_i hv
    refine ⟨cellPut_rising h.1 a v, fun c hc => ?_⟩
    rcases mem_cellPut hc with rfl | hc
    · exact ⟨ha, hv⟩
    · exact h.2 c hc

/-- What a strictly rising list holds is what reading it gives. -/
theorem cellGet_of_mem {m : List (Nat × α)} (h : cellsRising m) {a : Nat} {v : α} (hm : (a, v) ∈ m) :
    cellGet m a = some v := by
  induction m with
  | nil => simp at hm
  | cons x m ih =>
    obtain ⟨k, w⟩ := x
    obtain ⟨hx, hr⟩ := List.pairwise_cons.1 h
    rcases List.mem_cons.1 hm with h' | h'
    · obtain ⟨rfl, rfl⟩ := Prod.mk.inj h'; simp [cellGet]
    · have : k < a := hx _ h'
      simp [cellGet, Nat.ne_of_gt this, ih hr h']

theorem mem_of_cellGet {m : List (Nat × α)} {a : Nat} {v : α} (h : cellGet m a = some v) : (a, v) ∈ m := by
  induction m with
  | nil => simp [cellGet] at h
  | cons x m ih =>
    obtain ⟨k, w⟩ := x
    simp only [cellGet] at h
    split at h
    · subst_vars; simp_all
    · exact List.mem_cons_of_mem _ (ih h)

/-- Equal canonical contents are equal data. -/
theorem cells_ext {m n : List (Nat × α)} (hm : cellsRising m) (hn : cellsRising n)
    (h : ∀ a, cellGet m a = cellGet n a) : m = n := by
  refine List.Perm.eq_of_pairwise (le := fun x y : Nat × α => x.1 < y.1) ?_ hm hn ?_
  · intro x y _ _ h1 h2; omega
  · have nd : ∀ {l : List (Nat × α)}, cellsRising l → l.Nodup := fun hl =>
      hl.imp fun {x y} hxy heq => by subst heq; omega
    refine (List.perm_ext_iff_of_nodup (nd hm) (nd hn)).2 fun c => ?_
    constructor
    · intro hc; exact mem_of_cellGet (by rw [← h]; exact cellGet_of_mem hm hc)
    · intro hc; exact mem_of_cellGet (by rw [h]; exact cellGet_of_mem hn hc)

end

theorem Memory.put_wf {m : Memory} (h : Memory.wf m) {a : Nat} (ha : a < 2 ^ 32) (v : Byte) :
    Memory.wf (cellPut m a v) := by
  refine ⟨cellPut_rising h.1 a v, fun c hc => ?_⟩
  rcases mem_cellPut hc with rfl | hc
  · exact ha
  · exact h.2 c hc

theorem Memory.nil_wf : Memory.wf [] := by simp [Memory.wf, cellsRising]

end Sys2Proof.Machine
end

