-- ==== Sys2Proof/Laws/State.lean ====
section
/-! SUPPORT. The fields of State after each update: the group written holds the new value, every other group is as it was. -/

namespace Sys2Proof.Machine

variable (s : State)

@[simp] theorem State.setStatus_fields (x : StatusRegs) :
    (s.setStatus x).status = x ∧ (s.setStatus x).args = s.args ∧ (s.setStatus x).res = s.res ∧
      (s.setStatus x).cur = s.cur ∧ (s.setStatus x).st = s.st ∧ (s.setStatus x).bp = s.bp ∧
      (s.setStatus x).sb = s.sb ∧ (s.setStatus x).lz = s.lz ∧ (s.setStatus x).hdr = s.hdr ∧
      (s.setStatus x).src = s.src ∧ (s.setStatus x).snk = s.snk ∧ (s.setStatus x).host = s.host ∧
      (s.setStatus x).free = s.free :=
  ⟨rfl, rfl, rfl, rfl, rfl, rfl, rfl, rfl, rfl, rfl, rfl, rfl, rfl⟩

@[simp] theorem State.setArgs_fields (x : ArgRegs) :
    (s.setArgs x).status = s.status ∧ (s.setArgs x).args = x ∧ (s.setArgs x).res = s.res ∧
      (s.setArgs x).cur = s.cur ∧ (s.setArgs x).st = s.st ∧ (s.setArgs x).bp = s.bp ∧ (s.setArgs x).sb = s.sb ∧
      (s.setArgs x).lz = s.lz ∧ (s.setArgs x).hdr = s.hdr ∧ (s.setArgs x).src = s.src ∧ (s.setArgs x).snk = s.snk ∧
      (s.setArgs x).host = s.host ∧ (s.setArgs x).free = s.free :=
  ⟨rfl, rfl, rfl, rfl, rfl, rfl, rfl, rfl, rfl, rfl, rfl, rfl, rfl⟩

@[simp] theorem State.setRes_fields (x : ResRegs) :
    (s.setRes x).status = s.status ∧ (s.setRes x).args = s.args ∧ (s.setRes x).res = x ∧ (s.setRes x).cur = s.cur ∧
      (s.setRes x).st = s.st ∧ (s.setRes x).bp = s.bp ∧ (s.setRes x).sb = s.sb ∧ (s.setRes x).lz = s.lz ∧
      (s.setRes x).hdr = s.hdr ∧ (s.setRes x).src = s.src ∧ (s.setRes x).snk = s.snk ∧ (s.setRes x).host = s.host ∧
      (s.setRes x).free = s.free :=
  ⟨rfl, rfl, rfl, rfl, rfl, rfl, rfl, rfl, rfl, rfl, rfl, rfl, rfl⟩

@[simp] theorem State.setCur_fields (x : Cursors) :
    (s.setCur x).status = s.status ∧ (s.setCur x).args = s.args ∧ (s.setCur x).res = s.res ∧ (s.setCur x).cur = x ∧
      (s.setCur x).st = s.st ∧ (s.setCur x).bp = s.bp ∧ (s.setCur x).sb = s.sb ∧ (s.setCur x).lz = s.lz ∧
      (s.setCur x).hdr = s.hdr ∧ (s.setCur x).src = s.src ∧ (s.setCur x).snk = s.snk ∧ (s.setCur x).host = s.host ∧
      (s.setCur x).free = s.free :=
  ⟨rfl, rfl, rfl, rfl, rfl, rfl, rfl, rfl, rfl, rfl, rfl, rfl, rfl⟩

@[simp] theorem State.setSt_fields (x : StringTable) :
    (s.setSt x).status = s.status ∧ (s.setSt x).args = s.args ∧ (s.setSt x).res = s.res ∧ (s.setSt x).cur = s.cur ∧
      (s.setSt x).st = x ∧ (s.setSt x).bp = s.bp ∧ (s.setSt x).sb = s.sb ∧ (s.setSt x).lz = s.lz ∧
      (s.setSt x).hdr = s.hdr ∧ (s.setSt x).src = s.src ∧ (s.setSt x).snk = s.snk ∧ (s.setSt x).host = s.host ∧
      (s.setSt x).free = s.free :=
  ⟨rfl, rfl, rfl, rfl, rfl, rfl, rfl, rfl, rfl, rfl, rfl, rfl, rfl⟩

@[simp] theorem State.setBp_fields (x : Packer) :
    (s.setBp x).status = s.status ∧ (s.setBp x).args = s.args ∧ (s.setBp x).res = s.res ∧ (s.setBp x).cur = s.cur ∧
      (s.setBp x).st = s.st ∧ (s.setBp x).bp = x ∧ (s.setBp x).sb = s.sb ∧ (s.setBp x).lz = s.lz ∧
      (s.setBp x).hdr = s.hdr ∧ (s.setBp x).src = s.src ∧ (s.setBp x).snk = s.snk ∧ (s.setBp x).host = s.host ∧
      (s.setBp x).free = s.free :=
  ⟨rfl, rfl, rfl, rfl, rfl, rfl, rfl, rfl, rfl, rfl, rfl, rfl, rfl⟩

@[simp] theorem State.setSb_fields (x : Framer) :
    (s.setSb x).status = s.status ∧ (s.setSb x).args = s.args ∧ (s.setSb x).res = s.res ∧ (s.setSb x).cur = s.cur ∧
      (s.setSb x).st = s.st ∧ (s.setSb x).bp = s.bp ∧ (s.setSb x).sb = x ∧ (s.setSb x).lz = s.lz ∧
      (s.setSb x).hdr = s.hdr ∧ (s.setSb x).src = s.src ∧ (s.setSb x).snk = s.snk ∧ (s.setSb x).host = s.host ∧
      (s.setSb x).free = s.free :=
  ⟨rfl, rfl, rfl, rfl, rfl, rfl, rfl, rfl, rfl, rfl, rfl, rfl, rfl⟩

@[simp] theorem State.setLz_fields (x : LzwRegs) :
    (s.setLz x).status = s.status ∧ (s.setLz x).args = s.args ∧ (s.setLz x).res = s.res ∧ (s.setLz x).cur = s.cur ∧
      (s.setLz x).st = s.st ∧ (s.setLz x).bp = s.bp ∧ (s.setLz x).sb = s.sb ∧ (s.setLz x).lz = x ∧
      (s.setLz x).hdr = s.hdr ∧ (s.setLz x).src = s.src ∧ (s.setLz x).snk = s.snk ∧ (s.setLz x).host = s.host ∧
      (s.setLz x).free = s.free :=
  ⟨rfl, rfl, rfl, rfl, rfl, rfl, rfl, rfl, rfl, rfl, rfl, rfl, rfl⟩

@[simp] theorem State.setHdr_fields (x : HeaderRegs) :
    (s.setHdr x).status = s.status ∧ (s.setHdr x).args = s.args ∧ (s.setHdr x).res = s.res ∧
      (s.setHdr x).cur = s.cur ∧ (s.setHdr x).st = s.st ∧ (s.setHdr x).bp = s.bp ∧ (s.setHdr x).sb = s.sb ∧
      (s.setHdr x).lz = s.lz ∧ (s.setHdr x).hdr = x ∧ (s.setHdr x).src = s.src ∧ (s.setHdr x).snk = s.snk ∧
      (s.setHdr x).host = s.host ∧ (s.setHdr x).free = s.free :=
  ⟨rfl, rfl, rfl, rfl, rfl, rfl, rfl, rfl, rfl, rfl, rfl, rfl, rfl⟩

@[simp] theorem State.setSrc_fields (x : Memory) :
    (s.setSrc x).status = s.status ∧ (s.setSrc x).args = s.args ∧ (s.setSrc x).res = s.res ∧
      (s.setSrc x).cur = s.cur ∧ (s.setSrc x).st = s.st ∧ (s.setSrc x).bp = s.bp ∧ (s.setSrc x).sb = s.sb ∧
      (s.setSrc x).lz = s.lz ∧ (s.setSrc x).hdr = s.hdr ∧ (s.setSrc x).src = x ∧ (s.setSrc x).snk = s.snk ∧
      (s.setSrc x).host = s.host ∧ (s.setSrc x).free = s.free :=
  ⟨rfl, rfl, rfl, rfl, rfl, rfl, rfl, rfl, rfl, rfl, rfl, rfl, rfl⟩

@[simp] theorem State.setSnk_fields (x : Memory) :
    (s.setSnk x).status = s.status ∧ (s.setSnk x).args = s.args ∧ (s.setSnk x).res = s.res ∧
      (s.setSnk x).cur = s.cur ∧ (s.setSnk x).st = s.st ∧ (s.setSnk x).bp = s.bp ∧ (s.setSnk x).sb = s.sb ∧
      (s.setSnk x).lz = s.lz ∧ (s.setSnk x).hdr = s.hdr ∧ (s.setSnk x).src = s.src ∧ (s.setSnk x).snk = x ∧
      (s.setSnk x).host = s.host ∧ (s.setSnk x).free = s.free :=
  ⟨rfl, rfl, rfl, rfl, rfl, rfl, rfl, rfl, rfl, rfl, rfl, rfl, rfl⟩

@[simp] theorem State.setHost_fields (x : HostPort) :
    (s.setHost x).status = s.status ∧ (s.setHost x).args = s.args ∧ (s.setHost x).res = s.res ∧
      (s.setHost x).cur = s.cur ∧ (s.setHost x).st = s.st ∧ (s.setHost x).bp = s.bp ∧ (s.setHost x).sb = s.sb ∧
      (s.setHost x).lz = s.lz ∧ (s.setHost x).hdr = s.hdr ∧ (s.setHost x).src = s.src ∧ (s.setHost x).snk = s.snk ∧
      (s.setHost x).host = x ∧ (s.setHost x).free = s.free :=
  ⟨rfl, rfl, rfl, rfl, rfl, rfl, rfl, rfl, rfl, rfl, rfl, rfl, rfl⟩

@[simp] theorem State.setFree_fields (x : FreeIndex) :
    (s.setFree x).status = s.status ∧ (s.setFree x).args = s.args ∧ (s.setFree x).res = s.res ∧
      (s.setFree x).cur = s.cur ∧ (s.setFree x).st = s.st ∧ (s.setFree x).bp = s.bp ∧ (s.setFree x).sb = s.sb ∧
      (s.setFree x).lz = s.lz ∧ (s.setFree x).hdr = s.hdr ∧ (s.setFree x).src = s.src ∧ (s.setFree x).snk = s.snk ∧
      (s.setFree x).host = s.host ∧ (s.setFree x).free = x :=
  ⟨rfl, rfl, rfl, rfl, rfl, rfl, rfl, rfl, rfl, rfl, rfl, rfl, rfl⟩

/-- Two states are equal when every group is. -/
theorem State.ext_groups {s t : State} (h1 : s.status = t.status) (h2 : s.args = t.args) (h3 : s.res = t.res)
    (h4 : s.cur = t.cur) (h5 : s.st = t.st) (h6 : s.bp = t.bp) (h7 : s.sb = t.sb) (h8 : s.lz = t.lz)
    (h9 : s.hdr = t.hdr) (h10 : s.src = t.src) (h11 : s.snk = t.snk) (h12 : s.host = t.host)
    (h13 : s.free = t.free) : s = t := by
  cases s; cases t; simp_all

end Sys2Proof.Machine
end

