-- ==== Sys2Proof/Laws/Run.lean ====
section
/-! SUPPORT. Sequencing of pseudocode, and properties that hold across a sequence because they hold of each part. -/

namespace Sys2Proof.Machine

variable {α β γ : Type}

@[simp] theorem Run.bind_ok (a : α) (s : State) (f : α → State → Run β) : (Run.ok a s).bind f = f a s := rfl
@[simp] theorem Run.bind_raise (k : FaultKind) (s : State) (f : α → State → Run β) :
    (Run.raise k s : Run α).bind f = .raise k s := rfl
@[simp] theorem Run.state_ok (a : α) (s : State) : (Run.ok a s).state = s := rfl
@[simp] theorem Run.state_raise (k : FaultKind) (s : State) : (Run.raise k s : Run α).state = s := rfl

theorem Run.bind_assoc (r : Run α) (f : α → State → Run β) (g : β → State → Run γ) :
    (r.bind f).bind g = r.bind fun a s => (f a s).bind g := by
  cases r <;> rfl

theorem Run.bind_eq_ok {r : Run α} {f : α → State → Run β} {b : β} {t : State} :
    r.bind f = .ok b t ↔ ∃ a s, r = .ok a s ∧ f a s = .ok b t := by
  cases r <;> simp

theorem Run.bind_eq_raise {r : Run α} {f : α → State → Run β} {k : FaultKind} {t : State} :
    r.bind f = .raise k t ↔ r = .raise k t ∨ ∃ a s, r = .ok a s ∧ f a s = .raise k t := by
  cases r <;> simp

/-- `f` leads from every state to one related to it by `R`, whether it ends normally or at a `raise`. -/
def Keeps (R : State → State → Prop) (f : State → Run α) : Prop := ∀ s, R s (f s).state

/-- A relation that holds of each part of a sequence holds of the whole. -/
theorem Keeps.bind {R : State → State → Prop} (trans : ∀ {a b c}, R a b → R b c → R a c) {f : State → Run α}
    {g : α → State → Run β} (hf : Keeps R f) (hg : ∀ a, Keeps R (g a)) : Keeps R fun s => (f s).bind g := by
  intro s
  have hs := hf s
  show R s ((f s).bind g).state
  cases h : f s with
  | ok a t => rw [h] at hs; exact trans hs (hg a t)
  | raise k t => rw [h] at hs; exact hs

/-- An invariant of each part of a sequence is an invariant of the whole. -/
theorem Run.bind_inv {P : State → Prop} {r : Run α} {f : α → State → Run β} (hr : P r.state)
    (hf : ∀ a s, r = .ok a s → P s → P (f a s).state) : P (r.bind f).state := by
  cases r with
  | ok a s => exact hf a s rfl hr
  | raise k s => exact hr

end Sys2Proof.Machine
end

