-- ==== Sys2Proof/Laws/Ops.lean ====
section
/-! SUPPORT. What each shared operation of Machine/Ops.lean does: the cursor primitives with their precondition met, the appends
to `SNK`, fault entry and the end of a command. -/

namespace Sys2Proof.Machine

/-! ### Reading `SRC` -/

/-- What is available lies inside the 32-bit space, so no advance by it wraps. -/
theorem srcPos_add_srcAvail_lt (s : State) {k : Nat} (h : k ≤ srcAvail s) : s.cur.srcPos.toNat + k < 2 ^ 32 := by
  have := s.cur.srcLen.isLt
  have := s.cur.srcPos.isLt
  unfold srcAvail at h
  split at h <;> omega

/-- The state after `SRC_POS` moved by `k` without wrap. -/
def srcMoved (k : Nat) (s : State) : State :=
  s.setCur { s.cur with srcPos := BitVec.ofNat 32 (s.cur.srcPos.toNat + k) }

theorem srcAdvance_eq {k : Nat} {s : State} (h : k ≤ srcAvail s) : srcAdvance k s = srcMoved k s := by
  simp only [srcAdvance, if_pos (srcPos_add_srcAvail_lt s h), srcMoved]

theorem srcSkip_eq {k : Nat} {s : State} (h : k ≤ srcAvail s) : srcSkip k s = srcMoved k s := srcAdvance_eq h

/-- R65: with a byte available, `SrcRead8` yields the byte at the cursor and moves the cursor by one. -/
theorem srcRead8_eq {s : State} (h : 1 ≤ srcAvail s) :
    srcRead8 s = .ok (srcByte s s.cur.srcPos.toNat) (srcMoved 1 s) := by
  simp only [srcRead8, if_pos h, srcAdvance_eq h]

@[simp] theorem srcMoved_fields (k : Nat) (s : State) :
    (srcMoved k s).status = s.status ∧ (srcMoved k s).args = s.args ∧ (srcMoved k s).res = s.res ∧
      (srcMoved k s).st = s.st ∧ (srcMoved k s).bp = s.bp ∧ (srcMoved k s).sb = s.sb ∧ (srcMoved k s).lz = s.lz ∧
      (srcMoved k s).hdr = s.hdr ∧ (srcMoved k s).src = s.src ∧ (srcMoved k s).snk = s.snk ∧
      (srcMoved k s).host = s.host ∧ (srcMoved k s).free = s.free :=
  ⟨rfl, rfl, rfl, rfl, rfl, rfl, rfl, rfl, rfl, rfl, rfl, rfl⟩

@[simp] theorem srcMoved_cursors (k : Nat) (s : State) :
    (srcMoved k s).cur.srcLen = s.cur.srcLen ∧ (srcMoved k s).cur.snkCap = s.cur.snkCap ∧
      (srcMoved k s).cur.snkPos = s.cur.snkPos :=
  ⟨rfl, rfl, rfl⟩

theorem srcMoved_srcPos {k : Nat} {s : State} (h : k ≤ srcAvail s) :
    (srcMoved k s).cur.srcPos.toNat = s.cur.srcPos.toNat + k := by
  have := srcPos_add_srcAvail_lt s h
  simp only [srcMoved, State.setCur_fields, BitVec.toNat_ofNat]
  omega

theorem srcAvail_srcMoved {k : Nat} {s : State} (h : k ≤ srcAvail s) :
    srcAvail (srcMoved k s) = srcAvail s - k := by
  have hp := srcMoved_srcPos h
  unfold srcAvail at h ⊢
  simp only [srcMoved_cursors, hp]
  split at h <;> split <;> omega

/-- Two moves are one. -/
theorem srcMoved_srcMoved {j k : Nat} {s : State} (h : j + k ≤ srcAvail s) :
    srcMoved k (srcMoved j s) = srcMoved (j + k) s := by
  have hp := srcMoved_srcPos (s := s) (k := j) (by omega)
  show (srcMoved j s).setCur { (srcMoved j s).cur with
    srcPos := BitVec.ofNat 32 ((srcMoved j s).cur.srcPos.toNat + k) } = _
  rw [hp, Nat.add_assoc]
  rfl

@[simp] theorem srcByte_srcMoved (k : Nat) (s : State) (a : Nat) : srcByte (srcMoved k s) a = srcByte s a := rfl

@[simp] theorem snkByte_srcMoved (k : Nat) (s : State) (a : Nat) : snkByte (srcMoved k s) a = snkByte s a := rfl

/-- R67, R71: with two bytes available, `SrcRead16` yields them, the first as the low byte. -/
theorem srcRead16_eq {s : State} (h : 2 ≤ srcAvail s) :
    srcRead16 s = .ok (srcByte s (s.cur.srcPos.toNat + 1) ++ srcByte s s.cur.srcPos.toNat) (srcMoved 2 s) := by
  have h1 : 1 ≤ srcAvail (srcMoved 1 s) := by rw [srcAvail_srcMoved (by omega)]; omega
  rw [srcRead16, srcRead8_eq (by omega), Run.bind_ok, srcRead8_eq h1, Run.bind_ok,
    srcMoved_srcPos (by omega), srcMoved_srcMoved h]
  rfl

/-- A read changes no group but the cursors and the free counter, and raises nothing, whatever the cursors hold. -/
theorem srcRead8_ok (s : State) : ∃ b t, srcRead8 s = .ok b t ∧ SameBut [.cur, .free] s t ∧
    t.cur.srcLen = s.cur.srcLen ∧ t.cur.snkCap = s.cur.snkCap ∧ t.cur.snkPos = s.cur.snkPos ∧
    t.free.powerOns = s.free.powerOns := by
  unfold srcRead8
  split <;> refine ⟨_, _, rfl, ?_⟩ <;> unfold srcAdvance <;> split <;>
    refine ⟨fun g hg => ?_, rfl, rfl, rfl, rfl⟩ <;> cases g <;> simp_all [SameGroup, srcByte, snkByte]

/-! ### Appending to `SNK` -/

/-- R69: with room, `SnkWrite8` stores the byte at the cursor and moves the cursor by one. -/
theorem snkWrite8_eq {v : Byte} {s : State} (h : s.cur.snkPos.toNat < s.cur.snkCap.toNat) :
    snkWrite8 v s = .ok () ((s.setSnk (cellPut s.snk s.cur.snkPos.toNat v)).setCur
      { s.cur with snkPos := BitVec.ofNat 32 (s.cur.snkPos.toNat + 1) }) := by
  simp only [snkWrite8, if_neg (Nat.not_le.2 h)]

/-- R69: without room it raises `InsufficientSpace` and changes nothing. -/
theorem snkWrite8_full {v : Byte} {s : State} (h : s.cur.snkCap.toNat ≤ s.cur.snkPos.toNat) :
    snkWrite8 v s = .raise .insufficientSpace s := by
  simp only [snkWrite8, if_pos h]

/-- The state after the bytes `bs` were appended. -/
def snkAppended : List Byte → State → State
  | [], s => s
  | b :: bs, s =>
    snkAppended bs ((s.setSnk (cellPut s.snk s.cur.snkPos.toNat b)).setCur
      { s.cur with snkPos := BitVec.ofNat 32 (s.cur.snkPos.toNat + 1) })

/-- Bytes that fit are all appended. -/
theorem snkWriteList_eq {bs : List Byte} {s : State} (h : s.cur.snkPos.toNat + bs.length ≤ s.cur.snkCap.toNat) :
    snkWriteList bs s = .ok () (snkAppended bs s) := by
  induction bs generalizing s with
  | nil => rfl
  | cons b bs ih =>
    simp only [List.length_cons] at h
    have hc := s.cur.snkCap.isLt
    rw [snkWriteList, snkWrite8_eq (by omega), Run.bind_ok, snkAppended]
    refine ih ?_
    simp only [State.setCur_fields, BitVec.toNat_ofNat]
    omega

/-- An append changes only `SNK` and `SNK_POS`, and the cursor moves by the number of bytes. -/
theorem snkAppended_fields {bs : List Byte} {s : State}
    (h : s.cur.snkPos.toNat + bs.length ≤ s.cur.snkCap.toNat) :
    SameBut [.cur, .snk] s (snkAppended bs s) ∧
      (snkAppended bs s).cur = { s.cur with snkPos := BitVec.ofNat 32 (s.cur.snkPos.toNat + bs.length) } := by
  induction bs generalizing s with
  | nil =>
    refine ⟨fun g _ => by cases g <;> simp [SameGroup, snkAppended], ?_⟩
    simp [snkAppended]
  | cons b bs ih =>
    simp only [List.length_cons] at h
    have hc := s.cur.snkCap.isLt
    have hp : (BitVec.ofNat 32 (s.cur.snkPos.toNat + 1)).toNat = s.cur.snkPos.toNat + 1 := by
      simp only [BitVec.toNat_ofNat]; omega
    have := @ih ((s.setSnk (cellPut s.snk s.cur.snkPos.toNat b)).setCur
      { s.cur with snkPos := BitVec.ofNat 32 (s.cur.snkPos.toNat + 1) }) (by simp only [State.setCur_fields, hp]; omega)
    obtain ⟨hs, hcur⟩ := this
    refine ⟨fun g hg => ?_, ?_⟩
    · have := hs g hg
      cases g <;> simp_all [SameGroup, snkAppended, srcByte]
    · rw [snkAppended, hcur]
      simp only [State.setCur_fields, hp, List.length_cons]
      congr 2; omega

/-- R62: the appended bytes stand from the old cursor on, and every other byte reads as before. -/
theorem snkAppended_bytes {bs : List Byte} {s : State} (h : s.cur.snkPos.toNat + bs.length ≤ s.cur.snkCap.toNat) :
    SnkAppends s (snkAppended bs s) bs := by
  induction bs generalizing s with
  | nil => exact ⟨fun i b hb => by simp at hb, fun a _ => rfl⟩
  | cons b bs ih =>
    simp only [List.length_cons] at h
    have hc := s.cur.snkCap.isLt
    have hp : (BitVec.ofNat 32 (s.cur.snkPos.toNat + 1)).toNat = s.cur.snkPos.toNat + 1 := by
      simp only [BitVec.toNat_ofNat]; omega
    obtain ⟨hin, hout⟩ := @ih ((s.setSnk (cellPut s.snk s.cur.snkPos.toNat b)).setCur
      { s.cur with snkPos := BitVec.ofNat 32 (s.cur.snkPos.toNat + 1) }) (by simp only [State.setCur_fields, hp]; omega)
    simp only [State.setCur_fields, hp] at hin hout
    have hone : ∀ a, snkByte ((s.setSnk (cellPut s.snk s.cur.snkPos.toNat b)).setCur
        { s.cur with snkPos := BitVec.ofNat 32 (s.cur.snkPos.toNat + 1) }) a =
        if a = s.cur.snkPos.toNat then b else snkByte s a := by
      intro a
      simp only [snkByte, State.setCur_fields, State.setSnk_fields, cellGet_put]
      split <;> simp
    refine ⟨fun i x hx => ?_, fun a ha => ?_⟩
    · cases i with
      | zero =>
        simp only [List.getElem?_cons_zero, Option.some.injEq] at hx
        rw [snkAppended, hout _ (.inl (by omega)), hone]
        simp [hx]
      | succ i =>
        rw [List.getElem?_cons_succ] at hx
        rw [snkAppended, ← hin i x hx]
        congr 1; omega
    · simp only [List.length_cons] at ha
      rw [snkAppended, hout a (by omega), hone]
      split
      · omega
      · rfl

/-- An append keeps the canonical form of `SNK`. -/
theorem snkAppended_wf {bs : List Byte} {s : State} (h : Memory.wf s.snk) : Memory.wf (snkAppended bs s).snk := by
  induction bs generalizing s with
  | nil => exact h
  | cons b bs ih => exact ih (Memory.put_wf h s.cur.snkPos.isLt b)

/-- `SnkWrite8` keeps the canonical form of `SNK`, whether it raises or not. -/
theorem snkWrite8_wf {v : Byte} {s : State} (h : Memory.wf s.snk) : Memory.wf (snkWrite8 v s).state.snk := by
  unfold snkWrite8
  split
  · exact h
  · exact Memory.put_wf h s.cur.snkPos.isLt v

/-! ### The end of a command -/

/-- R273: a command whose body ends normally completes. -/
theorem runCommand_ok {i : Instr} {body : State → Run Unit} {s t : State} (hs : Ready s)
    (h : body (s.setStatus (beginFlags s.status)) = .ok () t) :
    runCommand i body s = .next (t.setStatus (completeFlags t.status)) := by
  simp [runCommand, show s.status.fault = false from hs, h, endCommand]

/-- R273, R290: a command whose body raises ends in fault entry. -/
theorem runCommand_raise {i : Instr} {body : State → Run Unit} {s t : State} {k : FaultKind} (hs : Ready s)
    (h : body (s.setStatus (beginFlags s.status)) = .raise k t) :
    runCommand i body s = .next (t.setStatus (idleFlags (faultFlags k (opcodeOf i) t.status))) := by
  rw [runCommand, show s.status.fault = false from hs, h]
  rfl

/-- R294: while a fault is pending a command is ignored. -/
theorem runCommand_ignored {i : Instr} {body : State → Run Unit} {s : State} (hs : ¬ Ready s) :
    runCommand i body s = .next s := by
  simp only [Ready, Bool.not_eq_false] at hs
  simp [runCommand, hs]

/-- A command always has a next state. -/
theorem runCommand_next (i : Instr) (body : State → Run Unit) (s : State) : ∃ t, runCommand i body s = .next t := by
  unfold runCommand; split <;> exact ⟨_, rfl⟩

/-- The flags a command that completes leaves, if its body did not write them. -/
theorem completeFlags_beginFlags {f : StatusRegs} (h : f.fault = false) :
    completeFlags (beginFlags f) = ⟨false, false, true, f.err, f.errCmd⟩ := by
  simp [completeFlags, beginFlags, h]

/-- The flags a command that faults leaves, if its body did not write them. -/
theorem faultFlags_beginFlags (f : StatusRegs) (k : FaultKind) (op : BitVec 8) :
    idleFlags (faultFlags k op (beginFlags f)) = ⟨false, true, false, k.code, op⟩ := rfl

end Sys2Proof.Machine
end

