-- ==== Sys2Proof/Laws/Framer.lean ====
section
/-! SUPPORT. What each operation of Machine/Framer.lean does: emission, buffering, the length byte, the reader, the skip. -/

namespace Sys2Proof.Machine

/-! ### The writer -/

theorem wbufAt_set (f : Framer) (i j : Nat) (b : Byte) :
    wbufAt { f with wbuf := cellSet 0 f.wbuf i b } j = if j = i then b else wbufAt f j := cellGet_set _ _ _ _ _

@[simp] theorem wbufBytes_length (f : Framer) : (wbufBytes f).length = f.wcnt.toNat := by simp [wbufBytes]

@[simp] theorem wbufBytes_empty (f : Framer) : wbufBytes { f with wcnt := 0 } = [] := by simp [wbufBytes]

/-- R221: the block goes out whole, or `InsufficientSpace` is raised with nothing written and the block kept. -/
theorem framerEmit_cases (s : State) :
    (s.cur.snkPos.toNat + (1 + s.sb.wcnt.toNat) ≤ s.cur.snkCap.toNat ∧
        framerEmit s = .ok () ((snkAppended (s.sb.wcnt :: wbufBytes s.sb) s).setSb { s.sb with wcnt := 0 })) ∨
      (s.cur.snkCap.toNat < s.cur.snkPos.toNat + (1 + s.sb.wcnt.toNat) ∧
        framerEmit s = .raise .insufficientSpace s) := by
  unfold framerEmit
  simp only [snkFits, decide_eq_false_iff_not]
  split
  · exact .inr ⟨by omega, rfl⟩
  · rename_i h
    have hfit : s.cur.snkPos.toNat + (s.sb.wcnt :: wbufBytes s.sb).length ≤ s.cur.snkCap.toNat := by
      simp only [List.length_cons, wbufBytes_length]; omega
    refine .inl ⟨by omega, ?_⟩
    rw [snkWriteList_eq hfit, Run.bind_ok, show (snkAppended (s.sb.wcnt :: wbufBytes s.sb) s).sb = s.sb from
      (snkAppended_fields hfit).1 .sb (by simp)]

/-- R222: a byte joins the pending block. -/
theorem framerBuffer_bytes {b : Byte} {s : State} (h : s.sb.wcnt.toNat < 255) :
    wbufBytes (framerBuffer b s).sb = wbufBytes s.sb ++ [b] := by
  have hn : (s.sb.wcnt + 1).toNat = s.sb.wcnt.toNat + 1 := by
    have : (1 : Byte).toNat = 1 := rfl
    simp only [BitVec.toNat_add, this]; omega
  simp only [framerBuffer, State.setSb_fields, wbufBytes, hn, List.range_succ, List.map_append, List.map_cons,
    List.map_nil]
  congr 1
  · refine List.map_congr_left fun i hi => ?_
    have : i ≠ s.sb.wcnt.toNat := Nat.ne_of_lt (List.mem_range.1 hi)
    simpa [wbufAt, this] using cellGet_set (0 : Byte) s.sb.wbuf s.sb.wcnt.toNat i b
  · simpa [wbufAt] using cellGet_set (0 : Byte) s.sb.wbuf s.sb.wcnt.toNat s.sb.wcnt.toNat b

/-- Buffering keeps the canonical form of `SB_WBUF`. -/
theorem framerBuffer_canonical {b : Byte} {s : State} (h : BufferInv s) (hn : s.sb.wcnt.toNat < 255) :
    BufferInv (framerBuffer b s) := cellSet_canonical h hn b

/-! ### The reader -/

/-- R227, R230: the length byte of the next block, in its four cases. -/
theorem framerLength_cases (s : State) :
    (srcAvail s = 0 ∧ framerLength s = .raise .truncatedStream s) ∨
      (1 ≤ srcAvail s ∧ srcByte s s.cur.srcPos.toNat = 0 ∧
        framerLength s = .ok () ((srcMoved 1 s).setSb { s.sb with rend := true })) ∨
      (1 ≤ srcAvail s ∧ srcAvail s < 1 + (srcByte s s.cur.srcPos.toNat).toNat ∧
        framerLength s = .raise .truncatedStream (srcMoved 1 s)) ∨
      (srcByte s s.cur.srcPos.toNat ≠ 0 ∧ 1 + (srcByte s s.cur.srcPos.toNat).toNat ≤ srcAvail s ∧
        framerLength s = .ok () ((srcMoved 1 s).setSb { s.sb with rrem := srcByte s s.cur.srcPos.toNat })) := by
  unfold framerLength
  split
  · exact .inl ⟨by assumption, rfl⟩
  · rename_i h0
    have h1 : 1 ≤ srcAvail s := by omega
    rw [srcRead8_eq h1, Run.bind_ok]
    simp only [srcAvail_srcMoved h1]
    split
    · exact .inr (.inl ⟨h1, by assumption, rfl⟩)
    · split
      · exact .inr (.inr (.inl ⟨h1, by omega, rfl⟩))
      · exact .inr (.inr (.inr ⟨by assumption, by omega, rfl⟩))

/-- R227: a byte left in the block and present in `SRC`. -/
theorem framerTake_eq {s : State} (h : 1 ≤ srcAvail s) :
    framerTake s = .ok (some (srcByte s s.cur.srcPos.toNat))
      ((srcMoved 1 s).setSb { s.sb with rrem := s.sb.rrem - 1 }) := by
  rw [framerTake, srcRead8_eq h, Run.bind_ok]
  rfl

/-- R227: `FramerGet` once the chain has ended. -/
theorem framerGet_end {s : State} (h : s.sb.rend = true) : framerGet s = .ok none s := by
  simp [framerGet, h]

/-- R227: `FramerGet` inside a block. -/
theorem framerGet_block {s : State} (h : s.sb.rend = false) (hr : s.sb.rrem ≠ 0) (ha : 1 ≤ srcAvail s) :
    framerGet s = .ok (some (srcByte s s.cur.srcPos.toNat))
      ((srcMoved 1 s).setSb { s.sb with rrem := s.sb.rrem - 1 }) := by
  rw [framerGet, if_neg (by simp [h]), if_neg hr, framerTake_eq ha]

/-- R230: the skip of the rest of a block that is there. -/
theorem framerSkipBlock_eq {s : State} (h : s.sb.rrem.toNat ≤ srcAvail s) :
    framerSkipBlock s = (srcMoved s.sb.rrem.toNat s).setSb { s.sb with rrem := 0 } := by
  rw [framerSkipBlock, srcSkip_eq h]
  rfl

/-- R230, R231: `FramerSkip` once the chain has ended does nothing. -/
theorem framerSkip_end {s : State} (h : s.sb.rend = true) : framerSkip s = .ok () s := by
  simp [framerSkip, framerSkipLoop, h]

end Sys2Proof.Machine
end

