-- ==== Sys2Proof/Laws/BitPacker.lean ====
section
/-! SUPPORT. What the steps of Machine/BitPacker.lean do to the accumulators and to everything else. -/

namespace Sys2Proof.Machine

/-- R201: taking a byte out of the write accumulator, in numbers. -/
theorem packShift_bp {s : State} (h : 8 ≤ s.bp.wcnt.toNat) :
    (packShift s).bp.wacc.toNat = s.bp.wacc.toNat / 256 ∧ (packShift s).bp.wcnt.toNat = s.bp.wcnt.toNat - 8 ∧
      (packShift s).bp.racc = s.bp.racc ∧ (packShift s).bp.rcnt = s.bp.rcnt := by
  have := s.bp.wcnt.isLt
  refine ⟨?_, ?_, rfl, rfl⟩
  · simp [packShift, Nat.shiftRight_eq_div_pow]
  · simp only [packShift, State.setBp_fields, BitVec.toNat_sub, show (8 : BitVec 5).toNat = 8 from rfl]; omega

/-- R201: merging a code, in numbers, when it fits its width and the accumulator has room. -/
theorem packMerge_bp {c w : Nat} {s : State} (hc : c < 2 ^ w) (hw : s.bp.wcnt.toNat + w ≤ 19)
    (hacc : s.bp.wacc.toNat < 2 ^ s.bp.wcnt.toNat) :
    (packMerge c w s).bp.wacc.toNat = s.bp.wacc.toNat + c * 2 ^ s.bp.wcnt.toNat ∧
      (packMerge c w s).bp.wcnt.toNat = s.bp.wcnt.toNat + w ∧
      (packMerge c w s).bp.racc = s.bp.racc ∧ (packMerge c w s).bp.rcnt = s.bp.rcnt := by
  have hc' : c * 2 ^ s.bp.wcnt.toNat < 2 ^ 19 := by
    calc c * 2 ^ s.bp.wcnt.toNat < 2 ^ w * 2 ^ s.bp.wcnt.toNat :=
          Nat.mul_lt_mul_of_pos_right hc (Nat.two_pow_pos _)
      _ = 2 ^ (s.bp.wcnt.toNat + w) := by rw [← Nat.pow_add, Nat.add_comm]
      _ ≤ 2 ^ 19 := Nat.pow_le_pow_right (by decide) hw
  have hc19 : c < 2 ^ 19 := lt_of_le_of_lt (Nat.le_mul_of_pos_right c (Nat.two_pow_pos _)) hc'
  have := s.bp.wcnt.isLt
  refine ⟨?_, ?_, rfl, rfl⟩
  · simp only [packMerge, State.setBp_fields, BitVec.toNat_or, BitVec.toNat_shiftLeft, BitVec.toNat_ofNat]
    rw [Nat.mod_eq_of_lt hc19, Nat.shiftLeft_eq, Nat.mod_eq_of_lt hc', Nat.or_comm, Nat.add_comm,
      ← Nat.shiftLeft_eq, Nat.shiftLeft_add_eq_or_of_lt hacc]
  · simp only [packMerge, State.setBp_fields, BitVec.toNat_add, BitVec.toNat_ofNat]; omega

/-- R205: merging a fetched byte, in numbers, when at most 11 bits are there. -/
theorem unpackMerge_bp {b : Byte} {s : State} (hr : s.bp.rcnt.toNat ≤ 11)
    (hacc : s.bp.racc.toNat < 2 ^ s.bp.rcnt.toNat) :
    (unpackMerge b s).bp.racc.toNat = s.bp.racc.toNat + b.toNat * 2 ^ s.bp.rcnt.toNat ∧
      (unpackMerge b s).bp.rcnt.toNat = s.bp.rcnt.toNat + 8 ∧
      (unpackMerge b s).bp.wacc = s.bp.wacc ∧ (unpackMerge b s).bp.wcnt = s.bp.wcnt := by
  have hb := b.isLt
  have hb' : b.toNat * 2 ^ s.bp.rcnt.toNat < 2 ^ 19 := by
    calc b.toNat * 2 ^ s.bp.rcnt.toNat < 2 ^ 8 * 2 ^ s.bp.rcnt.toNat :=
          Nat.mul_lt_mul_of_pos_right hb (Nat.two_pow_pos _)
      _ = 2 ^ (8 + s.bp.rcnt.toNat) := by rw [← Nat.pow_add]
      _ ≤ 2 ^ 19 := Nat.pow_le_pow_right (by decide) (by omega)
  refine ⟨?_, ?_, rfl, rfl⟩
  · simp only [unpackMerge, State.setBp_fields, BitVec.toNat_or, BitVec.toNat_shiftLeft, BitVec.toNat_setWidth]
    rw [Nat.mod_eq_of_lt (show b.toNat < 2 ^ 19 by omega), Nat.shiftLeft_eq, Nat.mod_eq_of_lt hb', Nat.or_comm,
      Nat.add_comm, ← Nat.shiftLeft_eq, Nat.shiftLeft_add_eq_or_of_lt hacc]
  · simp only [unpackMerge, State.setBp_fields, BitVec.toNat_add, show (8 : BitVec 5).toNat = 8 from rfl]; omega

/-- The packer's own steps write no group but `bp`. -/
theorem pack_steps_frame (s : State) (c w : Nat) (b : Byte) :
    SameBut [.bp] s (packShift s) ∧ SameBut [.bp] s (packMerge c w s) ∧ SameBut [.bp] s (unpackMerge b s) := by
  refine ⟨fun g hg => ?_, fun g hg => ?_, fun g hg => ?_⟩ <;> cases g <;>
    simp_all [SameGroup, packShift, packMerge, unpackMerge, srcByte, snkByte]

/-- R208: a byte put in raw mode. -/
@[simp] theorem putByte_raw (b : Byte) (s : State) : putByte b .raw s = snkWrite8 b s := rfl

/-- R208: a byte put in framed mode. -/
@[simp] theorem putByte_framed (b : Byte) (s : State) : putByte b .framed s = framerPut b s := rfl

/-- R208: a byte got in raw mode. -/
theorem getByte_raw {s : State} (h : 1 ≤ srcAvail s) :
    getByte .raw s = .ok (srcByte s s.cur.srcPos.toNat) (srcMoved 1 s) := by
  have : srcAvail s ≠ 0 := by omega
  simp [getByte, this, srcRead8_eq h]

/-- R208: a byte got in framed mode, inside a block. -/
theorem getByte_framed {s : State} (h : s.sb.rend = false) (hr : s.sb.rrem ≠ 0) (ha : 1 ≤ srcAvail s) :
    getByte .framed s = .ok (srcByte s s.cur.srcPos.toNat)
      ((srcMoved 1 s).setSb { s.sb with rrem := s.sb.rrem - 1 }) := by
  simp [getByte, framerGet_block h hr ha]

end Sys2Proof.Machine
end

