-- ==== Sys2Proof/Laws/Claims.lean ====
section
/-! SUPPORT. The small lemmas of the functions the statements use: room, the chain reader case by case,
the strings of a table generation, the code writer and the code reader. -/

namespace Sys2Proof.Claims

open Sys2Proof.Machine

/-! ### Room -/

theorem room_iff_le_roomLeft (s : State) (n : Nat) : Room s n ↔ n ≤ roomLeft s := by
  unfold Room roomLeft; omega

theorem not_room_iff (s : State) (n : Nat) : ¬ Room s n ↔ roomLeft s < n := by
  rw [room_iff_le_roomLeft, Nat.not_le]

@[simp] theorem room_zero (s : State) : Room s 0 := .inl rfl

@[simp] theorem srcAt_srcPos (p : Nat) (c : Cursors) : (srcAt p c).srcPos = BitVec.ofNat 32 p := rfl
@[simp] theorem srcAt_srcLen (p : Nat) (c : Cursors) : (srcAt p c).srcLen = c.srcLen := rfl
@[simp] theorem srcAt_snkPos (p : Nat) (c : Cursors) : (srcAt p c).snkPos = c.snkPos := rfl
@[simp] theorem srcAt_snkCap (p : Nat) (c : Cursors) : (srcAt p c).snkCap = c.snkCap := rfl

/-! ### Chains -/

@[simp] theorem chainRead_none (s : State) (p r : Nat) : chainRead s 0 p r = ⟨[], p, r, .got⟩ := by
  simp [chainRead]

/-- A byte due inside a block. -/
theorem chainRead_inside {s : State} {k p r : Nat} (h : p < s.cur.srcLen.toNat) :
    chainRead s (k + 1) p (r + 1) =
      { chainRead s k (p + 1) r with bytes := srcByte s p :: (chainRead s k (p + 1) r).bytes } := by
  simp [chainRead, Nat.not_le.mpr h]

/-- A length byte due, and none left. -/
theorem chainRead_no_length {s : State} {k p : Nat} (h : s.cur.srcLen.toNat ≤ p) :
    chainRead s (k + 1) p 0 = ⟨[], p, 0, .truncated⟩ := by
  simp [chainRead, h]

/-- A length byte due, and the end of the chain met. -/
theorem chainRead_end {s : State} {k p : Nat} (h : p < s.cur.srcLen.toNat) (hz : srcByte s p = 0) :
    chainRead s (k + 1) p 0 = ⟨[], p + 1, 0, .ended⟩ := by
  simp [chainRead, Nat.not_le.mpr h, hz]

/-- A length byte due that is there and claims no more than remains. -/
theorem chainRead_block {s : State} {k p : Nat} (hz : srcByte s p ≠ 0)
    (h : p + 1 + (srcByte s p).toNat ≤ s.cur.srcLen.toNat) :
    chainRead s (k + 1) p 0 =
      { chainRead s k (p + 2) ((srcByte s p).toNat - 1) with
        bytes := srcByte s (p + 1) :: (chainRead s k (p + 2) ((srcByte s p).toNat - 1)).bytes } := by
  have hz : ¬ srcByte s p = 0#8 := hz
  simp [chainRead, hz, Nat.not_lt.mpr h, Nat.not_le.mpr (show p < s.cur.srcLen.toNat by omega)]

/-- At most the bytes asked for are read, and all of them exactly when nothing ended the read. -/
theorem chainRead_length (s : State) (k p r : Nat) :
    (chainRead s k p r).bytes.length ≤ k ∧
      ((chainRead s k p r).stop = .got ↔ (chainRead s k p r).bytes.length = k) := by
  fun_induction chainRead s k p r <;> simp_all <;> assumption

/-- A read that did not get its bytes stops where a length byte was due, or past the input. -/
theorem chainRead_rem (s : State) (k p r : Nat) (h : (chainRead s k p r).stop ≠ .got) :
    (chainRead s k p r).rem = 0 ∨ (chainRead s k p r).stop = .past := by
  fun_induction chainRead s k p r <;> simp_all <;> solve_by_elim

/-! ### Strings -/

/-- A string appended gets the code allocated next; every other code keeps its own. -/
theorem string_append (rb : Nat) (dict : List (List Byte)) (x : List Byte) (c : Nat) :
    (Strings.mk rb (dict ++ [x])).string c =
      if c = (Strings.mk rb dict).count then some x else (Strings.mk rb dict).string c := by
  unfold Strings.string Strings.count
  by_cases h1 : c < 2 ^ (rb - 1)
  · simp [Strings.resetCode, h1, show c ≠ 2 ^ (rb - 1) + 2 + dict.length by omega]
  · by_cases h2 : c ≤ 2 ^ (rb - 1) + 1
    · simp [Strings.endCode, Strings.resetCode, h1, h2, show c ≠ 2 ^ (rb - 1) + 2 + dict.length by omega]
    · by_cases h3 : c = 2 ^ (rb - 1) + 2 + dict.length
      · subst h3
        simp [Strings.endCode, Strings.resetCode, show ¬ 2 ^ (rb - 1) + 2 + dict.length < 2 ^ (rb - 1) by omega,
          show ¬ 2 ^ (rb - 1) + 2 + dict.length ≤ 2 ^ (rb - 1) + 1 by omega]
      · simp only [Strings.endCode, Strings.resetCode, h1, h2, h3, if_false]
        by_cases h4 : c - (2 ^ (rb - 1) + 2) < dict.length
        · rw [List.getElem?_append_left h4]
        · rw [List.getElem?_eq_none (by simp; omega), List.getElem?_eq_none (by omega)]

/-- The code found for a string stands for that string, unless it is empty. -/
theorem string_of_code {d : Strings} {x : List Byte} {c : Nat} (h : d.code x = some c) : d.string c = some x := by
  have hdyn : ∀ y, (d.dict.idxOf? y).map (d.resetCode + 2 + ·) = some c → d.string c = some y := by
    intro y hy
    obtain ⟨i, hi, rfl⟩ := Option.map_eq_some_iff.mp hy
    obtain ⟨hl, he, -⟩ := List.idxOf?_eq_some_iff.mp hi
    simp [Strings.string, Strings.endCode, show ¬ d.resetCode + 2 + i < d.resetCode by omega,
      show ¬ d.resetCode + 2 + i ≤ d.resetCode + 1 by omega, List.getElem?_eq_getElem hl, he]
  unfold Strings.code at h
  split at h
  · split at h
    · cases h; simp [Strings.string, *]
    · cases h
  · exact hdyn _ h

/-! ### The code writer -/

@[simp] theorem coding_start_count (rb : Nat) : (Coding.start rb).count = 2 ^ (rb - 1) + 2 := rfl
@[simp] theorem coding_start_pfx (rb : Nat) : (Coding.start rb).pfx = [] := rfl

@[simp] theorem bind_none (e : Coding) (f : Coding → Coded) : (Coded.mk e none).bind f = f e := by simp [Coded.bind]

@[simp] theorem bind_some (e : Coding) (k : FaultKind) (f : Coding → Coded) :
    (Coded.mk e (some k)).bind f = ⟨e, some k⟩ := by simp [Coded.bind]

/-- A put appends the code at the current width and changes nothing else. -/
@[simp] theorem put_final (lim : Option Nat) (c : Nat) (e : Coding) :
    (e.put lim c).final = { e with codes := e.codes ++ [(c, e.width)] } := rfl

/-- Without a limit a put ends nothing. -/
@[simp] theorem put_unlimited (c : Nat) (e : Coding) :
    e.put none c = ⟨{ e with codes := e.codes ++ [(c, e.width)] }, none⟩ := by simp [Coding.put]

/-- Without a limit only a byte with no root code ends the coding of an input. -/
theorem encodeBytes_unlimited_fault (x : List Byte) (e : Coding) :
    (encodeBytes none x e).fault = none ∨ (encodeBytes none x e).fault = some .corruptStream := by
  induction x generalizing e with
  | nil => left; simp only [encodeBytes, Coding.finish]; split <;> simp
  | cons b x ih =>
    simp only [encodeBytes, Coding.take]
    split
    · right; simp
    · split
      · simpa using ih _
      · simp only [Coding.emit, put_unlimited, bind_none]
        split <;> simpa using ih _

/-- The codes of two lists, one behind the other. -/
theorem codesValue_append (xs ys : List (Nat × Nat)) :
    codesValue (xs ++ ys) = codesValue xs + 2 ^ totalBits xs * codesValue ys := by
  induction xs with
  | nil => simp [codesValue, totalBits]
  | cons x xs ih => simp only [List.cons_append, codesValue, ih, totalBits, List.map_cons, List.sum_cons]; ring

/-! ### The code reader -/

@[simp] theorem decoding_start_resetCode (rb : Nat) : (Decoding.start rb).resetCode = 2 ^ (rb - 1) := rfl
@[simp] theorem decoding_start_count (rb : Nat) : (Decoding.start rb).count = 2 ^ (rb - 1) + 2 := rfl
@[simp] theorem decoding_start_prev (rb : Nat) : (Decoding.start rb).prev = none := rfl

/-- The strings of the codes so far are kept, and the code allocated is the count. -/
theorem extend_string {d e : Decoding} {x : List Byte} (h : d.extend x = some e) (c : Nat) :
    e.string c = if c = d.count then some x else d.string c := by
  unfold Decoding.extend at h
  split at h
  · cases h
  · cases h; exact string_append d.rootBits d.dict x c

end Sys2Proof.Claims
end

