-- ==== Sys2Proof/Laws/Decode.lean ====
section
/-! SUPPORT. Words and their fields, opcodes and commands. -/

namespace Sys2Proof

/-- A word is its fields. -/
@[simp] theorem joinWord_splitWord (w : Word) : joinWord (splitWord w) = w := by
  refine BitVec.eq_of_getLsbD_eq fun i hi => ?_
  simp only [joinWord, splitWord, BitVec.getLsbD_append, BitVec.getLsbD_extractLsb']
  split
  · simp_all
  · rw [show 8 + (i - 8) = i by omega]
    simp; omega

/-- The fields of a word are those it was made of. -/
@[simp] theorem splitWord_joinWord (c : CommandWord) : splitWord (joinWord c) = c := by
  obtain ⟨op, z⟩ := c
  simp only [splitWord, joinWord, CommandWord.mk.injEq]
  constructor <;> refine BitVec.eq_of_getLsbD_eq fun i hi => ?_ <;>
    simp only [BitVec.getLsbD_extractLsb', BitVec.getLsbD_append]
  · simp [hi]
  · simp [hi]

/-- The opcode map read in both directions. -/
@[simp] theorem decodeOpcode_opcodeOf (i : Instr) : decodeOpcode (opcodeOf i) = some i := by
  cases i <;> rfl

/-- Every opcode of the map is assigned. -/
theorem opcodeOf_assigned (i : Instr) : assignedOpcodes.contains (opcodeOf i) = true := by
  cases i <;> rfl

/-- An opcode that decodes is the opcode of what it decodes to. -/
theorem opcodeOf_of_decodeOpcode {op : BitVec 8} {i : Instr} (h : decodeOpcode op = some i) : opcodeOf i = op := by
  revert i; revert op; decide

/-- The fields of an encoded command. -/
@[simp] theorem splitWord_encode (i : Instr) : splitWord (encode i) = ⟨opcodeOf i, 0⟩ := splitWord_joinWord _

end Sys2Proof
end

