-- ==== Sys2Proof/Laws/Header.lean ====
section
/-! SUPPORT. Records written whole or not at all, the lengths of the records, and the drain after an `EndCode`. -/

namespace Sys2Proof.Machine

@[simp] theorem fileHeaderBytes_length (h : HeaderRegs) : (fileHeaderBytes h).length = 13 := rfl
@[simp] theorem imageHeaderBytes_length (h : HeaderRegs) : (imageHeaderBytes h).length = 9 := rfl
@[simp] theorem gcbBytes_length (h : HeaderRegs) : (gcbBytes h).length = 6 := rfl

/-- R240: a record is appended whole, or `InsufficientSpace` is raised with nothing written. -/
theorem writeRecord_cases (bytes : List Byte) (s : State) :
    (s.cur.snkPos.toNat + bytes.length ≤ s.cur.snkCap.toNat ∧
        writeRecord bytes s = .ok () (snkAppended bytes s)) ∨
      (s.cur.snkCap.toNat < s.cur.snkPos.toNat + bytes.length ∧
        writeRecord bytes s = .raise .insufficientSpace s) := by
  by_cases h : s.cur.snkPos.toNat + bytes.length ≤ s.cur.snkCap.toNat
  · refine .inl ⟨h, ?_⟩
    rw [writeRecord, if_neg (by simpa [snkFits] using h), snkWriteList_eq h]
  · exact .inr ⟨by omega, by rw [writeRecord, if_pos (by simpa [snkFits] using h)]⟩

/-- R184: the drain never raises and always ends the chain, with no byte left in the block. -/
theorem framerDrain_ok (s : State) : ∃ t, framerDrain s = .ok () t ∧ t.sb = { s.sb with rrem := 0, rend := true } := by
  have hadv : ∀ (k : Nat) (u : State), (srcAdvance k u).sb = u.sb := by
    intro k u; unfold srcAdvance; split <;> rfl
  have hu : (framerSkipBlock s).sb = { s.sb with rrem := 0 } := by simp [framerSkipBlock, srcSkip, hadv]
  rw [framerDrain]
  generalize framerSkipBlock s = u at hu
  by_cases h : srcAvail u = 0
  · exact ⟨u.setSb { u.sb with rend := true }, by simp [drainTail, h], by simp [hu]⟩
  · obtain ⟨b, t, ht, hsame, -⟩ := srcRead8_ok u
    have hsb : t.sb = u.sb := hsame .sb (by simp)
    refine ⟨(srcSkip (min b.toNat (srcAvail t)) t).setSb
      { (srcSkip (min b.toNat (srcAvail t)) t).sb with rend := true }, by simp [drainTail, h, ht], ?_⟩
    simp [srcSkip, hadv, hsb, hu]

end Sys2Proof.Machine
end

