-- ==== Sys2Proof/Laws/PerInstr.lean ====
section
/-! SUPPORT. One fact per command: its word is well formed by the checks of R93 and has a clear zero field (R90). -/

namespace Sys2Proof.Laws

/-- The word that encodes `i` passes both checks of R93, and bits 31:8 of it are 0. -/
def Encoded.Statement (i : Instr) : Prop :=
  (splitWord (encode i)).wellFormed = true ∧ encode i = (opcodeOf i).setWidth 32

theorem Encoded.nop : Encoded.Statement .nop := by constructor <;> decide
theorem Encoded.stReset : Encoded.Statement .stReset := by constructor <;> decide
theorem Encoded.stAdd : Encoded.Statement .stAdd := by constructor <;> decide
theorem Encoded.stFind : Encoded.Statement .stFind := by constructor <;> decide
theorem Encoded.stWrstr : Encoded.Statement .stWrstr := by constructor <;> decide
theorem Encoded.stFirst : Encoded.Statement .stFirst := by constructor <;> decide
theorem Encoded.stUnused : Encoded.Statement .stUnused := by constructor <;> decide
theorem Encoded.stBase : Encoded.Statement .stBase := by constructor <;> decide
theorem Encoded.lzwCompress : Encoded.Statement .lzwCompress := by constructor <;> decide
theorem Encoded.lzwEstimate : Encoded.Statement .lzwEstimate := by constructor <;> decide
theorem Encoded.lzwDecompress : Encoded.Statement .lzwDecompress := by constructor <;> decide
theorem Encoded.bpInit : Encoded.Statement .bpInit := by constructor <;> decide
theorem Encoded.bpPut : Encoded.Statement .bpPut := by constructor <;> decide
theorem Encoded.bpFlush : Encoded.Statement .bpFlush := by constructor <;> decide
theorem Encoded.bpGet : Encoded.Statement .bpGet := by constructor <;> decide
theorem Encoded.sbOpen : Encoded.Statement .sbOpen := by constructor <;> decide
theorem Encoded.sbPut : Encoded.Statement .sbPut := by constructor <;> decide
theorem Encoded.sbClose : Encoded.Statement .sbClose := by constructor <;> decide
theorem Encoded.sbRopen : Encoded.Statement .sbRopen := by constructor <;> decide
theorem Encoded.sbGet : Encoded.Statement .sbGet := by constructor <;> decide
theorem Encoded.sbSkip : Encoded.Statement .sbSkip := by constructor <;> decide
theorem Encoded.hdrWrFile : Encoded.Statement .hdrWrFile := by constructor <;> decide
theorem Encoded.hdrRdFile : Encoded.Statement .hdrRdFile := by constructor <;> decide
theorem Encoded.hdrWrImage : Encoded.Statement .hdrWrImage := by constructor <;> decide
theorem Encoded.hdrRdImage : Encoded.Statement .hdrRdImage := by constructor <;> decide
theorem Encoded.hdrWrGcb : Encoded.Statement .hdrWrGcb := by constructor <;> decide
theorem Encoded.hdrRdGcb : Encoded.Statement .hdrRdGcb := by constructor <;> decide
theorem Encoded.hdrWrComment : Encoded.Statement .hdrWrComment := by constructor <;> decide
theorem Encoded.hdrRdComment : Encoded.Statement .hdrRdComment := by constructor <;> decide
theorem Encoded.clrFault : Encoded.Statement .clrFault := by constructor <;> decide
theorem Encoded.softReset : Encoded.Statement .softReset := by constructor <;> decide

end Sys2Proof.Laws
end

