-- ==== Sys2Proof/Laws/Table.lean ====
section
/-! SUPPORT. What each operation of Machine/Table.lean does: entries after a write, the root table, reset, add, the width rule,
string write. -/

namespace Sys2Proof.Machine

/-! ### Entries -/

theorem entryAt_setEntry (t : Table) (c d : Nat) (e : Entry) :
    entryAt (setEntry t c e) d = if d = c then e else entryAt t d := cellGet_set _ _ _ _ _

@[simp] theorem entryAt_nil (c : Nat) : entryAt [] c = clearedEntry := rfl

theorem setEntry_canonical {n : Nat} {t : Table} (h : cellsCanonical clearedEntry n t) {c : Nat} (hc : c < n)
    (e : Entry) : cellsCanonical clearedEntry n (setEntry t c e) := cellSet_canonical h hc e

/-- An entry that is not the cleared one is listed. -/
theorem mem_of_entryAt_ne {t : Table} {c : Nat} (h : entryAt t c ≠ clearedEntry) : (c, entryAt t c) ∈ t := by
  unfold entryAt at h ⊢
  cases hg : cellGet t c with
  | none => simp [hg] at h
  | some e => exact mem_of_cellGet hg

theorem mem_rootTable {n : Nat} {x : Nat × Entry} :
    x ∈ rootTable n ↔ x.1 < n ∧ x.2 = rootEntry x.1 ∧ x.2 ≠ clearedEntry := by
  obtain ⟨c, e⟩ := x
  simp only [rootTable, List.mem_filter, List.mem_map, List.mem_range, Prod.mk.injEq, decide_eq_true_eq]
  constructor
  · rintro ⟨⟨a, ha, rfl, rfl⟩, hne⟩; exact ⟨ha, rfl, hne⟩
  · rintro ⟨ha, rfl, hne⟩; exact ⟨⟨c, ha, rfl, rfl⟩, hne⟩

theorem rootTable_rising (n : Nat) : cellsRising (rootTable n) := by
  refine List.Pairwise.sublist List.filter_sublist ?_
  exact List.pairwise_map.2 List.pairwise_lt_range

/-- R135, R132: the entries of a table just reset. -/
theorem entryAt_rootTable (n c : Nat) :
    entryAt (rootTable n) c = if c < n then rootEntry c else clearedEntry := by
  by_cases he : entryAt (rootTable n) c = clearedEntry
  · rw [he]
    split
    · rename_i hc
      by_contra hne
      have hm : (c, rootEntry c) ∈ rootTable n := mem_rootTable.2 ⟨hc, rfl, fun h => hne h.symm⟩
      rw [entryAt, cellGet_of_mem (rootTable_rising n) hm] at he
      exact hne he.symm
    · rfl
  · obtain ⟨hc, heq, -⟩ := mem_rootTable.1 (mem_of_entryAt_ne he)
    rw [if_pos hc]; exact heq

theorem rootTable_canonical {n m : Nat} (h : n ≤ m) : cellsCanonical clearedEntry m (rootTable n) :=
  ⟨rootTable_rising n, fun _ hc => ⟨lt_of_lt_of_le (mem_rootTable.1 hc).1 h, (mem_rootTable.1 hc).2.2⟩⟩

/-! ### Valid codes, strings -/

theorem validCode_iff {t : StringTable} {c : Nat} :
    validCode t c = true ↔ c < t.nextFree.toNat ∧ c ≠ t.resetCode.toNat ∧ c ≠ t.endCode.toNat := by
  simp [validCode, and_assoc]

theorem stringFuel_ne_nil (t : Table) (n c : Nat) : stringFuel t (n + 1) c ≠ [] := by
  rw [stringFuel]; split <;> simp

/-- No string is empty (R134). -/
theorem stringOf_ne_nil (t : Table) (c : Nat) : stringOf t c ≠ [] := stringFuel_ne_nil t c c

theorem stringFuel_length_le (t : Table) (n c : Nat) : (stringFuel t n c).length ≤ n := by
  induction n generalizing c with
  | zero => simp [stringFuel]
  | succ n ih =>
    rw [stringFuel]
    split
    · simp
    · have := ih (entryAt t c).prev.toNat
      simp only [List.length_append, List.length_singleton]; omega

/-- R141: what `Find` answers. -/
theorem findCode_eq_some {t : StringTable} {seq : List Byte} {c : Nat} (h : findCode t seq = some c) :
    validCode t c = true ∧ stringOf t.table c = seq := by
  have := List.find?_some h
  simpa using this

theorem findCode_eq_none {t : StringTable} {seq : List Byte} (h : findCode t seq = none) {c : Nat}
    (hc : validCode t c = true) : stringOf t.table c ≠ seq := by
  have hlt := (validCode_iff.1 hc).1
  have := List.find?_eq_none.1 h c (List.mem_range.2 hlt)
  simpa [hc] using this

/-! ### Reset, add, write -/

/-- R135: `TableReset` sets up the table, or faults with nothing changed. -/
theorem tableReset_cases (rb : Nat) (s : State) :
    (3 ≤ rb ∧ rb ≤ 12 ∧ tableReset rb s = .ok () (s.setSt (resetTable rb))) ∨
      (rb < 3 ∧ tableReset rb s = .raise .invalidFormat s) ∨ (12 < rb ∧ tableReset rb s = .raise .tableTooLarge s) := by
  simp only [tableReset, Config.minRootBits, Config.maxRootBits]
  by_cases h3 : rb < 3
  · exact .inr (.inl ⟨h3, if_pos h3⟩)
  · by_cases h12 : 12 < rb
    · exact .inr (.inr ⟨h12, by rw [if_neg h3, if_pos h12]⟩)
    · exact .inl ⟨by omega, by omega, by rw [if_neg h3, if_neg h12]⟩

/-- R135: the registers of a table just reset. -/
theorem resetTable_regs {rb : Nat} (h3 : 3 ≤ rb) (h12 : rb ≤ 12) :
    (resetTable rb).rootBits.toNat = rb ∧ (resetTable rb).codeBits.toNat = rb ∧
      (resetTable rb).resetCode.toNat = 2 ^ (rb - 1) ∧ (resetTable rb).endCode.toNat = 2 ^ (rb - 1) + 1 ∧
      (resetTable rb).nextFree.toNat = 2 ^ (rb - 1) + 2 := by
  interval_cases rb <;> decide

/-- R137: what `Widen` does. -/
theorem widen_cases (fw : Bool) (t : StringTable) :
    (widen fw t = t) ∨
      (t.codeBits.toNat < 12 ∧ (if fw then 2 ^ t.codeBits.toNat else 2 ^ t.codeBits.toNat - 1) < t.nextFree.toNat ∧
        widen fw t = { t with codeBits := BitVec.ofNat 4 (t.codeBits.toNat + 1) }) := by
  by_cases h : (if fw then 2 ^ t.codeBits.toNat else 2 ^ t.codeBits.toNat - 1) < t.nextFree.toNat ∧
      t.codeBits.toNat < 12
  · exact .inr ⟨h.2, h.1, if_pos h⟩
  · exact .inl (if_neg h)

/-- `Widen` writes only the code width. -/
@[simp] theorem widen_fields (fw : Bool) (t : StringTable) :
    (widen fw t).table = t.table ∧ (widen fw t).rootBits = t.rootBits ∧ (widen fw t).nextFree = t.nextFree ∧
      (widen fw t).resetCode = t.resetCode ∧ (widen fw t).endCode = t.endCode := by
  rcases widen_cases fw t with h | ⟨-, -, h⟩ <;> rw [h] <;> exact ⟨rfl, rfl, rfl, rfl, rfl⟩

/-- R136: `TableAdd` adds under the next code, or raises `CorruptStream` with nothing changed. -/
theorem tableAdd_cases (base : Nat) (b : Byte) (fw : Bool) (s : State) :
    (validCode s.st base = true ∧ s.st.nextFree.toNat < 4096 ∧
        tableAdd base b fw s = .ok s.st.nextFree.toNat (s.setSt (addEntry base b fw s.st))) ∨
      ((validCode s.st base = false ∨ 4096 ≤ s.st.nextFree.toNat) ∧
        tableAdd base b fw s = .raise .corruptStream s) := by
  simp only [tableAdd, Config.maxCodes]
  by_cases hv : validCode s.st base = false
  · exact .inr ⟨.inl hv, if_pos hv⟩
  · by_cases hn : 4096 ≤ s.st.nextFree.toNat
    · exact .inr ⟨.inr hn, by rw [if_neg hv, if_pos hn]⟩
    · exact .inl ⟨by simpa using hv, by omega, by rw [if_neg hv, if_neg hn]⟩

/-- R136: the entries and the count after an add that is allowed. -/
theorem addEntry_fields {base : Nat} {b : Byte} {fw : Bool} {t : StringTable} (h : t.nextFree.toNat < 4096) :
    (addEntry base b fw t).nextFree.toNat = t.nextFree.toNat + 1 ∧
      (addEntry base b fw t).rootBits = t.rootBits ∧ (addEntry base b fw t).resetCode = t.resetCode ∧
      (addEntry base b fw t).endCode = t.endCode ∧
      ∀ c, entryAt (addEntry base b fw t).table c =
        if c = t.nextFree.toNat then ⟨b, BitVec.ofNat 16 base, (entryAt t.table base).first⟩
        else entryAt t.table c := by
  refine ⟨?_, by simp [addEntry], by simp [addEntry], by simp [addEntry], fun c => ?_⟩
  · simp only [addEntry, widen_fields, BitVec.toNat_ofNat]; omega
  · simp only [addEntry, widen_fields, entryAt_setEntry]

/-- R143: `TableWrite` appends the whole string, or faults with nothing written. -/
theorem tableWrite_cases (c : Nat) (s : State) :
    (validCode s.st c = true ∧ s.cur.snkPos.toNat + (stringOf s.st.table c).length ≤ s.cur.snkCap.toNat ∧
        tableWrite c s = .ok (stringOf s.st.table c).length (snkAppended (stringOf s.st.table c) s)) ∨
      (validCode s.st c = true ∧ s.cur.snkCap.toNat < s.cur.snkPos.toNat + (stringOf s.st.table c).length ∧
        tableWrite c s = .raise .insufficientSpace s) ∨
      (validCode s.st c = false ∧ tableWrite c s = .raise .corruptStream s) := by
  unfold tableWrite
  split
  · exact .inr (.inr ⟨by assumption, rfl⟩)
  · simp only [snkFits, decide_eq_false_iff_not]
    split
    · exact .inr (.inl ⟨by simp_all, by omega, rfl⟩)
    · rename_i h
      have hfit : s.cur.snkPos.toNat + (stringOf s.st.table c).length ≤ s.cur.snkCap.toNat := by omega
      exact .inl ⟨by simp_all, hfit, by rw [snkWriteList_eq hfit, Run.bind_ok]⟩

end Sys2Proof.Machine
end

