-- ==== Sys2Proof/Tests/Slice0.lean ====
section
/-! SUPPORT. Tests with expected values from spec/95_test_vectors.md (the vector is named at each), words written out bit by bit
from spec/30_encoding.md, the WellFormed smoke test, and one witness per statement with hypotheses. -/

set_option Elab.async false

namespace Sys2Proof.Tests

open Sys2Proof.Machine Sys2Proof.Claims

/-! ### Small states -/

/-- Bytes stored from address 0 on. -/
def bytesAt (bs : List Byte) : Memory := bs.zipIdx.map fun p => (p.2, p.1)

/-- After reset, with `SRC = [bs]`, `SNK_CAP = cap` and the operands. -/
def start (bs : List Byte) (cap : Nat) (a0 a1 a2 : Nat) : State :=
  { State.reset with
    src := bytesAt bs
    cur := ⟨BitVec.ofNat 32 bs.length, 0, BitVec.ofNat 32 cap, 0⟩
    args := ⟨BitVec.ofNat 32 a0, BitVec.ofNat 32 a1, BitVec.ofNat 32 a2⟩ }

/-- The table after `ST_RESET 3`, then the given adds (`base`, `byte`, writer). -/
def table3 (adds : List (Nat × Byte)) (s : State) : State :=
  s.setSt (adds.foldl (fun t p => addEntry p.1 p.2 true t) (resetTable 3))

def withFault (s : State) : State := s.setStatus ⟨false, true, false, 2, 0x12⟩

def withBits (wacc wcnt racc rcnt : Nat) (s : State) : State :=
  s.setBp ⟨BitVec.ofNat 19 wacc, BitVec.ofNat 5 wcnt, BitVec.ofNat 19 racc, BitVec.ofNat 5 rcnt⟩

/-- `n` zero bytes are pending in the framer. -/
def withPendingZeros (n : Nat) (s : State) : State := s.setSb { s.sb with wcnt := BitVec.ofNat 8 n }

def withReader (rrem : Nat) (rend : Bool) (s : State) : State :=
  s.setSb { s.sb with rrem := BitVec.ofNat 8 rrem, rend := rend }

def withHeader (s : State) : State :=
  s.setHdr ⟨0xABCD, 0x1234, 1, 2, 3, 1, 2, 0x102, 0x304, 0x87, 1, 0x1234, 0xFF⟩

/-- The state an outcome leads to. -/
def Reaches (o : Host.Outcome State Fault Refusal) (t : State) : Bool :=
  match o with
  | .next u => u == t
  | .fault _ => false
  | .refused _ => false

/-- The state after `exec`. -/
def after (i : Instr) (s : State) : State :=
  match exec i s with
  | .next t => t
  | .fault _ => s
  | .refused _ => s

/-- `exec` answers a next state in which the numbered registers read as listed. -/
def Reads (i : Instr) (s : State) (l : List (Nat × Nat)) : Bool :=
  match exec i s with
  | .next t => l.all fun p => (hostRead p.1 t).toNat == p.2
  | .fault _ => false
  | .refused _ => false

/-- `exec` completes and leaves exactly these bytes in an empty `SNK`. -/
def Writes (i : Instr) (s : State) (bs : List Byte) : Bool :=
  match exec i s with
  | .next t => t.snk == bytesAt bs && hostRead 1 t == 4
  | .fault _ => false
  | .refused _ => false

theorem exec_after {i : Instr} {s : State} (h : Reaches (exec i s) (after i s) = true) :
    exec i s = .next (after i s) := by
  unfold after Reaches at *
  cases he : exec i s <;> simp_all

/-! ### WellFormed: each check refuses an ill-formed word (R93) -/

theorem test_wellformed_zero_field_refused : (CommandWord.mk 0xFF 1).wellFormed = false ∧
    (CommandWord.mk 0xFF 1).zeroOk = false ∧ (CommandWord.mk 0xFF 1).opcodeOk = true := by decide
theorem test_wellformed_opcode_refused : (CommandWord.mk 0x08 0).wellFormed = false ∧
    (CommandWord.mk 0x08 0).zeroOk = true ∧ (CommandWord.mk 0x08 0).opcodeOk = false := by decide
theorem test_wellformed_table_accepted : assignedOpcodes.all (fun op => (CommandWord.mk op 0).wellFormed) = true ∧
    assignedOpcodes.length = 31 := by decide

/-! ### Decode: the words of R92, bit by bit, every command -/

theorem test_decode_system : decode 0b00000000000000000000000000000000 = .ok .nop ∧
    decode 0b00000000000000000000000011110000 = .ok .clrFault ∧
    decode 0b00000000000000000000000011111111 = .ok .softReset := ⟨rfl, rfl, rfl⟩
theorem test_decode_table : decode 0b00000000000000000000000000000001 = .ok .stReset ∧
    decode 0b00000000000000000000000000000010 = .ok .stAdd ∧
    decode 0b00000000000000000000000000000011 = .ok .stFind ∧
    decode 0b00000000000000000000000000000100 = .ok .stWrstr ∧
    decode 0b00000000000000000000000000000101 = .ok .stFirst ∧
    decode 0b00000000000000000000000000000110 = .ok .stUnused ∧
    decode 0b00000000000000000000000000000111 = .ok .stBase := ⟨rfl, rfl, rfl, rfl, rfl, rfl, rfl⟩
theorem test_decode_runs : decode 0b00000000000000000000000000010000 = .ok .lzwCompress ∧
    decode 0b00000000000000000000000000010001 = .ok .lzwEstimate ∧
    decode 0b00000000000000000000000000010010 = .ok .lzwDecompress := ⟨rfl, rfl, rfl⟩
theorem test_decode_packer : decode 0b00000000000000000000000000100000 = .ok .bpInit ∧
    decode 0b00000000000000000000000000100001 = .ok .bpPut ∧
    decode 0b00000000000000000000000000100010 = .ok .bpFlush ∧
    decode 0b00000000000000000000000000100011 = .ok .bpGet := ⟨rfl, rfl, rfl, rfl⟩
theorem test_decode_framer : decode 0b00000000000000000000000000110000 = .ok .sbOpen ∧
    decode 0b00000000000000000000000000110001 = .ok .sbPut ∧
    decode 0b00000000000000000000000000110010 = .ok .sbClose ∧
    decode 0b00000000000000000000000000110011 = .ok .sbRopen ∧
    decode 0b00000000000000000000000000110100 = .ok .sbGet ∧
    decode 0b00000000000000000000000000110101 = .ok .sbSkip := ⟨rfl, rfl, rfl, rfl, rfl, rfl⟩
theorem test_decode_header : decode 0b00000000000000000000000001000000 = .ok .hdrWrFile ∧
    decode 0b00000000000000000000000001000001 = .ok .hdrRdFile ∧
    decode 0b00000000000000000000000001000010 = .ok .hdrWrImage ∧
    decode 0b00000000000000000000000001000011 = .ok .hdrRdImage ∧
    decode 0b00000000000000000000000001000100 = .ok .hdrWrGcb ∧
    decode 0b00000000000000000000000001000101 = .ok .hdrRdGcb ∧
    decode 0b00000000000000000000000001000110 = .ok .hdrWrComment ∧
    decode 0b00000000000000000000000001000111 = .ok .hdrRdComment := ⟨rfl, rfl, rfl, rfl, rfl, rfl, rfl, rfl⟩
/-- V80. -/
theorem test_decode_rejects : decode 0x00000100 = .error (.zeroFieldSet 1) ∧
    decode 0x00000008 = .error (.unassignedOpcode 8) ∧ decode 0x000001FF = .error (.zeroFieldSet 1) ∧
    decode 0x80000001 = .error (.zeroFieldSet 0x800000) := ⟨rfl, rfl, rfl, rfl⟩
theorem test_decodeTableWord : decodeTableWord 32 0x12 = some .lzwDecompress ∧ decodeTableWord 8 0x12 = some .lzwDecompress ∧
    decodeTableWord 32 0x112 = none := ⟨rfl, rfl, rfl⟩
/-- V80: an illegal word faults with its low byte in `ERR_CMD`. -/
theorem test_illegal_word : Reaches (dispatchWord 0x000001FF State.reset)
    (State.reset.setStatus ⟨false, true, false, 6, 0xFF⟩) = true := by decide +kernel
theorem test_step_runs_word : Reaches (step (State.reset.withFetchWord 32 0x00))
    (State.reset.setStatus ⟨false, false, true, 0, 0⟩) = true := by decide +kernel

/-! ### The system commands (V81, V82, V84) -/

theorem test_nop : Reads .nop State.reset [(1, 4), (2, 0)] = true := by decide +kernel
theorem test_clrFault_pending : Reads .clrFault (withFault State.reset) [(1, 0), (2, 0), (3, 0)] = true := by decide +kernel
theorem test_clrFault_idle : Reads .clrFault State.reset [(1, 4)] = true := by decide +kernel
theorem test_softReset : Reads .softReset (withFault (withHeader (start [1] 5 1 1 1)))
    [(1, 0), (2, 0), (4, 0), (11, 0), (13, 0), (34, 255), (32, 0), (27, 0xFFFF)] = true := by decide +kernel
theorem test_softReset_keeps_memory : (after .softReset (start [7] 5 1 1 1)).src = [(0, 7)] := by decide +kernel

/-! ### The string table (V40 to V46) -/

theorem test_stReset_10 : Reads .stReset (start [] 0 10 0 0) [(15, 10), (16, 10), (17, 514), (18, 512), (19, 513), (1, 4)]
    = true := by decide +kernel
theorem test_stReset_13 : Reads .stReset (start [] 0 13 0 0) [(1, 2), (2, 4), (3, 1), (17, 0)] = true := by decide +kernel
/-- V1, step 5: `T[8] = (1, 0, 0)`, width 4. -/
theorem test_stAdd_widens : Reads .stAdd (table3 [(0, 0), (6, 0)] (start [] 0 0 1 1)) [(7, 8), (17, 9), (16, 4)] = true ∧
    entryAt (after .stAdd (table3 [(0, 0), (6, 0)] (start [] 0 0 1 1))).st.table 8 = ⟨1, 0, 0⟩ := by decide +kernel
/-- V43. -/
theorem test_stAdd_endCode : Reads .stAdd (table3 [] (start [] 0 5 0 1)) [(1, 2), (2, 2), (3, 2), (17, 6)] = true := by
  decide +kernel
/-- V44. -/
theorem test_stFind_lowest : Reads .stFind (table3 [(0, 0), (0, 0)] (start [0, 0] 0 2 0 0)) [(7, 6), (12, 0)] = true := by
  decide +kernel
theorem test_stFind_empty : Reads .stFind (table3 [(0, 0)] (start [0, 0] 0 0 0 0)) [(7, 0xFFFF)] = true := by decide +kernel
/-- V45. -/
theorem test_stWrstr : Writes .stWrstr (table3 [(0, 0), (6, 1)] (start [] 100 7 0 0)) [0, 0, 1] = true := by decide +kernel
theorem test_stWrstr_full : Reads .stWrstr (table3 [(0, 0), (6, 1)] (start [] 2 7 0 0)) [(2, 5), (3, 4), (14, 0)] = true := by
  decide +kernel
/-- V46. -/
theorem test_stFirst : Reads .stFirst (table3 [(1, 2), (6, 3)] (start [] 0 7 0 0)) [(7, 1)] = true := by decide +kernel
theorem test_stFirst_4096 : Reads .stFirst (table3 [] (start [] 0 4096 0 0)) [(2, 2), (3, 5)] = true := by decide +kernel
theorem test_stUnused : Reads .stUnused (table3 [(1, 2), (6, 3)] (start [] 0 4 0 0)) [(7, 1)] = true := by decide +kernel
theorem test_stUnused_4096 : Reads .stUnused (table3 [] (start [] 0 4096 0 0)) [(1, 4), (7, 1)] = true := by decide +kernel
theorem test_stBase : Reads .stBase (table3 [(1, 2), (6, 3)] (start [] 0 7 0 0)) [(7, 6)] = true := by decide +kernel
theorem test_stBase_root : Reads .stBase (table3 [] (start [] 0 3 0 0)) [(7, 0xFFFF)] = true := by decide +kernel

/-! ### The runs (V1, V3, V9, V25) -/

def v1 : List Byte := [0, 0, 0, 0, 1, 1, 1, 1]
def v1Stream : List Byte := [0x02, 0x04, 0x84, 0x11, 0x19, 0x05, 0x00]
def v9 : List Byte := [0, 0, 1, 0, 2, 0, 3, 1, 1, 2, 1]

theorem test_lzwCompress : Writes .lzwCompress (start v1 100 3 0 0) v1Stream = true := by decide +kernel
theorem test_lzwCompress_width_at_end : Writes .lzwCompress (start v9 100 3 0 0)
    [0x02, 0x07, 0x04, 0x02, 0x02, 0x13, 0x21, 0x51, 0x00, 0x00] = true := by decide +kernel
/-- V11. -/
theorem test_lzwEstimate : Reads .lzwEstimate (start v9 100 3 0 0)
    [(7, 49), (8, 0), (9, 10), (10, 0), (12, 0), (14, 0), (17, 0)] = true := by decide +kernel
theorem test_lzwDecompress : Writes .lzwDecompress (start v1Stream 100 0 0 0) v1 = true := by decide +kernel
theorem test_lzwDecompress_corrupt : Reads .lzwDecompress (start [0x02, 0x02, 0xC4, 0x01, 0x00] 100 0 0 0)
    [(1, 2), (2, 2), (3, 0x12), (14, 1), (12, 4), (28, 0), (17, 6), (23, 7), (29, 1)] = true := by decide +kernel

/-! ### The bit packer (V51 to V59) -/

theorem test_bpInit : Reads .bpInit (withBits 5 3 1 5 State.reset) [(20, 0), (21, 0), (22, 0), (23, 0)] = true := by
  decide +kernel
theorem test_bpPut_three_bytes : Writes .bpPut (withBits 0x7F 7 0 0 (start [] 100 0xFFF 12 1)) [0xFF, 0xFF] = true ∧
    Reads .bpPut (withBits 0x7F 7 0 0 (start [] 100 0xFFF 12 1)) [(20, 7), (21, 3)] = true := by decide +kernel
theorem test_bpPut_full : Reads .bpPut (withBits 0x7F 7 0 0 (start [] 0 0xABC 12 1))
    [(2, 5), (3, 0x21), (20, 0x55E), (21, 11), (14, 0)] = true := by decide +kernel
theorem test_bpFlush : Writes .bpFlush (withBits 0x55E 11 0 0 (start [] 16 0 0 1)) [0x5E, 0x05] = true := by decide +kernel
theorem test_bpFlush_flag : Reads .bpFlush (start [] 16 0 0 2) [(2, 6), (3, 0x22)] = true := by decide +kernel
theorem test_bpGet : Reads .bpGet (withBits 0 0 0 1 ((start [0x55, 0xF8, 0x0F] 0 0 12 1).setCur ⟨3, 1, 0, 0⟩))
    [(7, 4080), (22, 1), (23, 5), (12, 3)] = true := by decide +kernel
theorem test_bpGet_framed : Reads .bpGet (start [0x01, 0x2C, 0x00] 0 0 3 0)
    [(7, 4), (12, 2), (22, 5), (23, 5), (26, 0)] = true := by decide +kernel

/-! ### The framer (V61 to V68) -/

theorem test_sbOpen : Reads .sbOpen (withPendingZeros 9 State.reset) [(24, 0), (1, 4)] = true := by decide +kernel
theorem test_sbPut_255th : Reads .sbPut (withPendingZeros 254 (start [] 256 1 0 0)) [(14, 256), (24, 0)] = true := by
  decide +kernel
theorem test_sbPut_full : Reads .sbPut (withPendingZeros 254 (start [] 255 1 0 0)) [(2, 5), (3, 0x31), (24, 255), (14, 0)]
    = true := by decide +kernel
theorem test_sbClose : Writes .sbClose ((start [] 9 0 0 0).setSb ⟨[(0, 0x2C)], 1, 0, false⟩) [0x01, 0x2C, 0x00] = true := by
  decide +kernel
theorem test_sbClose_terminator : Reads .sbClose (start [] 0 0 0 0) [(2, 5), (3, 0x32)] = true := by decide +kernel
theorem test_sbRopen : Reads .sbRopen (withReader 5 true State.reset) [(25, 0), (26, 0)] = true := by decide +kernel
theorem test_sbGet : Reads .sbGet (start [0x02, 0x48, 0x69, 0x00] 0 0 0 0) [(7, 0x48), (8, 0), (12, 2), (25, 1)] = true := by
  decide +kernel
theorem test_sbGet_claim : Reads .sbGet (start [0x03, 0x48, 0x69] 0 0 0 0) [(2, 3), (3, 0x34), (12, 1), (25, 0)] = true := by
  decide +kernel
theorem test_sbSkip : Reads .sbSkip (withReader 1 false
      ((start [0x02, 0x48, 0x69, 0x01, 0x21, 0x00, 0x99] 0 0 0 0).setCur ⟨7, 2, 0, 0⟩))
    [(12, 6), (25, 0), (26, 1)] = true := by decide +kernel
theorem test_sbSkip_truncated : Reads .sbSkip (start [0x02, 0x01, 0x02, 0x05, 0x09] 0 0 0 0) [(2, 3), (12, 4)] = true := by
  decide +kernel

/-! ### The header records (V70 to V79) -/

theorem test_hdrWrFile : Writes .hdrWrFile (withHeader (start [] 100 0 0 0))
    [0x47, 0x49, 0x46, 0x38, 0x39, 0x61, 0xCD, 0xAB, 0x34, 0x12, 0x01, 0x02, 0x03] = true := by decide +kernel
theorem test_hdrRdFile : Reads .hdrRdFile
    (start [0x47, 0x49, 0x46, 0x38, 0x39, 0x61, 0x40, 0x01, 0xC8, 0x00, 0xF7, 0x05, 0x31, 0x99] 0 0 0 0)
    [(32, 320), (33, 200), (34, 0xF7), (35, 5), (36, 49), (12, 13)] = true := by decide +kernel
theorem test_hdrRdFile_signature : Reads .hdrRdFile
    (start [0x47, 0x49, 0x46, 0x38, 0x37, 0x61, 0x40, 0x01, 0xC8, 0x00, 0xF7, 0x05, 0x31] 0 0 0 0)
    [(2, 1), (3, 0x41), (12, 0), (32, 0)] = true := by decide +kernel
theorem test_hdrWrImage : Writes .hdrWrImage (withHeader (start [] 100 0 0 0))
    [0x01, 0x00, 0x02, 0x00, 0x02, 0x01, 0x04, 0x03, 0x87] = true := by decide +kernel
theorem test_hdrRdImage : Reads .hdrRdImage (start [0x01, 0x00, 0x02, 0x00, 0x02, 0x01, 0x04, 0x03, 0x87] 0 0 0 0)
    [(37, 1), (38, 2), (39, 0x102), (40, 0x304), (41, 0x87), (12, 9)] = true := by decide +kernel
theorem test_hdrWrGcb : Writes .hdrWrGcb (withHeader (start [] 100 0 0 0)) [0x04, 0x01, 0x34, 0x12, 0xFF, 0x00] = true := by
  decide +kernel
theorem test_hdrRdGcb : Reads .hdrRdGcb (start [0x04, 0x01, 0x34, 0x12, 0xFF, 0x00] 0 0 0 0)
    [(42, 1), (43, 0x1234), (44, 0xFF), (12, 6)] = true := by decide +kernel
theorem test_hdrRdGcb_terminator : Reads .hdrRdGcb (start [0x04, 0x01, 0x34, 0x12, 0xFF, 0x01] 0 0 0 0)
    [(2, 1), (3, 0x45), (12, 0), (42, 0)] = true := by decide +kernel
theorem test_hdrWrComment : Writes .hdrWrComment (start [0x48, 0x69] 100 0 0 0) [0x02, 0x48, 0x69, 0x00] = true := by
  decide +kernel
theorem test_hdrWrComment_full : Reads .hdrWrComment (start [0x41, 0x42, 0x43] 3 0 0 0)
    [(2, 5), (3, 0x46), (14, 0), (24, 3), (12, 3), (7, 0)] = true := by decide +kernel
theorem test_hdrRdComment : Writes .hdrRdComment (start [0x02, 0x48, 0x69, 0x00] 100 0 0 0) [0x48, 0x69] = true := by
  decide +kernel
theorem test_hdrRdComment_full : Reads .hdrRdComment (start [0x02, 0x48, 0x69, 0x00] 1 0 0 0)
    [(2, 5), (3, 0x47), (14, 1), (12, 3)] = true := by decide +kernel

/-! ### The readers of Claims.lean, on the spec's vectors -/

/-- V57 and V59 before their second put. -/
def v57 : State := withBits 0x7F 7 0 0 (start [] 1 0xFFF 12 1)
def v59 : State := withBits 0x7F 7 0 0 (start [] 0 0xABC 12 1)
/-- V59 after `CLR_FAULT`: a whole byte is at hand, and no room. -/
def v59Next (raw : Nat) : State := withBits 0x55E 11 0 0 (start [] 0 1 1 raw)

theorem test_putLost : putLost v57 0xFFF 12 (roomLeft v57) = ⟨7, 3, 0, 0⟩ ∧
    putLost v59 0xABC 12 (roomLeft v59) = ⟨0x55E, 11, 0, 0⟩ := by decide +kernel

/-- V55, before each of its calls. -/
def v55 (racc rcnt pos rrem : Nat) : State :=
  withBits 0 0 racc rcnt (withReader rrem false
    ((start [0x01, 0x2C, 0x00] 0 0 3 0).setCur ⟨3, BitVec.ofNat 32 pos, 0, 0⟩))

theorem test_chainRead : chainRead (v55 0 0 0 0) 1 0 0 = ⟨[0x2C], 2, 0, .got⟩ ∧
    chainRead (v55 0 2 2 0) 1 2 0 = ⟨[], 3, 0, .ended⟩ := by decide +kernel
/-- V65 and V66: a claim that is too long, and no length byte. -/
theorem test_chainRead_truncated : chainRead (start [0x03, 0x48, 0x69] 0 0 0 0) 1 0 0 = ⟨[], 1, 0, .truncated⟩ ∧
    chainRead (start [0x02, 0x48, 0x69] 0 0 0 0) 3 0 0 = ⟨[0x48, 0x69], 3, 0, .truncated⟩ := by decide +kernel

/-- What the reader makes of the stream in `SRC`. -/
def decoded (s : State) : Decoded :=
  decodeCodes s (roomLeft s) (s.cur.srcPos.toNat + 1) (8 * srcAvail s + 1)
    (.start ((srcByte s s.cur.srcPos.toNat).toNat + 1))

/-- Output, `LZ_PREV`, `LZ_RESETS`, `ST_NEXTFREE`, `ST_CODEBITS`, the read cursor and the fault of a reader's result. -/
def Decodes (x : Decoded) (out : List Byte) (prev : Option Nat) (resets count width pos : Nat) (k : Option FaultKind) :
    Prop :=
  (x.final.out = out ∧ x.final.prev = prev ∧ x.final.resets = resets) ∧ x.final.count = count ∧ x.final.width = width ∧
    x.read.pos = pos ∧ x.fault = k

/-- V24. -/
def v24 : State := start [0x02, 0x02, 0x70, 0x01, 0x00] 3 0 0 0
/-- V25. -/
def v25 : State := start [0x02, 0x02, 0xC4, 0x01, 0x00] 100 0 0 0

/-- V3; the cursor is that of R181, before the drain. -/
theorem test_decodeCodes_v3 : Decodes (decoded (start v1Stream 100 0 0 0)) v1 (some 1) 1 11 4 6 none := by
  unfold Decodes; decide +kernel
theorem test_decodeCodes_v24 : Decodes (decoded v24) [0, 0, 0] (some 6) 0 7 3 4 none := by unfold Decodes; decide +kernel
theorem test_decodeCodes_v25 : Decodes (decoded v25) [0] (some 0) 1 6 3 4 (some .corruptStream) := by
  unfold Decodes; decide +kernel
/-- V26. -/
theorem test_decodeCodes_v26 : Decodes (decoded (start [0x02, 0x01, 0x34, 0x00] 100 0 0 0)) [] none 1 6 3 3
    (some .corruptStream) := by unfold Decodes; decide +kernel
/-- V31. -/
theorem test_decodeCodes_v31 : Decodes (decoded (start [0x02, 0x05, 0x84, 0x11] 100 0 0 0)) [] none 0 6 3 2
    (some .truncatedStream) := by unfold Decodes; decide +kernel
/-- V32, its first row. -/
theorem test_decodeCodes_v32 : Decodes (decoded (start [0x02, 0x01, 0x04, 0x00] 100 0 0 0)) [0] (some 0) 1 6 3 4
    (some .corruptStream) := by unfold Decodes; decide +kernel

/-! ### The writer of Claims.lean, on the spec's vectors -/

/-- The code list of V1 (its walk), with the table's count, `LZ_CUR` and `LZ_RESETS`. -/
theorem test_encodeInput_v1 : (encodeInput none 3 v1).fault = none ∧
    (encodeInput none 3 v1).final.codes = [(4, 3), (0, 3), (6, 3), (0, 3), (1, 4), (9, 4), (1, 4), (5, 4)] ∧
    (encodeInput none 3 v1).final.count = 11 ∧ (encodeInput none 3 v1).final.cur = 1 ∧
    (encodeInput none 3 v1).final.resets = 1 := by decide +kernel
theorem test_streamBytes_v1 : streamBytes (encodeInput none 3 v1).final = v1Stream := by decide +kernel
/-- V9: `EndCode` is 5 bits wide (R165). -/
theorem test_encodeInput_v9 : (encodeInput none 3 v9).final.codes =
      [(4, 3), (0, 3), (0, 3), (1, 3), (0, 4), (2, 4), (0, 4), (3, 4), (1, 4), (1, 4), (2, 4), (1, 4), (5, 5)] ∧
    (encodeInput none 3 v9).final.count = 16 ∧ (encodeInput none 3 v9).final.width = 5 := by decide +kernel

def v10 : List Byte := [0x41, 0x42, 0x41, 0x42, 0x41, 0x42, 0x41]
def v10Stream : List Byte := [0x08, 0x07, 0x00, 0x83, 0x08, 0x11, 0x48, 0x30, 0x20, 0x00]

/-- V10. -/
theorem test_encodeInput_v10 :
    (encodeInput none 9 v10).final.codes = [(256, 9), (65, 9), (66, 9), (258, 9), (260, 9), (257, 9)] ∧
    (encodeInput none 9 v10).final.cur = 260 ∧ (encodeInput none 9 v10).final.count = 261 := by decide +kernel
theorem test_streamBytes_v10 : streamBytes (encodeInput none 9 v10).final = v10Stream := by decide +kernel
/-- V19: the second byte has no root code; two bytes are read. -/
theorem test_encodeInput_v19 : (encodeInput none 3 [0x00, 0x04, 0x01]).fault = some .corruptStream ∧
    (encodeInput none 3 [0x00, 0x04, 0x01]).final.read = 2 ∧ (encodeInput none 3 [0x00, 0x04, 0x01]).final.cur = 0 ∧
    (encodeInput none 3 [0x00, 0x04, 0x01]).final.codes = [(4, 3)] := by decide +kernel

/-- With `rootBits = 12`, one add short of the reset: the count is 4094 (the strings do not matter). -/
def nearReset : Coding := ⟨⟨12, List.replicate 2044 []⟩, [46], 1, 0, [], 0⟩

/-- R164, as in V17: `(46,12) (2048,12)`, then an empty table; one code earlier there is no reset. -/
theorem test_capacity_reset : (nearReset.take none 118).final.codes = [(46, 12), (2048, 12)] ∧
    (nearReset.take none 118).final.count = 2050 ∧ (nearReset.take none 118).final.resets = 2 := by decide +kernel
theorem test_no_reset_at_4094 :
    (({ nearReset with dict := List.replicate 2043 [] } : Coding).take none 118).final.codes = [(46, 12)] := by
  decide +kernel

/-- What a full sink leaves (V20): room for the chain after the code-size byte, what of it is written, what is pending. -/
theorem test_chainInto_v20 :
    chainInto 0 (paddedBytes (encodeInput none 9 v10).final) = ([], [0x00, 0x83, 0x08, 0x11, 0x48, 0x30, 0x20]) ∧
    chainInto 8 (paddedBytes (encodeInput none 9 v10).final) =
      ([0x07, 0x00, 0x83, 0x08, 0x11, 0x48, 0x30, 0x20], []) ∧
    chainInto 9 (paddedBytes (encodeInput none 9 v10).final) =
      ([0x07, 0x00, 0x83, 0x08, 0x11, 0x48, 0x30, 0x20, 0x00], []) := by decide +kernel
/-- V79; and a text of 256 bytes with room for no block: the 255th is the last one taken. -/
theorem test_chainInto_v79 : chainInto 3 [0x41, 0x42, 0x43] = ([], [0x41, 0x42, 0x43]) ∧ frameLimit 255 = 255 ∧
    frameLimit 256 = 510 ∧ chainInto 255 (List.replicate 256 7) = ([], List.replicate 255 7) := by decide +kernel

/-! ### Witnesses: a state and operands that meet the hypotheses of each statement -/

/-- One pending action. -/
def queued (a : HostAction) : State := withPending [a] State.reset

def busyWith (a : HostAction) : State := (queued a).setStatus ⟨true, false, false, 0, 0⟩

theorem exists_next {i : Instr} {s : State} (h : Reaches (exec i s) (after i s) = true) : ∃ t, exec i s = .next t :=
  ⟨_, exec_after h⟩

theorem witness_IllegalWordsFault : (∀ i, encode i ≠ 0x00000008) ∧ (∀ i, encode i ≠ 0x000001FF) ∧ Ready State.reset ∧
    ¬ Ready (withFault State.reset) := by
  refine ⟨fun i => ?_, fun i => ?_, by decide, by decide⟩ <;> cases i <;> decide

theorem witness_StepRunsDecodedCommand : (queued (.writeReg 0 0x12)).status.busy = false ∧
    decode 0x12 = .ok .lzwDecompress ∧ (queued (.writeReg 0 0x12)).host.pending = [.writeReg 0 0x12] := ⟨rfl, rfl, rfl⟩

theorem witness_StepPerformsHostActions : State.reset.status.busy = false ∧ State.reset.host.pending = [] ∧
    ∀ a, (queued a).status.busy = false ∧ (queued a).host.pending = [a] := ⟨rfl, rfl, fun _ => ⟨rfl, rfl⟩⟩

theorem witness_HostWriteTruncates : (4, 32) ∈ writableRegs ∧ (44, 8) ∈ writableRegs ∧
    (1 ≠ 0 ∧ ∀ p ∈ writableRegs, p.1 ≠ 1) ∧ (45 ≠ 0 ∧ ∀ p ∈ writableRegs, p.1 ≠ 45) := by decide

theorem witness_BusyAccessStops : ∀ a, (busyWith a).status.busy = true ∧ (busyWith a).host.pending = [a] :=
  fun _ => ⟨rfl, rfl⟩
theorem witness_BusyAccessStops_other : HostAction.readReg 2 ≠ .readReg 1 ∧ HostAction.readReg 2 ≠ .powerOn := by decide

theorem witness_NopCompletes : Ready State.reset ∧ ¬ Ready (withFault State.reset) := by decide

theorem witness_ClrFaultAcknowledges : ¬ Ready (withFault State.reset) ∧ StatusInv (withFault State.reset) ∧
    Ready State.reset := by decide

theorem witness_FaultedMachineIgnores : ¬ Ready (withFault State.reset) ∧ (withFault State.reset).status.busy = false ∧
    (0x00000008 : Word) ≠ 0x000000F0 ∧ (0x000001FF : Word) ≠ 0x000000FF ∧ (12 : Nat) ≠ 0 := by decide

theorem witness_IllegalOperandsFault_byte : Ready (start [] 0 0 256 1) ∧ operandsIllegal .stAdd (start [] 0 0 256 1) ∧
    operandsIllegal .sbPut (start [] 0 256 0 0) := ⟨by decide, .inl (by decide), show 255 < _ by decide⟩
theorem witness_IllegalOperandsFault_flag : operandsIllegal .stAdd (start [] 0 0 255 2) ∧
    operandsIllegal .bpPut (start [] 0 0 3 2) ∧ operandsIllegal .bpFlush (start [] 0 0 0 2) ∧
    operandsIllegal .bpGet (start [] 0 0 3 2) :=
  ⟨.inr (by decide), .inr (.inr (.inl (by decide))), show 1 < _ by decide, .inr (.inr (by decide))⟩
theorem witness_IllegalOperandsFault_width : operandsIllegal .bpPut (start [] 0 0 0 1) ∧
    operandsIllegal .bpPut (start [] 0 0 13 1) ∧ operandsIllegal .bpPut (start [] 0 8 3 1) ∧
    operandsIllegal .bpGet (start [] 0 0 0 1) ∧ operandsIllegal .bpGet (start [] 0 0 13 1) :=
  ⟨.inl (by decide), .inr (.inl (by decide)), .inr (.inr (.inr (by decide))), .inl (by decide), .inr (.inl (by decide))⟩
theorem witness_IllegalOperandsFault_find : operandsIllegal .stFind (start [1] 0 2 0 0) := show _ < _ by decide

theorem witness_CommandEndsDoneOrFaulted : (Instr.lzwDecompress ≠ .softReset ∧ Ready State.reset) ∧
    Instr.clrFault ≠ .softReset := by decide

theorem witness_CommandsChangeOnlyTheirGroups : ∃ t, exec .bpPut (start [] 100 7 3 1) = .next t :=
  exists_next (by decide +kernel)

theorem witness_OutputIsAppendOnly : ∃ t, Instr.lzwCompress ≠ .softReset ∧
    exec .lzwCompress (start v1 100 3 0 0) = .next t := ⟨_, by decide, exec_after (by decide +kernel)⟩

theorem witness_FreeValuesOnlyPastInput : ∃ t, exec .sbGet (withReader 2 false (start [1, 2] 0 0 0 0)) = .next t ∧
    (withReader 2 false (start [1, 2] 0 0 0 0)).sb.rrem.toNat ≤ srcAvail (withReader 2 false (start [1, 2] 0 0 0 0)) :=
  ⟨_, exec_after (by decide +kernel), by decide⟩
theorem witness_FreeValuesOnlyPastInput_other : ∃ t, exec .nop (withReader 2 false State.reset) = .next t ∧
    Instr.nop ≠ .sbGet ∧ Instr.nop ≠ .sbSkip ∧ Instr.nop ≠ .bpGet :=
  ⟨_, exec_after (by decide +kernel), by decide⟩

theorem witness_OutputIsNeverRead : ∃ t, exec .lzwCompress (start v1 100 3 0 0) = .next t :=
  exists_next (by decide +kernel)

/-- `m` differs from the contents of `SRC` at and beyond `SRC_LEN` only. -/
theorem witness_InputBeyondLengthIsNeverRead : ∃ t, exec .sbGet (start [1, 9] 0 0 0 0) = .next t ∧
    ∀ a < (start [1, 9] 0 0 0 0).cur.srcLen.toNat,
      srcByte ((start [1, 9] 0 0 0 0).setSrc [(0, 1), (1, 9), (2, 7)]) a = srcByte (start [1, 9] 0 0 0 0) a :=
  ⟨_, exec_after (by decide +kernel), by decide +kernel⟩

theorem witness_StResetBuildsRoots : (Ready (start [] 0 3 0 0) ∧ LegalRootBits (start [] 0 3 0 0).args.arg0.toNat) ∧
    LegalRootBits (start [] 0 12 0 0).args.arg0.toNat ∧ (start [] 0 2 0 0).args.arg0.toNat < 3 ∧
    12 < (start [] 0 13 0 0).args.arg0.toNat := by decide

/-- A table with 4096 codes. -/
def fullTable (s : State) : State := s.setSt { resetTable 12 with nextFree := 4096 }

theorem witness_StAddRegisters : (Ready (table3 [] (start [] 0 3 255 1)) ∧
      (start [] 0 3 255 1).args.arg1.toNat ≤ 255 ∧ (start [] 0 3 255 1).args.arg2.toNat ≤ 1) ∧
    validCode (table3 [] (start [] 0 3 255 1)).st 3 = true ∧ (table3 [] (start [] 0 3 255 1)).st.nextFree.toNat < 4096 ∧
    validCode (table3 [] (start [] 0 5 0 0)).st 5 = false ∧ 4096 ≤ (fullTable (start [] 0 0 0 0)).st.nextFree.toNat ∧
    255 < (start [] 0 0 256 0).args.arg1.toNat ∧ 1 < (start [] 0 0 0 2).args.arg2.toNat := by decide +kernel

theorem table3_inv : TableInv (table3 [(0, 0), (6, 1)] State.reset) :=
  ⟨by decide +kernel, .inr (by decide +kernel)⟩

theorem witness_StringFollowsParents : TableInv (table3 [(0, 0), (6, 1)] State.reset) ∧
    validCode (table3 [(0, 0), (6, 1)] State.reset).st 7 = true ∧
    validCode (table3 [(0, 0), (6, 1)] State.reset).st 0 = true ∧
    (entryAt (table3 [(0, 0), (6, 1)] State.reset).st.table 7).prev ≠ 0xFFFF ∧
    (entryAt (table3 [(0, 0), (6, 1)] State.reset).st.table 0).prev = 0xFFFF ∧
    (table3 [(0, 0), (6, 1)] State.reset).st.endCode.toNat < 7 :=
  ⟨table3_inv, by decide +kernel, by decide +kernel, by decide +kernel, by decide +kernel, by decide +kernel⟩

theorem witness_StFindReturnsSmallest : Ready (start [1, 2] 0 2 0 0) ∧
    (start [1, 2] 0 2 0 0).args.arg0.toNat ≤ srcAvail (start [1, 2] 0 2 0 0) ∧ (start [1, 2] 0 0 0 0).args.arg0 = 0 ∧
    srcAvail (start [1, 2] 0 3 0 0) < (start [1, 2] 0 3 0 0).args.arg0.toNat := by decide

theorem witness_StWrstrAppendsString : Ready (table3 [(0, 0)] (start [] 2 6 0 0)) ∧
    validCode (table3 [(0, 0)] (start [] 2 6 0 0)).st 6 = true ∧
    0 + (stringOf (table3 [(0, 0)] (start [] 2 6 0 0)).st.table 6).length ≤ (start [] 2 6 0 0).cur.snkCap.toNat ∧
    (start [] 1 6 0 0).cur.snkCap.toNat < 0 + (stringOf (table3 [(0, 0)] (start [] 1 6 0 0)).st.table 6).length ∧
    validCode (table3 [(0, 0)] (start [] 2 7 0 0)).st 7 = false := by decide +kernel

theorem witness_AccessorsRead : Ready (start [] 0 4095 0 0) ∧ (start [] 0 4095 0 0).args.arg0.toNat < 4096 ∧
    4096 ≤ (start [] 0 4096 0 0).args.arg0.toNat := by decide
theorem witness_AccessorsRead_entries : TableInv (table3 [(0, 0), (6, 1)] (start [] 0 8 0 0)) ∧
    validCode (table3 [(0, 0), (6, 1)] (start [] 0 8 0 0)).st 8 = false ∧
    (start [] 0 3 0 0).args.arg0.toNat < (table3 [(0, 0), (6, 1)] (start [] 0 3 0 0)).st.resetCode.toNat :=
  ⟨table3_inv, by decide +kernel, by decide +kernel⟩

/-- A step from a good state: one pending command. -/
def goodStep : State := withPending [.writeReg 0 0x02] (table3 [(0, 0), (6, 1)] (start [] 9 7 1 1))

theorem goodStep_next : ∃ t, step goodStep = .next t :=
  ⟨_, (show step goodStep = exec .stAdd (withPending [] goodStep) from rfl).trans (exec_after (by decide +kernel))⟩

theorem witness_EveryStepKeepsTable : ∃ t, TableInv goodStep ∧ step goodStep = .next t :=
  goodStep_next.imp fun _ h => ⟨table3_inv, h⟩
theorem witness_EveryStepKeepsAccumulators : ∃ t, TableInv goodStep ∧ PackInv goodStep ∧ step goodStep = .next t :=
  goodStep_next.imp fun _ h => ⟨table3_inv, by decide +kernel, h⟩
theorem witness_EveryStepKeepsMemories : ∃ t, MemInv goodStep ∧ BufferInv goodStep ∧ step goodStep = .next t :=
  goodStep_next.imp fun _ h => ⟨by decide +kernel, by decide +kernel, h⟩
theorem witness_EveryStepKeepsStatus : ∃ t, StatusInv goodStep ∧ step goodStep = .next t :=
  goodStep_next.imp fun _ h => ⟨by decide +kernel, h⟩

theorem witness_BpInitClears : Ready State.reset := rfl

def putState (raw : Nat) : State := withBits 0x7FF 11 0 0 (start [] 2 0xFFF 12 raw)

/-- The bytes a put completes, and those a flush hands on. -/
def putBytes (s : State) : List Byte := lowBytes (merged s s.args.arg0.toNat) ((s.bp.wcnt.toNat + s.args.arg1.toNat) / 8)
def flushBytes (s : State) : List Byte := lowBytes s.bp.wacc.toNat ((s.bp.wcnt.toNat + 7) / 8)

/-- What the statements ask of the operands and the accumulators of a put. -/
abbrev Puts (s : State) (raw : Word) : Prop :=
  Ready s ∧ PackInv s ∧ 1 ≤ s.args.arg1.toNat ∧ s.args.arg1.toNat ≤ 12 ∧ s.args.arg2 = raw ∧
    s.args.arg0.toNat < 2 ^ s.args.arg1.toNat

/-- One bit behind none: no byte is completed, and `SNK_POS` stands above `SNK_CAP`. -/
def noByte (raw : Nat) : State := (start [] 0 1 1 raw).setCur ⟨0, 0, 0, 5⟩

/-- The widest put behind the fullest accumulator, into exactly the room it needs; no byte and no room. -/
theorem witness_BpPutRaw : (Puts (putState 1) 1 ∧ Room (putState 1) (putBytes (putState 1)).length) ∧
    Puts (noByte 1) 1 ∧ Room (noByte 1) (putBytes (noByte 1)).length := by decide +kernel
/-- V57 and V59: no room for the second of two bytes, for the first of two, and for a byte that an earlier fault left. -/
theorem witness_BpPutRaw_full : (Puts v57 1 ∧ roomLeft v57 < (putBytes v57).length) ∧
    (Puts v59 1 ∧ roomLeft v59 < (putBytes v59).length) ∧
    Puts (v59Next 1) 1 ∧ roomLeft (v59Next 1) < (putBytes (v59Next 1)).length := by decide +kernel

theorem witness_BpPutFramed : (Puts (putState 0) 0 ∧
      Room (putState 0) (frameBytes (wbufBytes (putState 0).sb) (putBytes (putState 0))).1.length) ∧
    Puts (noByte 0) 0 ∧ Room (noByte 0) (frameBytes (wbufBytes (noByte 0).sb) (putBytes (noByte 0))).1.length := by
  decide +kernel
/-- The second byte fills the block, the first byte does, the block was full; one byte of room is missing. -/
theorem witness_BpPutFramed_full : ∀ n ∈ [253, 254, 255],
    Puts (withPendingZeros n (withBits 0x7FF 11 0 0 (start [] 255 0xFFF 12 0))) 0 ∧
    FramerFull (withPendingZeros n (withBits 0x7FF 11 0 0 (start [] 255 0xFFF 12 0)))
      (putBytes (withPendingZeros n (withBits 0x7FF 11 0 0 (start [] 255 0xFFF 12 0)))) := by decide +kernel

theorem witness_BpFlushPads : (Ready (putState 1) ∧ PackInv (putState 1) ∧ (putState 1).args.arg2 = 1 ∧
      Room (putState 1) (flushBytes (putState 1)).length ∧ Room (noByte 1) (flushBytes (noByte 1)).length) ∧
    (putState 0).args.arg2 = 0 ∧
    Room (putState 0) (frameBytes (wbufBytes (putState 0).sb) (flushBytes (putState 0))).1.length := by decide +kernel
/-- No room for a byte that an earlier fault left (V59), and none for the padded last byte. -/
theorem witness_BpFlushPads_full : (Ready (v59Next 1) ∧ PackInv (v59Next 1) ∧ (v59Next 1).args.arg2 = 1 ∧
      roomLeft (v59Next 1) < (flushBytes (v59Next 1)).length) ∧
    (PackInv (v59Next 1) ∧ roomLeft ((v59Next 1).setCur ⟨0, 0, 1, 0⟩) < (flushBytes (v59Next 1)).length) ∧
    ∀ n ∈ [253, 254, 255], (withPendingZeros n (v59Next 0)).args.arg2 = 0 ∧ PackInv (withPendingZeros n (v59Next 0)) ∧
      FramerFull (withPendingZeros n (v59Next 0)) (flushBytes (v59Next 0)) := by decide +kernel

/-- A get of 12 bits with none at hand and exactly two bytes left. -/
def getState (raw : Nat) : State := withReader 2 false (start [0x55, 0xF8] 0 0 12 raw)

theorem witness_BpGetRaw : (Ready (getState 1) ∧ PackInv (getState 1) ∧ 1 ≤ (getState 1).args.arg1.toNat ∧
      (getState 1).args.arg1.toNat ≤ 12 ∧ (getState 1).args.arg2 = 1) ∧
    fetches (getState 1) (getState 1).args.arg1.toNat ≤ srcAvail (getState 1) := by decide +kernel

theorem witness_BpGetFramed : (Ready (getState 0) ∧ PackInv (getState 0) ∧ (getState 0).args.arg2 = 0) ∧
    (getState 0).sb.rend = false ∧ fetches (getState 0) 12 ≤ (getState 0).sb.rrem.toNat ∧
    fetches (getState 0) 12 ≤ srcAvail (getState 0) := by decide +kernel
/-- No byte is needed, and the chain has ended. -/
theorem witness_BpGetFramed_none : (Ready (withBits 0 0 0 11 (withReader 0 true (start [] 0 0 11 0))) ∧
      PackInv (withBits 0 0 0 11 (withReader 0 true (start [] 0 0 11 0)))) ∧
    fetches (withBits 0 0 0 11 (withReader 0 true (start [] 0 0 11 0))) 11 = 0 := by decide +kernel

/-- V55, its first call; and a code across two blocks. -/
theorem witness_BpGetFramed_chain : (Ready (v55 0 0 0 0) ∧ PackInv (v55 0 0 0 0) ∧ (v55 0 0 0 0).args.arg1 = 3 ∧
      (v55 0 0 0 0).args.arg2 = 0 ∧ (v55 0 0 0 0).sb.rend = false) ∧
    (chainRead (v55 0 0 0 0) (fetches (v55 0 0 0 0) 3) 0 0).stop = .got ∧
    (withReader 1 false (start [0x55, 0x01, 0xF8, 0x00] 0 0 12 0)).sb.rend = false ∧
    (chainRead (withReader 1 false (start [0x55, 0x01, 0xF8, 0x00] 0 0 12 0))
      (fetches (withReader 1 false (start [0x55, 0x01, 0xF8, 0x00] 0 0 12 0)) 12) 0 1).stop = .got := by decide +kernel

/-- V55, its third call; V65 and V66 as gets of 12 bits. -/
theorem witness_BpGetUnderrun_chain : (Ready (v55 0 2 2 0) ∧ PackInv (v55 0 2 2 0) ∧ (v55 0 2 2 0).args.arg2 = 0 ∧
      (v55 0 2 2 0).sb.rend = false ∧ (chainRead (v55 0 2 2 0) (fetches (v55 0 2 2 0) 3) 2 0).stop = .ended) ∧
    (chainRead (start [0x03, 0x48, 0x69] 0 0 12 0) (fetches (start [0x03, 0x48, 0x69] 0 0 12 0) 12) 0 0).stop =
      .truncated ∧
    (chainRead (withReader 1 false (start [0x48] 0 0 12 0)) (fetches (start [0x48] 0 0 12 0) 12) 0 1).stop =
      .truncated := by decide +kernel

theorem witness_BpGetUnderrun : (Ready (start [0x55] 0 0 12 1) ∧ PackInv (start [0x55] 0 0 12 1) ∧
      srcAvail (start [0x55] 0 0 12 1) < fetches (start [0x55] 0 0 12 1) 12) ∧
    Ready (withReader 0 true (start [] 0 0 1 0)) ∧ PackInv (withReader 0 true (start [] 0 0 1 0)) ∧
    (withReader 0 true (start [] 0 0 1 0)).sb.rend = true ∧
    0 < fetches (withReader 0 true (start [] 0 0 1 0)) 1 := by decide +kernel

def someCodes : List (Nat × Nat) := [(1, 1), (0xABC, 12), (0x5A5, 12), (7, 3)]

/-- V51: the bytes of these codes, in `SNK` after packing and in `SRC` for unpacking. -/
theorem witness_UnpackInvertsPack : ((∀ p ∈ someCodes, 1 ≤ p.2 ∧ p.2 ≤ 12 ∧ p.1 < 2 ^ p.2) ∧
      (start [] 4 0 0 0).bp.wacc = 0 ∧ (start [] 4 0 0 0).bp.wcnt = 0 ∧
      Room (start [] 4 0 0 0) ((totalBits someCodes + 7) / 8)) ∧
    HostCopied (packAll someCodes (start [] 4 0 0 0)).state 0 4 (start [0x79, 0xB5, 0xB4, 0x0E] 0 0 0 0) := by
  decide +kernel

theorem witness_SbOpensReset : Ready State.reset := rfl

theorem witness_SbPutBuffers : (Ready (withPendingZeros 254 (start [] 256 255 0 0)) ∧
      (start [] 256 255 0 0).args.arg0.toNat ≤ 255 ∧
      Room (start [] 256 255 0 0)
        (frameBytes (wbufBytes (withPendingZeros 254 (start [] 256 255 0 0)).sb) [255]).1.length ∧
      Room (noByte 0) (frameBytes (wbufBytes (noByte 0).sb) [1]).1.length) ∧
    ((withPendingZeros 254 (start [] 255 0 0 0)).sb.wcnt = 254 ∧ (start [] 255 0 0 0).cur.snkCap.toNat < 0 + 256) ∧
    (withPendingZeros 255 (start [] 255 0 0 0)).sb.wcnt = 255 := by decide +kernel

theorem witness_SbCloseEndsChain : (Ready (withPendingZeros 1 (start [] 3 0 0 0)) ∧
      0 + (closeBytes (wbufBytes (withPendingZeros 1 (start [] 3 0 0 0)).sb)).length ≤
        (start [] 3 0 0 0).cur.snkCap.toNat) ∧
    ((withPendingZeros 1 (start [] 1 0 0 0)).sb.wcnt ≠ 0 ∧ (start [] 1 0 0 0).cur.snkCap.toNat < 0 + 1 + 1) ∧
    ((start [] 0 0 0 0).sb.wcnt = 0 ∧ (start [] 0 0 0 0).cur.snkCap.toNat ≤ (start [] 0 0 0 0).cur.snkPos.toNat) ∧
    0 + 1 + (withPendingZeros 1 (start [] 2 0 0 0)).sb.wcnt.toNat = (start [] 2 0 0 0).cur.snkCap.toNat := by
  decide +kernel

theorem witness_SbGetReads : Ready (start [3, 1] 0 0 0 0) ∧ (withReader 0 true State.reset).sb.rend = true ∧
    ((withReader 1 false (start [7] 0 0 0 0)).sb.rrem ≠ 0 ∧ 1 ≤ srcAvail (withReader 1 false (start [7] 0 0 0 0))) ∧
    srcAvail (withReader 0 false (start [] 0 0 0 0)) = 0 ∧
    (1 ≤ srcAvail (start [0] 0 0 0 0) ∧ srcByte (start [0] 0 0 0 0) 0 = 0) ∧
    srcAvail (start [3, 1, 2] 0 0 0 0) - 1 < (srcByte (start [3, 1, 2] 0 0 0 0) 0).toNat ∧
    (srcByte (start [2, 1, 2] 0 0 0 0) 0 ≠ 0 ∧
      (srcByte (start [2, 1, 2] 0 0 0 0) 0).toNat + 1 ≤ srcAvail (start [2, 1, 2] 0 0 0 0)) := by decide +kernel

theorem witness_ReaderPastInput : Ready (withReader 1 false (start [] 0 0 0 0)) ∧
    (withReader 1 false (start [] 0 0 0 0)).sb.rend = false ∧ (withReader 1 false (start [] 0 0 0 0)).sb.rrem ≠ 0 ∧
    srcAvail (withReader 1 false (start [] 0 0 0 0)) = 0 ∧
    (withReader 1 false (start [] 0 0 0 0)).cur.srcLen.toNat ≤ 0 + 1 := by decide

theorem witness_SbSkipEndsChain : (withReader 0 true State.reset).sb.rend = true ∧
    (withReader 1 false (start [0x69, 0x01, 0x21, 0x00] 0 0 0 0)).sb.rend = false ∧
    blocksAt (withReader 1 false (start [0x69, 0x01, 0x21, 0x00] 0 0 0 0)) 1 [1] ∧
    blocksEnd 1 [1] ≤ (start [0x69, 0x01, 0x21, 0x00] 0 0 0 0).cur.srcLen.toNat :=
  ⟨rfl, rfl, ⟨by decide +kernel, by decide, show srcByte _ _ = 0 by decide +kernel⟩, by decide⟩

/-- V66 (no length byte after a block, and after the rest of one) and V68 (a claim of 5 with 1 left; `SRC` empty). -/
theorem witness_SbSkipEndsChain_truncated : ((start [] 0 0 0 0).sb.rrem = 0 ∧ srcAvail (start [] 0 0 0 0) = 0) ∧
    (blocksFrom (start [0x02, 0x48, 0x69] 0 0 0 0) 0 [2] ∧ 3 = blocksPast 0 [2] ∧
      3 = (start [0x02, 0x48, 0x69] 0 0 0 0).cur.srcLen.toNat) ∧
    (blocksFrom (withReader 1 false (start [0x69] 0 0 0 0)) (0 + 1) [] ∧ 1 = blocksPast (0 + 1) [] ∧
      1 = (withReader 1 false (start [0x69] 0 0 0 0)).cur.srcLen.toNat) ∧
    blocksFrom (start [0x02, 0x01, 0x02, 0x05, 0x09] 0 0 0 0) 0 [2] ∧ 3 = blocksPast 0 [2] ∧
    3 < (start [0x02, 0x01, 0x02, 0x05, 0x09] 0 0 0 0).cur.srcLen.toNat ∧
    (start [0x02, 0x01, 0x02, 0x05, 0x09] 0 0 0 0).cur.srcLen.toNat <
      3 + 1 + (srcByte (start [0x02, 0x01, 0x02, 0x05, 0x09] 0 0 0 0) 3).toNat :=
  ⟨by decide, ⟨⟨by decide +kernel, by decide, trivial⟩, rfl, rfl⟩, ⟨trivial, rfl, rfl⟩,
    ⟨by decide +kernel, by decide, trivial⟩, by decide +kernel⟩

theorem witness_HeaderWritesAppendRecords : (Ready (start [] 13 0 0 0) ∧
      0 + (fileRecord (start [] 13 0 0 0).hdr).length ≤ (start [] 13 0 0 0).cur.snkCap.toNat) ∧
    (start [] 12 0 0 0).cur.snkCap.toNat < 0 + (fileRecord (start [] 12 0 0 0).hdr).length ∧
    (0 + (imageRecord (start [] 9 0 0 0).hdr).length ≤ (start [] 9 0 0 0).cur.snkCap.toNat ∧
      0 + (gcbRecord (start [] 6 0 0 0).hdr).length ≤ (start [] 6 0 0 0).cur.snkCap.toNat) := by decide +kernel

def fileState : State := start [0x47, 0x49, 0x46, 0x38, 0x39, 0x61, 0x40, 0x01, 0xC8, 0x00, 0xF7, 0x05, 0x31] 0 0 0 0

theorem witness_HdrRdFileLoads : (Ready fileState ∧ 13 ≤ srcAvail fileState ∧
      srcBytes fileState 0 6 = [0x47, 0x49, 0x46, 0x38, 0x39, 0x61]) ∧
    srcAvail (start [0x47, 0x49] 0 0 0 0) < 13 ∧
    srcBytes (start [0x47, 0x49, 0x46, 0x38, 0x37, 0x61, 0, 0, 0, 0, 0, 0, 0] 0 0 0 0) 0 6 ≠
      [0x47, 0x49, 0x46, 0x38, 0x39, 0x61] := by decide +kernel

theorem witness_HdrRdImageLoads : Ready (start [1, 0, 2, 0, 2, 1, 4, 3, 0x87] 0 0 0 0) ∧
    9 ≤ srcAvail (start [1, 0, 2, 0, 2, 1, 4, 3, 0x87] 0 0 0 0) ∧
    srcAvail (start [1, 0, 2, 0, 2, 1, 4, 3] 0 0 0 0) < 9 := by decide +kernel

theorem witness_HdrRdGcbLoads : (Ready (start [4, 1, 0x34, 0x12, 0xFF, 0] 0 0 0 0) ∧
      6 ≤ srcAvail (start [4, 1, 0x34, 0x12, 0xFF, 0] 0 0 0 0) ∧
      srcByte (start [4, 1, 0x34, 0x12, 0xFF, 0] 0 0 0 0) 0 = 4 ∧
      srcByte (start [4, 1, 0x34, 0x12, 0xFF, 0] 0 0 0 0) (0 + 5) = 0) ∧
    srcAvail (start [4, 1, 0x34, 0x12, 0xFF] 0 0 0 0) < 6 ∧
    srcByte (start [5, 1, 0x34, 0x12, 0xFF, 0] 0 0 0 0) 0 ≠ 4 ∧
    srcByte (start [4, 1, 0x34, 0x12, 0xFF, 1] 0 0 0 0) (0 + 5) ≠ 0 := by decide +kernel

/-- The host copies the `SNK` of a finished write, from address 0, to a fresh `SRC`. -/
def copied (t : State) (n cap : Nat) : State := start ((List.range n).map fun i => snkByte t i) cap 0 0 0

/-- What `HeaderRoundTrip` asks of a write and of the state that reads it back. -/
def RoundTripWitness (i : Instr) (s : State) (n cap : Nat) : Prop :=
  ∃ t u, Ready s ∧ Ready u ∧ exec i s = .next t ∧ Completed s t ∧ HostCopied t s.cur.snkPos.toNat n u ∧
    (i = .hdrWrComment → Room u (srcAvail s)) ∧ cap = u.cur.snkCap.toNat

theorem witness_HeaderRoundTrip_file : RoundTripWitness .hdrWrFile (withHeader (start [] 13 0 0 0)) 13 0 :=
  ⟨_, copied (after .hdrWrFile (withHeader (start [] 13 0 0 0))) 13 0, by decide, by decide +kernel,
    exec_after (by decide +kernel), by decide +kernel, by decide +kernel, by decide +kernel, by decide +kernel⟩
theorem witness_HeaderRoundTrip_image : RoundTripWitness .hdrWrImage (withHeader (start [] 9 0 0 0)) 9 0 :=
  ⟨_, copied (after .hdrWrImage (withHeader (start [] 9 0 0 0))) 9 0, by decide, by decide +kernel,
    exec_after (by decide +kernel), by decide +kernel, by decide +kernel, by decide +kernel, by decide +kernel⟩
theorem witness_HeaderRoundTrip_gcb : RoundTripWitness .hdrWrGcb (withHeader (start [] 6 0 0 0)) 6 0 :=
  ⟨_, copied (after .hdrWrGcb (withHeader (start [] 6 0 0 0))) 6 0, by decide, by decide +kernel,
    exec_after (by decide +kernel), by decide +kernel, by decide +kernel, by decide +kernel, by decide +kernel⟩
theorem witness_HeaderRoundTrip_comment : RoundTripWitness .hdrWrComment (start [0x48, 0x69] 4 0 0 0) 4 2 :=
  ⟨_, copied (after .hdrWrComment (start [0x48, 0x69] 4 0 0 0)) 4 2, by decide, by decide +kernel,
    exec_after (by decide +kernel), by decide +kernel, by decide +kernel, by decide +kernel, by decide +kernel⟩

theorem witness_HdrWrCommentChains : Ready (start [0x48, 0x69] 4 0 0 0) ∧
    0 + (chainBytes (inputBytes (start [0x48, 0x69] 4 0 0 0))).length ≤ (start [0x48, 0x69] 4 0 0 0).cur.snkCap.toNat := by
  decide +kernel

/-- V79 (the block does not fit), the terminator alone does not, and a block of 255 with a byte behind it. -/
theorem witness_HdrWrCommentChains_full :
    (Ready (start [0x41, 0x42, 0x43] 3 0 0 0) ∧ roomLeft (start [0x41, 0x42, 0x43] 3 0 0 0) <
      (chainBytes (inputBytes (start [0x41, 0x42, 0x43] 3 0 0 0))).length) ∧
    roomLeft (start [0x41, 0x42, 0x43] 4 0 0 0) < (chainBytes (inputBytes (start [0x41, 0x42, 0x43] 4 0 0 0))).length ∧
    roomLeft (start (List.replicate 256 7) 255 0 0 0) <
      (chainBytes (inputBytes (start (List.replicate 256 7) 255 0 0 0))).length := by decide +kernel

/-- V78: a chain that ends, the sink full at its second byte, a claim that is too long, no length byte. -/
theorem witness_HdrRdCommentReads_stops :
    (Ready (start [0x02, 0x48, 0x69, 0x00] 2 0 0 0) ∧ (chainRead (start [0x02, 0x48, 0x69, 0x00] 2 0 0 0) (2 + 1) 0 0).stop =
      .ended ∧ roomLeft (start [0x02, 0x48, 0x69, 0x00] 2 0 0 0) = 2) ∧
    ((chainRead (start [0x02, 0x48, 0x69, 0x00] 1 0 0 0) (1 + 1) 0 0).stop = .got ∧
      roomLeft (start [0x02, 0x48, 0x69, 0x00] 1 0 0 0) = 1) ∧
    (chainRead (start [0x05, 0x48, 0x69, 0x00] 1 0 0 0) (1 + 1) 0 0).stop = .truncated ∧
    (chainRead (start [0x02, 0x48, 0x69] 2 0 0 0) (2 + 1) 0 0).stop = .truncated := by decide +kernel

theorem witness_HdrRdCommentReads : Ready (start [0x02, 0x48, 0x69, 0x00] 2 0 0 0) ∧
    blocksAt (start [0x02, 0x48, 0x69, 0x00] 2 0 0 0) 0 [2] ∧
    blocksEnd 0 [2] ≤ (start [0x02, 0x48, 0x69, 0x00] 2 0 0 0).cur.srcLen.toNat ∧
    Room (start [0x02, 0x48, 0x69, 0x00] 2 0 0 0) [2].sum :=
  ⟨by decide, ⟨by decide +kernel, by decide, show srcByte _ _ = 0 by decide +kernel⟩, by decide, by decide⟩
/-- The empty chain, with `SNK_POS` above `SNK_CAP`. -/
theorem witness_HdrRdCommentReads_empty : Ready ((start [0x00] 0 0 0 0).setCur ⟨1, 0, 0, 5⟩) ∧
    blocksAt ((start [0x00] 0 0 0 0).setCur ⟨1, 0, 0, 5⟩) 0 [] ∧
    blocksEnd 0 [] ≤ ((start [0x00] 0 0 0 0).setCur ⟨1, 0, 0, 5⟩).cur.srcLen.toNat ∧
    Room ((start [0x00] 0 0 0 0).setCur ⟨1, 0, 0, 5⟩) ([] : List Nat).sum :=
  ⟨by decide, show srcByte _ _ = 0 by decide +kernel, by decide, by decide⟩

theorem witness_EstimateIsIsolated : (Ready (start v1 0 3 0 0) ∧ LegalRootBits (start v1 0 3 0 0).args.arg0.toNat ∧
      InputInRange (start v1 0 3 0 0) 3) ∧
    ¬ InputInRange (start [4] 0 3 0 0) 3 ∧ (start v1 0 2 0 0).args.arg0.toNat < 3 ∧
    12 < (start v1 0 13 0 0).args.arg0.toNat := by decide +kernel

/-- Exactly the room the estimate asks for. -/
theorem witness_CompressWritesTheEstimate : ∃ u, Ready (start v1 7 3 0 0) ∧
    LegalRootBits (start v1 7 3 0 0).args.arg0.toNat ∧ InputInRange (start v1 7 3 0 0) 3 ∧
    exec .lzwEstimate (start v1 7 3 0 0) = .next u ∧ 0 + estimatedBytes u ≤ (start v1 7 3 0 0).cur.snkCap.toNat :=
  ⟨_, by decide, by decide, by decide +kernel, exec_after (by decide +kernel), by decide +kernel⟩

theorem witness_CompressEmptyInput : Ready (start [] 6 12 0 0) ∧ LegalRootBits (start [] 6 12 0 0).args.arg0.toNat ∧
    srcAvail (start [] 6 12 0 0) = 0 ∧
    0 + (BitVec.ofNat 8 11 :: BitVec.ofNat 8 3 :: (lowBytes (2048 + 2049 * 2 ^ 12) 3 ++ [0])).length ≤
      (start [] 6 12 0 0).cur.snkCap.toNat := by decide +kernel

theorem witness_CompressRejects : Ready (start [4] 1 3 0 0) ∧ (start [] 0 2 0 0).args.arg0.toNat < 3 ∧
    12 < (start [] 0 13 0 0).args.arg0.toNat ∧ LegalRootBits (start [4] 1 3 0 0).args.arg0.toNat ∧
    1 ≤ srcAvail (start [4] 1 3 0 0) ∧ 2 ^ (3 - 1) ≤ (srcByte (start [4] 1 3 0 0) 0).toNat ∧
    0 + 1 ≤ (start [4] 1 3 0 0).cur.snkCap.toNat ∧
    (start [4] 0 3 0 0).cur.snkCap.toNat ≤ (start [4] 0 3 0 0).cur.snkPos.toNat := by decide +kernel

/-- The encoder's result with the room that is left after the code-size byte. -/
def encoded (s : State) : Coded :=
  encodeInput (some (frameLimit (roomLeft s - 1))) s.args.arg0.toNat (inputBytes s)

/-- What the general clause asks of the state: legal, and room for the code-size byte. -/
abbrev Encodable (s : State) : Prop :=
  Ready s ∧ LegalRootBits s.args.arg0.toNat ∧ roomLeft s = roomLeft s - 1 + 1

/-- V19; V20 with `SNK_CAP` 1, 2 and 9. -/
theorem witness_CompressRejects_run : (Encodable (start [0x00, 0x04, 0x01] 100 3 0 0) ∧
      (encoded (start [0x00, 0x04, 0x01] 100 3 0 0)).fault = some .corruptStream) ∧
    ∀ cap ∈ [1, 2, 9], Encodable (start v10 cap 9 0 0) ∧ (encoded (start v10 cap 9 0 0)).fault = none ∧
      roomLeft (start v10 cap 9 0 0) - 1 < (chainBytes (paddedBytes (encoded (start v10 cap 9 0 0)).final)).length := by
  decide +kernel
/-- 200 data codes of 12 bits pack to more than 255 bytes, and there is no room for a block of 255. -/
theorem witness_CompressRejects_full : Encodable (start ((List.range 200).map (BitVec.ofNat 8 ·)) 100 12 0 0) ∧
    (encoded (start ((List.range 200).map (BitVec.ofNat 8 ·)) 100 12 0 0)).fault = some .insufficientSpace := by
  decide +kernel

theorem witness_DecompressRejectsCodeSize : Ready (start [1] 0 0 0 0) ∧ srcAvail (start [] 0 0 0 0) = 0 ∧
    (1 ≤ srcAvail (start [1] 0 0 0 0) ∧ (srcByte (start [1] 0 0 0 0) 0).toNat < 2) ∧
    1 ≤ srcAvail (start [12] 0 0 0 0) ∧ 11 < (srcByte (start [12] 0 0 0 0) 0).toNat := by decide +kernel

/-- V23: `EndCode` in a block of one byte, then the terminator. -/
theorem witness_DecompressDecodesStream_endFirst : (Ready (start [0x02, 0x01, 0x05, 0x00] 0 0 0 0) ∧ LegalRootBits 3) ∧
    ((srcByte (start [0x02, 0x01, 0x05, 0x00] 0 0 0 0) 0).toNat + 1 = 3 ∧
      (srcByte (start [0x02, 0x01, 0x05, 0x00] 0 0 0 0) (0 + 1)).toNat = 1) ∧ (3 + 7) / 8 ≤ 1 ∧
    1 + 2 ≤ srcAvail (start [0x02, 0x01, 0x05, 0x00] 0 0 0 0) ∧
    leValue (srcBytes (start [0x02, 0x01, 0x05, 0x00] 0 0 0 0) (0 + 2) ((3 + 7) / 8)) % 2 ^ 3 = 2 ^ (3 - 1) + 1 := by
  decide +kernel

/-- What the general clause asks of the state; its reader's result is `decoded`. -/
abbrev Decodable (s : State) : Prop :=
  Ready s ∧ LegalRootBits ((srcByte s s.cur.srcPos.toNat).toNat + 1) ∧ 1 ≤ srcAvail s ∧ 8 * srcAvail s < 8 * srcAvail s + 1

/-- V24, with the deferred add and exactly the room its output needs: it completes. -/
theorem witness_DecompressDecodesStream : Decodable v24 ∧ (decoded v24).fault = none := by decide +kernel
/-- V25; V24 with room for one byte less; a stream with no length byte. -/
theorem witness_DecompressDecodesStream_faults :
    (Decodable v25 ∧ (decoded v25).fault = some .corruptStream) ∧
    (Decodable (v24.setCur { v24.cur with snkCap := 2 }) ∧
      (decoded (v24.setCur { v24.cur with snkCap := 2 })).fault = some .insufficientSpace) ∧
    Decodable (start [0x02] 0 0 0 0) ∧ (decoded (start [0x02] 0 0 0 0)).fault = some .truncatedStream := by
  decide +kernel

def EndsOk (r : Run Unit) : Bool :=
  match r with
  | .ok _ _ => true
  | .raise _ _ => false

theorem exists_ok {r : Run Unit} (h : EndsOk r = true) : ∃ t, r = .ok () t := by
  cases r with
  | ok a s => exact ⟨s, rfl⟩
  | raise k s => exact absurd h (by simp [EndsOk])

theorem witness_LoopBoundsSuffice : ∃ t, decompressOpen (start v1Stream 100 0 0 0) = .ok () t :=
  exists_ok (by decide +kernel)

theorem witness_DecompressInvertsCompress : ∃ t u, Ready (start v1 7 3 0 0) ∧
    LegalRootBits (start v1 7 3 0 0).args.arg0.toNat ∧ InputInRange (start v1 7 3 0 0) 3 ∧
    exec .lzwCompress (start v1 7 3 0 0) = .next t ∧ Completed (start v1 7 3 0 0) t ∧ Ready u ∧
    HostCopied t 0 (t.cur.snkPos.toNat - 0) u ∧ Room u (srcAvail (start v1 7 3 0 0)) :=
  ⟨_, start v1Stream 8 0 0 0, by decide, by decide, by decide +kernel, exec_after (by decide +kernel), by decide +kernel,
    by decide +kernel, by decide +kernel, by decide +kernel⟩

end Sys2Proof.Tests
end

section
/-! The host's register interface (spec/10_state.md R22, R37): which registers a host write reaches, what a written register
reads as, and that no other register changes. -/

namespace Sys2Proof.Machine

open Sys2Proof.Claims

/-! ### Registers and their numbers -/

/-- The number of a register (R37), the inverse of `regOfNumber`. -/
def regNumber : HostReg → Nat
  | .cmd => 0 | .status => 1 | .err => 2 | .errCmd => 3
  | .arg0 => 4 | .arg1 => 5 | .arg2 => 6
  | .res0 => 7 | .res1 => 8 | .res2 => 9 | .res3 => 10
  | .srcLen => 11 | .srcPos => 12 | .snkCap => 13 | .snkPos => 14
  | .stRootBits => 15 | .stCodeBits => 16 | .stNextFree => 17 | .stResetCode => 18 | .stEndCode => 19
  | .bpWacc => 20 | .bpWcnt => 21 | .bpRacc => 22 | .bpRcnt => 23
  | .sbWcnt => 24 | .sbRrem => 25 | .sbRend => 26
  | .lzCur => 27 | .lzPrev => 28 | .lzResets => 29
  | .fhWidth => 32 | .fhHeight => 33 | .fhResolution => 34 | .fhBackground => 35 | .fhAspect => 36
  | .ihLeft => 37 | .ihTop => 38 | .ihWidth => 39 | .ihHeight => 40 | .ihFlags => 41
  | .gcFlags => 42 | .gcDelay => 43 | .gcTransp => 44

theorem regNumber_of_regOfNumber {n : Nat} {r : HostReg} (h : regOfNumber n = some r) : regNumber r = n := by
  unfold regOfNumber at h
  split at h <;> cases h <;> rfl

/-- The width of a register a host write stores in (R37); `none` for the read-only ones and for `CMD`, whose write is a
dispatch. -/
def writeWidth : HostReg → Option Nat
  | .arg0 | .arg1 | .arg2 | .srcLen | .srcPos | .snkCap | .snkPos => some 32
  | .fhWidth | .fhHeight | .ihLeft | .ihTop | .ihWidth | .ihHeight | .gcDelay => some 16
  | .fhResolution | .fhBackground | .fhAspect | .ihFlags | .gcFlags | .gcTransp => some 8
  | _ => none

theorem writeWidth_le {r : HostReg} {w : Nat} (h : writeWidth r = some w) : w ≤ 32 := by
  cases r <;> cases h <;> decide

theorem writeWidth_of_mem_writableRegs {p : Nat × Nat} (hp : p ∈ writableRegs) :
    ∃ r, regOfNumber p.1 = some r ∧ writeWidth r = some p.2 := by
  have table : ∀ p ∈ writableRegs, (regOfNumber p.1).bind writeWidth = some p.2 := by decide
  exact Option.bind_eq_some_iff.1 (table p hp)

theorem mem_writableRegs_of_writeWidth {r : HostReg} {w : Nat} (h : writeWidth r = some w) :
    (regNumber r, w) ∈ writableRegs := by
  cases r <;> cases h <;> decide

/-! ### Reading a register after writing one -/

theorem setReg_of_readOnly {r : HostReg} (h : writeWidth r = none) (v : Word) (s : State) : setReg r v s = s := by
  cases r <;> simp [writeWidth, setReg] at h ⊢

/-- The groups that hold the read-only registers are out of a host write's reach. -/
theorem setReg_frame (r : HostReg) (v : Word) (s : State) :
    (setReg r v s).status = s.status ∧ (setReg r v s).res = s.res ∧ (setReg r v s).st = s.st ∧
      (setReg r v s).bp = s.bp ∧ (setReg r v s).sb = s.sb ∧ (setReg r v s).lz = s.lz := by
  cases r <;> exact ⟨rfl, rfl, rfl, rfl, rfl, rfl⟩

theorem regValue_setReg_same {r : HostReg} {w : Nat} (h : writeWidth r = some w) (v : Word) (s : State) :
    regValue r (setReg r v s) = (v.setWidth w).setWidth 32 := by
  cases r <;> cases h <;> simp [regValue, setReg]

theorem regValue_setReg_of_readOnly {q : HostReg} (h : writeWidth q = none) (r : HostReg) (v : Word) (s : State) :
    regValue q (setReg r v s) = regValue q s := by
  cases q <;> cases h <;> simp only [regValue, setReg_frame]

/-- Two writable registers are different fields, of one group or of two. -/
theorem regValue_setReg_other {q r : HostReg} (h : q ≠ r) (v : Word) (s : State) :
    regValue q (setReg r v s) = regValue q s := by
  cases hq : writeWidth q with
  | none => exact regValue_setReg_of_readOnly hq r v s
  | some w =>
    cases hr : writeWidth r with
    | none => rw [setReg_of_readOnly hr]
    | some u =>
      cases q <;> cases hq
      all_goals
        cases r <;> cases hr
        all_goals simp [regValue, setReg] at h ⊢

/-! ### The same, by number -/

theorem hostRead_of_reg {n : Nat} {r : HostReg} (h : regOfNumber n = some r) (s : State) :
    hostRead n s = regValue r s := by
  simp only [hostRead, h]

theorem hostRead_of_unassigned {n : Nat} (h : regOfNumber n = none) (s : State) : hostRead n s = 0 := by
  simp only [hostRead, h]

theorem hostWrite_of_reg {n : Nat} {r : HostReg} (h : regOfNumber n = some r) (v : Word) (s : State) :
    hostWrite n v s = setReg r v s := by
  simp only [hostWrite, h]

theorem hostWrite_of_unassigned {n : Nat} (h : regOfNumber n = none) (v : Word) (s : State) : hostWrite n v s = s := by
  simp only [hostWrite, h]

theorem hostRead_hostWrite_same {n w : Nat} {r : HostReg} (hr : regOfNumber n = some r) (hw : writeWidth r = some w)
    (v : Word) (s : State) : (hostRead n (hostWrite n v s)).toNat = v.toNat % 2 ^ w := by
  have low : v.toNat % 2 ^ w < 2 ^ 32 :=
    (Nat.mod_lt _ (Nat.two_pow_pos w)).trans_le (Nat.pow_le_pow_right two_pos (writeWidth_le hw))
  rw [hostRead_of_reg hr, hostWrite_of_reg hr, regValue_setReg_same hw, BitVec.toNat_setWidth, BitVec.toNat_setWidth,
    Nat.mod_eq_of_lt low]

theorem hostRead_hostWrite_other {m n : Nat} (h : m ≠ n) (v : Word) (s : State) :
    hostRead m (hostWrite n v s) = hostRead m s := by
  cases hn : regOfNumber n with
  | none => rw [hostWrite_of_unassigned hn]
  | some r =>
    cases hm : regOfNumber m with
    | none => rw [hostRead_of_unassigned hm, hostRead_of_unassigned hm]
    | some q =>
      have hqr : q ≠ r := fun e => h (by rw [← regNumber_of_regOfNumber hm, e, regNumber_of_regOfNumber hn])
      rw [hostRead_of_reg hm, hostRead_of_reg hm, hostWrite_of_reg hn, regValue_setReg_other hqr]

theorem hostWrite_of_not_writable {n : Nat} (h : ∀ p ∈ writableRegs, p.1 ≠ n) (v : Word) (s : State) :
    hostWrite n v s = s := by
  cases hn : regOfNumber n with
  | none => exact hostWrite_of_unassigned hn v s
  | some r =>
    rw [hostWrite_of_reg hn]
    cases hw : writeWidth r with
    | none => exact setReg_of_readOnly hw v s
    | some w => exact absurd (regNumber_of_regOfNumber hn) (h _ (mem_writableRegs_of_writeWidth hw))

/-- Settles O7: each number of the writable list names a register of that width, and no other number names a writable one. -/
theorem hostWriteTruncates : Obligations.HostWriteTruncates := by
  unfold Obligations.HostWriteTruncates
  refine ⟨fun p hp v s => ?_, fun n _ hn v s => hostWrite_of_not_writable hn v s⟩
  obtain ⟨r, hr, hw⟩ := writeWidth_of_mem_writableRegs hp
  exact ⟨hostRead_hostWrite_same hr hw v s, fun m hm => hostRead_hostWrite_other hm v s⟩

end Sys2Proof.Machine
end

section
/-! The decoder and the encoder (spec/30_encoding.md R90 to R93): each inverts the other, the words that decode are those
that pass the two checks, and what dispatch of any other word does. -/

namespace Sys2Proof

/-! ### Decode and encode -/

@[simp] theorem decode_encode (i : Instr) : decode (encode i) = .ok i := by
  simp [decode]

/-- What a word that decodes has in its two fields (R93). -/
theorem fields_of_decode {w : Word} {i : Instr} (h : decode w = .ok i) :
    (splitWord w).zero = 0 ∧ decodeOpcode (splitWord w).opcode = some i := by
  simp only [decode] at h
  split at h
  next hzero =>
    split at h
    next j hop => cases h; exact ⟨hzero, hop⟩
    next => cases h
  next => cases h

theorem encode_eq_of_fields {w : Word} {i : Instr} (hzero : (splitWord w).zero = 0)
    (hop : opcodeOf i = (splitWord w).opcode) : encode i = w := by
  rw [encode, hop, ← hzero]
  exact joinWord_splitWord w

theorem decode_eq_ok_iff {w : Word} {i : Instr} : decode w = .ok i ↔ encode i = w := by
  constructor
  · intro h
    obtain ⟨hzero, hop⟩ := fields_of_decode h
    exact encode_eq_of_fields hzero (opcodeOf_of_decodeOpcode hop)
  · rintro rfl
    exact decode_encode i

theorem decode_eq_error_of_not_encoded {w : Word} (h : ∀ i, encode i ≠ w) : ∃ e, decode w = .error e := by
  cases hd : decode w with
  | ok i => exact absurd (decode_eq_ok_iff.1 hd) (h i)
  | error e => exact ⟨e, rfl⟩

/-! ### The checks of R93 -/

theorem exists_opcodeOf_eq {op : BitVec 8} (h : op ∈ assignedOpcodes) : ∃ i, opcodeOf i = op := by
  have decodes : ∀ op ∈ assignedOpcodes, (decodeOpcode op).isSome := by decide
  obtain ⟨i, hi⟩ := Option.isSome_iff_exists.1 (decodes op h)
  exact ⟨i, opcodeOf_of_decodeOpcode hi⟩

theorem wellFormed_iff {c : CommandWord} : c.wellFormed = true ↔ c.zero = 0 ∧ c.opcode ∈ assignedOpcodes := by
  simp [CommandWord.wellFormed, CommandWord.zeroOk, CommandWord.opcodeOk]

theorem wellFormed_splitWord_iff {w : Word} : (splitWord w).wellFormed = true ↔ ∃ i, encode i = w := by
  rw [wellFormed_iff]
  constructor
  · rintro ⟨hzero, hassigned⟩
    obtain ⟨i, hi⟩ := exists_opcodeOf_eq hassigned
    exact ⟨i, encode_eq_of_fields hzero hi⟩
  · rintro ⟨i, rfl⟩
    rw [splitWord_encode]
    exact ⟨rfl, List.contains_iff_mem.1 (opcodeOf_assigned i)⟩

theorem wellFormed_splitWord_eq_false_iff {w : Word} : (splitWord w).wellFormed = false ↔ ∀ i, encode i ≠ w := by
  rw [← Bool.not_eq_true, wellFormed_splitWord_iff, not_exists]

theorem splitWord_opcode (w : Word) : (splitWord w).opcode = w.setWidth 8 :=
  (BitVec.setWidth_eq_extractLsb' (by decide)).symm

end Sys2Proof

namespace Sys2Proof.Claims

/-! ### The opcode map of R92 -/

/-- Every row of the map holds the word of its command. -/
theorem encode_of_mem_opcodeMap {i : Instr} {w : Word} (h : (i, w) ∈ opcodeMap) : encode i = w := by
  have rows : ∀ p ∈ opcodeMap, encode p.1 = p.2 := by decide
  exact rows (i, w) h

/-- Every command has its row in the map. -/
theorem mem_opcodeMap (i : Instr) : (i, encode i) ∈ opcodeMap := by
  cases i <;> decide

theorem mem_opcodeMap_iff {i : Instr} {w : Word} : (i, w) ∈ opcodeMap ↔ encode i = w := by
  constructor
  · exact encode_of_mem_opcodeMap
  · rintro rfl
    exact mem_opcodeMap i

/-- Settles O1: the rows of the map are the encoded commands, and the decoder accepts exactly the encoded commands. -/
theorem opcodeMapIsExact : Obligations.OpcodeMapIsExact := by
  unfold Obligations.OpcodeMapIsExact
  exact ⟨fun _ _ => mem_opcodeMap_iff, fun _ _ => decode_eq_ok_iff.trans mem_opcodeMap_iff.symm⟩

end Sys2Proof.Claims

namespace Sys2Proof.Machine

open Sys2Proof.Claims

/-! ### Dispatch of an illegal word -/

/-- R93, R290: fault entry with the low byte of the word, whatever the flags before. -/
theorem illegalWord_ready {s : State} (hs : Ready s) (w : Word) :
    illegalWord w s = .next (s.setStatus ⟨false, true, false, 6, w.setWidth 8⟩) := by
  rw [illegalWord, show s.status.fault = false from hs, splitWord_opcode]
  rfl

/-- R294: while a fault is pending an illegal word is ignored. -/
theorem illegalWord_ignored {s : State} (hs : ¬ Ready s) (w : Word) : illegalWord w s = .next s := by
  simp only [Ready, Bool.not_eq_false] at hs
  simp [illegalWord, hs]

theorem dispatchWord_of_not_encoded {w : Word} (h : ∀ i, encode i ≠ w) (s : State) :
    dispatchWord w s = illegalWord w s := by
  obtain ⟨e, he⟩ := decode_eq_error_of_not_encoded h
  simp only [dispatchWord, he]

/-- Settles O3: no command encodes to a word that fails the checks, so dispatch takes it as an illegal word. -/
theorem illegalWordsFault : Obligations.IllegalWordsFault := by
  unfold Obligations.IllegalWordsFault
  refine ⟨fun _ => wellFormed_splitWord_eq_false_iff, fun w s hw => ?_⟩
  rw [dispatchWord_of_not_encoded hw]
  exact ⟨fun hs => illegalWord_ready hs w, fun hs => illegalWord_ignored hs w⟩

end Sys2Proof.Machine
end

section
/-! How a command ends (spec/46_system_commands.md R273, R290) and what it left unchanged, for a command whose body writes no
flag. -/

namespace Sys2Proof.Machine

/-! ### The end of a command -/

/-- R273: a command whose body ends normally and left the flags alone completes. -/
theorem runCommand_completes {i : Instr} {body : State → Run Unit} {s t : State} (hs : Ready s)
    (h : body (s.setStatus (beginFlags s.status)) = .ok () t) (ht : t.status = beginFlags s.status) :
    runCommand i body s = .next (t.setStatus ⟨false, false, true, s.status.err, s.status.errCmd⟩) := by
  rw [runCommand_ok hs h, ht, completeFlags_beginFlags hs]

/-- R273, R290: a command whose body raises before it changed anything changes nothing but the flags. -/
theorem runCommand_rejects {i : Instr} {body : State → Run Unit} {s : State} {k : FaultKind} (hs : Ready s)
    (h : body (s.setStatus (beginFlags s.status)) = .raise k (s.setStatus (beginFlags s.status))) :
    runCommand i body s = .next (s.setStatus ⟨false, true, false, k.code, opcodeOf i⟩) := by
  rw [runCommand_raise hs h]
  rfl

/-- R273: a command whose body only writes `RES0` completes with that value and changes nothing else. -/
theorem runCommand_returns {i : Instr} {body : State → Run Unit} {s : State} {v : Nat} {x : Word} (hs : Ready s)
    (h : body (s.setStatus (beginFlags s.status)) = finish1 v (s.setStatus (beginFlags s.status)))
    (hx : BitVec.ofNat 32 v = x) :
    runCommand i body s =
      .next ((s.setRes { s.res with res0 := x }).setStatus ⟨false, false, true, s.status.err, s.status.errCmd⟩) := by
  rw [runCommand_completes hs h rfl, hx]
  rfl

/-! ### Frames -/

theorem SameBut.mono {gs hs : List Group} (hsub : gs ⊆ hs) {s t : State} (h : SameBut gs s t) : SameBut hs s t :=
  fun g hg => h g fun hmem => hg (hsub hmem)

theorem SameGroup.trans {s t u : State} {g : Group} (hst : SameGroup s t g) (htu : SameGroup t u g) :
    SameGroup s u g := by
  cases g
  case src | snk => exact fun a => (htu a).trans (hst a)
  all_goals exact Eq.trans htu hst

theorem SameBut.trans {gs : List Group} {s t u : State} (hst : SameBut gs s t) (htu : SameBut gs t u) :
    SameBut gs s u :=
  fun g hg => (hst g hg).trans (htu g hg)

theorem sameBut_setStatus (s : State) (x : StatusRegs) : SameBut [.status] s (s.setStatus x) := by
  intro g hg
  cases g <;> simp_all [SameGroup, srcByte, snkByte]

theorem sameBut_setRes (s : State) (x : ResRegs) : SameBut [.res] s (s.setRes x) := by
  intro g hg
  cases g <;> simp_all [SameGroup, srcByte, snkByte]

theorem sameBut_setSt (s : State) (x : StringTable) : SameBut [.st] s (s.setSt x) := by
  intro g hg
  cases g <;> simp_all [SameGroup, srcByte, snkByte]

/-- What the body of a command keeps, the command keeps, the flags apart. -/
theorem SameBut.of_body {gs : List Group} (hstatus : .status ∈ gs) {s t : State} {x y : StatusRegs}
    (h : SameBut gs (s.setStatus x) t) : SameBut gs s (t.setStatus y) :=
  have flags : ∀ g ∈ [Group.status], g ∈ gs := by simpa using hstatus
  (((sameBut_setStatus s x).mono flags).trans h).trans ((sameBut_setStatus t y).mono flags)

end Sys2Proof.Machine
end

section
/-! The strings of a table that keeps the invariants (spec/40_string_table.md R133, R134, R139), what `Find` answers (R141) and
the code width after an add (R137). -/

namespace Sys2Proof.Machine

/-! ### Codes of a table some reset set up -/

section
variable {t : StringTable} {c : Nat}

/-- R133: a valid code is a root code or a dynamic one. -/
theorem TableSet.root_or_dynamic (ht : TableSet t) (hc : validCode t c = true) :
    c < t.resetCode.toNat ∨ t.endCode.toNat < c := by
  obtain ⟨-, ⟨-, hend⟩, -⟩ := ht
  obtain ⟨-, hreset, hendc⟩ := validCode_iff.1 hc
  omega

/-- R132: a root code's entry. -/
theorem TableSet.entryAt_root (ht : TableSet t) (hc : c < t.resetCode.toNat) : entryAt t.table c = rootEntry c := by
  obtain ⟨-, -, -, hroot, -⟩ := ht
  exact hroot c hc

/-- R139, R30: a dynamic code has a smaller valid parent and its parent's first byte. -/
theorem TableSet.entryAt_dynamic (ht : TableSet t) (hc : validCode t c = true) (hdyn : t.endCode.toNat < c) :
    (entryAt t.table c).prev.toNat < c ∧ validCode t (entryAt t.table c).prev.toNat = true ∧
      (entryAt t.table c).first = (entryAt t.table (entryAt t.table c).prev.toNat).first := by
  obtain ⟨-, -, -, -, hentry, -⟩ := ht
  exact hentry c (validCode_iff.1 hc).1 hdyn

theorem TableSet.lt_of_valid (ht : TableSet t) (hc : validCode t c = true) : c < 4096 := by
  obtain ⟨-, -, ⟨-, hmax, -⟩, -⟩ := ht
  exact (validCode_iff.1 hc).1.trans_le hmax

/-- R28, R135: `ST_ENDCODE` is at least 5, its value for `rootBits = 3`. -/
theorem TableSet.five_le_endCode (ht : TableSet t) : 5 ≤ t.endCode.toNat := by
  obtain ⟨⟨hbits, -⟩, ⟨hreset, hend⟩, -⟩ := ht
  have : 2 ^ 2 ≤ 2 ^ (t.rootBits.toNat - 1) := Nat.pow_le_pow_right two_pos (by omega)
  omega

theorem TableSet.prev_root (ht : TableSet t) (hc : c < t.resetCode.toNat) :
    (entryAt t.table c).prev = Config.none := by
  rw [ht.entryAt_root hc, rootEntry]

theorem TableSet.prev_dynamic_ne_none (ht : TableSet t) (hc : validCode t c = true) (hdyn : t.endCode.toNat < c) :
    (entryAt t.table c).prev ≠ Config.none := by
  obtain ⟨hlt, -⟩ := ht.entryAt_dynamic hc hdyn
  have hmax := ht.lt_of_valid hc
  intro hnone
  rw [hnone] at hlt
  exact absurd (hlt.trans hmax) (by decide)

/-- R139: what holds of the root codes and passes from parent to child holds of every valid code. -/
theorem TableSet.induction (ht : TableSet t) {P : Nat → Prop} (root : ∀ c < t.resetCode.toNat, P c)
    (dynamic : ∀ c, validCode t c = true → t.endCode.toNat < c → P (entryAt t.table c).prev.toNat → P c) :
    ∀ c, validCode t c = true → P c := by
  intro c
  induction c using Nat.strong_induction_on with
  | _ c ih =>
    intro hc
    obtain hroot | hdyn := ht.root_or_dynamic hc
    · exact root c hroot
    · obtain ⟨hlt, hparent, -⟩ := ht.entryAt_dynamic hc hdyn
      exact dynamic c hc hdyn (ih _ hlt hparent)

/-! ### Strings -/

theorem stringFuel_no_parent {t : Table} {c : Nat} (h : (entryAt t c).prev = Config.none) (n : Nat) :
    stringFuel t (n + 1) c = [(entryAt t c).char] := by
  rw [stringFuel, if_pos h]

theorem stringFuel_parent {t : Table} {c : Nat} (h : (entryAt t c).prev ≠ Config.none) (n : Nat) :
    stringFuel t (n + 1) c = stringFuel t n (entryAt t c).prev.toNat ++ [(entryAt t c).char] := by
  rw [stringFuel, if_neg h]

/-- `c + 1` entries are enough (log 12), so more make no difference. -/
theorem TableSet.stringFuel_eq_stringOf (ht : TableSet t) :
    ∀ c, validCode t c = true → ∀ n, c < n → stringFuel t.table n c = stringOf t.table c := by
  refine ht.induction (fun c hroot n hn => ?_) (fun c hc hdyn ih n hn => ?_)
  all_goals obtain ⟨n, rfl⟩ := Nat.exists_eq_add_one_of_ne_zero (Nat.ne_zero_of_lt hn)
  · rw [stringOf, stringFuel_no_parent (ht.prev_root hroot), stringFuel_no_parent (ht.prev_root hroot)]
  · obtain ⟨hlt, -⟩ := ht.entryAt_dynamic hc hdyn
    have hparent := ht.prev_dynamic_ne_none hc hdyn
    rw [stringOf, stringFuel_parent hparent, stringFuel_parent hparent, ih n (by omega), ih c hlt]

/-- R134: the string of a code without a parent is its byte, in any table. -/
theorem stringOf_no_parent {t : Table} {c : Nat} (h : (entryAt t c).prev = Config.none) :
    stringOf t c = [(entryAt t c).char] :=
  stringFuel_no_parent h c

/-- R134: a dynamic code's string is its parent's and its byte. -/
theorem TableSet.stringOf_dynamic (ht : TableSet t) (hc : validCode t c = true) (hdyn : t.endCode.toNat < c) :
    stringOf t.table c =
      stringOf t.table (entryAt t.table c).prev.toNat ++ [(entryAt t.table c).char] := by
  obtain ⟨hlt, hparent, -⟩ := ht.entryAt_dynamic hc hdyn
  rw [stringOf, stringFuel_parent (ht.prev_dynamic_ne_none hc hdyn), ht.stringFuel_eq_stringOf _ hparent c hlt]

/-- R134, R30 (b): a string begins with the cached first byte of its code. -/
theorem TableSet.stringOf_head (ht : TableSet t) :
    ∀ c, validCode t c = true → (stringOf t.table c).head? = some (entryAt t.table c).first := by
  refine ht.induction (fun c hroot => ?_) (fun c hc hdyn ih => ?_)
  · rw [stringOf_no_parent (ht.prev_root hroot), ht.entryAt_root hroot]
    rfl
  · obtain ⟨-, -, hfirst⟩ := ht.entryAt_dynamic hc hdyn
    rw [ht.stringOf_dynamic hc hdyn, List.head?_append_of_ne_nil _ (stringOf_ne_nil _ _), ih, hfirst]

/-- R139, with the root codes counted in: their difference to `ST_ENDCODE` is 0 here. -/
theorem TableSet.stringOf_length_le (ht : TableSet t) :
    ∀ c, validCode t c = true → (stringOf t.table c).length ≤ c - t.endCode.toNat + 1 := by
  refine ht.induction (fun c hroot => ?_) (fun c hc hdyn ih => ?_)
  · rw [stringOf_no_parent (ht.prev_root hroot), List.length_singleton]
    omega
  · obtain ⟨hlt, -⟩ := ht.entryAt_dynamic hc hdyn
    rw [ht.stringOf_dynamic hc hdyn, List.length_append, List.length_singleton]
    omega

end

/-! ### The invariant -/

theorem validCode_of_unset {t : StringTable} (ht : TableUnset t) (c : Nat) : validCode t c = false := by
  rw [ht, validCode]
  rfl

theorem TableInv.tableSet {s : State} (h : TableInv s) {c : Nat} (hc : validCode s.st c = true) : TableSet s.st := by
  obtain ⟨-, hunset | hset⟩ := h
  · rw [validCode_of_unset hunset] at hc
    cases hc
  · exact hset

theorem TableInv.lt_of_valid {s : State} (h : TableInv s) {c : Nat} (hc : validCode s.st c = true) : c < 4096 :=
  (h.tableSet hc).lt_of_valid hc

/-- R29, R132: nothing is listed for a code that is not valid. -/
theorem TableInv.entryAt_unused {s : State} (h : TableInv s) {c : Nat} (hc : validCode s.st c = false) :
    entryAt s.st.table c = clearedEntry := by
  obtain ⟨-, hunset | ⟨-, -, -, -, -, hlisted⟩⟩ := h
  · rw [hunset, entryAt_nil]
  · by_contra hne
    rw [hlisted _ (mem_of_entryAt_ne hne)] at hc
    cases hc

theorem TableInv.prev_root {s : State} (h : TableInv s) {c : Nat} (hc : c < s.st.resetCode.toNat) :
    (entryAt s.st.table c).prev = Config.none := by
  obtain ⟨-, hunset | hset⟩ := h
  · rw [hunset, entryAt_nil, clearedEntry]
  · exact hset.prev_root hc

/-! ### Find -/

/-- R141: `Find` answers the smallest code. -/
theorem findCode_smallest {t : StringTable} {seq : List Byte} {c d : Nat} (h : findCode t seq = some c) (hlt : d < c)
    (hd : validCode t d = true) : stringOf t.table d ≠ seq := by
  obtain ⟨-, -, hbelow⟩ := List.find?_range_eq_some.1 h
  simpa [hd] using hbelow d hlt

/-- R141: no code has the empty string. -/
theorem findCode_nil (t : StringTable) : findCode t [] = none := by
  cases h : findCode t [] with
  | none => rfl
  | some c => exact absurd (findCode_eq_some h).2 (stringOf_ne_nil t.table c)

/-- R142: a found code fits in `RES0`. -/
theorem toNat_foundValue {t : StringTable} {seq : List Byte} {c : Nat} (h : findCode t seq = some c) :
    (BitVec.ofNat 32 (foundValue (findCode t seq))).toNat = c := by
  have hlt := (validCode_iff.1 (findCode_eq_some h).1).1
  have hmax := t.nextFree.isLt
  rw [h, foundValue, Option.getD_some, BitVec.toNat_ofNat]
  omega

/-! ### Width -/

/-- R137, R138: `Widen` raises the width by one past the threshold, and never past 12. -/
theorem widen_codeBits (fw : Bool) (t : StringTable) :
    (widen fw t).codeBits.toNat = t.codeBits.toNat +
      if (if fw then 2 ^ t.codeBits.toNat else 2 ^ t.codeBits.toNat - 1) < t.nextFree.toNat ∧ t.codeBits.toNat < 12
      then 1 else 0 := by
  by_cases h : (if fw then 2 ^ t.codeBits.toNat else 2 ^ t.codeBits.toNat - 1) < t.nextFree.toNat ∧
      t.codeBits.toNat < 12
  · rw [widen, if_pos h, if_pos h, BitVec.toNat_ofNat]
    omega
  · rw [widen, if_neg h, if_neg h, Nat.add_zero]

/-- R136, R137: the width after an add that is allowed. -/
theorem addEntry_codeBits {t : StringTable} (h : t.nextFree.toNat < 4096) (base : Nat) (b : Byte) (fw : Bool) :
    (addEntry base b fw t).codeBits.toNat = t.codeBits.toNat +
      if (if fw then 2 ^ t.codeBits.toNat else 2 ^ t.codeBits.toNat - 1) < t.nextFree.toNat + 1 ∧
        t.codeBits.toNat < 12 then 1 else 0 := by
  have count : (BitVec.ofNat 13 (t.nextFree.toNat + 1)).toNat = t.nextFree.toNat + 1 := by
    rw [BitVec.toNat_ofNat]
    omega
  rw [addEntry, widen_codeBits, count]

end Sys2Proof.Machine
end

section
/-! The commands of the string table (spec/40_string_table.md R135, R136, R142 to R146), body by body, and their statements. -/

namespace Sys2Proof.Machine

open Sys2Proof.Claims

/-! ### Operands -/

/-- R91: a flag operand is 1 or it is off. -/
theorem flagOperand_iff {v : Word} (h : v.toNat ≤ 1) : flagOperand v = true ↔ v = 1 := by
  obtain h0 | h1 : v = 0 ∨ v = 1 := by bv_omega
  · subst h0; decide
  · subst h1; decide

theorem stAddOperandsOk_iff {a : ArgRegs} : stAddOperandsOk a = true ↔ a.arg1.toNat ≤ 255 ∧ a.arg2.toNat ≤ 1 := by
  simp [stAddOperandsOk, isByteOperand, isFlagOperand]

theorem stAddOperandsOk_eq_false_iff {a : ArgRegs} :
    stAddOperandsOk a = false ↔ 255 < a.arg1.toNat ∨ 1 < a.arg2.toNat := by
  rw [← Bool.not_eq_true, stAddOperandsOk_iff]
  omega

/-! ### Bodies -/

section
variable {s : State}

theorem stResetBody_legal (h : LegalRootBits s.args.arg0.toNat) :
    stResetBody s = .ok () (s.setSt (resetTable s.args.arg0.toNat)) := by
  obtain ⟨h3, h12⟩ := h
  obtain ⟨-, -, ok⟩ | ⟨low, -⟩ | ⟨high, -⟩ := tableReset_cases s.args.arg0.toNat s
  · exact ok
  · omega
  · omega

theorem stResetBody_low (h : s.args.arg0.toNat < 3) : stResetBody s = .raise .invalidFormat s := if_pos h

theorem stResetBody_high (h : 12 < s.args.arg0.toNat) : stResetBody s = .raise .tableTooLarge s := by
  obtain ⟨-, h12, -⟩ | ⟨low, -⟩ | ⟨-, raise⟩ := tableReset_cases s.args.arg0.toNat s
  · omega
  · omega
  · exact raise

theorem stAddBody_illegal (h : 255 < s.args.arg1.toNat ∨ 1 < s.args.arg2.toNat) :
    stAddBody s = .raise .illegalCommand s :=
  if_pos (stAddOperandsOk_eq_false_iff.2 h)

/-- With operands in range `ST_ADD` is `TableAdd`, its code in `RES0` (R136). -/
theorem stAddBody_legal (hbyte : s.args.arg1.toNat ≤ 255) (hflag : s.args.arg2.toNat ≤ 1) :
    stAddBody s =
      (tableAdd s.args.arg0.toNat (byteOperand s.args.arg1) (flagOperand s.args.arg2) s).bind finish1 := by
  rw [stAddBody, stAddOperandsOk_iff.2 ⟨hbyte, hflag⟩]
  rfl

theorem stAddBody_adds (hbyte : s.args.arg1.toNat ≤ 255) (hflag : s.args.arg2.toNat ≤ 1)
    (hbase : validCode s.st s.args.arg0.toNat = true) (hroom : s.st.nextFree.toNat < 4096) :
    stAddBody s = finish1 s.st.nextFree.toNat
      (s.setSt (addEntry s.args.arg0.toNat (byteOperand s.args.arg1) (flagOperand s.args.arg2) s.st)) := by
  rw [stAddBody_legal hbyte hflag]
  obtain ⟨-, -, ok⟩ | ⟨invalid | full, -⟩ :=
    tableAdd_cases s.args.arg0.toNat (byteOperand s.args.arg1) (flagOperand s.args.arg2) s
  · rw [ok, Run.bind_ok]
  · simp [hbase] at invalid
  · omega

theorem stAddBody_corrupt (hbyte : s.args.arg1.toNat ≤ 255) (hflag : s.args.arg2.toNat ≤ 1)
    (h : validCode s.st s.args.arg0.toNat = false ∨ 4096 ≤ s.st.nextFree.toNat) :
    stAddBody s = .raise .corruptStream s := by
  rw [stAddBody_legal hbyte hflag]
  obtain ⟨valid, room, -⟩ | ⟨-, raise⟩ :=
    tableAdd_cases s.args.arg0.toNat (byteOperand s.args.arg1) (flagOperand s.args.arg2) s
  · obtain invalid | full := h
    · simp [valid] at invalid
    · omega
  · rw [raise, Run.bind_raise]

theorem stFindBody_finds (h : s.args.arg0.toNat ≤ srcAvail s) :
    stFindBody s =
      finish1 (foundValue (findCode s.st (srcBytes s s.cur.srcPos.toNat s.args.arg0.toNat))) s :=
  if_neg (Nat.not_lt.2 h)

theorem stFindBody_past_input (h : srcAvail s < s.args.arg0.toNat) : stFindBody s = .raise .illegalCommand s := if_pos h

theorem stWrstrBody_writes (hc : validCode s.st s.args.arg0.toNat = true)
    (hfit : s.cur.snkPos.toNat + (stringOf s.st.table s.args.arg0.toNat).length ≤ s.cur.snkCap.toNat) :
    stWrstrBody s = finish1 (stringOf s.st.table s.args.arg0.toNat).length
      (snkAppended (stringOf s.st.table s.args.arg0.toNat) s) := by
  obtain ⟨-, -, ok⟩ | ⟨-, full, -⟩ | ⟨invalid, -⟩ := tableWrite_cases s.args.arg0.toNat s
  · rw [stWrstrBody, ok, Run.bind_ok]
  · omega
  · simp [hc] at invalid

theorem stWrstrBody_full (hc : validCode s.st s.args.arg0.toNat = true)
    (hfull : s.cur.snkCap.toNat < s.cur.snkPos.toNat + (stringOf s.st.table s.args.arg0.toNat).length) :
    stWrstrBody s = .raise .insufficientSpace s := by
  obtain ⟨-, fit, -⟩ | ⟨-, -, raise⟩ | ⟨invalid, -⟩ := tableWrite_cases s.args.arg0.toNat s
  · omega
  · rw [stWrstrBody, raise, Run.bind_raise]
  · simp [hc] at invalid

theorem stWrstrBody_invalid (hc : validCode s.st s.args.arg0.toNat = false) :
    stWrstrBody s = .raise .corruptStream s := by
  rw [stWrstrBody, tableWrite, if_pos hc, Run.bind_raise]

theorem stFirstBody_reads (h : s.args.arg0.toNat < 4096) :
    stFirstBody s = finish1 (entryAt s.st.table s.args.arg0.toNat).first.toNat s := if_neg (Nat.not_le.2 h)

theorem stFirstBody_beyond (h : 4096 ≤ s.args.arg0.toNat) : stFirstBody s = .raise .corruptStream s := if_pos h

theorem stBaseBody_reads (h : s.args.arg0.toNat < 4096) :
    stBaseBody s = finish1 (entryAt s.st.table s.args.arg0.toNat).prev.toNat s := if_neg (Nat.not_le.2 h)

theorem stBaseBody_beyond (h : 4096 ≤ s.args.arg0.toNat) : stBaseBody s = .raise .corruptStream s := if_pos h

end

/-! ### The statements -/

/-- Settles O22: the registers and entries of the table that `TableReset` sets up; its two faults come first. -/
theorem stResetBuildsRoots : Obligations.StResetBuildsRoots := by
  unfold Obligations.StResetBuildsRoots
  intro s hs
  refine ⟨fun hrb => ?_, fun hlow => runCommand_rejects hs (stResetBody_low hlow),
    fun hhigh => runCommand_rejects hs (stResetBody_high hhigh)⟩
  obtain ⟨hroot, hwidth, hreset, hend, hnext⟩ := resetTable_regs hrb.1 hrb.2
  refine ⟨_, runCommand_completes hs (stResetBody_legal hrb) rfl, rfl,
    .of_body (by simp) (.mono (by simp) (sameBut_setSt _ _)), hroot, hwidth, hreset, hend, hnext, fun c hc => ?_,
    fun c hc => ?_⟩
  · exact (entryAt_rootTable _ c).trans (if_pos hc)
  · exact (entryAt_rootTable _ c).trans (if_neg (Nat.not_lt.2 hc))

/-- Settles O23: the add is `TableAdd`, whose entry, count and width are those of `addEntry`. -/
theorem stAddRegisters : Obligations.StAddRegisters := by
  unfold Obligations.StAddRegisters
  intro s hs
  refine ⟨fun hbyte hflag => ⟨fun hbase hroom => ?_, fun h => ?_⟩, fun h => ?_⟩
  · obtain ⟨hcount, hroot, hreset, hend, hentry⟩ := addEntry_fields (base := s.args.arg0.toNat)
      (b := byteOperand s.args.arg1) (fw := flagOperand s.args.arg2) hroom
    have hwidth := addEntry_codeBits hroom s.args.arg0.toNat (byteOperand s.args.arg1) (flagOperand s.args.arg2)
    simp only [flagOperand_iff hflag] at hwidth
    refine ⟨_, runCommand_completes hs (stAddBody_adds hbyte hflag hbase hroom) rfl, rfl,
      .of_body (by simp) ((SameBut.mono (by simp) (sameBut_setSt _ _)).trans (.mono (by simp) (sameBut_setRes _ _))),
      ?_, hcount, hwidth, hroot, hreset, hend, ?_, fun c hc => (hentry c).trans (if_neg hc)⟩
    · simp
    · exact (hentry _).trans ((if_pos rfl).trans (by rw [byteOperand, BitVec.ofNat_toNat]))
  · exact runCommand_rejects hs (stAddBody_corrupt hbyte hflag h)
  · exact runCommand_rejects hs (stAddBody_illegal h)

/-- Settles O24: by induction along the parents, each string follows its parent's; 4091 is the bound of code 4095 at the smallest
`ST_ENDCODE`. -/
theorem stringFollowsParents : Obligations.StringFollowsParents := by
  unfold Obligations.StringFollowsParents
  intro s c hinv hc
  have ht := hinv.tableSet hc
  have hlen := ht.stringOf_length_le c hc
  have hmax := ht.lt_of_valid hc
  have hend := ht.five_le_endCode
  refine ⟨fun hnone => ?_, fun hparent => ?_, ht.stringOf_head c hc, fun _ => hlen, by omega⟩
  · refine ⟨(ht.root_or_dynamic hc).resolve_right fun hdyn => ?_, stringOf_no_parent hnone⟩
    exact ht.prev_dynamic_ne_none hc hdyn hnone
  · have hdyn := (ht.root_or_dynamic hc).resolve_left fun hroot => hparent (ht.prev_root hroot)
    exact ⟨(ht.entryAt_dynamic hc hdyn).1, ht.stringOf_dynamic hc hdyn⟩

/-- Settles O25: `Find` scans the codes upwards, and no code's string is empty. -/
theorem stFindReturnsSmallest : Obligations.StFindReturnsSmallest := by
  unfold Obligations.StFindReturnsSmallest
  intro s hs
  refine ⟨fun hin => ?_, fun hpast => runCommand_rejects hs (stFindBody_past_input hpast)⟩
  refine ⟨_, runCommand_returns hs (stFindBody_finds hin) rfl, rfl,
    .trans (.mono (by simp) (sameBut_setRes _ _)) (.mono (by simp) (sameBut_setStatus _ _)), rfl, ?_, fun hzero => ?_⟩
  · cases hfind : findCode s.st (srcBytes s s.cur.srcPos.toNat s.args.arg0.toNat) with
    | none => exact .inr ⟨fun c => findCode_eq_none hfind, congrArg (BitVec.ofNat 32 <| foundValue ·) hfind⟩
    | some c =>
      obtain ⟨hvalid, hstring⟩ := findCode_eq_some hfind
      refine .inl ⟨c, hvalid, hstring, fun d => findCode_smallest hfind, toNat_foundValue hfind⟩
  · have hnone : findCode s.st (srcBytes s s.cur.srcPos.toNat s.args.arg0.toNat) = none := by
      rw [hzero]
      exact findCode_nil s.st
    exact congrArg (BitVec.ofNat 32 <| foundValue ·) hnone

/-- Settles O26: `TableWrite` appends all of the string or faults first. -/
theorem stWrstrAppendsString : Obligations.StWrstrAppendsString := by
  unfold Obligations.StWrstrAppendsString
  intro s hs
  refine ⟨fun hc => ⟨fun hfit => ?_, fun hfull => runCommand_rejects hs (stWrstrBody_full hc hfull)⟩,
    fun hc => runCommand_rejects hs (stWrstrBody_invalid hc)⟩
  obtain ⟨hframe, hcur⟩ := snkAppended_fields (s := s.setStatus (beginFlags s.status)) hfit
  refine ⟨_, runCommand_completes hs (stWrstrBody_writes hc hfit) (hframe .status (by simp)), rfl,
    .of_body (by simp) ((hframe.mono (by simp)).trans (.mono (by simp) (sameBut_setRes _ _))), snkAppended_bytes hfit,
    hcur.trans ?_, ?_⟩
  · simp [cursorsAfter]
  · have hres := hframe .res (by simp)
    simp only [SameGroup, State.setStatus_fields] at hres
    simp [hres]

/-- Settles O27: each accessor reads one entry, and the invariant says what an unused and a root code's entry hold. -/
theorem accessorsRead : Obligations.AccessorsRead := by
  unfold Obligations.AccessorsRead
  intro s hs
  refine ⟨fun hc => ⟨?_, ?_⟩, fun hc => ⟨?_, ?_⟩, ?_, fun hinv => ⟨hinv.entryAt_unused, hinv.prev_root, fun hc => ?_⟩⟩
  · exact runCommand_returns hs (stFirstBody_reads hc) (BitVec.ofNat_toNat ..)
  · exact runCommand_returns hs (stBaseBody_reads hc) (BitVec.ofNat_toNat ..)
  · exact runCommand_rejects hs (stFirstBody_beyond hc)
  · exact runCommand_rejects hs (stBaseBody_beyond hc)
  · exact runCommand_returns hs rfl ((apply_ite (BitVec.ofNat 32) _ 0 1).trans (if_congr validCode_iff rfl rfl))
  · exact Bool.eq_false_iff.2 fun hvalid => Nat.not_lt.2 hc (hinv.lt_of_valid hvalid)

end Sys2Proof.Machine
end

section
/-! What a part of a command appended to `SNK` (spec/20_memory.md R62, R69), and how two parts in sequence add up. -/

namespace Sys2Proof.Machine

open Sys2Proof.Claims

/-! ### Frames of single updates -/

theorem sameBut_setBp (s : State) (x : Packer) : SameBut [.bp] s (s.setBp x) := by
  intro g hg
  cases g <;> simp_all [SameGroup, srcByte, snkByte]

theorem sameBut_setSb (s : State) (x : Framer) : SameBut [.sb] s (s.setSb x) := by
  intro g hg
  cases g <;> simp_all [SameGroup, srcByte, snkByte]

theorem sameBut_setLz (s : State) (x : LzwRegs) : SameBut [.lz] s (s.setLz x) := by
  intro g hg
  cases g <;> simp_all [SameGroup, srcByte, snkByte]

theorem SameBut.refl (gs : List Group) (s : State) : SameBut gs s s := by
  intro g _
  cases g
  case src | snk => exact fun _ => rfl
  all_goals rfl

/-! ### Appends in sequence -/

/-- From `s` to `t` exactly the bytes `bs` went to `SNK`, for which there was room, and no byte of `SRC` was consumed. -/
def Outputs (s t : State) (bs : List Byte) : Prop :=
  Room s bs.length ∧ SnkAppends s t bs ∧ t.cur = cursorsAfter 0 bs.length s.cur

section
variable {s t u : State} {as bs : List Byte}

theorem Outputs.room (h : Outputs s t bs) : Room s bs.length := h.1

theorem Outputs.appends (h : Outputs s t bs) : SnkAppends s t bs := h.2.1

theorem Outputs.cur (h : Outputs s t bs) : t.cur = cursorsAfter 0 bs.length s.cur := h.2.2

theorem fit_of_room {n : Nat} (h : Room s n) (hn : n ≠ 0) : s.cur.snkPos.toNat + n ≤ s.cur.snkCap.toNat :=
  h.resolve_left hn

theorem room_of_le {m n : Nat} (h : Room s n) (hmn : m ≤ n) : Room s m :=
  (room_iff_le_roomLeft s m).2 (hmn.trans ((room_iff_le_roomLeft s n).1 h))

/-- Nothing appended: neither the cursors nor any byte of `SNK` changed. -/
theorem Outputs.of_sameBut {gs : List Group} (hcur : .cur ∉ gs) (hsnk : .snk ∉ gs) (h : SameBut gs s t) :
    Outputs s t [] := by
  refine ⟨room_zero s, ⟨fun i b hb => by simp at hb, fun a _ => h .snk hsnk a⟩, ?_⟩
  have hsame : t.cur = s.cur := h .cur hcur
  simp [cursorsAfter, hsame]

/-- Bytes appended one after the other. -/
theorem snkAppended_outputs (h : s.cur.snkPos.toNat + bs.length ≤ s.cur.snkCap.toNat) :
    Outputs s (snkAppended bs s) bs := by
  refine ⟨.inr h, snkAppended_bytes h, (snkAppended_fields h).2.trans ?_⟩
  simp [cursorsAfter]

theorem Outputs.snkCap (h : Outputs s t bs) : t.cur.snkCap = s.cur.snkCap := by rw [h.cur]; rfl

theorem Outputs.snkPos (h : Outputs s t bs) : t.cur.snkPos.toNat = s.cur.snkPos.toNat + bs.length := by
  have hcap := s.cur.snkCap.isLt
  have hpos := s.cur.snkPos.isLt
  have hroom := h.room
  rw [h.cur]
  simp only [cursorsAfter, BitVec.toNat_ofNat]
  unfold Room at hroom
  omega

theorem Outputs.srcPos (h : Outputs s t bs) : t.cur.srcPos = s.cur.srcPos := by rw [h.cur]; simp [cursorsAfter]

theorem Outputs.srcAvail (h : Outputs s t bs) : srcAvail t = srcAvail s := by
  have hlen : t.cur.srcLen = s.cur.srcLen := by rw [h.cur]; rfl
  unfold Machine.srcAvail
  rw [h.srcPos, hlen]

/-- Room for more than was appended is room for the rest. -/
theorem Outputs.room_rest (h : Outputs s t as) (hroom : Room s (as ++ bs).length) : Room t bs.length := by
  have hcap := h.snkCap
  have hpos := h.snkPos
  unfold Room at hroom ⊢
  rw [hcap, hpos]
  simp only [List.length_append] at hroom
  omega

theorem SnkAppends.append (has : SnkAppends s t as) (hbs : SnkAppends t u bs)
    (hpos : t.cur.snkPos.toNat = s.cur.snkPos.toNat + as.length) : SnkAppends s u (as ++ bs) := by
  obtain ⟨hin, hout⟩ := has
  obtain ⟨hin', hout'⟩ := hbs
  rw [hpos] at hin' hout'
  refine ⟨fun i b hb => ?_, fun a ha => ?_⟩
  · obtain hi | hi := Nat.lt_or_ge i as.length
    · rw [List.getElem?_append_left hi] at hb
      exact (hout' _ (.inl (by omega))).trans (hin i b hb)
    · rw [List.getElem?_append_right hi] at hb
      rw [← hin' _ b hb]
      congr 1
      omega
  · rw [List.length_append] at ha
    exact (hout' a (by omega)).trans (hout a (by omega))

theorem Outputs.trans (has : Outputs s t as) (hbs : Outputs t u bs) : Outputs s u (as ++ bs) := by
  have hcap := has.snkCap
  have hpos := has.snkPos
  refine ⟨?_, has.appends.append hbs.appends hpos, ?_⟩
  · have hs := has.room
    have ht := hbs.room
    unfold Room at hs ht ⊢
    rw [hcap, hpos] at ht
    rw [List.length_append]
    omega
  · rw [hbs.cur, cursorsAfter, hpos, has.cur]
    simp [cursorsAfter, Nat.add_assoc]

end

end Sys2Proof.Machine
end

section
/-! The writer of the sub-block framer over any pending block (spec/44_subblock_framer.md R221 to R223): each operation does to
`SNK` and `SB_WBUF` what the functions of Claims.lean say. -/

namespace Sys2Proof.Machine

open Sys2Proof.Claims

/-- From `s` to `t` the framer put the bytes `x.1` in `SNK` and has `x.2` pending; its reader is as it was. -/
def Framed (s t : State) (x : List Byte × List Byte) : Prop :=
  Outputs s t x.1 ∧ wbufBytes t.sb = x.2 ∧ t.sb.rrem = s.sb.rrem ∧ t.sb.rend = s.sb.rend

theorem Framed.outputs {s t : State} {x : List Byte × List Byte} (h : Framed s t x) : Outputs s t x.1 := h.1

theorem Framed.pending {s t : State} {x : List Byte × List Byte} (h : Framed s t x) : wbufBytes t.sb = x.2 := h.2.1

/-- Nothing put: the pending block is the one there was. -/
theorem Framed.refl (s : State) : Framed s s ([], wbufBytes s.sb) :=
  ⟨.of_sameBut (by simp) (by simp) (.refl [] s), rfl, rfl, rfl⟩

theorem Framed.trans {s t u : State} {x y : List Byte × List Byte} (hx : Framed s t x) (hy : Framed t u y) :
    Framed s u (x.1 ++ y.1, y.2) := by
  obtain ⟨hout, -, hrem, hend⟩ := hx
  obtain ⟨hout', hpending, hrem', hend'⟩ := hy
  exact ⟨hout.trans hout', hpending, hrem'.trans hrem, hend'.trans hend⟩

/-! ### The functions of the statements -/

/-- What the emission of a full block makes of the pending block `p` (R222). -/
def emitFull (p : List Byte) : List Byte × List Byte := if p.length = 255 then (255 :: p, []) else ([], p)

/-- A put emits a full block, buffers the byte, and emits a full block (R222). -/
theorem framePush_eq (o p : List Byte) (b : Byte) :
    framePush (o, p) b = (o ++ ((emitFull p).1 ++ (emitFull ((emitFull p).2 ++ [b])).1),
      (emitFull ((emitFull p).2 ++ [b])).2) := by
  unfold framePush emitFull
  by_cases hp : p.length = 255
  · simp [hp]
  · by_cases hb : p.length = 254 <;> simp [hp, hb]

theorem foldl_framePush (o p bs : List Byte) :
    bs.foldl framePush (o, p) = (o ++ (frameBytes p bs).1, (frameBytes p bs).2) := by
  unfold frameBytes
  induction bs generalizing o p with
  | nil => simp
  | cons b bs ih =>
    rw [List.foldl_cons, List.foldl_cons, framePush_eq o, framePush_eq [], ih, ih ([] ++ _), List.nil_append,
      List.append_assoc]

theorem frameBytes_cons (p : List Byte) (b : Byte) (bs : List Byte) :
    frameBytes p (b :: bs) = ((framePush ([], p) b).1 ++ (frameBytes (framePush ([], p) b).2 bs).1,
      (frameBytes (framePush ([], p) b).2 bs).2) :=
  foldl_framePush _ _ bs

theorem frameBytes_append (p bs cs : List Byte) :
    frameBytes p (bs ++ cs) = ((frameBytes p bs).1 ++ (frameBytes (frameBytes p bs).2 cs).1,
      (frameBytes (frameBytes p bs).2 cs).2) :=
  (List.foldl_append ..).trans (foldl_framePush _ _ cs)

/-- Bytes that leave the pending block short of 255 are all buffered. -/
theorem frameBytes_short {p bs : List Byte} (h : p.length + bs.length < 255) : frameBytes p bs = ([], p ++ bs) := by
  induction bs generalizing p with
  | nil => simp [frameBytes]
  | cons b bs ih =>
    rw [List.length_cons] at h
    have hpush : framePush ([], p) b = ([], p ++ [b]) := by
      simp [framePush, show p.length ≠ 255 by omega, show p.length ≠ 254 by omega]
    rw [frameBytes_cons, hpush, ih (by simp; omega)]
    simp

/-- The chain of fewer than 255 bytes is one block and the terminator. -/
theorem chainBytes_short {bs : List Byte} (hne : bs ≠ []) (h : bs.length < 255) :
    chainBytes bs = BitVec.ofNat 8 bs.length :: (bs ++ [0]) := by
  simp [chainBytes, frameBytes_short (p := []) (bs := bs) (by simpa using h), closeBytes, hne]

/-! ### The machine's operations -/

section
variable {s : State}

theorem wcnt_eq_of_pending {p : List Byte} (h : wbufBytes s.sb = p) : s.sb.wcnt = BitVec.ofNat 8 p.length := by
  rw [← h, wbufBytes_length, BitVec.ofNat_toNat]
  rfl

theorem framerEmit_framed (h : Room s (1 + s.sb.wcnt.toNat)) :
    ∃ t, framerEmit s = .ok () t ∧ SameBut [.cur, .sb, .snk] s t ∧
      Framed s t (s.sb.wcnt :: wbufBytes s.sb, []) := by
  have hfit : s.cur.snkPos.toNat + (s.sb.wcnt :: wbufBytes s.sb).length ≤ s.cur.snkCap.toNat := by
    have := fit_of_room h (by omega)
    simp only [List.length_cons, wbufBytes_length]
    omega
  obtain ⟨-, ok⟩ | ⟨full, -⟩ := framerEmit_cases s
  · refine ⟨_, ok, ((snkAppended_fields hfit).1.mono (by simp)).trans ((sameBut_setSb _ _).mono (by simp)),
      snkAppended_outputs hfit, wbufBytes_empty s.sb, rfl, rfl⟩
  · simp only [List.length_cons, wbufBytes_length] at hfit
    omega

theorem framerEmitIfFull_framed (h : Room s (emitFull (wbufBytes s.sb)).1.length) :
    ∃ t, framerEmitIfFull s = .ok () t ∧ SameBut [.cur, .sb, .snk] s t ∧ Framed s t (emitFull (wbufBytes s.sb)) := by
  by_cases hfull : s.sb.wcnt = 255
  · have hout : emitFull (wbufBytes s.sb) = (s.sb.wcnt :: wbufBytes s.sb, []) := by simp [emitFull, hfull]
    rw [hout, List.length_cons, wbufBytes_length, Nat.add_comm] at h
    rw [framerEmitIfFull, if_pos hfull, hout]
    exact framerEmit_framed h
  · have hlen : s.sb.wcnt.toNat ≠ 255 := fun heq => hfull (BitVec.eq_of_toNat_eq heq)
    have hout : emitFull (wbufBytes s.sb) = ([], wbufBytes s.sb) := by simp [emitFull, hlen]
    rw [framerEmitIfFull, if_neg hfull, hout]
    exact ⟨s, rfl, .refl _ s, .refl s⟩

theorem framerBuffer_framed (b : Byte) (h : s.sb.wcnt.toNat < 255) :
    SameBut [.cur, .sb, .snk] s (framerBuffer b s) ∧ Framed s (framerBuffer b s) ([], wbufBytes s.sb ++ [b]) :=
  have hsame : SameBut [.sb] s (framerBuffer b s) := sameBut_setSb s _
  ⟨hsame.mono (by simp), .of_sameBut (by simp) (by simp) hsame, framerBuffer_bytes h, rfl, rfl⟩

theorem emitFull_pending_length (f : Framer) : (emitFull (wbufBytes f)).2.length < 255 := by
  have := f.wcnt.isLt
  unfold emitFull
  split
  · simp
  · next hshort =>
    rw [wbufBytes_length] at hshort ⊢
    omega

/-- R222: a put with room for the blocks it completes. -/
theorem framerPut_framed {b : Byte} (h : Room s (framePush ([], wbufBytes s.sb) b).1.length) :
    ∃ t, framerPut b s = .ok () t ∧ SameBut [.cur, .sb, .snk] s t ∧
      Framed s t (framePush ([], wbufBytes s.sb) b) := by
  rw [framePush_eq, List.nil_append] at h ⊢
  obtain ⟨t, hemit, hst, hframed⟩ := framerEmitIfFull_framed (room_of_le h (by simp))
  have hpending := hframed.pending
  have hlen := emitFull_pending_length s.sb
  rw [← hpending, wbufBytes_length] at hlen
  obtain ⟨htu, hbuffered⟩ := framerBuffer_framed b hlen
  have hmid := hframed.trans hbuffered
  rw [List.append_nil, hpending] at hmid
  have hnext := hmid.pending
  obtain ⟨v, hemit', huv, hframed'⟩ := framerEmitIfFull_framed (s := framerBuffer b t)
    (by rw [hnext]; exact hmid.outputs.room_rest h)
  rw [hnext] at hframed'
  exact ⟨v, by rw [framerPut, hemit, Run.bind_ok, hemit'], (hst.trans htu).trans huv, hmid.trans hframed'⟩

theorem snkWrite8_outputs {b : Byte} (h : Room s 1) :
    ∃ t, snkWrite8 b s = .ok () t ∧ SameBut [.cur, .snk] s t ∧ Outputs s t [b] :=
  have hfit : s.cur.snkPos.toNat + [b].length ≤ s.cur.snkCap.toNat := fit_of_room h Nat.one_ne_zero
  ⟨snkAppended [b] s, snkWrite8_eq hfit, (snkAppended_fields hfit).1, snkAppended_outputs hfit⟩

theorem snkWrite8_framed {b : Byte} (h : Room s 1) :
    ∃ t, snkWrite8 b s = .ok () t ∧ SameBut [.cur, .sb, .snk] s t ∧ Framed s t ([b], wbufBytes s.sb) := by
  obtain ⟨t, hwrite, hsame, hout⟩ := snkWrite8_outputs h
  have hsb : t.sb = s.sb := hsame .sb (by simp)
  exact ⟨t, hwrite, hsame.mono (by simp), hout, by rw [hsb], by rw [hsb], by rw [hsb]⟩

/-- R223: the close of a chain with room for the last block and the terminator. -/
theorem framerClose_framed (h : Room s (closeBytes (wbufBytes s.sb)).length) :
    ∃ t, framerClose s = .ok () t ∧ SameBut [.cur, .sb, .snk] s t ∧ Framed s t (closeBytes (wbufBytes s.sb), []) := by
  by_cases hnone : s.sb.wcnt = 0
  · have hpending : wbufBytes s.sb = [] := List.length_eq_zero_iff.1 (by simp [hnone])
    rw [hpending] at h ⊢
    obtain ⟨t, hwrite, hst, hframed⟩ := snkWrite8_framed (b := 0) h
    rw [hpending] at hframed
    exact ⟨t, by rw [framerClose, if_pos hnone, Run.bind_ok, hwrite], hst, hframed⟩
  · have hclose : closeBytes (wbufBytes s.sb) = (s.sb.wcnt :: wbufBytes s.sb) ++ [0] := by
      have hne : wbufBytes s.sb ≠ [] := fun heq => hnone (wcnt_eq_of_pending heq)
      simp [closeBytes, hne]
    rw [hclose] at h ⊢
    obtain ⟨t, hemit, hst, hframed⟩ := framerEmit_framed (s := s) (room_of_le h (by simp; omega))
    obtain ⟨u, hwrite, htu, hframed'⟩ := snkWrite8_framed (b := 0) (hframed.outputs.room_rest h)
    rw [hframed.pending] at hframed'
    exact ⟨u, by rw [framerClose, if_neg hnone, hemit, Run.bind_ok, hwrite], hst.trans htu, hframed.trans hframed'⟩

end

end Sys2Proof.Machine
end

section
/-! The writer of the bit packer in framed mode (spec/43_bitpacker.md R201, R204): a bit string packed code by code, and its
flush, stated over `frameBytes` of Claims.lean. -/

namespace Sys2Proof.Machine

open Sys2Proof.Claims

/-! ### Bytes of a bit string -/

@[simp] theorem lowBytes_zero (v : Nat) : lowBytes v 0 = [] := rfl

@[simp] theorem lowBytes_length (v k : Nat) : (lowBytes v k).length = k := by simp [lowBytes]

theorem lowBytes_succ (v k : Nat) : lowBytes v (k + 1) = BitVec.ofNat 8 v :: lowBytes (v / 256) k := by
  simp only [lowBytes, List.range_succ_eq_map, List.map_cons, List.map_map, Nat.pow_zero, Nat.div_one]
  refine congrArg _ (List.map_congr_left fun i _ => ?_)
  simp only [Function.comp_apply, Nat.succ_eq_add_one, Nat.pow_succ', Nat.div_div_eq_div_mul]

theorem lowBytes_add (v j k : Nat) : lowBytes v (j + k) = lowBytes v j ++ lowBytes (v / 256 ^ j) k := by
  simp [lowBytes, List.range_add, Nat.pow_add, Nat.div_div_eq_div_mul]

/-- Bits behind the first `k` bytes are not in them. -/
theorem lowBytes_add_mul (v x k : Nat) : lowBytes (v + 256 ^ k * x) k = lowBytes v k := by
  refine List.map_congr_left fun i hi => BitVec.eq_of_toNat_eq ?_
  obtain ⟨d, rfl⟩ := Nat.exists_eq_add_of_lt (List.mem_range.1 hi)
  have hsplit : 256 ^ (i + d + 1) * x = 256 ^ i * (256 * (256 ^ d * x)) := by ring
  rw [hsplit, Nat.add_mul_div_left _ _ (Nat.pow_pos (by decide))]
  simp only [BitVec.toNat_ofNat]
  omega

/-- `n` bits are the whole bytes and the bits behind them. -/
theorem two_pow_eq_bytes_mul_bits (n : Nat) : 2 ^ n = 256 ^ (n / 8) * 2 ^ (n % 8) := by
  calc 2 ^ n = 2 ^ (8 * (n / 8) + n % 8) := by rw [Nat.div_add_mod]
    _ = 256 ^ (n / 8) * 2 ^ (n % 8) := by rw [Nat.pow_add, Nat.pow_mul]

/-- What of an `n`-bit string lies behind its whole bytes is shorter than a byte. -/
theorem div_wholeBytes_lt {v n : Nat} (h : v < 2 ^ n) : v / 256 ^ (n / 8) < 2 ^ (n % 8) :=
  Nat.div_lt_of_lt_mul (two_pow_eq_bytes_mul_bits n ▸ h)

/-- Past the whole bytes of an `n`-bit string, a code behind it joins the bits left over. -/
theorem add_code_div_wholeBytes (v c n : Nat) :
    (v + 2 ^ n * c) / 256 ^ (n / 8) = v / 256 ^ (n / 8) + c * 2 ^ (n % 8) := by
  rw [two_pow_eq_bytes_mul_bits n, Nat.mul_assoc, Nat.add_mul_div_left _ _ (Nat.pow_pos (by decide)), Nat.mul_comm c]

/-- The whole bytes of an `n`-bit string stay when a code is packed behind it. -/
theorem lowBytes_add_code (v c n k : Nat) :
    lowBytes (v + 2 ^ n * c) (n / 8 + k) = lowBytes v (n / 8) ++ lowBytes (v / 256 ^ (n / 8) + c * 2 ^ (n % 8)) k := by
  have hkeep : lowBytes (v + 2 ^ n * c) (n / 8) = lowBytes v (n / 8) := by
    rw [two_pow_eq_bytes_mul_bits n, Nat.mul_assoc, lowBytes_add_mul]
  rw [lowBytes_add, add_code_div_wholeBytes, hkeep]

/-- A code behind an `n`-bit string makes a longer bit string. -/
theorem add_code_lt {v c n w : Nat} (hv : v < 2 ^ n) (hc : c < 2 ^ w) : v + 2 ^ n * c < 2 ^ (n + w) := by
  calc v + 2 ^ n * c < 2 ^ n * (c + 1) := by rw [Nat.mul_add_one]; omega
    _ ≤ 2 ^ n * 2 ^ w := Nat.mul_le_mul_left _ hc
    _ = 2 ^ (n + w) := (Nat.pow_add ..).symm

/-! ### Draining whole bytes -/

/-- R201: `k` rounds of the drain put the low `k` bytes of the accumulator. -/
theorem packDrainLoop_framed {k : Nat} {s : State} (hcount : 8 * k ≤ s.bp.wcnt.toNat)
    (hroom : Room s (frameBytes (wbufBytes s.sb) (lowBytes s.bp.wacc.toNat k)).1.length) :
    ∃ t, packDrainLoop .framed k s = .ok () t ∧ SameBut [.cur, .bp, .sb, .snk] s t ∧
      Framed s t (frameBytes (wbufBytes s.sb) (lowBytes s.bp.wacc.toNat k)) ∧
      t.bp = { s.bp with wacc := BitVec.ofNat 19 (s.bp.wacc.toNat / 256 ^ k)
                         wcnt := BitVec.ofNat 5 (s.bp.wcnt.toNat - 8 * k) } := by
  induction k generalizing s with
  | zero => exact ⟨s, rfl, .refl _ s, .refl s, by simp⟩
  | succ k ih =>
    obtain ⟨hwacc, hwcnt, -, -⟩ := packShift_bp (s := s) (by omega)
    have hbyte : s.bp.wacc.setWidth 8 = BitVec.ofNat 8 s.bp.wacc.toNat := rfl
    rw [lowBytes_succ, frameBytes_cons, ← hbyte] at hroom ⊢
    obtain ⟨t, hput, hst, hframed⟩ := framerPut_framed (s := packShift s) (b := s.bp.wacc.setWidth 8)
      (room_of_le hroom (by simp [packShift]))
    have hbp : t.bp = (packShift s).bp := hst .bp (by simp)
    replace hframed : Framed s t (framePush ([], wbufBytes s.sb) (s.bp.wacc.setWidth 8)) := hframed
    have hrest := hframed.outputs.room_rest hroom
    have hpending := hframed.pending
    rw [← hpending, ← hwacc, ← hbp] at hrest ⊢
    obtain ⟨u, hloop, htu, hframed', hbp'⟩ := ih (by rw [hbp]; omega) hrest
    refine ⟨u, ?_, ((sameBut_setBp s _).mono (by simp)).trans ((hst.mono (by simp)).trans htu),
      hframed.trans hframed', ?_⟩
    · rw [packDrainLoop, putByte_framed, hput, Run.bind_ok, hloop]
    · rw [hbp', hbp, hwacc, hwcnt, Nat.div_div_eq_div_mul, ← Nat.pow_succ']
      simp [packShift, Nat.mul_add, Nat.sub_sub, Nat.add_comm]

/-! ### Packing and flushing a bit string -/

/-- From `s` to `t` the `n`-bit string `v` was packed in framed mode from an empty block and accumulator: its whole bytes are
framed, the bits behind them are in the write accumulator. -/
def Packed (s t : State) (v n : Nat) : Prop :=
  v < 2 ^ n ∧ Framed s t (frameBytes [] (lowBytes v (n / 8))) ∧
    t.bp = { s.bp with wacc := BitVec.ofNat 19 (v / 256 ^ (n / 8)), wcnt := BitVec.ofNat 5 (n % 8) }

section
variable {s t : State} {v n : Nat}

theorem Packed.lt (h : Packed s t v n) : v < 2 ^ n := h.1

theorem Packed.framed (h : Packed s t v n) : Framed s t (frameBytes [] (lowBytes v (n / 8))) := h.2.1

theorem Packed.bp (h : Packed s t v n) : t.bp = { s.bp with
    wacc := BitVec.ofNat 19 (v / 256 ^ (n / 8)), wcnt := BitVec.ofNat 5 (n % 8) } := h.2.2

theorem Packed.wcnt (h : Packed s t v n) : t.bp.wcnt.toNat = n % 8 := by
  rw [h.bp, BitVec.toNat_ofNat]
  omega

theorem Packed.wacc (h : Packed s t v n) : t.bp.wacc.toNat = v / 256 ^ (n / 8) := by
  have hbits := div_wholeBytes_lt h.lt
  have hbyte : 2 ^ (n % 8) ≤ 2 ^ 8 := Nat.pow_le_pow_right (by decide) (by omega)
  rw [h.bp, BitVec.toNat_ofNat, Nat.mod_eq_of_lt (by omega)]

/-- No whole byte is left to drain. -/
theorem Packed.packDrain (h : Packed s t v n) : packDrain .framed t = .ok () t := by
  rw [Machine.packDrain, h.wcnt, show n % 8 / 8 = 0 by omega]
  rfl

/-- R201: a code merged behind the bits a bit string left in the accumulator. -/
theorem Packed.packMerge {c w : Nat} (h : Packed s t v n) (hc : c < 2 ^ w) (hw : w ≤ 12) :
    (packMerge c w t).bp.wacc.toNat = v / 256 ^ (n / 8) + c * 2 ^ (n % 8) ∧
      (packMerge c w t).bp.wcnt.toNat = n % 8 + w := by
  have hbits := div_wholeBytes_lt h.lt
  rw [← h.wacc, ← h.wcnt] at hbits ⊢
  have hcount := h.wcnt
  obtain ⟨hwacc, hwcnt, -, -⟩ := packMerge_bp hc (by omega) hbits
  exact ⟨hwacc, hwcnt⟩

/-- R201: a code packed behind a bit string. -/
theorem packBits_framed {c w : Nat} (h : Packed s t v n) (hc : c < 2 ^ w) (hw : w ≤ 12)
    (hroom : Room s (frameBytes [] (lowBytes (v + 2 ^ n * c) ((n + w) / 8))).1.length) :
    ∃ u, packBits c w .framed t = .ok () u ∧ SameBut [.cur, .bp, .sb, .snk] t u ∧
      Packed s u (v + 2 ^ n * c) (n + w) := by
  obtain ⟨hwacc, hwcnt⟩ := h.packMerge hc hw
  have hframed : Framed s (packMerge c w t) (frameBytes [] (lowBytes v (n / 8))) := h.framed
  have hcount : (n + w) / 8 = n / 8 + (n % 8 + w) / 8 := by omega
  have hbytes : lowBytes (v + 2 ^ n * c) ((n + w) / 8) =
      lowBytes v (n / 8) ++ lowBytes (packMerge c w t).bp.wacc.toNat ((n % 8 + w) / 8) := by
    rw [hcount, lowBytes_add_code, hwacc]
  rw [hbytes, frameBytes_append, ← hframed.pending] at hroom
  obtain ⟨u, hloop, hsame, hdrained, hbp⟩ :=
    packDrainLoop_framed (k := (n % 8 + w) / 8) (by omega) (hframed.outputs.room_rest hroom)
  refine ⟨u, ?_, ((sameBut_setBp t _).mono (by simp)).trans hsame, add_code_lt h.lt hc, ?_, ?_⟩
  · rw [packBits, h.packDrain, Run.bind_ok, Machine.packDrain, hwcnt, hloop]
  · rw [hbytes, frameBytes_append, ← hframed.pending]
    exact hframed.trans hdrained
  · rw [hbp, hwacc, hwcnt, ← add_code_div_wholeBytes, Nat.div_div_eq_div_mul, ← Nat.pow_add, ← hcount,
      show n % 8 + w - 8 * ((n % 8 + w) / 8) = (n + w) % 8 by omega]
    simp [Machine.packMerge, h.bp]

/-- R204: the flush puts what is left of the last byte, padded with zero bits. -/
theorem packFlush_framed (h : Packed s t v n)
    (hroom : Room s (frameBytes [] (lowBytes v ((n + 7) / 8))).1.length) :
    ∃ u, packFlush .framed t = .ok () u ∧ SameBut [.cur, .bp, .sb, .snk] t u ∧
      Framed s u (frameBytes [] (lowBytes v ((n + 7) / 8))) := by
  have hframed := h.framed
  have hwcnt := h.wcnt
  by_cases hwhole : n % 8 = 0
  · have hnone : t.bp.wcnt = 0 := BitVec.eq_of_toNat_eq (hwcnt.trans hwhole)
    rw [show (n + 7) / 8 = n / 8 by omega]
    exact ⟨t, by rw [packFlush, h.packDrain, Run.bind_ok, if_pos hnone], .refl _ t, hframed⟩
  · have hsome : t.bp.wcnt ≠ 0 := fun heq => hwhole (hwcnt.symm.trans (congrArg BitVec.toNat heq))
    have hbyte : [BitVec.ofNat 8 (v / 256 ^ (n / 8))] = [t.bp.wacc.setWidth 8] :=
      congrArg (fun x => [BitVec.ofNat 8 x]) h.wacc.symm
    rw [show (n + 7) / 8 = n / 8 + 1 by omega, lowBytes_add, lowBytes_succ, lowBytes_zero, hbyte, frameBytes_append,
      ← hframed.pending] at hroom ⊢
    obtain ⟨u, hput, hsame, hframed'⟩ := framerPut_framed (s := t.setBp { t.bp with wacc := 0, wcnt := 0 })
      (b := t.bp.wacc.setWidth 8) (hframed.outputs.room_rest hroom)
    refine ⟨u, ?_, ((sameBut_setBp t _).mono (by simp)).trans (hsame.mono (by simp)), hframed.trans hframed'⟩
    rw [packFlush, h.packDrain, Run.bind_ok, if_neg hsome, putByte_framed, hput]

end

end Sys2Proof.Machine
end

section
/-! `LZW_COMPRESS` of the empty input (spec/41_compressor.md R161, R166): the opening, the two codes, the close. -/

namespace Sys2Proof.Machine

open Sys2Proof.Claims

/-- The two codes of the empty input as one bit string: `ResetCode`, then `EndCode`, both `rb` wide (R166). -/
def emptyInputBits (rb : Nat) : Nat := 2 ^ (rb - 1) + 2 ^ rb * (2 ^ (rb - 1) + 1)

section
variable {s t : State} {rb : Nat}

/-- Step 1 (R161): the code-size byte goes out, the table is reset, the block and the write accumulator are empty. -/
theorem compressOpen_ok (hrb : LegalRootBits rb) (hroom : Room s 1) :
    ∃ t, compressOpen rb s = .ok () t ∧ SameBut [.cur, .st, .bp, .sb, .snk] s t ∧
      Outputs s t [BitVec.ofNat 8 (rb - 1)] ∧ t.st = resetTable rb ∧ Packed t t 0 0 := by
  obtain ⟨-, -, hreset⟩ | ⟨low, -⟩ | ⟨high, -⟩ := tableReset_cases rb s
  · obtain ⟨u, hwrite, hsame, hout⟩ :=
      snkWrite8_outputs (s := s.setSt (resetTable rb)) (b := BitVec.ofNat 8 (rb - 1)) hroom
    have hst : u.st = resetTable rb := hsame .st (by simp)
    refine ⟨(framerOpen u).setBp { u.bp with wacc := 0, wcnt := 0 }, ?_, ?_, hout, hst, by simp, ?_, rfl⟩
    · rw [compressOpen, hreset, Run.bind_ok, hwrite, Run.bind_ok]
      rfl
    · exact ((sameBut_setSt s _).mono (by simp)).trans <| (hsame.mono (by simp)).trans <|
        ((sameBut_setSb u _).mono (by simp)).trans ((sameBut_setBp _ _).mono (by simp))
    · exact ⟨(Framed.refl _).outputs, wbufBytes_empty u.sb, rfl, rfl⟩
  · omega
  · omega

/-- Step 7 (R161): with room for it, the whole chain of the codes is out. -/
theorem compressClose_framed {v n : Nat} (h : Packed s t v n)
    (hroom : Room s (chainBytes (lowBytes v ((n + 7) / 8))).length) :
    ∃ u, compressClose t = .ok () u ∧ SameBut [.cur, .bp, .sb, .snk] t u ∧
      Outputs s u (chainBytes (lowBytes v ((n + 7) / 8))) := by
  rw [chainBytes] at hroom ⊢
  obtain ⟨u, hflush, htu, hframed⟩ := packFlush_framed h (room_of_le hroom (by simp))
  rw [← hframed.pending] at hroom ⊢
  obtain ⟨x, hclose, hux, hframed'⟩ := framerClose_framed (hframed.outputs.room_rest hroom)
  exact ⟨x, by rw [compressClose, hflush, Run.bind_ok, hclose], htu.trans (hux.mono (by simp)),
    hframed.outputs.trans hframed'.outputs⟩

/-- Few enough bits to pack need no room yet. -/
theorem room_frameBytes_short {v k : Nat} (h : k < 255) : Room s (frameBytes [] (lowBytes v k)).1.length := by
  rw [frameBytes_short (by simpa using h)]
  exact room_zero s

/-- Steps 2 to 6 (R161) with no input: the loop body never runs and `LZ_CUR` stays `NONE`, so the codes are `ResetCode` and
`EndCode` (R166). -/
theorem compressCodes_empty (hrb : LegalRootBits rb) (hst : t.st = resetTable rb) (hempty : srcAvail t = 0)
    (hpacked : Packed t t 0 0) :
    ∃ u, compressCodes putPacked rb () t = .ok () u ∧ SameBut [.cur, .bp, .sb, .lz, .snk] t u ∧
      u.lz = ⟨Config.none, t.lz.prev, 1⟩ ∧ Packed t u (emptyInputBits rb) (2 * rb) := by
  obtain ⟨h3, h12⟩ := hrb
  obtain ⟨-, hwidth, hreset, hend, -⟩ := resetTable_regs h3 h12
  have hpow : 2 ^ rb = 2 * 2 ^ (rb - 1) := by rw [← Nat.pow_succ']; congr 1; omega
  have hfour : 2 ^ 2 ≤ 2 ^ (rb - 1) := Nat.pow_le_pow_right (by decide) (by omega)
  obtain ⟨u, hput, htu, hu⟩ := packBits_framed (t := t.setLz { t.lz with cur := Config.none, resets := 0 })
    (c := 2 ^ (rb - 1)) (w := rb) hpacked (by omega) h12 (room_frameBytes_short (by omega))
  have hust : u.st = t.st := htu .st (by simp)
  have hulz : u.lz = ⟨Config.none, t.lz.prev, 0⟩ := htu .lz (by simp)
  have hubits : Packed t u (2 ^ (rb - 1)) rb := by simpa using hu
  have huempty : srcAvail u = 0 := hubits.framed.outputs.srcAvail.trans hempty
  obtain ⟨x, hput', hux, hx⟩ := packBits_framed (t := u.setLz { u.lz with resets := 1 })
    (c := 2 ^ (rb - 1) + 1) (w := rb) hubits (by omega) h12 (room_frameBytes_short (by omega))
  have hxlz : x.lz = { u.lz with resets := 1 } := hux .lz (by simp)
  refine ⟨x, ?_, ?_, by rw [hxlz, hulz], by rw [Nat.two_mul]; exact hx⟩
  · have hcodes :
        putPacked t.st.resetCode.toNat () (t.setLz { t.lz with cur := Config.none, resets := 0 }) = .ok () u := by
      simp only [putPacked, State.setLz_fields, hst, hreset, hwidth, hput]
    have htail : compressTail putPacked () (u.setLz { u.lz with resets := 1 }) = .ok () x := by
      simp only [compressTail, putPacked, State.setLz_fields, hulz, if_true, Run.bind_ok, hust, hst, hend, hwidth]
      rw [← hput', hulz]
    rw [compressCodes, hcodes, Run.bind_ok, huempty, compressLoop, Run.bind_ok, htail]
  · exact ((sameBut_setLz t _).mono (by simp)).trans <| (htu.mono (by simp)).trans <|
      ((sameBut_setLz u _).mono (by simp)).trans (hux.mono (by simp))

/-- What `LZW_COMPRESS` appends for the empty input (R166). -/
def emptyInputStream (rb : Nat) : List Byte :=
  BitVec.ofNat 8 (rb - 1) :: chainBytes (lowBytes (emptyInputBits rb) ((2 * rb + 7) / 8))

theorem lzwCompressBody_empty (hrb : LegalRootBits s.args.arg0.toNat) (hempty : srcAvail s = 0)
    (hroom : Room s (emptyInputStream s.args.arg0.toNat).length) :
    ∃ t, lzwCompressBody s = .ok () t ∧ SameBut [.res, .cur, .st, .bp, .sb, .lz, .snk] s t ∧
      Outputs s t (emptyInputStream s.args.arg0.toNat) ∧ t.lz = ⟨Config.none, s.lz.prev, 1⟩ ∧
      t.res = { s.res with res0 := BitVec.ofNat 32 (emptyInputStream s.args.arg0.toNat).length, res1 := 0 } := by
  obtain ⟨t, hopen, hst, hcode, htable, hstart⟩ := compressOpen_ok hrb (room_of_le hroom (by simp [emptyInputStream]))
  obtain ⟨u, hcodes, htu, hlz, hbits⟩ := compressCodes_empty hrb htable (hcode.srcAvail.trans hempty) hstart
  obtain ⟨x, hclose, hux, hchain⟩ := compressClose_framed hbits (hcode.room_rest hroom)
  have hout : Outputs s x (emptyInputStream s.args.arg0.toNat) := hcode.trans hchain
  have hsame : SameBut [.cur, .st, .bp, .sb, .lz, .snk] s x :=
    (hst.mono (by simp)).trans ((htu.mono (by simp)).trans (hux.mono (by simp)))
  have hres : x.res = s.res := hsame .res (by simp)
  have hxlz : x.lz = ⟨Config.none, s.lz.prev, 1⟩ := by
    rw [show x.lz = u.lz from hux .lz (by simp), hlz, show t.lz = s.lz from hst .lz (by simp)]
  have hwritten : x.cur.snkPos.toNat - s.cur.snkPos.toNat = (emptyInputStream s.args.arg0.toNat).length := by
    rw [hout.snkPos]
    omega
  have hread : x.cur.srcPos.toNat - s.cur.srcPos.toNat = 0 := by rw [hout.srcPos, Nat.sub_self]
  refine ⟨x.setRes { s.res with
    res0 := BitVec.ofNat 32 (emptyInputStream s.args.arg0.toNat).length, res1 := 0 }, ?_, ?_, hout, hxlz, rfl⟩
  · rw [lzwCompressBody, hopen, Run.bind_ok, hcodes, Run.bind_ok, hclose, Run.bind_ok, finish2, hwritten, hread, hres]
    rfl
  · exact (hsame.mono (by simp)).trans ((sameBut_setRes x _).mono (by simp))

end

/-- Settles O53: the opening, the two codes and the close each put their part of the stream. -/
theorem compressEmptyInput : Obligations.CompressEmptyInput := by
  unfold Obligations.CompressEmptyInput
  intro s hs hrb hempty out hout hroom
  have hstream : emptyInputStream s.args.arg0.toNat = out := by
    have hlen : (2 * s.args.arg0.toNat + 7) / 8 ≠ 0 := by omega
    rw [hout, emptyInputStream, chainBytes_short (fun h => hlen (by simpa using congrArg List.length h))
      (by rw [lowBytes_length]; omega), lowBytes_length, emptyInputBits, Nat.mul_comm (2 ^ s.args.arg0.toNat)]
  subst hstream
  obtain ⟨t, hbody, hsame, happends, hlz, hres⟩ :=
    lzwCompressBody_empty (s := s.setStatus (beginFlags s.status)) hrb hempty (.inr hroom)
  exact ⟨_, runCommand_completes hs hbody (hsame .status (by simp)), rfl, .of_body (by simp) (hsame.mono (by simp)),
    happends.appends, happends.cur, hlz, hres⟩

end Sys2Proof.Machine
end

section
/-! What a part of a command appended to `SNK` while it also consumed `SRC`, and the input that is left (spec/20_memory.md R62,
R65). -/

namespace Sys2Proof.Machine

open Sys2Proof.Claims

/-! ### The input that is left -/

@[simp] theorem inputBytes_length (s : State) : (inputBytes s).length = srcAvail s := by simp [inputBytes]

/-- R65: the next byte of the input is the one at the cursor. -/
theorem inputBytes_eq_cons {s : State} (h : 1 ≤ srcAvail s) :
    inputBytes s = srcByte s s.cur.srcPos.toNat :: inputBytes (srcMoved 1 s) := by
  obtain ⟨n, hn⟩ := Nat.exists_eq_add_of_le h
  have hrest : srcAvail (srcMoved 1 s) = n := by rw [srcAvail_srcMoved h, hn]; omega
  rw [inputBytes, inputBytes, hrest, hn, Nat.add_comm, List.range_succ_eq_map, List.map_cons, List.map_map,
    srcMoved_srcPos h]
  refine congrArg _ (List.map_congr_left fun i _ => ?_)
  simp only [Function.comp_apply, srcByte_srcMoved, Nat.succ_eq_add_one]
  congr 1
  omega

/-- The input depends on `SRC` and its two cursors only. -/
theorem inputBytes_congr {gs : List Group} {s t : State} (hsame : SameBut gs s t) (hsrc : .src ∉ gs)
    (hlen : t.cur.srcLen = s.cur.srcLen) (hpos : t.cur.srcPos = s.cur.srcPos) : inputBytes t = inputBytes s := by
  have havail : srcAvail t = srcAvail s := by unfold srcAvail; rw [hlen, hpos]
  rw [inputBytes, inputBytes, havail, hpos]
  exact List.map_congr_left fun i _ => hsame .src hsrc _

@[simp] theorem inputBytes_setLz (s : State) (x : LzwRegs) : inputBytes (s.setLz x) = inputBytes s := rfl

/-- What a host copy of `SNK` to `SRC` (R105) makes of bytes just appended. -/
theorem inputBytes_of_hostCopied {s t u : State} {bs : List Byte} (h : SnkAppends s t bs)
    (hcopied : HostCopied t s.cur.snkPos.toNat bs.length u) : bs <+: inputBytes u := by
  obtain ⟨hin, -⟩ := h
  obtain ⟨havail, hbytes⟩ := hcopied
  refine List.prefix_iff_getElem?.2 fun i hi => ?_
  have hget : (List.range (srcAvail u))[i]? = some i := List.getElem?_range (by omega)
  rw [inputBytes, List.getElem?_map, hget, Option.map_some, hbytes i hi, hin i bs[i] (List.getElem?_eq_getElem hi)]

/-! ### Appending and consuming -/

/-- `s` with its read cursor where `t` has it. -/
def State.readTo (s t : State) : State := s.setCur { s.cur with srcPos := t.cur.srcPos }

theorem readTo_congr (s : State) {t u : State} (h : u.cur.srcPos = t.cur.srcPos) : s.readTo u = s.readTo t := by
  rw [State.readTo, State.readTo, h]

theorem Outputs.readTo {s t : State} {bs : List Byte} (h : Outputs s t bs) (x : State) :
    Outputs (s.readTo x) (t.readTo x) bs := by
  refine ⟨h.room, h.appends, ?_⟩
  simp [State.readTo, h.cur, cursorsAfter]

/-- From `s` to `t` exactly the bytes `bs` went to `SNK`, for which there was room, whatever was consumed of `SRC`. -/
def Produces (s t : State) (bs : List Byte) : Prop := Outputs (s.readTo t) t bs

section
variable {s t u : State} {as bs : List Byte}

theorem Outputs.produces_of_readTo (h : Outputs (s.readTo t) u bs) : Produces s u bs := by
  rw [Produces, readTo_congr s h.srcPos]
  exact h

theorem Outputs.produces (h : Outputs s t bs) : Produces s t bs := Outputs.produces_of_readTo (t := s) h

/-- Nothing appended: only the read cursor moved. -/
theorem Produces.of_sameBut {gs : List Group} (hsnk : .snk ∉ gs) (h : SameBut gs s t)
    (hcur : t.cur = { s.cur with srcPos := t.cur.srcPos }) : Produces s t [] := by
  refine ⟨room_zero _, ⟨fun i b hb => by simp at hb, fun a _ => h .snk hsnk a⟩, ?_⟩
  rw [hcur]
  simp [State.readTo, cursorsAfter]

theorem Produces.trans (has : Produces s t as) (hbs : Produces t u bs) : Produces s u (as ++ bs) :=
  Outputs.trans (has.readTo u) hbs

theorem Produces.appends (h : Produces s t bs) : SnkAppends s t bs := Outputs.appends (s := s.readTo t) h

theorem Produces.snkPos (h : Produces s t bs) : t.cur.snkPos.toNat = s.cur.snkPos.toNat + bs.length :=
  Outputs.snkPos (s := s.readTo t) h

theorem Produces.cur {n : Nat} (h : Produces s t bs) (hread : t.cur.srcPos.toNat = s.cur.srcPos.toNat + n) :
    t.cur = cursorsAfter n bs.length s.cur := by
  rw [cursorsAfter, ← hread, BitVec.ofNat_toNat, BitVec.setWidth_eq, Outputs.cur h]
  simp [State.readTo, cursorsAfter]

/-- Room for more than was appended is room for the rest. -/
theorem Produces.room_rest (h : Produces s t as) (hroom : Room s (as ++ bs).length) : Room t bs.length :=
  Outputs.room_rest h hroom

theorem Outputs.room_append (h : Outputs s t as) (hroom : Room t bs.length) : Room s (as ++ bs).length := by
  have hpos := h.snkPos
  have hcap := h.snkCap
  have hfirst := h.room
  unfold Room at hroom hfirst ⊢
  rw [hpos, hcap] at hroom
  rw [List.length_append]
  omega

end

end Sys2Proof.Machine
end

section
/-! A write through the packer and the framer that ended normally had room (spec/43_bitpacker.md R201, R204;
spec/44_subblock_framer.md R221 to R223). -/

namespace Sys2Proof.Machine

open Sys2Proof.Claims

section
variable {s t u : State} {v n : Nat}

theorem room_of_snkWrite8 {b : Byte} (h : snkWrite8 b s = .ok () t) : Room s 1 := by
  by_contra hfull
  rw [not_room_iff, roomLeft] at hfull
  rw [snkWrite8_full (by omega)] at h
  cases h

theorem room_of_framerEmit (h : framerEmit s = .ok () t) : Room s (s.sb.wcnt :: wbufBytes s.sb).length := by
  obtain ⟨hfit, -⟩ | ⟨-, hraise⟩ := framerEmit_cases s
  · right
    rw [List.length_cons, wbufBytes_length]
    omega
  · rw [hraise] at h
    cases h

theorem room_of_framerEmitIfFull (h : framerEmitIfFull s = .ok () t) : Room s (emitFull (wbufBytes s.sb)).1.length := by
  unfold framerEmitIfFull at h
  split at h
  · next hfull =>
    have hroom := room_of_framerEmit h
    rw [hfull] at hroom
    simpa [emitFull, hfull] using hroom
  · next hshort =>
    have hlen : s.sb.wcnt.toNat ≠ 255 := fun heq => hshort (BitVec.eq_of_toNat_eq heq)
    simp [emitFull, hlen]

/-- R222: both emissions of a put had room. -/
theorem room_of_framerPut {b : Byte} (h : framerPut b s = .ok () t) :
    Room s (framePush ([], wbufBytes s.sb) b).1.length := by
  obtain ⟨_, y, hemit, hemit'⟩ := Run.bind_eq_ok.1 h
  have hroom := room_of_framerEmitIfFull hemit
  obtain ⟨y', hok, -, hframed⟩ := framerEmitIfFull_framed hroom
  obtain ⟨-, rfl⟩ := Run.ok.inj (hemit.symm.trans hok)
  have hpending := hframed.pending
  have hlen := emitFull_pending_length s.sb
  rw [← hpending, wbufBytes_length] at hlen
  have hroom' := room_of_framerEmitIfFull hemit'
  rw [framerBuffer_bytes hlen, hpending] at hroom'
  rw [framePush_eq, List.nil_append]
  exact hframed.outputs.room_append hroom'

theorem room_of_packDrainLoop {k : Nat} (hcount : 8 * k ≤ s.bp.wcnt.toNat) (h : packDrainLoop .framed k s = .ok () t) :
    Room s (frameBytes (wbufBytes s.sb) (lowBytes s.bp.wacc.toNat k)).1.length := by
  induction k generalizing s with
  | zero => exact room_zero s
  | succ k ih =>
    obtain ⟨hwacc, hwcnt, -, -⟩ := packShift_bp (s := s) (by omega)
    obtain ⟨_, y, hput, hloop⟩ := Run.bind_eq_ok.1 h
    rw [putByte_framed] at hput
    obtain ⟨y', hok, hsame, hframed⟩ := framerPut_framed (room_of_framerPut hput)
    obtain ⟨-, rfl⟩ := Run.ok.inj (hput.symm.trans hok)
    have hbp : y.bp = (packShift s).bp := hsame .bp (by simp)
    have hrest := ih (by rw [hbp]; omega) hloop
    rw [hframed.pending, hbp, hwacc] at hrest
    have hbyte : s.bp.wacc.setWidth 8 = BitVec.ofNat 8 s.bp.wacc.toNat := rfl
    rw [lowBytes_succ, frameBytes_cons, ← hbyte]
    exact hframed.outputs.room_append hrest

theorem room_of_packBits {c w : Nat} (h : Packed s t v n) (hc : c < 2 ^ w) (hw : w ≤ 12)
    (hok : packBits c w .framed t = .ok () u) :
    Room s (frameBytes [] (lowBytes (v + 2 ^ n * c) ((n + w) / 8))).1.length := by
  obtain ⟨hwacc, hwcnt⟩ := h.packMerge hc hw
  have hframed : Framed s (packMerge c w t) (frameBytes [] (lowBytes v (n / 8))) := h.framed
  rw [packBits, h.packDrain, Run.bind_ok, packDrain, hwcnt] at hok
  have hrest := room_of_packDrainLoop (by omega) hok
  rw [hframed.pending, hwacc] at hrest
  rw [show (n + w) / 8 = n / 8 + (n % 8 + w) / 8 by omega, lowBytes_add_code, frameBytes_append]
  exact hframed.outputs.room_append hrest

/-- R201: a code packed behind a bit string by a put that ended normally. -/
theorem packed_of_packBits {c w : Nat} (h : Packed s t v n) (hc : c < 2 ^ w) (hw : w ≤ 12)
    (hok : packBits c w .framed t = .ok () u) :
    SameBut [.cur, .bp, .sb, .snk] t u ∧ Packed s u (v + 2 ^ n * c) (n + w) := by
  obtain ⟨u', hok', hsame, hpacked⟩ := packBits_framed h hc hw (room_of_packBits h hc hw hok)
  obtain ⟨-, rfl⟩ := Run.ok.inj (hok.symm.trans hok')
  exact ⟨hsame, hpacked⟩

theorem room_of_packFlush (h : Packed s t v n) (hok : packFlush .framed t = .ok () u) :
    Room s (frameBytes [] (lowBytes v ((n + 7) / 8))).1.length := by
  have hwcnt := h.wcnt
  rw [packFlush, h.packDrain, Run.bind_ok] at hok
  split at hok
  · next hnone =>
    rw [hnone] at hwcnt
    rw [show (n + 7) / 8 = n / 8 by have : (0 : BitVec 5).toNat = 0 := rfl; omega]
    exact h.framed.outputs.room
  · next hsome =>
    have hrest : n % 8 ≠ 0 := fun heq => hsome (BitVec.eq_of_toNat_eq (hwcnt.trans heq))
    have hbyte : t.bp.wacc.setWidth 8 = BitVec.ofNat 8 (v / 256 ^ (n / 8)) := congrArg (BitVec.ofNat 8) h.wacc
    have hroom : Room t (framePush ([], wbufBytes t.sb) (t.bp.wacc.setWidth 8)).1.length :=
      room_of_framerPut (s := t.setBp { t.bp with wacc := 0, wcnt := 0 }) hok
    rw [show (n + 7) / 8 = n / 8 + 1 by omega, lowBytes_add, lowBytes_succ, lowBytes_zero, ← hbyte, frameBytes_append]
    refine h.framed.outputs.room_append ?_
    rw [← h.framed.pending, frameBytes_cons]
    simpa [frameBytes] using hroom

theorem room_of_framerClose (h : framerClose s = .ok () t) : Room s (closeBytes (wbufBytes s.sb)).length := by
  obtain ⟨_, y, hemit, hwrite⟩ := Run.bind_eq_ok.1 h
  have hlast := room_of_snkWrite8 hwrite
  split at hemit
  · next hnone =>
    obtain ⟨-, rfl⟩ := Run.ok.inj hemit
    have hpending : wbufBytes s.sb = [] := List.length_eq_zero_iff.1 (by simp [hnone])
    simpa [hpending, closeBytes] using hlast
  · next hsome =>
    have hroom := room_of_framerEmit hemit
    obtain ⟨y', hok, -, hframed⟩ := framerEmit_framed (s := s) (by simpa [Nat.add_comm] using hroom)
    obtain ⟨-, rfl⟩ := Run.ok.inj (hemit.symm.trans hok)
    have hne : wbufBytes s.sb ≠ [] := fun heq => hsome (wcnt_eq_of_pending heq)
    rw [closeBytes, if_neg hne, wbufBytes_length, BitVec.ofNat_toNat]
    exact hframed.outputs.room_append (bs := [0]) hlast

/-- Step 7 (R161): a close that ended normally put out the whole chain. -/
theorem outputs_of_compressClose (h : Packed s t v n) (hok : compressClose t = .ok () u) :
    Outputs s u (chainBytes (lowBytes v ((n + 7) / 8))) ∧ SameBut [.cur, .bp, .sb, .snk] t u := by
  obtain ⟨_, y, hflush, hclose⟩ := Run.bind_eq_ok.1 hok
  obtain ⟨y', hflush', -, hframed⟩ := packFlush_framed h (room_of_packFlush h hflush)
  obtain ⟨-, rfl⟩ := Run.ok.inj (hflush.symm.trans hflush')
  have hroom := room_of_framerClose hclose
  rw [hframed.pending] at hroom
  obtain ⟨u', hok', hsame, hout⟩ := compressClose_framed h (hframed.outputs.room_append hroom)
  obtain ⟨-, rfl⟩ := Run.ok.inj (hok.symm.trans hok')
  exact ⟨hout, hsame⟩

end

end Sys2Proof.Machine
end

section
/-! The tables of a writer and a reader of one code stream (spec/42_decompressor.md R186; spec/40_string_table.md R135 to R137): both
sides keep R30, and the reader, which registers a string one code later, finds the writer's entry and the writer's width. -/

namespace Sys2Proof.Machine

open Sys2Proof.Claims

/-! ### Reset and add keep R30 -/

theorem tableReset_legal {rb : Nat} (h : LegalRootBits rb) (s : State) :
    tableReset rb s = .ok () (s.setSt (resetTable rb)) := by
  obtain ⟨h3, h12⟩ := h
  obtain ⟨-, -, hok⟩ | ⟨low, -⟩ | ⟨high, -⟩ := tableReset_cases rb s
  · exact hok
  · omega
  · omega

/-- R135, R30: a table just reset. -/
theorem tableSet_resetTable {rb : Nat} (h : LegalRootBits rb) : TableSet (resetTable rb) := by
  obtain ⟨h3, h12⟩ := h
  obtain ⟨hroot, hwidth, hreset, hend, hfree⟩ := resetTable_regs h3 h12
  have hpow : 2 ^ rb = 2 * 2 ^ (rb - 1) := by rw [← Nat.pow_succ']; congr 1; omega
  have hlow : 2 ^ 2 ≤ 2 ^ (rb - 1) := Nat.pow_le_pow_right two_pos (by omega)
  have hhigh : 2 ^ rb ≤ 2 ^ 12 := Nat.pow_le_pow_right two_pos h12
  refine ⟨by omega, ⟨by rw [hreset, hroot], by omega⟩, ⟨by omega, by omega, by rw [hwidth]; omega⟩, fun c hc => ?_,
    fun c hc hdyn => by omega, fun x hx => ?_⟩
  · rw [hreset] at hc
    exact (entryAt_rootTable _ c).trans (if_pos hc)
  · have hx : x.1 < 2 ^ (rb - 1) := (mem_rootTable.1 hx).1
    exact validCode_iff.2 (by omega)

theorem mem_setEntry {t : Table} {c : Nat} {e : Entry} {x : Nat × Entry} (h : x ∈ setEntry t c e) : x.1 = c ∨ x ∈ t := by
  unfold setEntry cellSet at h
  split at h
  · exact .inr (List.mem_filter.1 h).1
  · obtain rfl | hmem := mem_cellPut h
    · exact .inl rfl
    · exact .inr hmem

section
variable {t : StringTable} {base c : Nat}

theorem validCode_addEntry (h : t.nextFree.toNat < 4096) (b : Byte) (fw : Bool) (hc : validCode t c = true) :
    validCode (addEntry base b fw t) c = true := by
  obtain ⟨hfree, -, hreset, hend, -⟩ := addEntry_fields (base := base) (b := b) (fw := fw) h
  rw [validCode_iff] at hc ⊢
  rw [hfree, hreset, hend]
  omega

/-- R137, R95: after the writer's add the width still addresses every allocated code. -/
theorem addEntry_width (h : t.nextFree.toNat < 4096) (hwidth : t.nextFree.toNat ≤ 2 ^ t.codeBits.toNat)
    (hmax : t.codeBits.toNat ≤ 12) (b : Byte) :
    t.codeBits.toNat ≤ (addEntry base b true t).codeBits.toNat ∧ (addEntry base b true t).codeBits.toNat ≤ 12 ∧
      t.nextFree.toNat + 1 ≤ 2 ^ (addEntry base b true t).codeBits.toNat := by
  have hpos := Nat.two_pow_pos t.codeBits.toNat
  have hbits := addEntry_codeBits h base b true
  simp only [eq_self, if_true] at hbits
  by_cases hwide : 2 ^ t.codeBits.toNat < t.nextFree.toNat + 1 ∧ t.codeBits.toNat < 12
  · rw [if_pos hwide] at hbits
    rw [hbits, Nat.pow_succ]
    omega
  · rw [if_neg hwide, Nat.add_zero] at hbits
    rw [hbits]
    by_cases hlast : t.codeBits.toNat = 12
    · rw [hlast]
      omega
    · omega

/-- R136, R139, R30: the writer's add under a valid base. -/
theorem TableSet.addEntry (ht : TableSet t) (hbase : validCode t base = true) (h : t.nextFree.toNat < 4096) (b : Byte) :
    TableSet (addEntry base b true t) := by
  have hold : ∀ c, validCode t c = true → validCode (Machine.addEntry base b true t) c = true :=
    fun c hc => validCode_addEntry h b true hc
  have hbasefree := (validCode_iff.1 hbase).1
  obtain ⟨⟨h3, hle, h12⟩, ⟨hreset, hend⟩, ⟨hlow, -, hwidth⟩, hroots, hdyn, hlisted⟩ := ht
  obtain ⟨hfree, hroot, hreset', hend', hentry⟩ := addEntry_fields (base := base) (b := b) (fw := true) h
  obtain ⟨hgrow, hmax, haddr⟩ := addEntry_width (base := base) h hwidth h12 b
  have hbasewidth : (BitVec.ofNat 16 base).toNat = base := by rw [BitVec.toNat_ofNat]; omega
  refine ⟨?_, ?_, ⟨?_, ?_, ?_⟩, fun c hc => ?_, fun c hc hcdyn => ?_, fun x hx => ?_⟩
  · rw [hroot]
    omega
  · rw [hroot, hreset', hend']
    exact ⟨hreset, hend⟩
  · rw [hend', hfree]
    omega
  · omega
  · omega
  · rw [hreset'] at hc
    rw [hentry, if_neg (by omega), hroots c hc]
  · rw [hfree] at hc
    rw [hend'] at hcdyn
    rw [hentry c]
    by_cases hnew : c = t.nextFree.toNat
    · rw [if_pos hnew, hbasewidth, hentry base, if_neg (by omega)]
      exact ⟨by omega, hold base hbase, rfl⟩
    · obtain ⟨hlt, hvalid, hfirst⟩ := hdyn c (by omega) hcdyn
      rw [if_neg hnew, hentry, if_neg (Nat.ne_of_lt (validCode_iff.1 hvalid).1)]
      exact ⟨hlt, hold _ hvalid, hfirst⟩
  · obtain hnew | hmem := mem_setEntry (by simpa [Machine.addEntry] using hx)
    · rw [validCode_iff, hfree, hreset', hend']
      omega
    · exact hold _ (hlisted x hmem)

theorem TableSet.stringOf_root (ht : TableSet t) (hc : c < t.resetCode.toNat) :
    stringOf t.table c = [BitVec.ofNat 8 c] := by
  rw [stringOf_no_parent (ht.prev_root hc), ht.entryAt_root hc, rootEntry]

theorem TableSet.valid_root (ht : TableSet t) (hc : c < t.resetCode.toNat) : validCode t c = true := by
  obtain ⟨-, ⟨-, hend⟩, ⟨hfree, -⟩, -⟩ := ht
  exact validCode_iff.2 (by omega)

/-- R138: the width of a table addresses every valid code and both control codes. -/
theorem TableSet.lt_two_pow (ht : TableSet t) (hc : c < t.nextFree.toNat) : c < 2 ^ t.codeBits.toNat := by
  obtain ⟨-, -, ⟨-, -, hwidth⟩, -⟩ := ht
  omega

end

/-! ### The reader's add follows the writer's -/

/-- An add (R136) before the width rule. -/
def entered (base : Nat) (b : Byte) (t : StringTable) : StringTable :=
  { t with
    table := setEntry t.table t.nextFree.toNat ⟨b, BitVec.ofNat 16 base, (entryAt t.table base).first⟩
    nextFree := BitVec.ofNat 13 (t.nextFree.toNat + 1) }

theorem addEntry_eq_widen_entered (base : Nat) (b : Byte) (fw : Bool) (t : StringTable) :
    addEntry base b fw t = widen fw (entered base b t) := rfl

theorem entered_nextFree {t : StringTable} (h : t.nextFree.toNat < 4096) (base : Nat) (b : Byte) :
    (entered base b t).nextFree.toNat = t.nextFree.toNat + 1 := by
  rw [entered, BitVec.toNat_ofNat]
  omega

/-- R137: the writer widens past `2^w`, one entry later than the reader; so the reader's width before an add is the writer's after
it. -/
theorem widen_entered {t : StringTable} (h : t.nextFree.toNat < 4096) (base : Nat) (b : Byte) :
    widen true (entered base b t) = entered base b (widen false t) := by
  have hfree := entered_nextFree h base b
  have hpos := Nat.two_pow_pos t.codeBits.toNat
  by_cases hwide : 2 ^ t.codeBits.toNat - 1 < t.nextFree.toNat ∧ t.codeBits.toNat < 12
  · have hwriter : 2 ^ t.codeBits.toNat < (entered base b t).nextFree.toNat ∧ t.codeBits.toNat < 12 := by omega
    rw [show widen false t = _ from if_pos hwide, show widen true (entered base b t) = _ from if_pos hwriter]
    rfl
  · have hwriter : ¬(2 ^ t.codeBits.toNat < (entered base b t).nextFree.toNat ∧ t.codeBits.toNat < 12) := by omega
    rw [show widen false t = _ from if_neg hwide, show widen true (entered base b t) = _ from if_neg hwriter]

/-- R165: the width rule at the end of input does what the reader's does (R137). -/
theorem widenAtEnd_eq (s : State) : widenAtEnd s = s.setSt (widen false s.st) := by
  have hpos := Nat.two_pow_pos s.st.codeBits.toNat
  by_cases hwide : 2 ^ s.st.codeBits.toNat - 1 < s.st.nextFree.toNat ∧ s.st.codeBits.toNat < 12
  · rw [show widen false s.st = _ from if_pos hwide]
    exact if_pos (by simp only [Config.maxCodeBits]; omega)
  · rw [show widen false s.st = _ from if_neg hwide]
    exact if_neg (by simp only [Config.maxCodeBits]; omega)

theorem widen_resetTable {rb : Nat} (h : LegalRootBits rb) : widen false (resetTable rb) = resetTable rb := by
  obtain ⟨h3, h12⟩ := h
  obtain ⟨-, hwidth, -, -, hfree⟩ := resetTable_regs h3 h12
  have hpow : 2 ^ rb = 2 * 2 ^ (rb - 1) := by rw [← Nat.pow_succ']; congr 1; omega
  have hlow : 2 ^ 2 ≤ 2 ^ (rb - 1) := Nat.pow_le_pow_right two_pos (by omega)
  refine if_neg ?_
  simp only [Bool.false_eq_true, if_false, hwidth, hfree]
  omega

@[simp] theorem validCode_widen (fw : Bool) (t : StringTable) (c : Nat) : validCode (widen fw t) c = validCode t c := by
  simp [validCode]

/-- R135, R164: a table one code old is far from full. -/
theorem resetTable_nextFree_lt {rb : Nat} (h : LegalRootBits rb) : (resetTable rb).nextFree.toNat < 4095 := by
  obtain ⟨h3, h12⟩ := h
  obtain ⟨-, -, -, -, hfree⟩ := resetTable_regs h3 h12
  have hhigh : 2 ^ (rb - 1) ≤ 2 ^ 11 := Nat.pow_le_pow_right two_pos (by omega)
  omega

end Sys2Proof.Machine
end

section
/-! The reader of a code stream code by code (spec/42_decompressor.md R181, R182), on the registers that decoding depends on, and the
writer's codes seen from it (spec/41_compressor.md R161 to R165): after every code put, the reader of the codes so far has the
writer's table but for the entry it registers one code later, and its output is the input the codes stand for. -/

namespace Sys2Proof.Machine

open Sys2Proof.Claims

/-! ### Reading codes -/

/-- The registers that decide what a code read does. -/
structure Reader where
  st : StringTable
  prev : Half
  resets : Word

/-- The registers of the machine that its reader is. -/
def State.reader (s : State) : Reader := ⟨s.st, s.lz.prev, s.lz.resets⟩

/-- Where decoding starts (R181, step 1). -/
def Reader.start (rb : Nat) : Reader := ⟨resetTable rb, Config.none, 0⟩

/-- The `EndCode`, at the reader's width. -/
def Reader.endCode (r : Reader) : Nat × Nat := (r.st.endCode.toNat, r.st.codeBits.toNat)

/-- Registering the data code `c` leaves the table `t`. -/
def Registers (r : Reader) (c : Nat) (t : StringTable) : Prop :=
  ∀ s : State, s.reader = r → decompressAdd c s = .ok () (s.setSt t)

/-- What one code other than `EndCode` does to the reader, and the bytes it puts out. -/
inductive Taken : Reader → Nat → List Byte → Reader → Prop
  | reset (r : Reader) (hrb : LegalRootBits r.st.rootBits.toNat) (hend : r.st.resetCode.toNat ≠ r.st.endCode.toNat) :
    Taken r r.st.resetCode.toNat [] ⟨resetTable r.st.rootBits.toNat, Config.none, r.resets + 1⟩
  | data (r : Reader) {c : Nat} {t : StringTable} (hreset : c ≠ r.st.resetCode.toNat) (hend : c ≠ r.st.endCode.toNat)
    (hadd : Registers r c t) (hvalid : validCode t c = true) :
    Taken r c (stringOf t.table c) ⟨t, BitVec.ofNat 16 c, r.resets⟩

/-- A code with its width, as `PackBits` takes it (R201). -/
def Fits (p : Nat × Nat) : Prop := 1 ≤ p.2 ∧ p.2 ≤ 12 ∧ p.1 < 2 ^ p.2

/-- What the codes `cs`, each at the reader's width of the moment, do to the reader, and the bytes they put out. -/
inductive Reads : Reader → List (Nat × Nat) → List Byte → Reader → Prop
  | nil (r : Reader) : Reads r [] [] r
  | cons {r r' r'' : Reader} {c : Nat} {x out : List Byte} {cs : List (Nat × Nat)}
    (hfits : Fits (c, r.st.codeBits.toNat)) (htaken : Taken r c x r') (hrest : Reads r' cs out r'') :
    Reads r ((c, r.st.codeBits.toNat) :: cs) (x ++ out) r''

theorem Reads.snoc {r r' r'' : Reader} {c : Nat} {x out : List Byte} {cs : List (Nat × Nat)} (h : Reads r cs out r')
    (hfits : Fits (c, r'.st.codeBits.toNat)) (htaken : Taken r' c x r'') :
    Reads r (cs ++ [(c, r'.st.codeBits.toNat)]) (out ++ x) r'' := by
  induction h with
  | nil r => simpa using Reads.cons hfits htaken (.nil r'')
  | cons hfits' htaken' _ ih =>
    rw [List.cons_append, List.append_assoc]
    exact .cons hfits' htaken' (ih hfits htaken)

/-! ### The writer's table and the reader's -/

/-- The writer's table `w` with the buffer `PFX` holding `pfx`, against the reader of the codes put so far: both tables are just reset, or
the writer has one entry more, the one the reader registers with its next code, and the same width. -/
def Sync (rb : Nat) (w : StringTable) (r : Reader) (pfx : List Byte) : Prop :=
  (w = resetTable rb ∧ r.st = resetTable rb ∧ r.prev = Config.none) ∨
    ∃ b, pfx.head? = some b ∧ r.prev ≠ Config.none ∧ validCode r.st r.prev.toNat = true ∧
      r.st.nextFree.toNat < 4096 ∧ w = entered r.prev.toNat b r.st

section
variable {rb c : Nat} {w : StringTable} {r : Reader} {pfx : List Byte}

theorem Sync.regs (h : Sync rb w r pfx) :
    r.st.codeBits = w.codeBits ∧ r.st.resetCode = w.resetCode ∧ r.st.endCode = w.endCode ∧
      r.st.rootBits = w.rootBits := by
  obtain ⟨rfl, hr, -⟩ | ⟨b, -, -, -, -, rfl⟩ := h
  · rw [hr]
    exact ⟨rfl, rfl, rfl, rfl⟩
  · exact ⟨rfl, rfl, rfl, rfl⟩

/-- R181, R182: the code of the writer's buffer makes the reader enter the writer's last entry, by the ordinary add if it knows
the code and by the deferred add if the code is that entry's. -/
theorem Sync.registers (hrb : LegalRootBits rb) (h : Sync rb w r pfx) (hw : TableSet w) (hc : validCode w c = true)
    (hstring : stringOf w.table c = pfx) : Registers r c (widen false w) := by
  rintro s rfl
  obtain ⟨rfl, hr, hprev⟩ | ⟨b, hhead, hprev, hbase, hfree, rfl⟩ := h
  · replace hr : s.st = resetTable rb := hr
    replace hprev : s.lz.prev = Config.none := hprev
    rw [decompressAdd, if_pos hprev, hr, if_pos hc, widen_resetTable hrb, ← hr]
    rfl
  · replace hprev : s.lz.prev ≠ Config.none := hprev
    replace hbase : validCode s.st s.lz.prev.toNat = true := hbase
    replace hfree : s.st.nextFree.toNat < 4096 := hfree
    have hfirst : (entryAt (entered s.lz.prev.toNat b s.st).table c).first = b := by
      have hstringhead := hw.stringOf_head c hc
      rw [hstring] at hstringhead
      exact Option.some.inj (hstringhead.symm.trans hhead)
    rw [show (entered s.lz.prev.toNat b s.st).table = setEntry _ _ _ from rfl, entryAt_setEntry] at hfirst
    have hadd : tableAdd s.lz.prev.toNat b false s =
        .ok s.st.nextFree.toNat (s.setSt (widen false (entered s.lz.prev.toNat b s.st))) := by
      obtain ⟨-, -, hok⟩ | ⟨hbad, -⟩ := tableAdd_cases s.lz.prev.toNat b false s
      · exact hok
      · obtain hinvalid | hfull := hbad
        · rw [hbase] at hinvalid
          cases hinvalid
        · omega
    have hbelow : c < (entered s.lz.prev.toNat b s.st).nextFree.toNat := (validCode_iff.1 hc).1
    rw [entered_nextFree hfree] at hbelow
    rw [decompressAdd, if_neg hprev]
    by_cases hknown : c = s.st.nextFree.toNat
    · have hinvalid : ¬ validCode s.st c = true := fun hv => by
        have := (validCode_iff.1 hv).1
        omega
      rw [if_pos hknown] at hfirst
      rw [if_neg hinvalid, if_pos hknown, show (entryAt s.st.table s.lz.prev.toNat).first = b from hfirst, hadd]
      rfl
    · have hvalid : validCode s.st c = true :=
        validCode_iff.2 ⟨by omega, (validCode_iff.1 hc).2⟩
      rw [if_neg hknown] at hfirst
      rw [if_pos hvalid, show (entryAt s.st.table c).first = b from hfirst, hadd]
      rfl

/-- A longer buffer has the same first byte. -/
theorem Sync.append (h : Sync rb w r pfx) (x : List Byte) : Sync rb w r (pfx ++ x) := by
  obtain hfresh | ⟨b, hhead, hentered⟩ := h
  · exact .inl hfresh
  · exact .inr ⟨b, by rw [List.head?_append, hhead, Option.some_or], hentered⟩

/-- The code of the writer's buffer makes the reader put out what the buffer holds. -/
theorem Sync.taken (hrb : LegalRootBits rb) (h : Sync rb w r pfx) (hw : TableSet w) (hc : validCode w c = true)
    (hstring : stringOf w.table c = pfx) : Taken r c pfx ⟨widen false w, BitVec.ofNat 16 c, r.resets⟩ := by
  obtain ⟨-, hreset, hend, -⟩ := h.regs
  obtain ⟨-, hnereset, hneend⟩ := validCode_iff.1 hc
  rw [← hreset] at hnereset
  rw [← hend] at hneend
  have htaken := Taken.data r hnereset hneend (h.registers hrb hw hc hstring) (by rw [validCode_widen, hc])
  rwa [(widen_fields false w).1, hstring] at htaken

end

/-! ### Codes put and read -/

/-- From `base` to `s`, whatever was read of `SRC`, the codes `cs` were packed in framed mode. -/
def Written (base s : State) (cs : List (Nat × Nat)) : Prop :=
  Packed (base.readTo s) s (codesValue cs) (totalBits cs)

/-- The codes put from `base` to `s` lead the reader from its start to `r` and make it put out `out`. -/
def Streamed (base : State) (rb : Nat) (s : State) (out : List Byte) (r : Reader) : Prop :=
  ∃ cs, Written base s cs ∧ Reads (.start rb) cs out r

@[simp] theorem totalBits_append (xs ys : List (Nat × Nat)) : totalBits (xs ++ ys) = totalBits xs + totalBits ys := by
  simp [totalBits]

@[simp] theorem totalBits_cons (c w : Nat) (cs : List (Nat × Nat)) : totalBits ((c, w) :: cs) = w + totalBits cs := by
  simp [totalBits]

section
variable {base s t : State} {rb c : Nat} {cs : List (Nat × Nat)} {out x : List Byte} {r r' : Reader}

theorem Written.srcMoved (h : Written base s cs) : Written base (srcMoved 1 s) cs := by
  obtain ⟨hlt, ⟨hout, hpending, hrem, hend⟩, hbp⟩ := h
  exact ⟨hlt, ⟨hout.readTo (Machine.srcMoved 1 s), hpending, hrem, hend⟩, hbp⟩

/-- R162: a code put behind the others. -/
theorem Written.put (h : Written base s cs) (hfits : Fits (c, s.st.codeBits.toNat)) (hok : putPacked c () s = .ok () t) :
    Written base t (cs ++ [(c, s.st.codeBits.toNat)]) ∧ SameBut [.cur, .bp, .sb, .snk] s t ∧
      inputBytes t = inputBytes s := by
  obtain ⟨-, hmax, hlt⟩ := hfits
  obtain ⟨hsame, hpacked⟩ := packed_of_packBits h hlt hmax hok
  have hpos : t.cur.srcPos = s.cur.srcPos := hpacked.framed.outputs.srcPos
  have hlen : t.cur.srcLen = s.cur.srcLen := by rw [hpacked.framed.outputs.cur, h.framed.outputs.cur]; rfl
  refine ⟨?_, hsame, inputBytes_congr hsame (by simp) hlen hpos⟩
  rw [Written, readTo_congr base hpos, codesValue_append, totalBits_append]
  simpa [codesValue, totalBits] using hpacked

theorem Streamed.srcMoved (h : Streamed base rb s out r) : Streamed base rb (srcMoved 1 s) out r := by
  obtain ⟨cs, hwritten, hreads⟩ := h
  exact ⟨cs, hwritten.srcMoved, hreads⟩

/-- A code put at the reader's width, which the reader then takes. -/
theorem Streamed.put (h : Streamed base rb s out r) (hwidth : r.st.codeBits = s.st.codeBits)
    (hfits : Fits (c, s.st.codeBits.toNat)) (htaken : Taken r c x r') (hok : putPacked c () s = .ok () t) :
    Streamed base rb t (out ++ x) r' ∧ SameBut [.cur, .bp, .sb, .snk] s t ∧ inputBytes t = inputBytes s := by
  obtain ⟨cs, hwritten, hreads⟩ := h
  obtain ⟨hput, hsame, hinput⟩ := hwritten.put hfits hok
  rw [← hwidth] at hfits hput
  exact ⟨⟨_, hput, hreads.snoc hfits htaken⟩, hsame, hinput⟩

end

/-! ### The compressor's state against the reader -/

/-- At a state `s` of the compressor's loop with `pfx` in the buffer: the writer's table keeps R30 and is not full (R164), and the
reader of the codes put so far has put out `out` and stands where `Sync` says. -/
structure Coupled (base : State) (rb : Nat) (s : State) (pfx out : List Byte) (r : Reader) : Prop where
  legal : LegalRootBits rb
  streamed : Streamed base rb s out r
  table : TableSet s.st
  rootBits : s.st.rootBits.toNat = rb
  free : s.st.nextFree.toNat < 4095
  sync : Sync rb s.st r pfx
  resets : r.resets = s.lz.resets

/-- `LZ_CUR` is the code of the buffer `PFX` (R163). -/
def Matched (s : State) (pfx : List Byte) : Prop :=
  (s.lz.cur = Config.none ∧ pfx = []) ∨
    validCode s.st s.lz.cur.toNat = true ∧ stringOf s.st.table s.lz.cur.toNat = pfx

section
variable {base s t : State} {rb c : Nat} {pfx out : List Byte} {r : Reader} {b : Byte}

theorem TableSet.fits {w : StringTable} (hw : TableSet w) (hc : c < w.nextFree.toNat) : Fits (c, w.codeBits.toNat) := by
  have hlt := hw.lt_two_pow hc
  obtain ⟨⟨h3, hle, h12⟩, -⟩ := hw
  exact ⟨by omega, h12, hlt⟩

theorem TableSet.control_lt {w : StringTable} (hw : TableSet w) :
    w.resetCode.toNat < w.endCode.toNat ∧ w.endCode.toNat < w.nextFree.toNat := by
  obtain ⟨-, ⟨-, hend⟩, ⟨hfree, -⟩, -⟩ := hw
  omega

theorem Coupled.resetCode (h : Coupled base rb s pfx out r) : s.st.resetCode.toNat = 2 ^ (rb - 1) := by
  obtain ⟨-, ⟨hreset, -⟩, -⟩ := h.table
  rw [hreset, h.rootBits]

theorem Coupled.srcMoved (h : Coupled base rb s pfx out r) : Coupled base rb (srcMoved 1 s) pfx out r :=
  { h with streamed := h.streamed.srcMoved }

/-- The buffer grows (R163); `LZ_CUR` is no part of what couples writer and reader. -/
theorem Coupled.extend (h : Coupled base rb s pfx out r) (k : Half) (x : List Byte) :
    Coupled base rb (s.setLz { s.lz with cur := k }) (pfx ++ x) out r :=
  { h with sync := h.sync.append x }

/-- A byte with a root code is matched by that code (R132). -/
theorem matched_root (hw : TableSet s.st) (hb : b.toNat < s.st.resetCode.toNat) :
    Matched (s.setLz { s.lz with cur := b.setWidth 16 }) [b] := by
  have hcode : (b.setWidth 16).toNat = b.toNat := by
    rw [BitVec.toNat_setWidth]
    omega
  right
  simp only [State.setLz_fields, hcode]
  refine ⟨hw.valid_root hb, ?_⟩
  rw [hw.stringOf_root hb]
  simp

/-- A code found for the longer buffer matches it (R141, R163). -/
theorem matched_of_findCode {x : List Byte} (hw : TableSet s.st) (h : findCode s.st x = some c) :
    Matched (s.setLz { s.lz with cur := BitVec.ofNat 16 c }) x := by
  obtain ⟨hvalid, hstring⟩ := findCode_eq_some h
  have hlt := hw.lt_of_valid hvalid
  have hcode : (BitVec.ofNat 16 c).toNat = c := by
    rw [BitVec.toNat_ofNat]
    omega
  right
  simp only [State.setLz_fields, hcode]
  exact ⟨hvalid, hstring⟩

theorem TableSet.ne_none {w : StringTable} {k : Half} (hw : TableSet w) (h : validCode w k.toNat = true) :
    k ≠ Config.none := by
  rintro rfl
  exact absurd (hw.lt_of_valid h) (by decide)

/-- Step 4 (R161): the code of the buffer, at the width before the add. -/
theorem Coupled.put_cur (h : Coupled base rb s pfx out r) (hvalid : validCode s.st s.lz.cur.toNat = true)
    (hstring : stringOf s.st.table s.lz.cur.toNat = pfx) (hok : putPacked s.lz.cur.toNat () s = .ok () t) :
    Streamed base rb t (out ++ pfx) ⟨widen false s.st, s.lz.cur, r.resets⟩ ∧ SameBut [.cur, .bp, .sb, .snk] s t ∧
      inputBytes t = inputBytes s := by
  have htaken := h.sync.taken h.legal h.table hvalid hstring
  rw [show BitVec.ofNat 16 s.lz.cur.toNat = s.lz.cur by simp] at htaken
  exact h.streamed.put h.sync.regs.1 (h.table.fits (validCode_iff.1 hvalid).1) htaken hok

/-- Step 4 (R161): after the add, the reader lacks the new entry and has its width. -/
theorem sync_entered {w : StringTable} {cur : Half} {resets : Word} (hw : TableSet w) (hvalid : validCode w cur.toNat = true)
    (hfree : w.nextFree.toNat < 4095) (b : Byte) :
    Sync rb (addEntry cur.toNat b true w) ⟨widen false w, cur, resets⟩ [b] := by
  refine .inr ⟨b, rfl, hw.ne_none hvalid, by simpa using hvalid, by simp only [widen_fields]; omega, ?_⟩
  rw [addEntry_eq_widen_entered, widen_entered (by omega)]

/-- Step 5 (R161, R164): the capacity reset keeps writer and reader together, whether it is due or not. -/
theorem coupled_of_capacityReset (hrb : LegalRootBits rb) (hstreamed : Streamed base rb s out r) (hw : TableSet s.st)
    (hroot : s.st.rootBits.toNat = rb) (hfree : s.st.nextFree.toNat ≤ 4095) (hsync : Sync rb s.st r pfx)
    (hresets : r.resets = s.lz.resets) (hok : capacityReset putPacked rb () s = .ok () t) :
    (∃ r', Coupled base rb t pfx out r') ∧ t.st.resetCode.toNat = 2 ^ (rb - 1) ∧ inputBytes t = inputBytes s := by
  have hreset : s.st.resetCode.toNat = 2 ^ (rb - 1) := by
    obtain ⟨-, ⟨hreset, -⟩, -⟩ := hw
    rw [hreset, hroot]
  unfold capacityReset at hok
  split at hok
  · obtain ⟨_, u, hput, hrest⟩ := Run.bind_eq_ok.1 hok
    rw [tableReset_legal hrb, Run.bind_ok] at hrest
    obtain ⟨-, rfl⟩ := Run.ok.inj hrest
    obtain ⟨hwidth, hrreset, hrend, hrroot⟩ := hsync.regs
    obtain ⟨hlt, hlt'⟩ := hw.control_lt
    have htaken := Taken.reset r (by rw [hrroot, hroot]; exact hrb) (by rw [hrreset, hrend]; omega)
    rw [hrreset, hrroot, hroot] at htaken
    obtain ⟨hstreamed', hsame, hinput⟩ := hstreamed.put hwidth (hw.fits (by omega)) htaken hput
    rw [List.append_nil] at hstreamed'
    obtain ⟨hrootBits, -, hresetCode, -⟩ := resetTable_regs hrb.1 hrb.2
    have hlz : u.lz = s.lz := hsame .lz (by simp)
    refine ⟨⟨_, hrb, hstreamed', tableSet_resetTable hrb, hrootBits, resetTable_nextFree_lt hrb,
      .inl ⟨rfl, rfl, rfl⟩, ?_⟩, hresetCode, hinput⟩
    simp [hlz, hresets]
  · next hnotfull =>
    obtain ⟨-, rfl⟩ := Run.ok.inj hok
    simp only [Config.resetAt] at hnotfull
    exact ⟨⟨r, hrb, hstreamed, hw, hroot, by omega, hsync, hresets⟩, hreset, rfl⟩

/-- Steps 4 and 5 (R161). -/
theorem Coupled.emitAndRegister (h : Coupled base rb s pfx out r) (hvalid : validCode s.st s.lz.cur.toNat = true)
    (hstring : stringOf s.st.table s.lz.cur.toNat = pfx) (hb : b.toNat < 2 ^ (rb - 1))
    (hok : emitAndRegister putPacked rb b () s = .ok () t) :
    (∃ r', Coupled base rb t [b] (out ++ pfx) r') ∧ Matched t [b] ∧ inputBytes t = inputBytes s := by
  obtain ⟨_, u, hput, hok⟩ := Run.bind_eq_ok.1 hok
  obtain ⟨_, y, hadd, hok⟩ := Run.bind_eq_ok.1 hok
  obtain ⟨_, z, hcapacity, hok⟩ := Run.bind_eq_ok.1 hok
  obtain ⟨-, rfl⟩ := Run.ok.inj hok
  obtain ⟨hstreamed, hsame, hinput⟩ := h.put_cur hvalid hstring hput
  have hust : u.st = s.st := hsame .st (by simp)
  have hulz : u.lz = s.lz := hsame .lz (by simp)
  have hfree := h.free
  obtain ⟨-, -, hadd'⟩ | ⟨-, hraise⟩ := tableAdd_cases u.lz.cur.toNat b true u
  · obtain ⟨-, rfl⟩ := Run.ok.inj (hadd.symm.trans hadd')
    obtain ⟨hcount, hroot, hreset, -⟩ :=
      addEntry_fields (base := s.lz.cur.toNat) (b := b) (fw := true) (t := s.st) (by omega)
    rw [hust, hulz] at hcapacity
    obtain ⟨⟨r', hcoupled⟩, hreset', hinput'⟩ := coupled_of_capacityReset (pfx := [b])
      (s := u.setSt (addEntry s.lz.cur.toNat b true s.st)) h.legal hstreamed
      (h.table.addEntry hvalid (by omega) b) (by simp only [State.setSt_fields, hroot, h.rootBits])
      (by simp only [State.setSt_fields]; omega) (sync_entered h.table hvalid hfree b)
      (by simp only [State.setSt_fields, hulz, h.resets]) hcapacity
    exact ⟨⟨r', hcoupled.extend _ []⟩, matched_root hcoupled.table (by rw [hreset']; exact hb), hinput'.trans hinput⟩
  · rw [hraise] at hadd
    cases hadd

/-- The loop of steps 3 to 5 (R161): what the reader has put out, with the buffer behind it, grows by the input. -/
theorem Coupled.compressLoop {n : Nat} (h : Coupled base rb s pfx out r) (hmatch : Matched s pfx) (hn : srcAvail s = n)
    (hrange : InputInRange s rb) (hok : compressLoop putPacked rb n pfx () s = .ok () t) :
    ∃ pfx' out' r', Coupled base rb t pfx' out' r' ∧ Matched t pfx' ∧ out' ++ pfx' = out ++ pfx ++ inputBytes s := by
  induction n generalizing s pfx out r with
  | zero =>
    obtain ⟨-, rfl⟩ := Run.ok.inj hok
    have hnone : inputBytes s = [] := List.length_eq_zero_iff.1 ((inputBytes_length s).trans hn)
    exact ⟨pfx, out, r, h, hmatch, by rw [hnone, List.append_nil]⟩
  | succ n ih =>
    have hinput := inputBytes_eq_cons (s := s) (by omega)
    have hrest : srcAvail (Machine.srcMoved 1 s) = n := by rw [srcAvail_srcMoved (by omega)]; omega
    have hmoved := h.srcMoved
    have hmatched : Matched (Machine.srcMoved 1 s) pfx := hmatch
    rw [Machine.compressLoop, srcRead8_eq (by omega), Run.bind_ok] at hok
    rw [InputInRange, hinput, List.forall_mem_cons] at hrange
    rw [hinput]
    generalize srcByte s s.cur.srcPos.toNat = b, Machine.srcMoved 1 s = y at *
    obtain ⟨hb, hrange⟩ := hrange
    have hroot : b.toNat < y.st.resetCode.toNat := by rw [hmoved.resetCode]; exact hb
    rw [if_neg (Nat.not_le.2 hroot)] at hok
    obtain ⟨hcur, rfl⟩ | ⟨hvalid, hstring⟩ := hmatched
    · rw [if_pos hcur] at hok
      simpa using ih (hmoved.extend _ [b]) (matched_root hmoved.table hroot) hrest hrange hok
    · have hsome : y.lz.cur ≠ Config.none := hmoved.table.ne_none hvalid
      rw [if_neg hsome] at hok
      split at hok
      · next k hfound =>
        have hmatch' := matched_of_findCode hmoved.table hfound
        simpa using ih (hmoved.extend _ [b]) hmatch' hrest hrange hok
      · obtain ⟨_, z, hemit, hok⟩ := Run.bind_eq_ok.1 hok
        obtain ⟨⟨r', hcoupled⟩, hmatch', hinput'⟩ := hmoved.emitAndRegister hvalid hstring hb hemit
        have havail : srcAvail z = n := by rw [← inputBytes_length, hinput', inputBytes_length, hrest]
        rw [← hinput'] at hrange ⊢
        simpa using ih hcoupled hmatch' havail hrange hok

/-! ### The whole run of the compressor -/

/-- The codes put from `base` to `s` are codes that make the reader put out `out`, and then its `EndCode`; both sides counted the same
resets. -/
def Finished (base : State) (rb : Nat) (s : State) (out : List Byte) : Prop :=
  ∃ cs r, Written base s (cs ++ [r.endCode]) ∧ Reads (.start rb) cs out r ∧ Fits r.endCode ∧ r.resets = s.lz.resets

theorem Fits.widen {w : StringTable} {fw : Bool} (h : Fits (c, w.codeBits.toNat)) :
    Fits (c, (widen fw w).codeBits.toNat) := by
  obtain hsame | ⟨hmax, -, hwide⟩ := widen_cases fw w
  · rwa [hsame]
  · obtain ⟨hpos, -, hlt⟩ := h
    replace hlt : c < 2 ^ w.codeBits.toNat := hlt
    have hbits : (BitVec.ofNat 4 (w.codeBits.toNat + 1)).toNat = w.codeBits.toNat + 1 := by
      rw [BitVec.toNat_ofNat]
      omega
    rw [hwide]
    refine ⟨?_, ?_, ?_⟩ <;> simp only [hbits, Nat.pow_succ] <;> omega

/-- The `EndCode` of step 6 (R161), put where the reader has the writer's width and control codes. -/
theorem Streamed.finish (h : Streamed base rb s out r) (hwidth : r.st.codeBits = s.st.codeBits)
    (hend : r.st.endCode = s.st.endCode) (hfits : Fits (s.st.endCode.toNat, s.st.codeBits.toNat))
    (hresets : r.resets = s.lz.resets) (hok : putPacked s.st.endCode.toNat () s = .ok () t) :
    Finished base rb t out := by
  obtain ⟨cs, hwritten, hreads⟩ := h
  obtain ⟨hput, hsame, -⟩ := hwritten.put hfits hok
  have hlz : t.lz = s.lz := hsame .lz (by simp)
  rw [← hend, ← hwidth] at hput hfits
  exact ⟨cs, r, hput, hreads, hfits, by rw [hlz, hresets]⟩

/-- Step 6 (R161, R165). -/
theorem Coupled.compressTail (h : Coupled base rb s pfx out r) (hmatch : Matched s pfx)
    (hok : compressTail putPacked () s = .ok () t) : Finished base rb t (out ++ pfx) := by
  obtain ⟨_, u, hlast, hend⟩ := Run.bind_eq_ok.1 hok
  have hfits := h.table.fits h.table.control_lt.2
  obtain ⟨hcur, rfl⟩ | ⟨hvalid, hstring⟩ := hmatch
  · rw [if_pos hcur] at hlast
    obtain ⟨-, rfl⟩ := Run.ok.inj hlast
    obtain ⟨hwidth, -, hendCode, -⟩ := h.sync.regs
    rw [List.append_nil]
    exact h.streamed.finish hwidth hendCode hfits h.resets hend
  · rw [if_neg (h.table.ne_none hvalid)] at hlast
    obtain ⟨_, y, hput, hwiden⟩ := Run.bind_eq_ok.1 hlast
    obtain ⟨-, rfl⟩ := Run.ok.inj hwiden
    obtain ⟨hstreamed, hsame, -⟩ := h.put_cur hvalid hstring hput
    have hst : y.st = s.st := hsame .st (by simp)
    have hlz : y.lz = s.lz := hsame .lz (by simp)
    rw [widenAtEnd_eq, hst] at hend
    have hend' : (widen false s.st).endCode = s.st.endCode := by simp
    exact Streamed.finish (s := y.setSt (widen false s.st)) hstreamed rfl rfl
      (by simpa only [State.setSt_fields, hend'] using hfits.widen) (h.resets.trans (by simp [hlz])) hend

/-- Steps 2 to 6 (R161), from a table just reset and an empty packer. -/
theorem finished_of_compressCodes (hrb : LegalRootBits rb) (hst : s.st = resetTable rb) (hstart : Packed s s 0 0)
    (hrange : InputInRange s rb) (hok : compressCodes putPacked rb () s = .ok () t) :
    Finished s rb t (inputBytes s) := by
  obtain ⟨_, u, hput, hok⟩ := Run.bind_eq_ok.1 hok
  obtain ⟨_, y, hloop, htail⟩ := Run.bind_eq_ok.1 hok
  have hw := tableSet_resetTable hrb
  obtain ⟨hroot, -, -⟩ := resetTable_regs hrb.1 hrb.2
  obtain ⟨hlt, hlt'⟩ := hw.control_lt
  have htaken : Taken (.start rb) (resetTable rb).resetCode.toNat [] ⟨resetTable rb, Config.none, 1⟩ := by
    have hreset := Taken.reset (.start rb) (hroot.symm ▸ hrb) (Nat.ne_of_lt hlt)
    rwa [show (Reader.start rb).st = resetTable rb from rfl, hroot] at hreset
  have hnothing : Streamed s rb (s.setLz { s.lz with cur := Config.none, resets := 0 }) [] (.start rb) :=
    ⟨[], hstart, .nil _⟩
  rw [hst] at hput
  obtain ⟨hstreamed, hsame, hinput⟩ := hnothing.put (congrArg StringTable.codeBits hst.symm)
    (by simpa only [State.setLz_fields, hst] using hw.fits (hlt.trans hlt')) htaken hput
  have hust : u.st = resetTable rb := by rw [show u.st = s.st from hsame .st (by simp), hst]
  have hulz : u.lz = { s.lz with cur := Config.none, resets := 0 } := hsame .lz (by simp)
  have hcoupled : Coupled s rb (u.setLz { u.lz with resets := 1 }) [] [] ⟨resetTable rb, Config.none, 1⟩ :=
    ⟨hrb, hstreamed, by simpa [hust] using hw, by simpa [hust] using hroot,
      by simpa [hust] using resetTable_nextFree_lt hrb, .inl ⟨hust, rfl, rfl⟩, rfl⟩
  rw [inputBytes_setLz] at hinput
  obtain ⟨pfx, out, r, hcoupled', hmatch, hout⟩ := hcoupled.compressLoop (.inl ⟨by simp [hulz], rfl⟩) rfl
    (by rw [InputInRange, inputBytes_setLz, hinput]; exact hrange) hloop
  rw [inputBytes_setLz, hinput] at hout
  have hfinished := hcoupled'.compressTail hmatch htail
  rwa [hout] at hfinished

/-- What `LZW_COMPRESS` appends for the codes `cs` (R161): the code-size byte and the chain of the packed codes. -/
def codeStream (rb : Nat) (cs : List (Nat × Nat)) : List Byte :=
  BitVec.ofNat 8 (rb - 1) :: chainBytes (lowBytes (codesValue cs) ((totalBits cs + 7) / 8))

theorem room_of_compressOpen (hrb : LegalRootBits rb) (hok : compressOpen rb s = .ok () t) : Room s 1 := by
  rw [compressOpen, tableReset_legal hrb, Run.bind_ok] at hok
  obtain ⟨_, u, hwrite, -⟩ := Run.bind_eq_ok.1 hok
  exact room_of_snkWrite8 (s := s.setSt (resetTable rb)) hwrite

/-- R161: a run of the compressor that ended normally appended the stream of codes that make the reader put out the input. -/
theorem stream_of_lzwCompressBody (hrb : LegalRootBits s.args.arg0.toNat) (hrange : InputInRange s s.args.arg0.toNat)
    (hok : lzwCompressBody s = .ok () t) :
    ∃ cs r, Reads (.start s.args.arg0.toNat) cs (inputBytes s) r ∧ Fits r.endCode ∧
      r.resets = t.lz.resets ∧ Produces s t (codeStream s.args.arg0.toNat (cs ++ [r.endCode])) := by
  obtain ⟨_, u, hopen, hok⟩ := Run.bind_eq_ok.1 hok
  obtain ⟨_, y, hcodes, hok⟩ := Run.bind_eq_ok.1 hok
  obtain ⟨_, z, hclose, hok⟩ := Run.bind_eq_ok.1 hok
  obtain ⟨-, rfl⟩ := Run.ok.inj hok
  obtain ⟨u', hopen', hsame, hcode, htable, hstart⟩ := compressOpen_ok hrb (room_of_compressOpen hrb hopen)
  obtain ⟨-, rfl⟩ := Run.ok.inj (hopen.symm.trans hopen')
  have hinput : inputBytes u = inputBytes s :=
    inputBytes_congr hsame (by simp) (by rw [hcode.cur]; rfl) hcode.srcPos
  rw [InputInRange, ← hinput] at hrange
  obtain ⟨cs, r, hwritten, hreads, hfits, hresets⟩ := finished_of_compressCodes hrb htable hstart hrange hcodes
  obtain ⟨hchain, hsame'⟩ := outputs_of_compressClose hwritten hclose
  rw [hinput] at hreads
  exact ⟨cs, r, hreads, hfits, hresets.trans (congrArg LzwRegs.resets (hsame' .lz (by simp)).symm),
    hcode.produces.trans hchain.produces_of_readTo⟩

end

end Sys2Proof.Machine
end

section
/-! The reader of a chain and of the codes in it (spec/44_subblock_framer.md R227; spec/43_bitpacker.md R205): with the chain of some
bytes in `SRC` at the cursor, the framer hands out those bytes, and the unpacker the codes of the bit string they make. -/

namespace Sys2Proof.Machine

open Sys2Proof.Claims

/-! ### Chains, block by block -/

@[simp] theorem chainBytes_nil : chainBytes [] = [0] := rfl

theorem frameBytes_full {bs : List Byte} (h : bs.length = 255) : frameBytes [] bs = (255 :: bs, []) := by
  obtain rfl | ⟨init, b, rfl⟩ := List.eq_nil_or_concat' bs
  · cases h
  · rw [List.length_append, List.length_singleton] at h
    rw [frameBytes_append, frameBytes_short (p := []) (by simp; omega)]
    have hlen : init.length = 254 := by omega
    simp [frameBytes, framePush, hlen]

/-- R97: the length of the first block of a chain. -/
def firstBlock (bs : List Byte) : Nat := min 255 bs.length

/-- R97, R221: a chain is its first block, length byte first, and the chain of the rest. -/
theorem chainBytes_eq_block {bs : List Byte} (hne : bs ≠ []) :
    chainBytes bs =
      BitVec.ofNat 8 (firstBlock bs) :: (bs.take (firstBlock bs) ++ chainBytes (bs.drop (firstBlock bs))) := by
  obtain hshort | hlong := Nat.lt_or_ge bs.length 255
  · rw [show firstBlock bs = bs.length from Nat.min_eq_right (by omega), List.take_length, List.drop_length,
      chainBytes_short hne hshort, chainBytes_nil]
  · rw [show firstBlock bs = 255 from Nat.min_eq_left hlong, chainBytes]
    nth_rw 1 2 [← List.take_append_drop 255 bs]
    rw [frameBytes_append, frameBytes_full (by rw [List.length_take]; omega)]
    simp [chainBytes]

theorem length_le_chainBytes (bs : List Byte) : bs.length ≤ (chainBytes bs).length := by
  induction hn : bs.length using Nat.strong_induction_on generalizing bs with
  | _ n ih =>
    subst hn
    by_cases hne : bs = []
    · simp [hne]
    · have hpos := List.length_pos_iff.2 hne
      have hblock : 0 < firstBlock bs ∧ firstBlock bs ≤ bs.length := by rw [firstBlock]; omega
      have hrest := ih (bs.length - firstBlock bs) (by omega) (bs.drop (firstBlock bs)) List.length_drop
      rw [chainBytes_eq_block hne, List.length_cons, List.length_append, List.length_take]
      omega

/-! ### Reading the chain -/

theorem srcByte_of_inputBytes_cons {s : State} {b : Byte} {bs : List Byte} (h : b :: bs <+: inputBytes s) :
    1 ≤ srcAvail s ∧ srcByte s s.cur.srcPos.toNat = b ∧ bs <+: inputBytes (srcMoved 1 s) := by
  have havail : 1 ≤ srcAvail s := by
    have hlen := h.length_le
    rw [inputBytes_length, List.length_cons] at hlen
    omega
  rw [inputBytes_eq_cons havail, List.cons_prefix_cons] at h
  exact ⟨havail, h.1.symm, h.2⟩

/-- The framer's reader stands in a chain in `SRC` that ends at address `e`, and the data bytes `bs` are still to come. -/
structure ChainAt (s : State) (bs : List Byte) (e : Nat) : Prop where
  rend : s.sb.rend = false
  rrem : s.sb.rrem.toNat ≤ bs.length
  bytes : bs.take s.sb.rrem.toNat ++ chainBytes (bs.drop s.sb.rrem.toNat) <+: inputBytes s
  ends : s.cur.srcPos.toNat + s.sb.rrem.toNat + (chainBytes (bs.drop s.sb.rrem.toNat)).length = e

/-- From `s` to `t` only bytes of `SRC` were taken in, through the framer and the unpacker. -/
def Consumed (s t : State) : Prop :=
  SameBut [.cur, .bp, .sb] s t ∧ t.cur = { s.cur with srcPos := t.cur.srcPos }

section
variable {s t u : State} {b : Byte} {bs : List Byte} {e : Nat}

theorem Consumed.refl (s : State) : Consumed s s := ⟨.refl _ s, rfl⟩

theorem Consumed.trans (hst : Consumed s t) (htu : Consumed t u) : Consumed s u := by
  obtain ⟨hsame, hcur⟩ := hst
  obtain ⟨hsame', hcur'⟩ := htu
  refine ⟨hsame.trans hsame', ?_⟩
  rw [hcur', hcur]

theorem Consumed.produces (h : Consumed s t) : Produces s t [] := .of_sameBut (by simp) h.1 h.2

theorem consumed_srcMoved (k : Nat) (s : State) (f : Framer) : Consumed s ((srcMoved k s).setSb f) := by
  refine ⟨fun g hg => ?_, rfl⟩
  cases g <;> simp_all [SameGroup, srcByte, snkByte]

theorem consumed_setBp (s : State) (p : Packer) : Consumed s (s.setBp p) := ⟨(sameBut_setBp s p).mono (by simp), rfl⟩

/-- R227: a length byte due is there, and opens the chain's next block. -/
theorem ChainAt.framerLength (h : ChainAt s bs e) (hne : bs ≠ []) (hrem : s.sb.rrem = 0) :
    ∃ t, framerLength s = .ok () t ∧ Consumed s t ∧ t.bp = s.bp ∧ ChainAt t bs e ∧ t.sb.rrem ≠ 0 := by
  obtain ⟨hend, -, hbytes, hends⟩ := h
  rw [hrem, show (0 : Byte).toNat = 0 from rfl] at hends hbytes
  rw [List.drop_zero, chainBytes_eq_block hne, List.length_cons, List.length_append, List.length_take] at hends
  rw [List.take_zero, List.nil_append, List.drop_zero, chainBytes_eq_block hne] at hbytes
  have hlen := hbytes.length_le
  rw [inputBytes_length, List.length_cons, List.length_append, List.length_take] at hlen
  obtain ⟨havail, hbyte, hrest⟩ := srcByte_of_inputBytes_cons hbytes
  have hpos := List.length_pos_iff.2 hne
  have hblock : 0 < firstBlock bs ∧ firstBlock bs ≤ bs.length ∧ firstBlock bs ≤ 255 := by rw [firstBlock]; omega
  have hcount : (BitVec.ofNat 8 (firstBlock bs)).toNat = firstBlock bs := by rw [BitVec.toNat_ofNat]; omega
  have hnonzero : BitVec.ofNat 8 (firstBlock bs) ≠ 0 := fun hz => by
    have := congrArg BitVec.toNat hz
    rw [hcount] at this
    exact hblock.1.ne' this
  obtain ⟨hnone, -⟩ | ⟨-, hzero, -⟩ | ⟨-, hlong, -⟩ | ⟨-, -, hok⟩ := framerLength_cases s
  · omega
  · exact absurd (hbyte.symm.trans hzero) hnonzero
  · rw [hbyte, hcount] at hlong
    omega
  · rw [hbyte] at hok
    refine ⟨_, hok, consumed_srcMoved _ _ _, rfl, ⟨hend, ?_, ?_, ?_⟩, hnonzero⟩
    all_goals simp only [State.setSb_fields, hcount]
    · exact hblock.2.1
    · exact hrest
    · rw [srcMoved_srcPos havail]
      omega

/-- R227: the next data byte inside a block. -/
theorem ChainAt.framerTake (h : ChainAt s (b :: bs) e) (hrem : s.sb.rrem ≠ 0) :
    ∃ t, framerTake s = .ok (some b) t ∧ Consumed s t ∧ t.bp = s.bp ∧ ChainAt t bs e := by
  obtain ⟨hend, hle, hbytes, hends⟩ := h
  have hpos : s.sb.rrem.toNat ≠ 0 := fun hz => hrem (BitVec.eq_of_toNat_eq hz)
  obtain ⟨k, hk⟩ := Nat.exists_eq_add_one_of_ne_zero hpos
  have hcount : (s.sb.rrem - 1).toNat = k := by
    rw [BitVec.toNat_sub_of_le (by rw [BitVec.le_def, hk]; simp), hk]
    rfl
  rw [hk] at hle hbytes hends
  rw [List.drop_succ_cons] at hends hbytes
  rw [List.take_succ_cons, List.cons_append] at hbytes
  obtain ⟨havail, hbyte, hrest⟩ := srcByte_of_inputBytes_cons hbytes
  refine ⟨(srcMoved 1 s).setSb { s.sb with rrem := s.sb.rrem - 1 }, by rw [framerTake_eq havail, hbyte],
    consumed_srcMoved _ _ _, rfl, ⟨hend, ?_, ?_, ?_⟩⟩
  all_goals simp only [State.setSb_fields, hcount]
  · simpa using hle
  · exact hrest
  · rw [srcMoved_srcPos havail]
    omega

/-- R208, R227: the next data byte of the chain. -/
theorem ChainAt.getByte (h : ChainAt s (b :: bs) e) :
    ∃ t, getByte .framed s = .ok b t ∧ Consumed s t ∧ t.bp = s.bp ∧ ChainAt t bs e := by
  have hget : ∃ t, framerGet s = .ok (some b) t ∧ Consumed s t ∧ t.bp = s.bp ∧ ChainAt t bs e := by
    rw [framerGet, if_neg (by simp [h.rend])]
    by_cases hrem : s.sb.rrem = 0
    · obtain ⟨t, hlength, hst, hbp, ht, hrem'⟩ := h.framerLength (by simp) hrem
      obtain ⟨u, htake, htu, hbp', hu⟩ := ht.framerTake hrem'
      refine ⟨u, ?_, hst.trans htu, hbp'.trans hbp, hu⟩
      rw [if_pos hrem, hlength, Run.bind_ok, if_neg (by simp [ht.rend]), htake]
    · rw [if_neg hrem]
      exact h.framerTake hrem
  obtain ⟨t, hok, hframe⟩ := hget
  exact ⟨t, by rw [Machine.getByte, hok, Run.bind_ok], hframe⟩

@[simp] theorem srcMoved_zero (s : State) : srcMoved 0 s = s := by simp [srcMoved, State.setCur]

/-- R184: the drain at a zero length byte. -/
theorem drainTail_zero (havail : 1 ≤ srcAvail s) (hzero : srcByte s s.cur.srcPos.toNat = 0) :
    drainTail s = .ok () ((srcMoved 1 s).setSb { s.sb with rend := true }) := by
  rw [drainTail, if_neg (by omega), srcRead8_eq havail, Run.bind_ok, hzero, show (0 : Byte).toNat = 0 from rfl,
    Nat.zero_min, srcSkip_eq (Nat.zero_le _), srcMoved_zero]
  rfl

/-- R184: after the last data byte the drain takes the zero length byte and nothing else. -/
theorem ChainAt.framerDrain (h : ChainAt s [] e) :
    ∃ t, framerDrain s = .ok () t ∧ Consumed s t ∧ t.cur.srcPos.toNat = e := by
  obtain ⟨-, hle, hbytes, hends⟩ := h
  have hrem : s.sb.rrem.toNat = 0 := by simpa using hle
  rw [hrem, List.drop_nil, chainBytes_nil, List.length_singleton] at hends
  rw [hrem, List.drop_nil, List.take_nil, chainBytes_nil] at hbytes
  obtain ⟨havail, hbyte, -⟩ := srcByte_of_inputBytes_cons hbytes
  have hskip : framerSkipBlock s = s.setSb { s.sb with rrem := 0 } := by
    rw [framerSkipBlock_eq (by omega), hrem, srcMoved_zero]
  refine ⟨(srcMoved 1 s).setSb { s.sb with rrem := 0, rend := true }, ?_, consumed_srcMoved _ _ _, ?_⟩
  · rw [Machine.framerDrain, hskip, drainTail_zero (s := s.setSb { s.sb with rrem := 0 }) havail hbyte]
    rfl
  · exact (srcMoved_srcPos havail).trans hends

end

/-! ### Unpacking the chain's bits -/

/-- The bits still to come, those in the read accumulator first, are the `n`-bit string `v`; the chain they are in ends at `e`. -/
def BitsAt (s : State) (v n e : Nat) : Prop :=
  ∃ bs, ChainAt s bs e ∧ s.bp.racc.toNat < 2 ^ s.bp.rcnt.toNat ∧
    s.bp.racc.toNat + 2 ^ s.bp.rcnt.toNat * leValue bs = v ∧ s.bp.rcnt.toNat + 8 * bs.length = n

section
variable {s t : State} {v n e w k : Nat}

/-- R205: the fetch loop brings in the bytes a code needs and no more. -/
theorem BitsAt.unpackFill (h : BitsAt s v n e) (hw : w ≤ n) (hmax : w ≤ 12) (hrounds : w ≤ s.bp.rcnt.toNat + 8 * k)
    (hcount : s.bp.rcnt.toNat < w + 8) :
    ∃ t, unpackFill w .framed k s = .ok () t ∧ Consumed s t ∧ BitsAt t v n e ∧ w ≤ t.bp.rcnt.toNat ∧
      t.bp.rcnt.toNat < w + 8 := by
  induction k generalizing s with
  | zero => exact ⟨s, rfl, .refl s, h, by omega, hcount⟩
  | succ k ih =>
    rw [Machine.unpackFill]
    by_cases henough : w ≤ s.bp.rcnt.toNat
    · exact ⟨s, if_neg (by omega), .refl s, h, henough, hcount⟩
    · obtain ⟨bs, hchain, hacc, hv, hn⟩ := h
      obtain _ | ⟨b, bs⟩ := bs
      · rw [List.length_nil] at hn
        omega
      · obtain ⟨t, hget, hst, hbp, ht⟩ := hchain.getByte
        rw [← hbp] at hacc hv hn henough hrounds
        obtain ⟨hracc, hrcnt, -⟩ := unpackMerge_bp (b := b) (s := t) (by omega) hacc
        have hmerged : BitsAt (unpackMerge b t) v n e := by
          refine ⟨bs, ⟨ht.rend, ht.rrem, ht.bytes, ht.ends⟩, ?_, ?_, ?_⟩
          · rw [hracc, hrcnt, Nat.mul_comm]
            exact add_code_lt hacc b.isLt
          · rw [hracc, hrcnt, ← hv, leValue, Nat.pow_add]
            ring
          · rw [hrcnt, ← hn, List.length_cons]
            omega
        obtain ⟨u, hfill, htu, hu⟩ := ih hmerged (by omega) (by omega)
        refine ⟨u, ?_, hst.trans ((consumed_setBp t _).trans htu), hu⟩
        rw [if_pos (by rw [← hbp]; omega), hget, Run.bind_ok, hfill]

/-- R205: the next `w` bits, as a code. -/
theorem BitsAt.unpackBits (h : BitsAt s v n e) (hcount : s.bp.rcnt.toNat < 8) (hpos : 1 ≤ w) (hmax : w ≤ 12)
    (hw : w ≤ n) :
    ∃ t, unpackBits w .framed s = .ok (v % 2 ^ w) t ∧ Consumed s t ∧ BitsAt t (v / 2 ^ w) (n - w) e ∧
      t.bp.rcnt.toNat < 8 := by
  obtain ⟨t, hfill, hst, ⟨bs, hchain, hacc, hv, hn⟩, hge, hlt⟩ := h.unpackFill (k := 2) hw hmax (by omega) (by omega)
  have hsplit : 2 ^ t.bp.rcnt.toNat = 2 ^ w * 2 ^ (t.bp.rcnt.toNat - w) := by
    rw [← Nat.pow_add]
    congr 1
    omega
  have hracc : (t.bp.racc >>> w).toNat = t.bp.racc.toNat / 2 ^ w := by
    rw [BitVec.toNat_ushiftRight, Nat.shiftRight_eq_div_pow]
  have hrcnt : (t.bp.rcnt - BitVec.ofNat 5 w).toNat = t.bp.rcnt.toNat - w := by
    have hwidth : (BitVec.ofNat 5 w).toNat = w := by rw [BitVec.toNat_ofNat]; omega
    rw [BitVec.toNat_sub_of_le (by rw [BitVec.le_def]; omega), hwidth]
  rw [hsplit, Nat.mul_assoc] at hv
  refine ⟨t.setBp { t.bp with racc := t.bp.racc >>> w, rcnt := t.bp.rcnt - BitVec.ofNat 5 w }, ?_,
    hst.trans (consumed_setBp t _), ⟨bs, ⟨hchain.rend, hchain.rrem, hchain.bytes, hchain.ends⟩, ?_, ?_, ?_⟩, ?_⟩
  · rw [Machine.unpackBits, hfill, Run.bind_ok, ← hv, Nat.add_mul_mod_self_left]
  all_goals simp only [State.setBp_fields, hracc, hrcnt]
  · exact Nat.div_lt_of_lt_mul (hsplit ▸ hacc)
  · rw [← hv, Nat.add_mul_div_left _ _ (Nat.two_pow_pos w)]
  · omega
  · omega

end

end Sys2Proof.Machine
end

section
/-! `LZW_DECOMPRESS` of the bytes `LZW_COMPRESS` produced (spec/42_decompressor.md R186): the loop takes in the codes one by one, as
`Reads` says, and the drain takes the end of the chain. -/

namespace Sys2Proof.Machine

open Sys2Proof.Claims

/-! ### One code on the machine -/

/-- What the loop of step 2 (R181) does with a code other than `EndCode`. -/
def decompressCode (c : Nat) (s : State) : Run Unit :=
  if c = s.st.resetCode.toNat then decompressReset s else decompressData c s

section
variable {s t u : State} {c m v n e : Nat} {r r' : Reader} {out : List Byte} {cs : List (Nat × Nat)}

theorem decompressCode_reset (s : State) : decompressCode s.reader.st.resetCode.toNat s = decompressReset s := if_pos rfl

theorem decompressCode_data (h : c ≠ s.st.resetCode.toNat) : decompressCode c s = decompressData c s := if_neg h

theorem decompressLoop_endCode (hget : unpackBits s.st.codeBits.toNat .framed s = .ok c t)
    (hend : c = t.st.endCode.toNat) : decompressLoop (m + 1) s = .ok () t := by
  rw [decompressLoop, hget, Run.bind_ok, if_pos hend]

theorem decompressLoop_code (hget : unpackBits s.st.codeBits.toNat .framed s = .ok c t)
    (hend : c ≠ t.st.endCode.toNat) (hcode : decompressCode c t = .ok () u) :
    decompressLoop (m + 1) s = decompressLoop m u := by
  rw [decompressLoop, hget, Run.bind_ok, if_neg hend]
  unfold decompressCode at hcode
  split at hcode
  · next hreset => rw [if_pos hreset, hcode, Run.bind_ok]
  · next hdata => rw [if_neg hdata, hcode, Run.bind_ok]

/-- R181, R185: a `ResetCode` read. -/
theorem decompressReset_outputs (hrb : LegalRootBits s.st.rootBits.toNat) :
    ∃ t, decompressReset s = .ok () t ∧
      t.reader = ⟨resetTable s.st.rootBits.toNat, Config.none, s.lz.resets + 1⟩ ∧ Outputs s t [] ∧
      SameBut [.cur, .st, .lz, .snk] s t := by
  have hsame : SameBut [.st, .lz] s ((s.setSt (resetTable s.st.rootBits.toNat)).setLz
      { s.lz with prev := Config.none, resets := s.lz.resets + 1 }) :=
    ((sameBut_setSt s _).mono (by simp)).trans ((sameBut_setLz _ _).mono (by simp))
  refine ⟨_, ?_, rfl, .of_sameBut (by simp) (by simp) hsame, hsame.mono (by simp)⟩
  rw [decompressReset, tableReset_legal hrb]
  rfl

/-- R181: a data code read, its string put out. -/
theorem decompressData_outputs {w : StringTable} (hadd : Registers s.reader c w) (hvalid : validCode w c = true)
    (hroom : Room s (stringOf w.table c).length) :
    ∃ t, decompressData c s = .ok () t ∧ t.reader = ⟨w, BitVec.ofNat 16 c, s.lz.resets⟩ ∧
      Outputs s t (stringOf w.table c) ∧ SameBut [.cur, .st, .lz, .snk] s t := by
  have hfit : s.cur.snkPos.toNat + (stringOf w.table c).length ≤ s.cur.snkCap.toNat :=
    fit_of_room hroom (List.length_pos_iff.2 (stringOf_ne_nil w.table c)).ne'
  obtain ⟨-, -, hwrite⟩ | ⟨-, hfull, -⟩ | ⟨hinvalid, -⟩ := tableWrite_cases c (s.setSt w)
  · obtain ⟨hsame, -⟩ := snkAppended_fields (s := s.setSt w) hfit
    have hout := snkAppended_outputs (s := s.setSt w) hfit
    simp only [State.setSt_fields] at hwrite
    generalize snkAppended (stringOf w.table c) (s.setSt w) = y at *
    have hst : y.st = w := hsame .st (by simp)
    have hlz : y.lz = s.lz := hsame .lz (by simp)
    refine ⟨y.setLz { y.lz with prev := BitVec.ofNat 16 c }, ?_, ?_, hout, ?_⟩
    · rw [decompressData, hadd s rfl, Run.bind_ok, hwrite, Run.bind_ok]
    · simp [State.reader, hst, hlz]
    · exact ((sameBut_setSt s w).mono (by simp)).trans <|
        (hsame.mono (by simp)).trans ((sameBut_setLz y _).mono (by simp))
  · exact absurd hfit (Nat.not_le.2 hfull)
  · exact absurd (hvalid.symm.trans hinvalid) (by decide)

/-- The machine takes a code as the reader does. -/
theorem Taken.decompressCode (h : Taken s.reader c out r') (hroom : Room s out.length) :
    c ≠ s.st.endCode.toNat ∧ ∃ t, decompressCode c s = .ok () t ∧ t.reader = r' ∧ Outputs s t out ∧
      SameBut [.cur, .st, .lz, .snk] s t := by
  generalize hr : s.reader = r at h
  cases h with
  | reset hrb hend =>
    subst hr
    exact ⟨hend, by rw [decompressCode_reset]; exact decompressReset_outputs hrb⟩
  | data hreset hend hadd hvalid =>
    subst hr
    exact ⟨hend, by rw [decompressCode_data hreset]; exact decompressData_outputs hadd hvalid hroom⟩

/-! ### The loop -/

/-- The bits still to come are the codes `cs`, the first in the lowest bits, and the padding of the last byte (R204); the chain they
are in ends at `e`. -/
def CodesAt (s : State) (cs : List (Nat × Nat)) (e : Nat) : Prop :=
  ∃ n, BitsAt s (codesValue cs) n e ∧ s.bp.rcnt.toNat < 8 ∧ totalBits cs ≤ n ∧ n < totalBits cs + 8

/-- R205: the next code, got at its width. -/
theorem CodesAt.unpackBits {w : Nat} (h : CodesAt s ((c, w) :: cs) e) (hfits : Fits (c, w)) :
    ∃ t, unpackBits w .framed s = .ok c t ∧ Consumed s t ∧ CodesAt t cs e := by
  obtain ⟨n, hbits, hcount, hlen, hpad⟩ := h
  obtain ⟨hpos, hmax, hlt⟩ := hfits
  replace hlt : c < 2 ^ w := hlt
  rw [totalBits_cons] at hlen hpad
  obtain ⟨t, hget, hst, ht, hcount'⟩ := hbits.unpackBits hcount hpos hmax (by omega)
  rw [codesValue, Nat.add_mul_mod_self_left, Nat.mod_eq_of_lt hlt] at hget
  rw [codesValue, Nat.add_mul_div_left _ _ (Nat.two_pow_pos w), Nat.div_eq_of_lt hlt, Nat.zero_add] at ht
  exact ⟨t, hget, hst, n - w, ht, hcount', by omega, by omega⟩

/-- Taking in a code fetches nothing. -/
theorem CodesAt.of_outputs (h : CodesAt s cs e) (hout : Outputs s t out) (hsame : SameBut [.cur, .st, .lz, .snk] s t) :
    CodesAt t cs e := by
  obtain ⟨n, ⟨bs, ⟨hend, hrem, hbytes, hends⟩, hbits⟩, hrest⟩ := h
  have hsb : t.sb = s.sb := hsame .sb (by simp)
  have hbp : t.bp = s.bp := hsame .bp (by simp)
  have hinput : inputBytes t = inputBytes s := inputBytes_congr hsame (by simp) (by rw [hout.cur]; rfl) hout.srcPos
  rw [← hbp] at hbits hrest
  rw [← hsb] at hend hrem hbytes hends
  rw [← hinput] at hbytes
  rw [← hout.srcPos] at hends
  exact ⟨n, ⟨bs, ⟨hend, hrem, hbytes, hends⟩, hbits⟩, hrest⟩

/-- After the last code all data bytes are fetched, for only padding is left. -/
theorem CodesAt.chainAt_nil (h : CodesAt s [] e) : ChainAt s [] e := by
  obtain ⟨n, ⟨bs, hchain, -, -, hn⟩, -, -, hpad⟩ := h
  have hnone : bs = [] := List.length_eq_zero_iff.1 (by simp only [totalBits, List.map_nil, List.sum_nil] at hpad; omega)
  rwa [hnone] at hchain

theorem Consumed.reader (h : Consumed s t) : t.reader = s.reader := by
  have hst : t.st = s.st := h.1 .st (by simp)
  have hlz : t.lz = s.lz := h.1 .lz (by simp)
  rw [State.reader, State.reader, hst, hlz]

theorem Consumed.room (h : Consumed s t) (hroom : Room s n) : Room t n := by
  unfold Room at hroom ⊢
  rwa [h.2]

/-- R181, step 2: the loop takes the codes one by one, up to the `EndCode`. -/
theorem Reads.decompressLoop (h : Reads r cs out r') (hfits : Fits r'.endCode) (hr : s.reader = r)
    (hcodes : CodesAt s (cs ++ [r'.endCode]) e) (hfuel : cs.length < m) (hroom : Room s out.length) :
    ∃ t, decompressLoop m s = .ok () t ∧ Produces s t out ∧ t.reader = r' ∧ ChainAt t [] e ∧
      SameBut [.cur, .st, .bp, .sb, .lz, .snk] s t := by
  induction h generalizing s m with
  | nil r =>
    subst hr
    obtain ⟨m, rfl⟩ := Nat.exists_eq_add_one_of_ne_zero (Nat.ne_zero_of_lt hfuel)
    obtain ⟨t, hget, hst, ht⟩ := hcodes.unpackBits hfits
    have hreader := hst.reader
    refine ⟨t, decompressLoop_endCode hget ?_, hst.produces, hreader, ht.chainAt_nil, hst.1.mono (by simp)⟩
    rw [← hreader]
    rfl
  | cons hfits' htaken hrest ih =>
    subst hr
    obtain ⟨m, rfl⟩ := Nat.exists_eq_add_one_of_ne_zero (Nat.ne_zero_of_lt hfuel)
    obtain ⟨t, hget, hst, ht⟩ := hcodes.unpackBits hfits'
    rw [← hst.reader] at htaken
    replace hroom := hst.room hroom
    obtain ⟨hend, u, hcode, hu, hout, hsame⟩ := htaken.decompressCode (room_of_le hroom (by simp))
    obtain ⟨y, hloop, hproduced, hy, hchain, hsame'⟩ := ih hfits hu (ht.of_outputs hout hsame)
      (by simpa using hfuel) (hout.room_rest hroom)
    refine ⟨y, ?_, hst.produces.trans (hout.produces.trans hproduced), hy, hchain, ?_⟩
    · rw [decompressLoop_code hget hend hcode, hloop]
    · exact (hst.1.mono (by simp)).trans ((hsame.mono (by simp)).trans hsame')

/-! ### The whole run -/

theorem chainAt_start {s : State} {bs : List Byte} (hend : s.sb.rend = false) (hrem : s.sb.rrem = 0)
    (h : chainBytes bs <+: inputBytes s) : ChainAt s bs (s.cur.srcPos.toNat + (chainBytes bs).length) := by
  refine ⟨hend, ?_, ?_, ?_⟩ <;> rw [hrem]
  · exact Nat.zero_le _
  · exact h
  · rfl

theorem leValue_lowBytes (v k : Nat) : leValue (lowBytes v k) = v % 256 ^ k := by
  induction k generalizing v with
  | zero => simp [leValue, Nat.mod_one]
  | succ k ih =>
    rw [lowBytes_succ, leValue, ih, BitVec.toNat_ofNat, show 256 ^ (k + 1) = 256 * 256 ^ k from Nat.pow_succ']
    exact Nat.mod_mul.symm

theorem codesValue_lt {cs : List (Nat × Nat)} (h : ∀ p ∈ cs, Fits p) : codesValue cs < 2 ^ totalBits cs := by
  induction cs with
  | nil => simp [codesValue, totalBits]
  | cons p cs ih =>
    obtain ⟨hp, hcs⟩ := List.forall_mem_cons.1 h
    obtain ⟨c, w⟩ := p
    obtain ⟨-, -, hlt⟩ := hp
    rw [codesValue, totalBits_cons]
    exact add_code_lt hlt (ih hcs)

theorem length_le_totalBits {cs : List (Nat × Nat)} (h : ∀ p ∈ cs, Fits p) : cs.length ≤ totalBits cs := by
  induction cs with
  | nil => simp
  | cons p cs ih =>
    obtain ⟨⟨hpos, -⟩, hcs⟩ := List.forall_mem_cons.1 h
    have hrest := ih hcs
    obtain ⟨c, w⟩ := p
    rw [totalBits_cons, List.length_cons]
    simp only at hpos
    omega

theorem Reads.fits (h : Reads r cs out r') : ∀ p ∈ cs, Fits p := by
  induction h with
  | nil => simp
  | cons hfits _ _ ih => exact List.forall_mem_cons.2 ⟨hfits, ih⟩

/-- The state after step 1 (R181): the code-size byte consumed, the table reset, the reading side cleared. -/
def decompressOpened (rb : Nat) (s : State) : State :=
  ((((srcMoved 1 s).setSt (resetTable rb)).setBp { s.bp with racc := 0, rcnt := 0 }).setSb
    { s.sb with rrem := 0, rend := false }).setLz { s.lz with prev := Config.none, resets := 0 }

theorem decompressOpen_eq {rb : Nat} (hrb : LegalRootBits rb) (havail : 1 ≤ srcAvail s)
    (hbyte : (srcByte s s.cur.srcPos.toNat).toNat + 1 = rb) : decompressOpen s = .ok () (decompressOpened rb s) := by
  rw [decompressOpen, if_neg (by omega), srcRead8_eq havail, Run.bind_ok, hbyte, tableReset_legal hrb]
  rfl

theorem decompressOpened_frame (rb : Nat) (s : State) :
    SameBut [.cur, .st, .bp, .sb, .lz] s (decompressOpened rb s) := by
  intro g hg
  cases g <;> simp_all [SameGroup, decompressOpened, srcByte, snkByte]

/-- R204, R205: the packed codes, padded to whole bytes, are the codes to come. -/
theorem codesAt_start (hfits : ∀ p ∈ cs, Fits p)
    (hchain : ChainAt s (lowBytes (codesValue cs) ((totalBits cs + 7) / 8)) e) (hracc : s.bp.racc = 0)
    (hrcnt : s.bp.rcnt = 0) : CodesAt s cs e := by
  have hlt : codesValue cs < 256 ^ ((totalBits cs + 7) / 8) := by
    calc codesValue cs < 2 ^ totalBits cs := codesValue_lt hfits
      _ ≤ 2 ^ (8 * ((totalBits cs + 7) / 8)) := Nat.pow_le_pow_right two_pos (by omega)
      _ = 256 ^ ((totalBits cs + 7) / 8) := Nat.pow_mul ..
  refine ⟨8 * ((totalBits cs + 7) / 8), ⟨_, hchain, ?_, ?_, ?_⟩, ?_, by omega, by omega⟩
  all_goals simp only [hracc, hrcnt, leValue_lowBytes, lowBytes_length, Nat.mod_eq_of_lt hlt]
  all_goals simp

/-- R181, step 1, with a stream of codes at the cursor: the reader at its start, the codes to come, and a bound on the rounds that
their number does not reach (R188). -/
theorem decompressOpen_codes {rb : Nat} (hrb : LegalRootBits rb) (hfits : ∀ p ∈ cs, Fits p)
    (h : codeStream rb cs <+: inputBytes s) :
    decompressOpen s = .ok () (decompressOpened rb s) ∧ cs.length < decompressBound (decompressOpened rb s) ∧
      CodesAt (decompressOpened rb s) cs (s.cur.srcPos.toNat + (codeStream rb cs).length) := by
  obtain ⟨havail, hbyte, hrest⟩ := srcByte_of_inputBytes_cons h
  have hsize : (srcByte s s.cur.srcPos.toNat).toNat + 1 = rb := by
    obtain ⟨h3, h12⟩ := hrb
    rw [hbyte, BitVec.toNat_ofNat]
    omega
  refine ⟨decompressOpen_eq hrb havail hsize, ?_, ?_⟩
  · have hcodes := length_le_totalBits hfits
    have hbytes := length_le_chainBytes (lowBytes (codesValue cs) ((totalBits cs + 7) / 8))
    have hleft : (chainBytes (lowBytes (codesValue cs) ((totalBits cs + 7) / 8))).length ≤
        srcAvail (decompressOpened rb s) := by
      rw [← inputBytes_length]
      exact hrest.length_le
    rw [lowBytes_length] at hbytes
    rw [decompressBound]
    omega
  · have hchain := chainAt_start (s := decompressOpened rb s) rfl rfl hrest
    rw [show (decompressOpened rb s).cur.srcPos.toNat = s.cur.srcPos.toNat + 1 from srcMoved_srcPos havail] at hchain
    rw [codeStream, List.length_cons, Nat.add_comm _ 1, ← Nat.add_assoc]
    exact codesAt_start hfits hchain rfl rfl

theorem body_of_completed {i : Instr} {body : State → Run Unit} (hs : Ready s) (h : runCommand i body s = .next t)
    (hcompleted : Completed s t) :
    ∃ u, body (s.setStatus (beginFlags s.status)) = .ok () u ∧ t = u.setStatus (completeFlags u.status) := by
  cases hbody : body (s.setStatus (beginFlags s.status)) with
  | ok _ u =>
    rw [runCommand_ok hs hbody] at h
    exact ⟨u, rfl, (Host.Outcome.next.inj h).symm⟩
  | raise k u =>
    rw [runCommand_raise hs hbody] at h
    rw [Completed, ← Host.Outcome.next.inj h] at hcompleted
    cases congrArg StatusRegs.fault hcompleted

/-- R186, on the bodies: any stream of codes that the reader reads to `EndCode` is decompressed to the reader's output. -/
theorem lzwDecompressBody_codes {rb : Nat} (hrb : LegalRootBits rb) (h : Reads (.start rb) cs out r)
    (hfits : Fits r.endCode) (hstream : codeStream rb (cs ++ [r.endCode]) <+: inputBytes s) (hroom : Room s out.length) :
    ∃ t, lzwDecompressBody s = .ok () t ∧ Produces s t out ∧ t.lz.resets = r.resets ∧ t.status = s.status ∧
      t.cur.srcPos.toNat = s.cur.srcPos.toNat + (codeStream rb (cs ++ [r.endCode])).length := by
  have hall := List.forall_mem_append.2 ⟨h.fits, List.forall_mem_singleton.2 hfits⟩
  obtain ⟨hopen, hbound, hcodes⟩ := decompressOpen_codes hrb hall hstream
  have hsame := decompressOpened_frame rb s
  have hopened : Produces s (decompressOpened rb s) [] := .of_sameBut (by simp) hsame rfl
  rw [List.length_append, List.length_singleton] at hbound
  obtain ⟨u, hloop, htu, hu, hchain, hsame'⟩ :=
    h.decompressLoop hfits rfl hcodes (Nat.lt_of_succ_lt hbound) (hopened.room_rest hroom)
  obtain ⟨y, hdrain, huy, hy⟩ := hchain.framerDrain
  have hproduced := hopened.trans (htu.trans huy.produces)
  rw [List.nil_append, List.append_nil] at hproduced
  have hresets : y.lz.resets = r.resets := by rw [← hu, ← huy.reader]; rfl
  have hstatus : y.status = s.status := Eq.trans (huy.1 .status (by simp)) (hsame' .status (by simp))
  refine ⟨(finish2 (y.cur.snkPos.toNat - s.cur.snkPos.toNat) (y.cur.srcPos.toNat - s.cur.srcPos.toNat) y).state, ?_,
    hproduced, hresets, hstatus, hy⟩
  rw [lzwDecompressBody, hopen, Run.bind_ok, hloop, Run.bind_ok, hdrain, Run.bind_ok]
  rfl

end

/-- Settles O58: the run of the compressor put out a stream of codes that the reader reads back to the input, and the decompressor
does on those bytes what the reader does. -/
theorem decompressInvertsCompress : Obligations.DecompressInvertsCompress := by
  unfold Obligations.DecompressInvertsCompress
  intro s t u hs hrb hrange hexec hcompleted hu hcopied hroom
  obtain ⟨t, hbody, rfl⟩ := body_of_completed hs hexec hcompleted
  obtain ⟨cs, r, hreads, hfits, hresets, hproduced⟩ := stream_of_lzwCompressBody
    (s := s.setStatus (beginFlags s.status)) hrb hrange hbody
  have hsize : t.cur.snkPos.toNat - s.cur.snkPos.toNat = _ := Nat.sub_eq_of_eq_add' hproduced.snkPos
  simp only [State.setStatus_fields, hsize] at hcopied ⊢
  have hstream := inputBytes_of_hostCopied hproduced.appends hcopied
  rw [← inputBytes_length] at hroom ⊢
  obtain ⟨v, hbody', hproduced', hresets', hstatus, hpos⟩ := lzwDecompressBody_codes
    (s := u.setStatus (beginFlags u.status)) hrb hreads hfits hstream hroom
  refine ⟨_, runCommand_completes hu hbody' hstatus, rfl, hproduced'.appends, hproduced'.cur hpos,
    hresets'.trans hresets⟩

end Sys2Proof.Machine
end

section
/-! `BP_INIT` (spec/43_bitpacker.md R202). -/

namespace Sys2Proof.Machine

/-- Settles O29: the body writes the packer's registers alone, so the command completes, and the flags it began with are written
over. -/
theorem bpInitClears : Obligations.BpInitClears := by
  unfold Obligations.BpInitClears
  intro s hs
  have hbody : bpInitBody (s.setStatus (beginFlags s.status)) =
      .ok () ((s.setStatus (beginFlags s.status)).setBp ⟨0, 0, 0, 0⟩) := rfl
  calc exec .bpInit s
    _ = .next (((s.setStatus (beginFlags s.status)).setBp ⟨0, 0, 0, 0⟩).setStatus
          ⟨false, false, true, s.status.err, s.status.errCmd⟩) := runCommand_completes hs hbody rfl
    _ = .next ((s.setBp ⟨0, 0, 0, 0⟩).setStatus ⟨false, false, true, s.status.err, s.status.errCmd⟩) := rfl

end Sys2Proof.Machine
end

section
/-! `SB_OPEN` and `SB_ROPEN` (spec/44_subblock_framer.md R224, R228). -/

namespace Sys2Proof.Machine

/-- Settles O38: both bodies write the framer's registers alone, so each command completes, and the flags it began with are written
over. -/
theorem sbOpensReset : Obligations.SbOpensReset := by
  unfold Obligations.SbOpensReset
  intro s hs
  have hopen : sbOpenBody (s.setStatus (beginFlags s.status)) =
      .ok () ((s.setStatus (beginFlags s.status)).setSb { s.sb with wcnt := 0 }) := rfl
  have hropen : sbRopenBody (s.setStatus (beginFlags s.status)) =
      .ok () ((s.setStatus (beginFlags s.status)).setSb { s.sb with rrem := 0, rend := false }) := rfl
  exact ⟨(runCommand_completes hs hopen rfl).trans rfl, (runCommand_completes hs hropen rfl).trans rfl⟩

end Sys2Proof.Machine
end

section
/-! `SB_CLOSE` (spec/44_subblock_framer.md R221, R223, R226): what an emission and a close leave in the framer's registers, and the
closes that find no room. -/

namespace Sys2Proof.Machine

/-- R273, R290: a command whose body raises and left the flags alone keeps what the body did before the raise. -/
theorem runCommand_faults {i : Instr} {body : State → Run Unit} {s t : State} {k : FaultKind} (hs : Ready s)
    (h : body (s.setStatus (beginFlags s.status)) = .raise k t) (ht : t.status = beginFlags s.status) :
    runCommand i body s = .next (t.setStatus ⟨false, true, false, k.code, opcodeOf i⟩) := by
  rw [runCommand_raise hs h, ht, faultFlags_beginFlags]

section
variable {s t : State}

/-! ### The framer's registers after an emission and after a close -/

/-- R221: an emission empties the block; the bytes stay in `SB_WBUF`. -/
theorem framerEmit_sb (h : framerEmit s = .ok () t) : t.sb = { s.sb with wcnt := 0 } := by
  obtain ⟨-, hok⟩ | ⟨-, hraise⟩ := framerEmit_cases s
  · obtain ⟨-, rfl⟩ := Run.ok.inj (h.symm.trans hok)
    rfl
  · cases h.symm.trans hraise

theorem snkWrite8_sb {b : Byte} (h : snkWrite8 b s = .ok () t) : t.sb = s.sb := by
  obtain ⟨t', hok, hsame, -⟩ := snkWrite8_outputs (b := b) (room_of_snkWrite8 h)
  obtain ⟨-, rfl⟩ := Run.ok.inj (h.symm.trans hok)
  exact hsame .sb (by simp)

theorem framerClose_sb (h : framerClose s = .ok () t) : t.sb = { s.sb with wcnt := 0 } := by
  obtain ⟨_, u, hemit, hwrite⟩ := Run.bind_eq_ok.1 h
  rw [snkWrite8_sb hwrite]
  split at hemit
  · next hnone =>
    obtain ⟨-, rfl⟩ := Run.ok.inj hemit
    rw [← hnone]
  · exact framerEmit_sb hemit

/-! ### The closes without room -/

/-- R226: the last block does not fit. -/
theorem framerClose_block_full (hsome : s.sb.wcnt ≠ 0)
    (hfull : s.cur.snkCap.toNat < s.cur.snkPos.toNat + 1 + s.sb.wcnt.toNat) :
    framerClose s = .raise .insufficientSpace s := by
  obtain ⟨hfit, -⟩ | ⟨-, hraise⟩ := framerEmit_cases s
  · omega
  · rw [framerClose, if_neg hsome, hraise, Run.bind_raise]

/-- R226: no block is pending and the terminator does not fit. -/
theorem framerClose_no_room (hnone : s.sb.wcnt = 0) (hfull : s.cur.snkCap.toNat ≤ s.cur.snkPos.toNat) :
    framerClose s = .raise .insufficientSpace s := by
  rw [framerClose, if_pos hnone, Run.bind_ok, snkWrite8_full hfull]

/-- R226: the last block fills `SNK`, so it is written and the terminator is not. -/
theorem framerClose_terminator_full (hsome : s.sb.wcnt ≠ 0)
    (hfill : s.cur.snkPos.toNat + 1 + s.sb.wcnt.toNat = s.cur.snkCap.toNat) :
    ∃ t, framerClose s = .raise .insufficientSpace t ∧ SameBut [.cur, .sb, .snk] s t ∧
      Outputs s t (s.sb.wcnt :: wbufBytes s.sb) ∧ t.sb = { s.sb with wcnt := 0 } := by
  obtain ⟨t, hemit, hsame, hframed⟩ := framerEmit_framed (s := s) (.inr (by omega))
  have hcap := hframed.outputs.snkCap
  have hpos := hframed.outputs.snkPos
  rw [List.length_cons, wbufBytes_length] at hpos
  have hfull : t.cur.snkCap.toNat ≤ t.cur.snkPos.toNat := by rw [hcap, hpos]; omega
  exact ⟨t, by rw [framerClose, if_neg hsome, hemit, Run.bind_ok, snkWrite8_full hfull], hsame, hframed.outputs,
    framerEmit_sb hemit⟩

end

/-- Settles O40: the emission of the last block and the write of the terminator, each with and without room. -/
theorem sbCloseEndsChain : Obligations.SbCloseEndsChain := by
  unfold Obligations.SbCloseEndsChain
  intro s hs
  refine ⟨fun hroom => ?_, fun hsome hfull => runCommand_rejects hs (framerClose_block_full hsome hfull),
    fun hnone hfull => runCommand_rejects hs (framerClose_no_room hnone hfull), fun hsome hfill => ?_⟩
  · obtain ⟨t, hclose, hsame, hframed⟩ := framerClose_framed (s := s.setStatus (beginFlags s.status)) (.inr hroom)
    have hsb := framerClose_sb hclose
    exact ⟨_, runCommand_completes hs hclose (hsame .status (by simp)), rfl, .of_body (by simp) (hsame.mono (by simp)),
      hframed.outputs.appends, hframed.outputs.cur, hsb⟩
  · obtain ⟨t, hclose, hsame, hout, hsb⟩ :=
      framerClose_terminator_full (s := s.setStatus (beginFlags s.status)) hsome hfill
    refine ⟨_, runCommand_faults hs hclose (hsame .status (by simp)), rfl, .of_body (by simp) (hsame.mono (by simp)),
      hout.appends, hout.cur.trans ?_, hsb⟩
    rw [List.length_cons, wbufBytes_length, Nat.add_comm]
    rfl

end Sys2Proof.Machine
end

section
/-! `SB_GET` (spec/44_subblock_framer.md R227, R229): the reader's cases in which every read has its byte, and what the command
makes of what the reader answers. -/

namespace Sys2Proof.Machine

/-! ### The read cursor -/

theorem sameBut_srcMoved (k : Nat) (s : State) : SameBut [.cur] s (srcMoved k s) := by
  intro g hg
  cases g <;> simp_all [SameGroup]

theorem srcMoved_cur (k : Nat) (s : State) : (srcMoved k s).cur = cursorsAfter k 0 s.cur := by
  simp [srcMoved, cursorsAfter]

section
variable {s t : State}

/-! ### `FramerGet` where a length byte is due -/

theorem framerGet_due (hend : s.sb.rend = false) (hrem : s.sb.rrem = 0) :
    framerGet s = (framerLength s).bind fun _ t => if t.sb.rend then .ok none t else framerTake t := by
  rw [framerGet, if_neg (by simp [hend]), if_pos hrem]

/-- R227: no length byte is left. -/
theorem framerGet_no_length (hend : s.sb.rend = false) (hrem : s.sb.rrem = 0) (hnone : srcAvail s = 0) :
    framerGet s = .raise .truncatedStream s := by
  rw [framerGet_due hend hrem, framerLength, if_pos hnone, Run.bind_raise]

/-- R227: the zero length byte ends the chain. -/
theorem framerGet_zero (hend : s.sb.rend = false) (hrem : s.sb.rrem = 0) (havail : 1 ≤ srcAvail s)
    (hzero : srcByte s s.cur.srcPos.toNat = 0) :
    framerGet s = .ok none ((srcMoved 1 s).setSb { s.sb with rend := true }) := by
  obtain ⟨hnone, -⟩ | ⟨-, -, hok⟩ | ⟨-, hlong, -⟩ | ⟨hsome, -, -⟩ := framerLength_cases s
  · omega
  · rw [framerGet_due hend hrem, hok, Run.bind_ok, if_pos (by simp)]
  · rw [hzero, show (0 : Byte).toNat = 0 from rfl] at hlong
    omega
  · exact absurd hzero hsome

/-- R227: the length byte claims more bytes than remain behind it. -/
theorem framerGet_too_long (hend : s.sb.rend = false) (hrem : s.sb.rrem = 0) (havail : 1 ≤ srcAvail s)
    (hlong : srcAvail s - 1 < (srcByte s s.cur.srcPos.toNat).toNat) :
    framerGet s = .raise .truncatedStream (srcMoved 1 s) := by
  obtain ⟨hnone, -⟩ | ⟨-, hzero, -⟩ | ⟨-, -, hraise⟩ | ⟨-, hfit, -⟩ := framerLength_cases s
  · omega
  · rw [hzero] at hlong
    exact absurd hlong (Nat.not_lt_zero _)
  · rw [framerGet_due hend hrem, hraise, Run.bind_raise]
  · omega

/-- R227: the length byte opens a block, and its first byte is the answer. -/
theorem framerGet_first (hend : s.sb.rend = false) (hrem : s.sb.rrem = 0)
    (hsome : srcByte s s.cur.srcPos.toNat ≠ 0) (hfit : (srcByte s s.cur.srcPos.toNat).toNat + 1 ≤ srcAvail s) :
    framerGet s = .ok (some (srcByte s (s.cur.srcPos.toNat + 1)))
      ((srcMoved 2 s).setSb { s.sb with rrem := srcByte s s.cur.srcPos.toNat - 1 }) := by
  have hlen : (srcByte s s.cur.srcPos.toNat).toNat ≠ 0 := fun hz => hsome (BitVec.eq_of_toNat_eq hz)
  obtain ⟨hnone, -⟩ | ⟨-, hzero, -⟩ | ⟨-, hlong, -⟩ | ⟨-, -, hok⟩ := framerLength_cases s
  · omega
  · exact absurd hzero hsome
  · omega
  · have havail : 1 ≤ srcAvail (srcMoved 1 s) := by rw [srcAvail_srcMoved (by omega)]; omega
    have hpos : (srcMoved 1 s).cur.srcPos.toNat = s.cur.srcPos.toNat + 1 := srcMoved_srcPos (by omega)
    have htwo : srcMoved 1 (srcMoved 1 s) = srcMoved 2 s := srcMoved_srcMoved (by omega)
    rw [framerGet_due hend hrem, hok, Run.bind_ok, if_neg (by simp [hend]), ← hpos, ← htwo]
    exact framerTake_eq havail

/-! ### The command -/

/-- R229: at the end of the chain. -/
theorem sbGetBody_end (h : framerGet s = .ok none t) :
    sbGetBody s = .ok () (t.setRes { t.res with res0 := 0, res1 := 1 }) := by
  rw [sbGetBody, h]
  rfl

/-- R229: a data byte. -/
theorem sbGetBody_byte {b : Byte} (h : framerGet s = .ok (some b) t) :
    sbGetBody s = .ok () (t.setRes { t.res with res0 := b.setWidth 32, res1 := 0 }) := by
  rw [sbGetBody, h, ← BitVec.ofNat_toNat]
  rfl

theorem sbGetBody_raise {k : FaultKind} (h : framerGet s = .raise k t) : sbGetBody s = .raise k t := by
  rw [sbGetBody, h, Run.bind_raise]

/-- R229, R273: an `SB_GET` whose body read `n` bytes of `SRC` and left `f` in the framer and `r` in the results. -/
theorem execSbGet_completes {n : Nat} {f : Framer} {r : ResRegs} (hs : Ready s)
    (h : sbGetBody (s.setStatus (beginFlags s.status)) =
      .ok () (((srcMoved n (s.setStatus (beginFlags s.status))).setSb f).setRes r)) :
    ∃ t, exec .sbGet s = .next t ∧ Completed s t ∧ SameBut [.status, .res, .sb, .cur] s t ∧
      t.res = r ∧ t.cur = cursorsAfter n 0 s.cur ∧ t.sb = f := by
  have hcur : SameBut [.status, .res, .sb, .cur] _ _ :=
    (sameBut_srcMoved n (s.setStatus (beginFlags s.status))).mono (by simp)
  have hsb := hcur.trans ((sameBut_setSb _ f).mono (by simp))
  have hres := hsb.trans ((sameBut_setRes _ r).mono (by simp))
  exact ⟨_, runCommand_completes hs h rfl, rfl, .of_body (by simp) hres, rfl, srcMoved_cur n _, rfl⟩

end

/-- Settles O41: what `FramerGet` answers in each case, and the command's results from it. -/
theorem sbGetReads : Obligations.SbGetReads := by
  unfold Obligations.SbGetReads
  intro s hs
  refine ⟨fun hend => ?_, fun hend hrem havail => ?_, fun hend hrem hnone => ?_, fun hend hrem havail hzero => ?_,
    fun hend hrem havail hlong => ?_, fun hend hrem hsome hfit => ?_⟩
  · exact (runCommand_completes hs (sbGetBody_end (framerGet_end (s := s.setStatus (beginFlags s.status)) hend)) rfl).trans rfl
  · exact execSbGet_completes hs (sbGetBody_byte (framerGet_block hend hrem havail))
  · exact runCommand_rejects hs (sbGetBody_raise (framerGet_no_length hend hrem hnone))
  · exact execSbGet_completes hs (sbGetBody_end (framerGet_zero hend hrem havail hzero))
  · have hbody := sbGetBody_raise (framerGet_too_long (s := s.setStatus (beginFlags s.status)) hend hrem havail hlong)
    exact ⟨_, runCommand_faults hs hbody rfl, rfl,
      .of_body (by simp) ((sameBut_srcMoved 1 _).mono (by simp)), srcMoved_cur 1 _⟩
  · exact execSbGet_completes hs (sbGetBody_byte (framerGet_first hend hrem hsome hfit))

end Sys2Proof.Machine
end

section
/-! `HDR_WR_FILE`, `HDR_WR_IMAGE` and `HDR_WR_GCB` (spec/45_header_records.md R240, R241, R243, R245): the bytes made of the
field registers are the records of R99 to R101, and each record is appended whole or not at all. -/

namespace Sys2Proof.Machine

open Sys2Proof.Claims

/-! ### The records -/

/-- R71: a 16-bit field is its two bytes, low byte first. -/
theorem halfBytes_eq (v : Half) : halfBytes v = [lo v, hi v] := by
  have hlo : v.extractLsb' 0 8 = lo v := BitVec.eq_of_toNat_eq (by simp [lo])
  have hhi : v.extractLsb' 8 8 = hi v := BitVec.eq_of_toNat_eq (by simp [hi])
  rw [halfBytes, hlo, hhi]

theorem fileHeaderBytes_eq (h : HeaderRegs) : fileHeaderBytes h = fileRecord h := by
  simp [fileHeaderBytes, fileRecord, halfBytes_eq]

theorem imageHeaderBytes_eq (h : HeaderRegs) : imageHeaderBytes h = imageRecord h := by
  simp [imageHeaderBytes, imageRecord, halfBytes_eq]

theorem gcbBytes_eq (h : HeaderRegs) : gcbBytes h = gcbRecord h := by
  simp [gcbBytes, gcbRecord, halfBytes_eq]

/-! ### A command that writes a record -/

section
variable {s : State} {i : Instr} {body : State → Run Unit} {r : List Byte}

/-- R240: with room a record is appended whole and the command completes. -/
theorem runCommand_appendsRecord (hs : Ready s)
    (hbody : body (s.setStatus (beginFlags s.status)) = writeRecord r (s.setStatus (beginFlags s.status)))
    (hfit : s.cur.snkPos.toNat + r.length ≤ s.cur.snkCap.toNat) :
    ∃ t, runCommand i body s = .next t ∧ Completed s t ∧ SameBut [.status, .cur, .snk] s t ∧ SnkAppends s t r ∧
      t.cur = cursorsAfter 0 r.length s.cur := by
  obtain ⟨-, hok⟩ | ⟨hfull, -⟩ := writeRecord_cases r (s.setStatus (beginFlags s.status))
  · obtain ⟨hsame, -⟩ := snkAppended_fields (s := s.setStatus (beginFlags s.status)) hfit
    have hout := snkAppended_outputs (s := s.setStatus (beginFlags s.status)) hfit
    exact ⟨_, runCommand_completes hs (hbody.trans hok) (hsame .status (by simp)), rfl,
      .of_body (by simp) (hsame.mono (by simp)), hout.appends, hout.cur⟩
  · exact absurd hfit (Nat.not_le.2 hfull)

/-- R240: without room nothing is written. -/
theorem runCommand_recordFull (hs : Ready s)
    (hbody : body (s.setStatus (beginFlags s.status)) = writeRecord r (s.setStatus (beginFlags s.status)))
    (hfull : s.cur.snkCap.toNat < s.cur.snkPos.toNat + r.length) :
    runCommand i body s = .next (s.setStatus ⟨false, true, false, 5, opcodeOf i⟩) := by
  obtain ⟨hfit, -⟩ | ⟨-, hraise⟩ := writeRecord_cases r (s.setStatus (beginFlags s.status))
  · exact absurd hfit (Nat.not_le.2 hfull)
  · exact runCommand_rejects hs (hbody.trans hraise)

end

section
variable (s : State)

theorem hdrWrFileBody_eq : hdrWrFileBody s = writeRecord (fileRecord s.hdr) s := by
  rw [hdrWrFileBody, fileHeaderBytes_eq]

theorem hdrWrImageBody_eq : hdrWrImageBody s = writeRecord (imageRecord s.hdr) s := by
  rw [hdrWrImageBody, imageHeaderBytes_eq]

theorem hdrWrGcbBody_eq : hdrWrGcbBody s = writeRecord (gcbRecord s.hdr) s := by
  rw [hdrWrGcbBody, gcbBytes_eq]

end

/-- Settles O44: each of the three bodies writes its record, which goes out whole or not at all. -/
theorem headerWritesAppendRecords : Obligations.HeaderWritesAppendRecords := by
  unfold Obligations.HeaderWritesAppendRecords
  intro s hs i r op hmem
  simp only [List.mem_cons, Prod.mk.injEq, List.not_mem_nil, or_false] at hmem
  obtain ⟨rfl, rfl, rfl⟩ | ⟨rfl, rfl, rfl⟩ | ⟨rfl, rfl, rfl⟩ := hmem
  · exact ⟨runCommand_appendsRecord hs (hdrWrFileBody_eq _), runCommand_recordFull hs (hdrWrFileBody_eq _)⟩
  · exact ⟨runCommand_appendsRecord hs (hdrWrImageBody_eq _), runCommand_recordFull hs (hdrWrImageBody_eq _)⟩
  · exact ⟨runCommand_appendsRecord hs (hdrWrGcbBody_eq _), runCommand_recordFull hs (hdrWrGcbBody_eq _)⟩

end Sys2Proof.Machine
end

section
/-! `HDR_RD_FILE`, `HDR_RD_IMAGE` and `HDR_RD_GCB` (spec/45_header_records.md R240, R242, R244, R246): a record is checked before
anything is consumed, and then read field by field. -/

namespace Sys2Proof.Machine

open Sys2Proof.Claims

/-! ### Reading behind bytes already consumed -/

section
variable {s : State} {k : Nat}

/-- R65: the byte after the `k` bytes consumed so far. -/
theorem srcRead8_srcMoved (h : k + 1 ≤ srcAvail s) :
    srcRead8 (srcMoved k s) = .ok (srcByte s (s.cur.srcPos.toNat + k)) (srcMoved (k + 1) s) := by
  have hleft : 1 ≤ srcAvail (srcMoved k s) := by rw [srcAvail_srcMoved (by omega)]; omega
  rw [srcRead8_eq hleft, srcMoved_srcPos (by omega), srcMoved_srcMoved h, srcByte_srcMoved]

/-- R67, R71: the 16-bit field after the `k` bytes consumed so far. -/
theorem srcRead16_srcMoved (h : k + 2 ≤ srcAvail s) :
    srcRead16 (srcMoved k s) = .ok (srcHalf s (s.cur.srcPos.toNat + k)) (srcMoved (k + 2) s) := by
  have hleft : 2 ≤ srcAvail (srcMoved k s) := by rw [srcAvail_srcMoved (by omega)]; omega
  rw [srcRead16_eq hleft, srcMoved_srcPos (by omega), srcMoved_srcMoved h]
  rfl

end

/-! ### The bodies -/

section
variable {s : State}

/-- The field registers after the load of the File Header at the cursor (R99). -/
def fileLoaded (s : State) : HeaderRegs :=
  { s.hdr with
    fhWidth := srcHalf s (s.cur.srcPos.toNat + 6), fhHeight := srcHalf s (s.cur.srcPos.toNat + 8),
    fhResolution := srcByte s (s.cur.srcPos.toNat + 10), fhBackground := srcByte s (s.cur.srcPos.toNat + 11),
    fhAspect := srcByte s (s.cur.srcPos.toNat + 12) }

/-- The field registers after the load of the Image Header at the cursor (R100). -/
def imageLoaded (s : State) : HeaderRegs :=
  { s.hdr with
    ihLeft := srcHalf s s.cur.srcPos.toNat, ihTop := srcHalf s (s.cur.srcPos.toNat + 2),
    ihWidth := srcHalf s (s.cur.srcPos.toNat + 4), ihHeight := srcHalf s (s.cur.srcPos.toNat + 6),
    ihFlags := srcByte s (s.cur.srcPos.toNat + 8) }

/-- The field registers after the load of the Graphics Control block at the cursor (R101). -/
def gcbLoaded (s : State) : HeaderRegs :=
  { s.hdr with
    gcFlags := srcByte s (s.cur.srcPos.toNat + 1), gcDelay := srcHalf s (s.cur.srcPos.toNat + 2),
    gcTransp := srcByte s (s.cur.srcPos.toNat + 4) }

theorem hdrRdFileBody_loads (havail : 13 ≤ srcAvail s)
    (hsig : srcBytes s s.cur.srcPos.toNat 6 = Config.signature) :
    hdrRdFileBody s = .ok () ((srcMoved 13 s).setHdr (fileLoaded s)) := by
  have hpeek : srcPeekList 6 s = Config.signature := hsig
  rw [hdrRdFileBody, if_neg (Nat.not_lt.2 havail), if_neg (not_not.2 hpeek), srcSkip_eq (by omega), readFileFields,
    srcRead16_srcMoved (by omega), Run.bind_ok, srcRead16_srcMoved (by omega), Run.bind_ok,
    srcRead8_srcMoved (by omega), Run.bind_ok, srcRead8_srcMoved (by omega), Run.bind_ok,
    srcRead8_srcMoved (by omega), Run.bind_ok]
  rfl

theorem hdrRdFileBody_invalid
    (h : srcAvail s < 13 ∨ srcBytes s s.cur.srcPos.toNat 6 ≠ Config.signature) :
    hdrRdFileBody s = .raise .invalidFormat s := by
  unfold hdrRdFileBody
  split
  · rfl
  · next havail => exact if_pos (h.resolve_left havail)

theorem hdrRdImageBody_loads (havail : 9 ≤ srcAvail s) :
    hdrRdImageBody s = .ok () ((srcMoved 9 s).setHdr (imageLoaded s)) := by
  rw [hdrRdImageBody, if_neg (Nat.not_lt.2 havail)]
  nth_rw 1 [← srcMoved_zero s]
  rw [srcRead16_srcMoved (by omega), Run.bind_ok, srcRead16_srcMoved (by omega), Run.bind_ok,
    srcRead16_srcMoved (by omega), Run.bind_ok, srcRead16_srcMoved (by omega), Run.bind_ok,
    srcRead8_srcMoved (by omega), Run.bind_ok]
  rfl

theorem hdrRdImageBody_short (h : srcAvail s < 9) : hdrRdImageBody s = .raise .invalidFormat s := if_pos h

theorem hdrRdGcbBody_loads (havail : 6 ≤ srcAvail s) (hsize : srcByte s s.cur.srcPos.toNat = 4)
    (hzero : srcByte s (s.cur.srcPos.toNat + 5) = 0) :
    hdrRdGcbBody s = .ok () ((srcMoved 6 s).setHdr (gcbLoaded s)) := by
  have hpeek : srcPeek8 0 s = Config.gcbBlockSize := hsize
  have hpeek' : srcPeek8 5 s = 0 := hzero
  have hskip : srcSkip 1 ((srcMoved 5 s).setHdr (gcbLoaded s)) = (srcMoved 6 s).setHdr (gcbLoaded s) := by
    have hleft : 1 ≤ srcAvail (srcMoved 5 s) := by rw [srcAvail_srcMoved (by omega)]; omega
    rw [srcSkip_eq (s := (srcMoved 5 s).setHdr (gcbLoaded s)) hleft]
    exact congrArg (·.setHdr (gcbLoaded s)) (srcMoved_srcMoved (j := 5) (k := 1) havail)
  rw [hdrRdGcbBody, if_neg (Nat.not_lt.2 havail), if_neg (not_not.2 hpeek), if_neg (not_not.2 hpeek'),
    srcSkip_eq (by omega), readGcbFields, srcRead8_srcMoved (by omega), Run.bind_ok, srcRead16_srcMoved (by omega),
    Run.bind_ok, srcRead8_srcMoved (by omega), Run.bind_ok, ← hskip]
  rfl

theorem hdrRdGcbBody_invalid (h : srcAvail s < 6 ∨ srcByte s s.cur.srcPos.toNat ≠ 4 ∨
    srcByte s (s.cur.srcPos.toNat + 5) ≠ 0) : hdrRdGcbBody s = .raise .invalidFormat s := by
  unfold hdrRdGcbBody
  split
  · rfl
  · next havail =>
    split
    · rfl
    · next hsize => exact if_pos ((h.resolve_left havail).resolve_left hsize)

/-! ### A command that loads a record -/

theorem sameBut_setHdr (s : State) (x : HeaderRegs) : SameBut [.hdr] s (s.setHdr x) := by
  intro g hg
  cases g <;> simp_all [SameGroup, srcByte, snkByte]

/-- R240, R273: a command whose body consumed `n` bytes and loaded field registers. -/
theorem runCommand_loadsRecord {i : Instr} {body : State → Run Unit} {n : Nat} {h : HeaderRegs} (hs : Ready s)
    (hbody : body (s.setStatus (beginFlags s.status)) = .ok () ((srcMoved n (s.setStatus (beginFlags s.status))).setHdr h)) :
    ∃ t, runCommand i body s = .next t ∧ Completed s t ∧ SameBut [.status, .cur, .hdr] s t ∧
      t.cur = cursorsAfter n 0 s.cur ∧ t.hdr = h := by
  have hsame : SameBut [.status, .cur, .hdr] (s.setStatus (beginFlags s.status)) _ :=
    ((sameBut_srcMoved n _).mono (by simp)).trans ((sameBut_setHdr _ h).mono (by simp))
  exact ⟨_, runCommand_completes hs hbody rfl, rfl, .of_body (by simp) hsame, srcMoved_cur n _, rfl⟩

end

/-! ### The statements -/

/-- Settles O45: the two checks of `HDR_RD_FILE`, and the loads behind the signature. -/
theorem hdrRdFileLoads : Obligations.HdrRdFileLoads := by
  unfold Obligations.HdrRdFileLoads
  intro s hs
  exact ⟨fun havail hsig => runCommand_loadsRecord hs (hdrRdFileBody_loads havail hsig),
    fun h => runCommand_rejects hs (hdrRdFileBody_invalid h)⟩

/-- Settles O46: the length check of `HDR_RD_IMAGE`, and the loads. -/
theorem hdrRdImageLoads : Obligations.HdrRdImageLoads := by
  unfold Obligations.HdrRdImageLoads
  intro s hs
  exact ⟨fun havail => runCommand_loadsRecord hs (hdrRdImageBody_loads havail),
    fun h => runCommand_rejects hs (hdrRdImageBody_short h)⟩

/-- Settles O47: the three checks of `HDR_RD_GCB`, the loads, and the skip of the terminator. -/
theorem hdrRdGcbLoads : Obligations.HdrRdGcbLoads := by
  unfold Obligations.HdrRdGcbLoads
  intro s hs
  exact ⟨fun havail hsize hzero => runCommand_loadsRecord hs (hdrRdGcbBody_loads havail hsize hzero),
    fun h => runCommand_rejects hs (hdrRdGcbBody_invalid h)⟩

end Sys2Proof.Machine
end

section
/-! A record written, copied by the host and read (spec/45_header_records.md R249): the bytes at the reader's cursor are those of
the record, and a 16-bit field is its two bytes again. -/

namespace Sys2Proof.Machine

open Sys2Proof.Claims

/-! ### The bytes of a completed write -/

/-- A completed write of a record appended it whole. -/
theorem snkAppends_of_writeRecord {s t : State} {i : Instr} {body : State → Run Unit} {r : List Byte} (hs : Ready s)
    (hbody : body (s.setStatus (beginFlags s.status)) = writeRecord r (s.setStatus (beginFlags s.status)))
    (hexec : runCommand i body s = .next t) (hcompleted : Completed s t) : SnkAppends s t r := by
  obtain ⟨u, hok, rfl⟩ := body_of_completed hs hexec hcompleted
  obtain ⟨hfit, hwrite⟩ | ⟨-, hraise⟩ := writeRecord_cases r (s.setStatus (beginFlags s.status))
  · obtain ⟨-, rfl⟩ := Run.ok.inj ((hok.symm.trans hbody).trans hwrite)
    exact (snkAppended_outputs hfit).appends
  · cases (hok.symm.trans hbody).trans hraise

/-- R71: a 16-bit field is its high and its low byte. -/
theorem hi_append_lo (v : Half) : hi v ++ lo v = v := by
  refine BitVec.eq_of_getLsbD_eq fun i hlt => ?_
  simp only [BitVec.getLsbD_append, lo, hi, BitVec.getLsbD_setWidth, BitVec.getLsbD_ushiftRight]
  split
  · simp_all
  · next hhigh => simp [show i - 8 < 8 by omega, show 8 + (i - 8) = i by omega]

section
variable {s t u : State} {bs : List Byte} (h : SnkAppends s t bs)
  (hcopied : HostCopied t s.cur.snkPos.toNat bs.length u) {i : Nat}
include h hcopied

/-- What a host copy of `SNK` to `SRC` (R105) makes of each byte just appended. -/
theorem srcByte_of_hostCopied {b : Byte} (hb : bs[i]? = some b) : srcByte u (u.cur.srcPos.toNat + i) = b :=
  (hcopied.2 i (List.getElem?_eq_some_iff.1 hb).1).trans (h.1 i b hb)

/-- The same for a 16-bit field, low byte first. -/
theorem srcHalf_of_hostCopied {v : Half} (hlo : bs[i]? = some (lo v)) (hhi : bs[i + 1]? = some (hi v)) :
    srcHalf u (u.cur.srcPos.toNat + i) = v := by
  rw [srcHalf, srcByte_of_hostCopied h hcopied hlo, Nat.add_assoc, srcByte_of_hostCopied h hcopied hhi, hi_append_lo]

/-- The same for the first `n` bytes. -/
theorem srcBytes_of_hostCopied {n : Nat} (hn : n ≤ bs.length) : srcBytes u u.cur.srcPos.toNat n = bs.take n := by
  refine List.ext_getElem (by simp [srcBytes, hn]) fun i hlt hlt' => ?_
  rw [List.length_take] at hlt'
  simpa [srcBytes] using srcByte_of_hostCopied h hcopied (List.getElem?_eq_getElem (by omega))

end

/-! ### The three records -/

section
variable {s t u : State}

theorem file_roundTrip (hs : Ready s) (hu : Ready u) (hexec : exec .hdrWrFile s = .next t) (hcompleted : Completed s t)
    (hcopied : HostCopied t s.cur.snkPos.toNat 13 u) :
    ∃ v, exec .hdrRdFile u = .next v ∧ Completed u v ∧ v.cur = cursorsAfter 13 0 u.cur ∧
      v.hdr.fhWidth = s.hdr.fhWidth ∧ v.hdr.fhHeight = s.hdr.fhHeight ∧ v.hdr.fhResolution = s.hdr.fhResolution ∧
      v.hdr.fhBackground = s.hdr.fhBackground ∧ v.hdr.fhAspect = s.hdr.fhAspect := by
  have happends := snkAppends_of_writeRecord hs (hdrWrFileBody_eq _) hexec hcompleted
  have hbyte {i b} := srcByte_of_hostCopied (i := i) (b := b) happends hcopied
  have hhalf {i v} := srcHalf_of_hostCopied (i := i) (v := v) happends hcopied
  have hsig := srcBytes_of_hostCopied happends hcopied (n := 6) (by simp [fileRecord])
  obtain ⟨v, hread, hdone, -, hcur, hhdr⟩ := (hdrRdFileLoads u hu).1 hcopied.1 hsig
  refine ⟨v, hread, hdone, hcur, ?_⟩
  rw [hhdr]
  exact ⟨hhalf rfl rfl, hhalf rfl rfl, hbyte rfl, hbyte rfl,
    hbyte rfl⟩

theorem image_roundTrip (hs : Ready s) (hu : Ready u) (hexec : exec .hdrWrImage s = .next t) (hcompleted : Completed s t)
    (hcopied : HostCopied t s.cur.snkPos.toNat 9 u) :
    ∃ v, exec .hdrRdImage u = .next v ∧ Completed u v ∧ v.cur = cursorsAfter 9 0 u.cur ∧
      v.hdr.ihLeft = s.hdr.ihLeft ∧ v.hdr.ihTop = s.hdr.ihTop ∧ v.hdr.ihWidth = s.hdr.ihWidth ∧
      v.hdr.ihHeight = s.hdr.ihHeight ∧ v.hdr.ihFlags = s.hdr.ihFlags := by
  have happends := snkAppends_of_writeRecord hs (hdrWrImageBody_eq _) hexec hcompleted
  have hbyte {i b} := srcByte_of_hostCopied (i := i) (b := b) happends hcopied
  have hhalf {i v} := srcHalf_of_hostCopied (i := i) (v := v) happends hcopied
  obtain ⟨v, hread, hdone, -, hcur, hhdr⟩ := (hdrRdImageLoads u hu).1 hcopied.1
  refine ⟨v, hread, hdone, hcur, ?_⟩
  rw [hhdr]
  exact ⟨hhalf (i := 0) rfl rfl, hhalf rfl rfl,
    hhalf rfl rfl, hhalf rfl rfl, hbyte rfl⟩

theorem gcb_roundTrip (hs : Ready s) (hu : Ready u) (hexec : exec .hdrWrGcb s = .next t) (hcompleted : Completed s t)
    (hcopied : HostCopied t s.cur.snkPos.toNat 6 u) :
    ∃ v, exec .hdrRdGcb u = .next v ∧ Completed u v ∧ v.cur = cursorsAfter 6 0 u.cur ∧
      v.hdr.gcFlags = s.hdr.gcFlags ∧ v.hdr.gcDelay = s.hdr.gcDelay ∧ v.hdr.gcTransp = s.hdr.gcTransp := by
  have happends := snkAppends_of_writeRecord hs (hdrWrGcbBody_eq _) hexec hcompleted
  have hbyte {i b} := srcByte_of_hostCopied (i := i) (b := b) happends hcopied
  have hhalf {i v} := srcHalf_of_hostCopied (i := i) (v := v) happends hcopied
  obtain ⟨v, hread, hdone, -, hcur, hhdr⟩ := (hdrRdGcbLoads u hu).1 hcopied.1 (hbyte (i := 0) rfl) (hbyte rfl)
  refine ⟨v, hread, hdone, hcur, ?_⟩
  rw [hhdr]
  exact ⟨hbyte rfl, hhalf rfl rfl, hbyte rfl⟩

end

end Sys2Proof.Machine
end

section
/-! A comment written and read (spec/45_header_records.md R247 to R249): a completed `HDR_WR_COMMENT` put out the chain of the rest
of `SRC`, and `HDR_RD_COMMENT` on the chain of some bytes puts out those bytes. -/

namespace Sys2Proof.Machine

open Sys2Proof.Claims

section
variable {s t u : State} {b : Byte} {bs out : List Byte} {e : Nat}

/-! ### Writing -/

/-- R247: a loop of puts that ended normally took the rest of `SRC` into the chain. -/
theorem produces_of_commentPutLoop {n : Nat} (hn : srcAvail s = n) (h : commentPutLoop n s = .ok () t) :
    Produces s t (frameBytes (wbufBytes s.sb) (inputBytes s)).1 ∧
      wbufBytes t.sb = (frameBytes (wbufBytes s.sb) (inputBytes s)).2 := by
  induction n generalizing s with
  | zero =>
    obtain ⟨-, rfl⟩ := Run.ok.inj h
    have hnone : inputBytes s = [] := List.length_eq_zero_iff.1 ((inputBytes_length s).trans hn)
    rw [hnone]
    exact ⟨.of_sameBut (by simp) (.refl [] s) rfl, rfl⟩
  | succ n ih =>
    rw [commentPutLoop, srcRead8_eq (by omega), Run.bind_ok] at h
    obtain ⟨_, y, hput, hloop⟩ := Run.bind_eq_ok.1 h
    obtain ⟨y', hok, hsame, hframed⟩ := framerPut_framed (room_of_framerPut hput)
    obtain ⟨-, rfl⟩ := Run.ok.inj (hput.symm.trans hok)
    have hout := hframed.outputs
    have hleft : srcAvail y = n := by rw [hout.srcAvail, srcAvail_srcMoved (by omega)]; omega
    have hinput : inputBytes y = inputBytes (srcMoved 1 s) :=
      inputBytes_congr hsame (by simp) (by rw [hout.cur]; rfl) hout.srcPos
    have hread : Produces s (srcMoved 1 s) [] := .of_sameBut (by simp) (sameBut_srcMoved 1 s) rfl
    obtain ⟨hrest, hpending⟩ := ih hleft hloop
    rw [hinput, hframed.pending] at hrest hpending
    rw [inputBytes_eq_cons (by omega), frameBytes_cons]
    exact ⟨hread.trans (hout.produces.trans hrest), hpending⟩

/-- R247: a completed body put out the chain of the rest of `SRC`. -/
theorem produces_of_hdrWrCommentBody (h : hdrWrCommentBody s = .ok () t) : Produces s t (chainBytes (inputBytes s)) := by
  obtain ⟨_, x, hloop, h⟩ := Run.bind_eq_ok.1 h
  obtain ⟨_, y, hclose, hfinish⟩ := Run.bind_eq_ok.1 h
  obtain ⟨-, rfl⟩ := Run.ok.inj hfinish
  obtain ⟨hdata, hpending⟩ := produces_of_commentPutLoop (s := framerOpen s) rfl hloop
  obtain ⟨y', hok, -, hframed⟩ := framerClose_framed (room_of_framerClose hclose)
  obtain ⟨-, rfl⟩ := Run.ok.inj (hclose.symm.trans hok)
  have hempty : wbufBytes (framerOpen s).sb = [] := wbufBytes_empty s.sb
  have hout := hframed.outputs.produces
  rw [hpending, hempty] at hout
  rw [hempty] at hdata
  exact hdata.trans hout

/-! ### Reading -/

theorem framerGet_of_getByte (h : getByte .framed s = .ok b t) : framerGet s = .ok (some b) t := by
  obtain ⟨_ | c, u, hget, hok⟩ := Run.bind_eq_ok.1 h
  · cases hok
  · obtain ⟨rfl, rfl⟩ := Run.ok.inj hok
    exact hget

/-- R227: after the last data byte the framer meets the zero length byte. -/
theorem ChainAt.framerGet_end (h : ChainAt s [] e) :
    ∃ t, framerGet s = .ok none t ∧ Consumed s t ∧ t.cur.srcPos.toNat = e := by
  obtain ⟨hend, hle, hbytes, hends⟩ := h
  have hrem : s.sb.rrem.toNat = 0 := by simpa using hle
  rw [hrem, List.drop_nil, chainBytes_nil, List.length_singleton] at hends
  rw [hrem, List.drop_nil, List.take_nil, chainBytes_nil] at hbytes
  obtain ⟨havail, hbyte, -⟩ := srcByte_of_inputBytes_cons hbytes
  exact ⟨_, framerGet_zero hend (BitVec.eq_of_toNat_eq hrem) havail hbyte, consumed_srcMoved _ _ _,
    (srcMoved_srcPos havail).trans hends⟩

/-- Appending to `SNK` leaves the chain in `SRC` as it is. -/
theorem ChainAt.of_outputs (h : ChainAt s bs e) (hout : Outputs s t out) (hsame : SameBut [.cur, .snk] s t) :
    ChainAt t bs e := by
  obtain ⟨hend, hrem, hbytes, hends⟩ := h
  have hsb : t.sb = s.sb := hsame .sb (by simp)
  have hinput : inputBytes t = inputBytes s := inputBytes_congr hsame (by simp) (by rw [hout.cur]; rfl) hout.srcPos
  constructor <;> simpa only [hsb, hinput, hout.srcPos]

/-- R248: the loop puts out the bytes of the chain, one a round, and ends at the chain's end. -/
theorem ChainAt.commentGetLoop {n count : Nat} (h : ChainAt s bs e) (hn : bs.length < n) (hroom : Room s bs.length) :
    ∃ t, commentGetLoop n count s = .ok (count + bs.length) t ∧ Produces s t bs ∧ t.status = s.status ∧
      t.cur.srcPos.toNat = e := by
  induction bs generalizing s n count with
  | nil =>
    obtain ⟨n, rfl⟩ := Nat.exists_eq_add_one_of_ne_zero (Nat.ne_zero_of_lt hn)
    obtain ⟨t, hget, hst, hpos⟩ := h.framerGet_end
    exact ⟨t, by rw [Machine.commentGetLoop, hget]; rfl, hst.produces, hst.1 .status (by simp), hpos⟩
  | cons b bs ih =>
    obtain ⟨n, rfl⟩ := Nat.exists_eq_add_one_of_ne_zero (Nat.ne_zero_of_lt hn)
    obtain ⟨x, hget, hsx, -, hx⟩ := h.getByte
    have hroom' := hsx.produces.room_rest hroom
    obtain ⟨y, hwrite, hsame, hout⟩ := snkWrite8_outputs (b := b) (room_of_le hroom' (by simp))
    obtain ⟨t, hloop, hyt, hstatus, hpos⟩ := ih (count := count + 1) (hx.of_outputs hout hsame) (Nat.lt_of_succ_lt_succ hn)
      (hout.room_rest hroom')
    refine ⟨t, ?_, hsx.produces.trans (hout.produces.trans hyt), ?_, hpos⟩
    · rw [Machine.commentGetLoop, framerGet_of_getByte hget, Run.bind_ok]
      simp only [hwrite, Run.bind_ok, hloop, List.length_cons, Nat.add_assoc, Nat.add_comm 1]
    · exact hstatus.trans (Eq.trans (hsame .status (by simp)) (hsx.1 .status (by simp)))

/-- R248: with the chain of `bs` at the cursor and room for `bs`, the body puts out `bs` and consumes the chain. -/
theorem hdrRdCommentBody_chain (hchain : chainBytes bs <+: inputBytes s) (hroom : Room s bs.length) :
    ∃ t, hdrRdCommentBody s = .ok () t ∧ Produces s t bs ∧ t.status = s.status ∧
      t.cur.srcPos.toNat = s.cur.srcPos.toNat + (chainBytes bs).length := by
  have hlen := hchain.length_le
  rw [inputBytes_length] at hlen
  have hrounds : bs.length < srcAvail s + 1 := Nat.lt_succ_of_le ((length_le_chainBytes bs).trans hlen)
  obtain ⟨t, hloop, hout, hstatus, hpos⟩ :=
    (chainAt_start (s := framerROpen s) rfl rfl hchain).commentGetLoop (count := 0) hrounds hroom
  refine ⟨t.setRes { t.res with res0 := BitVec.ofNat 32 (0 + bs.length) }, ?_, hout, hstatus, hpos⟩
  rw [hdrRdCommentBody, hloop, Run.bind_ok, finish1]

/-- R249: the text of a comment comes back, and the chain written is what is consumed. -/
theorem comment_roundTrip (hs : Ready s) (hu : Ready u) (hexec : exec .hdrWrComment s = .next t)
    (hcompleted : Completed s t)
    (hcopied : HostCopied t s.cur.snkPos.toNat (t.cur.snkPos.toNat - s.cur.snkPos.toNat) u)
    (hroom : Room u (srcAvail s)) :
    ∃ v, exec .hdrRdComment u = .next v ∧ Completed u v ∧ SnkAppends u v (inputBytes s) ∧
      v.cur = cursorsAfter (t.cur.snkPos.toNat - s.cur.snkPos.toNat) (srcAvail s) u.cur := by
  obtain ⟨t, hbody, rfl⟩ := body_of_completed hs hexec hcompleted
  have hproduced := produces_of_hdrWrCommentBody hbody
  have hsize : t.cur.snkPos.toNat - s.cur.snkPos.toNat = (chainBytes (inputBytes s)).length :=
    Nat.sub_eq_of_eq_add' hproduced.snkPos
  simp only [State.setStatus_fields, hsize] at hcopied ⊢
  have hchain := inputBytes_of_hostCopied hproduced.appends hcopied
  rw [← inputBytes_length] at hroom ⊢
  obtain ⟨v, hread, hout, hstatus, hpos⟩ :=
    hdrRdCommentBody_chain (s := u.setStatus (beginFlags u.status)) hchain hroom
  exact ⟨_, runCommand_completes hu hread hstatus, rfl, hout.appends, hout.cur hpos⟩

end

/-- Settles O48: the three records field by field, and the comment through its chain. -/
theorem headerRoundTrip : Obligations.HeaderRoundTrip := by
  unfold Obligations.HeaderRoundTrip
  intro s t u hs hu
  exact ⟨file_roundTrip hs hu, image_roundTrip hs hu, gcb_roundTrip hs hu, comment_roundTrip hs hu⟩

end Sys2Proof.Machine
end

section
/-! The system commands (spec/46_system_commands.md R270 to R272). -/

namespace Sys2Proof.Machine

/-! ### `SOFT_RESET` -/

/-- R272, R322: every group but the memories and the model's own two is at its power-on value. -/
theorem sameBut_softReset (s : State) : SameBut [.src, .snk, .host, .free] State.reset (softReset s) := by
  intro g hg
  cases g
  case src | snk | host | free => simp at hg
  all_goals rfl

theorem sameGroup_softReset_src (s : State) : SameGroup s (softReset s) .src := fun _ => rfl

theorem sameGroup_softReset_snk (s : State) : SameGroup s (softReset s) .snk := fun _ => rfl

/-! ### `CLR_FAULT` -/

/-- R271: with a fault pending the acknowledgement is all that happens. -/
theorem execClrFault_pending {s : State} (hs : ¬ Ready s) : execClrFault s = .next (ackFault s) :=
  if_pos (Bool.eq_true_of_not_eq_false hs)

/-- R271, R273: with none pending it completes like any command. -/
theorem execClrFault_ready {s : State} (hs : Ready s) : execClrFault s = runCommand .clrFault clrFaultBody s :=
  if_neg (Bool.eq_false_iff.1 hs)

/-- R271, R273: the flags of a command that acknowledges a fault and completes. -/
theorem completeFlags_ackFlags (f : StatusRegs) : completeFlags (ackFlags f) = ⟨false, false, true, 0, 0⟩ := rfl

/-! ### The obligations -/

/-- Settles O11: the next state is `softReset s` by definition, whatever `FAULT` is, and the four registers read their power-on
values in it. -/
theorem softResetCompletes : Obligations.SoftResetCompletes := by
  unfold Obligations.SoftResetCompletes
  intro s
  exact ⟨softReset s, rfl, sameBut_softReset s, sameGroup_softReset_src s, sameGroup_softReset_snk s, rfl,
    hostRead_of_reg (r := .status) rfl _, hostRead_of_reg (r := .stNextFree) rfl _,
    hostRead_of_reg (r := .fhResolution) rfl _, hostRead_of_reg (r := .lzCur) rfl _⟩

/-- Settles O12: the body changes nothing, so only the end of the command is left; with a fault pending there is not even that. -/
theorem nopCompletes : Obligations.NopCompletes := by
  unfold Obligations.NopCompletes
  intro s
  refine ⟨fun hs => ?_, fun hs => ?_⟩
  · have hbody : nopBody (s.setStatus (beginFlags s.status)) = .ok () (s.setStatus (beginFlags s.status)) := rfl
    exact (runCommand_completes hs hbody rfl).trans rfl
  · exact runCommand_ignored hs

/-- Settles O13: the acknowledgement alone with a fault pending, else as the body of a command that then completes. -/
theorem clrFaultAcknowledges : Obligations.ClrFaultAcknowledges := by
  unfold Obligations.ClrFaultAcknowledges
  intro s
  refine ⟨fun hs => ?_, fun hs hinv => ?_, fun hs => ?_⟩
  · exact execClrFault_pending hs
  · obtain ⟨-, hpending, -⟩ := hinv
    exact (hpending (Bool.eq_true_of_not_eq_false hs)).1
  · have hbody : clrFaultBody (s.setStatus (beginFlags s.status)) =
        .ok () (s.setStatus (ackFlags (beginFlags s.status))) := rfl
    calc exec .clrFault s
      _ = runCommand .clrFault clrFaultBody s := execClrFault_ready hs
      _ = .next (s.setStatus (completeFlags (ackFlags (beginFlags s.status)))) := runCommand_ok hs hbody
      _ = .next (s.setStatus ⟨false, false, true, 0, 0⟩) := by rw [completeFlags_ackFlags]

end Sys2Proof.Machine
end

section
/-! The state after power-on reset (spec/70_reset_and_hazards.md R321). -/

namespace Sys2Proof.Machine

/-- R321: no table reset has run yet. -/
theorem tableUnset_reset : TableUnset State.reset.st := rfl

/-- R321: with nothing listed, every byte of `SB_WBUF` reads as 0. -/
theorem wbufAt_reset (i : Nat) : wbufAt State.reset.sb i = 0 := rfl

/-- Settles O9: the registers stand in `State.reset`; the table is the never-reset one, whose unlisted entries are cleared and which
has no valid code (R30); nothing is listed in the buffer; and `SOFT_RESET` is `softReset`. -/
theorem resetState : Obligations.ResetState := by
  unfold Obligations.ResetState
  have hentries (c : Nat) : entryAt State.reset.st.table c = ⟨0, 0xFFFF, 0⟩ ∧ validCode State.reset.st c = false :=
    ⟨entryAt_nil c, validCode_of_unset tableUnset_reset c⟩
  have hcmd : hostRead 0 State.reset = 0 := hostRead_of_reg (r := .cmd) rfl _
  have hsoft (s : State) : exec .softReset s = .next (softReset s) := rfl
  exact ⟨rfl, rfl, rfl, rfl, ⟨rfl, rfl, rfl, rfl, rfl⟩, hentries, rfl, wbufAt_reset, ⟨rfl, rfl, rfl⟩, rfl, rfl, hcmd, hsoft⟩

end Sys2Proof.Machine
end

section
/-! What the body of a command can do to the state, said once (spec/46_system_commands.md R273): the single updates it is made of, each
under its precondition, and that every body is a sequence of updates of the kinds its rule names. -/

namespace Sys2Proof.Machine

open Sys2Proof.Claims

/-! ### Single updates -/

/-- An update of the string table: a legal reset (R135), an add that is allowed (R136), the width rule at the end of input (R165). -/
inductive TableUpdate (t : StringTable) : StringTable → Prop
  | reset {rb : Nat} (h : LegalRootBits rb) : TableUpdate t (resetTable rb)
  | add {base : Nat} (b : Byte) (fw : Bool) (hbase : validCode t base = true) (hfree : t.nextFree.toNat < 4096) :
    TableUpdate t (addEntry base b fw t)
  | widen : TableUpdate t (widen false t)

/-- An update of the framer: its registers, or one more byte behind a block that is not full (R222). -/
inductive FramerUpdate (f : Framer) : Framer → Prop
  | regs (wcnt rrem : Byte) (rend : Bool) : FramerUpdate f ⟨f.wbuf, wcnt, rrem, rend⟩
  | push (b : Byte) (h : f.wcnt.toNat < 255) :
    FramerUpdate f { f with wbuf := cellSet 0 f.wbuf f.wcnt.toNat b, wcnt := f.wcnt + 1 }

/-- The kinds of update; `tick` uses up a free value (log 6, log 7). -/
inductive Effect where
  | result | table | packer | framer | lzw | header | read | tick | write
  deriving DecidableEq

/-- The groups of R20 that an update of a kind writes. -/
def Effect.groups : Effect → List Group
  | .result => [.res]
  | .table => [.st]
  | .packer => [.bp]
  | .framer => [.sb]
  | .lzw => [.lz]
  | .header => [.hdr]
  | .read => [.cur]
  | .tick => [.free]
  | .write => [.cur, .snk]

/-- One update of a kind in `es`. -/
inductive Update (es : List Effect) (s : State) : State → Prop
  | result (h : .result ∈ es) (x : ResRegs) : Update es s (s.setRes x)
  | table (h : .table ∈ es) {x : StringTable} (hx : TableUpdate s.st x) : Update es s (s.setSt x)
  | packer (h : .packer ∈ es) (x : Packer) : Update es s (s.setBp x)
  | framer (h : .framer ∈ es) {x : Framer} (hx : FramerUpdate s.sb x) : Update es s (s.setSb x)
  | lzw (h : .lzw ∈ es) (x : LzwRegs) : Update es s (s.setLz x)
  | header (h : .header ∈ es) (x : HeaderRegs) : Update es s (s.setHdr x)
  | read (h : .read ∈ es) (p : Word) : Update es s (s.setCur { s.cur with srcPos := p })
  | tick (h : .tick ∈ es) : Update es s (s.setFree { s.free with tick := s.free.tick + 1 })
  | write (h : .write ∈ es) (b : Byte) (hroom : s.cur.snkPos.toNat < s.cur.snkCap.toNat) :
    Update es s (snkAppended [b] s)

/-- Updates of kinds in `es`, one after the other. -/
abbrev Updates (es : List Effect) : State → State → Prop := Relation.ReflTransGen (Update es)

section
variable {α β : Type} {es fs : List Effect} {s t u : State}

theorem Update.mono (hsub : es ⊆ fs) (h : Update es s t) : Update fs s t := by
  cases h with
  | result h x => exact .result (hsub h) x
  | table h hx => exact .table (hsub h) hx
  | packer h x => exact .packer (hsub h) x
  | framer h hx => exact .framer (hsub h) hx
  | lzw h x => exact .lzw (hsub h) x
  | header h x => exact .header (hsub h) x
  | read h p => exact .read (hsub h) p
  | tick h => exact .tick (hsub h)
  | write h b hroom => exact .write (hsub h) b hroom

/-- What every update keeps, a sequence of them keeps. -/
theorem Updates.invariant {P : State → Prop} (hupdate : ∀ s t, Update es s t → P s → P t) (h : Updates es s t) (hs : P s) :
    P t := by
  induction h with
  | refl => exact hs
  | tail _ h ih => exact hupdate _ _ h ih

theorem Updates.mono (hsub : es ⊆ fs) (h : Updates es s t) : Updates fs s t :=
  h.invariant (P := Updates fs s) (fun _ _ hu hs => hs.tail (hu.mono hsub)) .refl

/-- The updates of a sequence of pseudocode are those of its parts. -/
theorem Updates.bind {r : Run α} {f : α → State → Run β} (hr : Updates es s r.state)
    (hf : ∀ a t, r = .ok a t → Updates es t (f a t).state) : Updates es s (r.bind f).state := by
  cases r with
  | ok a t => exact hr.trans (hf a t rfl)
  | raise k t => exact hr

/-- A group that no update of these kinds writes is as it was. -/
theorem Update.sameBut (h : Update es s t) : SameBut (es.flatMap Effect.groups) s t := by
  have written : ∀ {e : Effect}, e ∈ es → e.groups ⊆ es.flatMap Effect.groups :=
    fun he _ hg => List.mem_flatMap.2 ⟨_, he, hg⟩
  cases h with
  | result h x => exact (sameBut_setRes s x).mono (written h)
  | table h _ => exact (sameBut_setSt s _).mono (written h)
  | packer h x => exact (sameBut_setBp s x).mono (written h)
  | framer h _ => exact (sameBut_setSb s _).mono (written h)
  | lzw h x => exact (sameBut_setLz s x).mono (written h)
  | header h x => exact (sameBut_setHdr s x).mono (written h)
  | read h p =>
    have moved : SameBut [.cur] s (s.setCur { s.cur with srcPos := p }) := by
      intro g hg
      cases g <;> simp_all [SameGroup, srcByte, snkByte]
    exact moved.mono (written h)
  | tick h =>
    have ticked : SameBut [.free] s (s.setFree { s.free with tick := s.free.tick + 1 }) := by
      intro g hg
      cases g <;> simp_all [SameGroup, srcByte, snkByte]
    exact ticked.mono (written h)
  | write h b hroom => exact (snkAppended_fields (bs := [b]) hroom).1.mono (written h)

theorem Updates.sameBut (h : Updates es s t) : SameBut (es.flatMap Effect.groups) s t :=
  h.invariant (P := SameBut _ s) (fun _ _ hu hs => hs.trans hu.sameBut) (.refl _ s)

/-- With no update that moves the read cursor, the input that is left is the same. -/
theorem Updates.srcAvail_eq (hread : .read ∉ es) (h : Updates es s t) : srcAvail t = srcAvail s := by
  refine h.invariant (P := fun t => srcAvail t = srcAvail s) (fun y z hu hy => ?_) rfl
  rw [← hy]
  cases hu with
  | read h p => exact absurd h hread
  | _ => rfl

/-! ### The shared operations -/

theorem srcMoved_update (hread : .read ∈ es) (k : Nat) (s : State) : Update es s (srcMoved k s) := .read hread _

/-- Moves of the read cursor within the input need no free value. -/
theorem srcAdvance_updates {k : Nat} (hread : .read ∈ es) (h : .tick ∈ es ∨ k ≤ srcAvail s) : Updates es s (srcAdvance k s) := by
  obtain htick | hin := h
  · unfold srcAdvance
    split
    · exact .single (.read hread _)
    · exact .head (.read hread _) (.single (.tick htick))
  · rw [srcAdvance_eq hin]
    exact .single (.read hread _)

theorem srcRead8_updates (hread : .read ∈ es) (h : .tick ∈ es ∨ 1 ≤ srcAvail s) :
    ∃ b t, srcRead8 s = .ok b t ∧ Updates es s t := by
  unfold srcRead8
  split
  · next hin => exact ⟨_, _, rfl, srcAdvance_updates hread (.inr hin)⟩
  · next hout =>
    have htick := h.resolve_right hout
    exact ⟨_, _, rfl, .head (.tick htick) (srcAdvance_updates hread (.inl htick))⟩

theorem snkWrite8_updates (hwrite : .write ∈ es) (b : Byte) (s : State) : Updates es s (snkWrite8 b s).state := by
  by_cases hroom : s.cur.snkPos.toNat < s.cur.snkCap.toNat
  · rw [snkWrite8_eq hroom]
    exact .single (.write hwrite b hroom)
  · rw [snkWrite8_full (Nat.not_lt.1 hroom)]
    exact .refl

theorem snkWriteList_updates (hwrite : .write ∈ es) (bs : List Byte) (s : State) :
    Updates es s (snkWriteList bs s).state := by
  induction bs generalizing s with
  | nil => exact .refl
  | cons b bs ih => exact .bind (snkWrite8_updates hwrite b s) fun _ t _ => ih t


/-! ### The framer's writer -/

theorem framerEmit_updates (hframer : .framer ∈ es) (hwrite : .write ∈ es) (s : State) :
    Updates es s (framerEmit s).state := by
  unfold framerEmit
  split
  · exact .refl
  · exact .bind (snkWriteList_updates hwrite _ s) fun _ t _ => .single (.framer hframer (.regs 0 t.sb.rrem t.sb.rend))

theorem framerEmitIfFull_updates (hframer : .framer ∈ es) (hwrite : .write ∈ es) (s : State) :
    Updates es s (framerEmitIfFull s).state := by
  unfold framerEmitIfFull
  split
  · exact framerEmit_updates hframer hwrite s
  · exact .refl

/-- R222: after the first emission of a put there is place for the byte. -/
theorem wcnt_lt_of_framerEmitIfFull (h : framerEmitIfFull s = .ok () t) : t.sb.wcnt.toNat < 255 := by
  obtain ⟨t', hok, -, hframed⟩ := framerEmitIfFull_framed (room_of_framerEmitIfFull h)
  obtain ⟨-, rfl⟩ := Run.ok.inj (h.symm.trans hok)
  rw [← wbufBytes_length, hframed.pending]
  exact emitFull_pending_length s.sb

theorem framerPut_updates (hframer : .framer ∈ es) (hwrite : .write ∈ es) (b : Byte) (s : State) :
    Updates es s (framerPut b s).state := by
  refine .bind (framerEmitIfFull_updates hframer hwrite s) fun _ t ht => ?_
  have hbuffer : Update es t (framerBuffer b t) := .framer hframer (.push b (wcnt_lt_of_framerEmitIfFull ht))
  exact .head hbuffer (framerEmitIfFull_updates hframer hwrite _)

theorem framerOpen_updates (hframer : .framer ∈ es) (s : State) : Updates es s (framerOpen s) :=
  .single (.framer hframer (.regs 0 s.sb.rrem s.sb.rend))

theorem framerClose_updates (hframer : .framer ∈ es) (hwrite : .write ∈ es) (s : State) :
    Updates es s (framerClose s).state := by
  refine .bind ?_ fun _ t _ => snkWrite8_updates hwrite 0 t
  split
  · exact .refl
  · exact framerEmit_updates hframer hwrite s

/-! ### The framer's reader -/

/-- No free value will be needed: the block being read lies in the input, unless the host moved a cursor (R329; log 6, log 7). -/
def Guarded (es : List Effect) (s : State) : Prop := .tick ∈ es ∨ s.sb.rrem.toNat ≤ srcAvail s

/-- Updates of kinds in `es` after which `Guarded` holds again. -/
def UpdatesGuarded (es : List Effect) (s t : State) : Prop := Updates es s t ∧ Guarded es t

theorem UpdatesGuarded.bind {r : Run α} {f : α → State → Run β} (hr : UpdatesGuarded es s r.state)
    (hf : ∀ a t, r = .ok a t → Guarded es t → UpdatesGuarded es t (f a t).state) : UpdatesGuarded es s (r.bind f).state := by
  cases r with
  | ok a t => exact ⟨hr.1.trans (hf a t rfl hr.2).1, (hf a t rfl hr.2).2⟩
  | raise k t => exact hr

/-- Updates that neither move the read cursor nor touch the framer keep `Guarded`. -/
theorem Guarded.of_updates (h : Guarded es s) (hst : Updates fs s t) (hread : .read ∉ fs) (hframer : .framer ∉ fs) :
    Guarded es t := by
  have hsb : t.sb = s.sb := hst.sameBut .sb fun hmem => by
    obtain ⟨e, he, hg⟩ := List.mem_flatMap.1 hmem
    cases e <;> simp [Effect.groups] at hg
    exact hframer he
  rw [Guarded, hsb, hst.srcAvail_eq hread]
  exact h

theorem framerTake_updates (hread : .read ∈ es) (hframer : .framer ∈ es) (h : Guarded es s) (hrem : s.sb.rrem ≠ 0) :
    UpdatesGuarded es s (framerTake s).state := by
  have hpos : s.sb.rrem.toNat ≠ 0 := fun hz => hrem (BitVec.eq_of_toNat_eq hz)
  obtain htick | hin := h
  · obtain ⟨b, t, hok, hst⟩ := srcRead8_updates hread (.inl htick)
    rw [framerTake, hok]
    exact ⟨hst.tail (.framer hframer (.regs t.sb.wcnt _ t.sb.rend)), .inl htick⟩
  · have havail : 1 ≤ srcAvail s := by omega
    rw [framerTake_eq havail]
    refine ⟨.head (.read hread _) (.single (.framer hframer (.regs s.sb.wcnt _ s.sb.rend))), .inr ?_⟩
    show (s.sb.rrem - 1).toNat ≤ srcAvail (srcMoved 1 s)
    rw [srcAvail_srcMoved havail]
    bv_omega

theorem framerLength_updates (hread : .read ∈ es) (hframer : .framer ∈ es) (h : Guarded es s) (hrem : s.sb.rrem = 0) :
    UpdatesGuarded es s (framerLength s).state := by
  have moved : Update es s (srcMoved 1 s) := .read hread _
  have none_left : ∀ t : State, t.sb.rrem = 0 → Guarded es t := fun t ht => .inr (by rw [ht]; exact Nat.zero_le _)
  obtain ⟨-, hraise⟩ | ⟨-, -, hok⟩ | ⟨-, -, hraise⟩ | ⟨-, hfit, hok⟩ := framerLength_cases s
  · rw [hraise]
    exact ⟨.refl, h⟩
  · rw [hok]
    exact ⟨.head moved (.single (.framer hframer (.regs s.sb.wcnt _ true))), none_left _ hrem⟩
  · rw [hraise]
    exact ⟨.single moved, none_left _ hrem⟩
  · rw [hok]
    refine ⟨.head moved (.single (.framer hframer (.regs s.sb.wcnt _ s.sb.rend))), .inr ?_⟩
    show (srcByte s s.cur.srcPos.toNat).toNat ≤ srcAvail (srcMoved 1 s)
    rw [srcAvail_srcMoved (by omega)]
    omega

/-- R227, R230: a length byte that ends normally with the chain not ended opens a block. -/
theorem rrem_ne_of_framerLength (h : framerLength s = .ok () t) (hend : t.sb.rend = false) : t.sb.rrem ≠ 0 := by
  obtain ⟨-, hraise⟩ | ⟨-, -, hok⟩ | ⟨-, -, hraise⟩ | ⟨hsome, -, hok⟩ := framerLength_cases s
  · cases h.symm.trans hraise
  · obtain ⟨-, rfl⟩ := Run.ok.inj (h.symm.trans hok)
    simp at hend
  · cases h.symm.trans hraise
  · obtain ⟨-, rfl⟩ := Run.ok.inj (h.symm.trans hok)
    exact hsome

theorem framerGet_updates (hread : .read ∈ es) (hframer : .framer ∈ es) (h : Guarded es s) :
    UpdatesGuarded es s (framerGet s).state := by
  unfold framerGet
  split
  · exact ⟨.refl, h⟩
  · split
    · next hrem =>
      refine .bind (framerLength_updates hread hframer h hrem) fun _ t ht hguard => ?_
      split
      · exact ⟨.refl, hguard⟩
      · next hend => exact framerTake_updates hread hframer hguard (rrem_ne_of_framerLength ht (by simpa using hend))
    · next hrem => exact framerTake_updates hread hframer h hrem

theorem framerSkipBlock_updates (hread : .read ∈ es) (hframer : .framer ∈ es) (h : Guarded es s) :
    UpdatesGuarded es s (framerSkipBlock s) ∧ (framerSkipBlock s).sb.rrem = 0 :=
  ⟨⟨(srcAdvance_updates hread h).tail (.framer hframer (.regs _ 0 _)), .inr (Nat.zero_le _)⟩, rfl⟩

theorem framerSkipLoop_updates (hread : .read ∈ es) (hframer : .framer ∈ es) (n : Nat) (h : Guarded es s) :
    UpdatesGuarded es s (framerSkipLoop n s).state := by
  induction n generalizing s with
  | zero => unfold framerSkipLoop; split <;> exact ⟨.refl, h⟩
  | succ n ih =>
    unfold framerSkipLoop
    split
    · exact ⟨.refl, h⟩
    · obtain ⟨⟨hskip, hguard⟩, hrem⟩ := framerSkipBlock_updates hread hframer h
      have hrest : UpdatesGuarded es (framerSkipBlock s) _ :=
        .bind (framerLength_updates hread hframer hguard hrem) fun _ t _ ht => ih ht
      exact ⟨hskip.trans hrest.1, hrest.2⟩

theorem framerROpen_updates (hframer : .framer ∈ es) (s : State) : UpdatesGuarded es s (framerROpen s) :=
  ⟨.single (.framer hframer (.regs s.sb.wcnt 0 false)), .inr (Nat.zero_le _)⟩

/-! ### The packer and the unpacker -/

theorem putByte_updates (hframer : .framer ∈ es) (hwrite : .write ∈ es) (b : Byte) (mode : Mode) (s : State) :
    Updates es s (putByte b mode s).state := by
  cases mode with
  | framed => exact framerPut_updates hframer hwrite b s
  | raw => exact snkWrite8_updates hwrite b s

theorem packDrainLoop_updates (hpacker : .packer ∈ es) (hframer : .framer ∈ es) (hwrite : .write ∈ es) (mode : Mode)
    (n : Nat) (s : State) : Updates es s (packDrainLoop mode n s).state := by
  induction n generalizing s with
  | zero => exact .refl
  | succ n ih =>
    have hput := putByte_updates hframer hwrite (s.bp.wacc.setWidth 8) mode (packShift s)
    exact .head (.packer hpacker _) (Updates.bind hput fun _ t _ => ih t)

theorem packBits_updates (hpacker : .packer ∈ es) (hframer : .framer ∈ es) (hwrite : .write ∈ es) (c w : Nat) (mode : Mode)
    (s : State) : Updates es s (packBits c w mode s).state :=
  .bind (packDrainLoop_updates hpacker hframer hwrite mode _ s) fun _ t _ =>
    .head (.packer hpacker _) (packDrainLoop_updates hpacker hframer hwrite mode _ (packMerge c w t))

theorem packFlush_updates (hpacker : .packer ∈ es) (hframer : .framer ∈ es) (hwrite : .write ∈ es) (mode : Mode) (s : State) :
    Updates es s (packFlush mode s).state := by
  refine .bind (packDrainLoop_updates hpacker hframer hwrite mode _ s) fun _ t _ => ?_
  split
  · exact .refl
  · exact .head (.packer hpacker _) (putByte_updates hframer hwrite _ mode _)

/-- A raw read checks that there is a byte, so it needs no guard (R206). -/
theorem getByte_updates (hread : .read ∈ es) (hframer : .framer ∈ es) {mode : Mode} (h : mode = .raw ∨ Guarded es s) :
    Updates es s (getByte mode s).state ∧ (mode = .raw ∨ Guarded es (getByte mode s).state) := by
  cases mode with
  | framed =>
    have hget : UpdatesGuarded es s (getByte .framed s).state := by
      refine .bind (framerGet_updates hread hframer (h.resolve_left (by simp))) fun r t _ ht => ?_
      cases r <;> exact ⟨.refl, ht⟩
    exact ⟨hget.1, .inr hget.2⟩
  | raw =>
    refine ⟨?_, .inl rfl⟩
    by_cases havail : 1 ≤ srcAvail s
    · rw [getByte_raw havail]
      exact .single (.read hread _)
    · rw [getByte, if_pos (by omega)]
      exact .refl

theorem unpackFill_updates (hread : .read ∈ es) (hframer : .framer ∈ es) (hpacker : .packer ∈ es) (w : Nat) {mode : Mode}
    (n : Nat) (h : mode = .raw ∨ Guarded es s) :
    Updates es s (unpackFill w mode n s).state ∧ (mode = .raw ∨ Guarded es (unpackFill w mode n s).state) := by
  induction n generalizing s with
  | zero => exact ⟨.refl, h⟩
  | succ n ih =>
    unfold unpackFill
    split
    · obtain ⟨hget, hguard⟩ := getByte_updates hread hframer h
      cases hok : getByte mode s with
      | raise k t =>
        rw [hok] at hget hguard
        exact ⟨hget, hguard⟩
      | ok b t =>
        rw [hok] at hget hguard
        obtain ⟨hrest, hguard'⟩ := ih (s := unpackMerge b t) hguard
        exact ⟨hget.trans (.head (.packer hpacker _) hrest), hguard'⟩
    · exact ⟨.refl, h⟩

theorem unpackBits_updates (hread : .read ∈ es) (hframer : .framer ∈ es) (hpacker : .packer ∈ es) (w : Nat) {mode : Mode}
    (h : mode = .raw ∨ Guarded es s) :
    Updates es s (unpackBits w mode s).state ∧ (mode = .raw ∨ Guarded es (unpackBits w mode s).state) := by
  obtain ⟨hfill, hguard⟩ := unpackFill_updates hread hframer hpacker w 2 h
  unfold unpackBits
  cases hok : unpackFill w mode 2 s with
  | raise k t =>
    rw [hok] at hfill hguard
    exact ⟨hfill, hguard⟩
  | ok _ t =>
    rw [hok] at hfill hguard
    exact ⟨hfill.tail (.packer hpacker _), hguard⟩

/-! ### The string table -/

theorem tableReset_updates (htable : .table ∈ es) (rb : Nat) (s : State) : Updates es s (tableReset rb s).state := by
  obtain ⟨h3, h12, hok⟩ | ⟨-, hraise⟩ | ⟨-, hraise⟩ := tableReset_cases rb s
  · rw [hok]
    exact .single (.table htable (.reset ⟨h3, h12⟩))
  all_goals
    rw [hraise]
    exact .refl

theorem tableAdd_updates (htable : .table ∈ es) (base : Nat) (b : Byte) (fw : Bool) (s : State) :
    Updates es s (tableAdd base b fw s).state := by
  obtain ⟨hbase, hfree, hok⟩ | ⟨-, hraise⟩ := tableAdd_cases base b fw s
  · rw [hok]
    exact .single (.table htable (.add b fw hbase hfree))
  · rw [hraise]
    exact .refl

theorem tableWrite_updates (hwrite : .write ∈ es) (c : Nat) (s : State) : Updates es s (tableWrite c s).state := by
  unfold tableWrite
  split
  · exact .refl
  · dsimp only
    split
    · exact .refl
    · exact .bind (snkWriteList_updates hwrite _ s) fun _ _ _ => .refl

/-! ### The compressor -/

/-- The kinds of update of `PutCode` and the table, which move no read cursor. -/
def writerEffects : List Effect := [.packer, .framer, .write, .table, .lzw]

theorem putPacked_updates (c : Nat) (o : Unit) (s : State) : Updates writerEffects s (putPacked c o s).state :=
  packBits_updates (by decide) (by decide) (by decide) _ _ _ s

theorem capacityReset_updates (rb : Nat) (o : Unit) (s : State) :
    Updates writerEffects s (capacityReset putPacked rb o s).state := by
  unfold capacityReset
  split
  · refine .bind (putPacked_updates _ o s) fun _ t _ => ?_
    exact .head (.lzw (by decide) _) (Updates.bind (tableReset_updates (by decide) rb _) fun _ _ _ => .refl)
  · exact .refl

theorem emitAndRegister_updates (rb : Nat) (b : Byte) (o : Unit) (s : State) :
    Updates writerEffects s (emitAndRegister putPacked rb b o s).state := by
  refine .bind (putPacked_updates _ o s) fun _ t _ => ?_
  refine .bind (tableAdd_updates (by decide) _ b true t) fun _ u _ => ?_
  exact .bind (capacityReset_updates rb _ u) fun _ v _ => .single (.lzw (by decide) _)

/-- Every round reads one of the bytes that were left at the start. -/
theorem compressLoop_updates (hwriter : writerEffects ⊆ es) (hread : .read ∈ es) (rb : Nat) {n : Nat} (pfx : List Byte)
    (o : Unit) (hn : n ≤ srcAvail s) : Updates es s (compressLoop putPacked rb n pfx o s).state := by
  induction n generalizing s pfx o with
  | zero => exact .refl
  | succ n ih =>
    have hlzw : .lzw ∈ es := hwriter (by decide)
    have hleft : n ≤ srcAvail (srcMoved 1 s) := by rw [srcAvail_srcMoved (by omega)]; omega
    unfold compressLoop
    rw [srcRead8_eq (by omega), Run.bind_ok]
    refine .head (srcMoved_update hread 1 s) ?_
    generalize srcByte s s.cur.srcPos.toNat = b, srcMoved 1 s = t at *
    split
    · exact .refl
    · split
      · exact .head (.lzw hlzw _) (ih (s := t.setLz _) [b] o hleft)
      · split
        · exact .head (.lzw hlzw _) (ih (s := t.setLz _) (pfx ++ [b]) o hleft)
        · have hemit := emitAndRegister_updates rb b o t
          refine Updates.bind (hemit.mono hwriter) fun o' u hu => ih [b] o' ?_
          rw [hu] at hemit
          have hsame : srcAvail u = srcAvail t := hemit.srcAvail_eq (by decide)
          omega

theorem compressTail_updates (o : Unit) (s : State) : Updates writerEffects s (compressTail putPacked o s).state := by
  refine .bind ?_ fun o t _ => putPacked_updates _ o t
  split
  · exact .refl
  · refine .bind (putPacked_updates _ o s) fun _ t _ => ?_
    rw [widenAtEnd_eq]
    exact .single (.table (by decide) .widen)

theorem compressCodes_updates (hwriter : writerEffects ⊆ es) (hread : .read ∈ es) (rb : Nat) (o : Unit) (s : State) :
    Updates es s (compressCodes putPacked rb o s).state := by
  have hlzw : .lzw ∈ es := hwriter (by decide)
  refine .head (.lzw hlzw _) (Updates.bind ((putPacked_updates _ o _).mono hwriter) fun o t _ => ?_)
  refine .head (.lzw hlzw _) (Updates.bind (compressLoop_updates hwriter hread rb [] o (Nat.le_refl _)) fun o u _ => ?_)
  exact (compressTail_updates o u).mono hwriter

theorem compressOpen_updates (rb : Nat) (s : State) : Updates writerEffects s (compressOpen rb s).state := by
  refine .bind (tableReset_updates (by decide) rb s) fun _ t _ => ?_
  refine .bind (snkWrite8_updates (by decide) _ t) fun _ u _ => ?_
  exact (framerOpen_updates (by decide) u).tail (.packer (by decide) _)

theorem compressClose_updates (s : State) : Updates writerEffects s (compressClose s).state :=
  .bind (packFlush_updates (by decide) (by decide) (by decide) .framed s) fun _ t _ =>
    framerClose_updates (by decide) (by decide) t

/-! ### The decompressor -/

/-- The kinds of update of the decompressor that move no read cursor. -/
def codeEffects : List Effect := [.table, .lzw, .write]

theorem decompressAdd_updates (c : Nat) (s : State) : Updates codeEffects s (decompressAdd c s).state := by
  unfold decompressAdd
  split
  · split <;> exact .refl
  · split
    · exact .bind (tableAdd_updates (by decide) _ _ false s) fun _ _ _ => .refl
    · split
      · exact .bind (tableAdd_updates (by decide) _ _ false s) fun _ _ _ => .refl
      · exact .refl

theorem decompressCode_updates (c : Nat) (s : State) : Updates codeEffects s (decompressCode c s).state := by
  unfold decompressCode
  split
  · exact .bind (tableReset_updates (by decide) _ s) fun _ _ _ => .single (.lzw (by decide) _)
  · refine .bind (decompressAdd_updates c s) fun _ t _ => ?_
    exact .bind (tableWrite_updates (by decide) c t) fun _ _ _ => .single (.lzw (by decide) _)

/-- A round of the loop of step 2 (R181). -/
theorem decompressLoop_succ (n : Nat) (s : State) :
    decompressLoop (n + 1) s = (unpackBits s.st.codeBits.toNat .framed s).bind fun c t =>
      if c = t.st.endCode.toNat then .ok () t else (decompressCode c t).bind fun _ u => decompressLoop n u := by
  rw [decompressLoop]
  congr 1
  funext c t
  unfold decompressCode
  split
  · rfl
  · split <;> rfl

theorem decompressLoop_updates (hcode : codeEffects ⊆ es) (hread : .read ∈ es) (hframer : .framer ∈ es)
    (hpacker : .packer ∈ es) (n : Nat) (h : Guarded es s) : UpdatesGuarded es s (decompressLoop n s).state := by
  induction n generalizing s with
  | zero => exact ⟨.refl, h⟩
  | succ n ih =>
    rw [decompressLoop_succ]
    obtain ⟨hget, hguard⟩ := unpackBits_updates hread hframer hpacker s.st.codeBits.toNat (mode := .framed) (.inr h)
    refine .bind ⟨hget, hguard.resolve_left (by simp)⟩ fun c t _ ht => ?_
    split
    · exact ⟨.refl, ht⟩
    · have hupdates := decompressCode_updates c t
      exact .bind ⟨hupdates.mono hcode, ht.of_updates hupdates (by decide) (by decide)⟩ fun _ u _ hu => ih hu

theorem framerDrain_updates (hread : .read ∈ es) (hframer : .framer ∈ es) (h : Guarded es s) :
    Updates es s (framerDrain s).state := by
  obtain ⟨⟨hskip, hguard⟩, -⟩ := framerSkipBlock_updates hread hframer h
  refine hskip.trans ?_
  unfold framerDrain drainTail
  generalize framerSkipBlock s = t
  refine Updates.bind ?_ fun _ u _ => .single (.framer hframer (.regs u.sb.wcnt u.sb.rrem true))
  split
  · exact .refl
  · next havail =>
    rw [srcRead8_eq (by omega), Run.bind_ok]
    exact .head (srcMoved_update hread 1 t) (srcAdvance_updates hread (.inr (Nat.min_le_right ..)))

theorem decompressOpen_updates (htable : .table ∈ es) (hread : .read ∈ es) (hframer : .framer ∈ es) (hpacker : .packer ∈ es)
    (hlzw : .lzw ∈ es) (s : State) : Updates es s (decompressOpen s).state ∧
      ∀ t, decompressOpen s = .ok () t → Guarded es t := by
  unfold decompressOpen
  split
  · exact ⟨.refl, fun _ h => by cases h⟩
  · next havail =>
    rw [srcRead8_eq (by omega), Run.bind_ok]
    refine ⟨.head (.read hread _) (Updates.bind (tableReset_updates htable _ _) fun _ t _ => ?_), fun t ht => ?_⟩
    · exact .head (.packer hpacker _) ((framerROpen_updates hframer _).1.tail (.lzw hlzw _))
    · obtain ⟨_, u, -, hu⟩ := Run.bind_eq_ok.1 ht
      obtain ⟨-, rfl⟩ := Run.ok.inj hu
      exact .inr (Nat.zero_le _)

/-! ### The records and the comment -/

/-- A 16-bit read is two reads within the input. -/
theorem srcRead16_updates (hread : .read ∈ es) (h : 2 ≤ srcAvail s) : Updates es s (srcRead16 s).state := by
  rw [srcRead16_eq h]
  exact .single (.read hread _)

theorem writeRecord_updates (hwrite : .write ∈ es) (bs : List Byte) (s : State) : Updates es s (writeRecord bs s).state := by
  unfold writeRecord
  split
  · exact .refl
  · exact snkWriteList_updates hwrite bs s

theorem commentPutLoop_updates (hread : .read ∈ es) (hframer : .framer ∈ es) (hwrite : .write ∈ es) {n : Nat}
    (hn : n ≤ srcAvail s) : Updates es s (commentPutLoop n s).state := by
  induction n generalizing s with
  | zero => exact .refl
  | succ n ih =>
    rw [commentPutLoop, srcRead8_eq (by omega), Run.bind_ok]
    refine .head (.read hread _) (Updates.bind (framerPut_updates hframer hwrite _ _) fun _ t ht => ih ?_)
    have hput : Updates [.framer, .write] (srcMoved 1 s) t := by
      have := framerPut_updates (es := [.framer, .write]) (by decide) (by decide) (srcByte s s.cur.srcPos.toNat) (srcMoved 1 s)
      rwa [show framerPut _ _ = _ from ht] at this
    rw [hput.srcAvail_eq (by decide), srcAvail_srcMoved (by omega)]
    omega

theorem commentGetLoop_updates (hread : .read ∈ es) (hframer : .framer ∈ es) (hwrite : .write ∈ es) (n count : Nat)
    (h : Guarded es s) : Updates es s (commentGetLoop n count s).state := by
  induction n generalizing s count with
  | zero => exact .refl
  | succ n ih =>
    obtain ⟨hget, hguard⟩ := framerGet_updates hread hframer h
    refine Updates.bind hget fun r t ht => ?_
    rw [ht] at hguard
    cases r with
    | none => exact .refl
    | some b =>
      refine Updates.bind (snkWrite8_updates hwrite b t) fun _ u hu => ih _ ?_
      have hwritten := snkWrite8_updates (es := [.write]) (by decide) b t
      rw [hu] at hwritten
      exact hguard.of_updates hwritten (by decide) (by decide)

end

end Sys2Proof.Machine
end

section
/-! Every command as the end of its body (spec/46_system_commands.md R273), the kinds of update each body is made of, and what follows
for all commands at once: how they end, their frame, their output and the free values. -/

namespace Sys2Proof.Machine

open Sys2Proof.Claims

/-! ### Bodies -/

/-- The body of a command; `SOFT_RESET` has none. -/
def bodyOf : Instr → State → Run Unit
  | .nop => nopBody
  | .stReset => stResetBody
  | .stAdd => stAddBody
  | .stFind => stFindBody
  | .stWrstr => stWrstrBody
  | .stFirst => stFirstBody
  | .stUnused => stUnusedBody
  | .stBase => stBaseBody
  | .lzwCompress => lzwCompressBody
  | .lzwEstimate => lzwEstimateBody
  | .lzwDecompress => lzwDecompressBody
  | .bpInit => bpInitBody
  | .bpPut => bpPutBody
  | .bpFlush => bpFlushBody
  | .bpGet => bpGetBody
  | .sbOpen => sbOpenBody
  | .sbPut => sbPutBody
  | .sbClose => sbCloseBody
  | .sbRopen => sbRopenBody
  | .sbGet => sbGetBody
  | .sbSkip => sbSkipBody
  | .hdrWrFile => hdrWrFileBody
  | .hdrRdFile => hdrRdFileBody
  | .hdrWrImage => hdrWrImageBody
  | .hdrRdImage => hdrRdImageBody
  | .hdrWrGcb => hdrWrGcbBody
  | .hdrRdGcb => hdrRdGcbBody
  | .hdrWrComment => hdrWrCommentBody
  | .hdrRdComment => hdrRdCommentBody
  | .clrFault => clrFaultBody
  | .softReset => nopBody

/-- A command of the general form: it runs its body and ends (R273). -/
abbrev Ordinary (i : Instr) : Prop := i ≠ .clrFault ∧ i ≠ .softReset

theorem exec_eq_runCommand {i : Instr} (hi : Ordinary i) (s : State) : exec i s = runCommand i (bodyOf i) s := by
  obtain ⟨hclr, hsoft⟩ := hi
  cases i
  case clrFault => exact absurd rfl hclr
  case softReset => exact absurd rfl hsoft
  all_goals rfl

/-- The kinds of update in a command's body, the results and the free values apart. -/
def effectsOf : Instr → List Effect
  | .stReset | .stAdd => [.table]
  | .stWrstr => [.write]
  | .lzwCompress => [.packer, .framer, .write, .table, .lzw, .read]
  | .lzwDecompress => [.packer, .framer, .write, .table, .lzw, .read]
  | .bpInit => [.packer]
  | .bpPut | .bpFlush => [.packer, .framer, .write]
  | .bpGet => [.packer, .framer, .read]
  | .sbOpen | .sbRopen => [.framer]
  | .sbPut | .sbClose => [.framer, .write]
  | .sbGet | .sbSkip => [.framer, .read]
  | .hdrWrFile | .hdrWrImage | .hdrWrGcb => [.write]
  | .hdrRdFile | .hdrRdImage | .hdrRdGcb => [.header, .read]
  | .hdrWrComment | .hdrRdComment => [.framer, .write, .read]
  | _ => []

/-- The commands that return results. -/
def resultsOf : Instr → List Effect
  | .stAdd | .stFind | .stWrstr | .stFirst | .stUnused | .stBase => [.result]
  | .lzwCompress | .lzwEstimate | .lzwDecompress => [.result]
  | .bpGet | .sbGet => [.result]
  | .hdrWrComment | .hdrRdComment => [.result]
  | _ => []

/-- A body makes updates of the kinds `es`, and of the kinds `rs` besides if it ends normally; a body that raises leaves the
results alone (R290). -/
def EndsWithin (rs es : List Effect) (s : State) : Run Unit → Prop
  | .ok _ t => Updates (rs ++ es) s t
  | .raise _ t => Updates es s t

section
variable {α : Type} {rs es : List Effect} {s : State}

theorem Updates.endsWithin {r : Run Unit} (h : Updates es s r.state) : EndsWithin rs es s r := by
  cases r with
  | ok _ t => exact h.mono (List.subset_append_right _ _)
  | raise k t => exact h

theorem endsWithin_finish1 (v : Nat) (s : State) : EndsWithin [.result] es s (finish1 v s) :=
  .single (.result (by simp) _)

theorem endsWithin_finish2 (v w : Nat) (s : State) : EndsWithin [.result] es s (finish2 v w s) :=
  .single (.result (by simp) _)

theorem EndsWithin.bind {r : Run α} {f : α → State → Run Unit} (h : Updates es s r.state)
    (hf : ∀ a t, r = .ok a t → EndsWithin rs es t (f a t)) : EndsWithin rs es s (r.bind f) := by
  cases r with
  | raise k t => exact h
  | ok a t =>
    have hrest := hf a t rfl
    rw [Run.bind_ok]
    cases hft : f a t with
    | ok _ u => rw [hft] at hrest; exact (h.mono (List.subset_append_right _ _)).trans hrest
    | raise k u => rw [hft] at hrest; exact h.trans hrest

theorem stAddBody_endsWithin (htable : .table ∈ es) (s : State) : EndsWithin [.result] es s (stAddBody s) := by
  unfold stAddBody
  split
  · exact .refl
  · exact .bind (tableAdd_updates htable _ _ _ s) fun _ t _ => endsWithin_finish1 _ t

theorem stFindBody_endsWithin (s : State) : EndsWithin [.result] es s (stFindBody s) := by
  unfold stFindBody
  split
  · exact .refl
  · exact endsWithin_finish1 _ s

theorem stFirstBody_endsWithin (s : State) : EndsWithin [.result] es s (stFirstBody s) := by
  unfold stFirstBody
  split
  · exact .refl
  · exact endsWithin_finish1 _ s

theorem stBaseBody_endsWithin (s : State) : EndsWithin [.result] es s (stBaseBody s) := by
  unfold stBaseBody
  split
  · exact .refl
  · exact endsWithin_finish1 _ s

theorem lzwCompressBody_endsWithin (hwriter : writerEffects ⊆ es) (hread : .read ∈ es) (s : State) :
    EndsWithin [.result] es s (lzwCompressBody s) := by
  refine .bind ((compressOpen_updates _ s).mono hwriter) fun _ t _ => ?_
  refine .bind (compressCodes_updates hwriter hread _ () t) fun _ u _ => ?_
  exact .bind ((compressClose_updates u).mono hwriter) fun _ v _ => endsWithin_finish2 _ _ v

theorem lzwEstimateBody_endsWithin (s : State) : EndsWithin [.result] es s (lzwEstimateBody s) := by
  unfold lzwEstimateBody
  split
  · exact .single (.result (by simp) _)
  · exact .refl

theorem lzwDecompressBody_endsWithin (hcode : codeEffects ⊆ es) (hread : .read ∈ es) (hframer : .framer ∈ es)
    (hpacker : .packer ∈ es) (s : State) : EndsWithin [.result] es s (lzwDecompressBody s) := by
  obtain ⟨hopen, hguard⟩ :=
    decompressOpen_updates (hcode (by decide)) hread hframer hpacker (hcode (by decide)) s
  refine .bind hopen fun _ t ht => ?_
  obtain ⟨hloop, hguard'⟩ := decompressLoop_updates hcode hread hframer hpacker (decompressBound t) (hguard t ht)
  refine .bind hloop fun _ u hu => ?_
  rw [hu] at hguard'
  exact .bind (framerDrain_updates hread hframer hguard') fun _ v _ => endsWithin_finish2 _ _ v

theorem bpPutBody_endsWithin (hpacker : .packer ∈ es) (hframer : .framer ∈ es) (hwrite : .write ∈ es) (s : State) :
    EndsWithin rs es s (bpPutBody s) := by
  unfold bpPutBody
  split
  · exact .refl
  · exact (packBits_updates hpacker hframer hwrite _ _ _ s).endsWithin

theorem bpFlushBody_endsWithin (hpacker : .packer ∈ es) (hframer : .framer ∈ es) (hwrite : .write ∈ es) (s : State) :
    EndsWithin rs es s (bpFlushBody s) := by
  unfold bpFlushBody
  split
  · exact .refl
  · exact (packFlush_updates hpacker hframer hwrite _ s).endsWithin

theorem bpGetBody_endsWithin (hpacker : .packer ∈ es) (hframer : .framer ∈ es) (hread : .read ∈ es) (h : Guarded es s) :
    EndsWithin [.result] es s (bpGetBody s) := by
  unfold bpGetBody
  split
  · exact .refl
  · exact .bind (unpackBits_updates hread hframer hpacker _ (.inr h)).1 fun _ t _ => endsWithin_finish1 _ t

theorem sbPutBody_endsWithin (hframer : .framer ∈ es) (hwrite : .write ∈ es) (s : State) : EndsWithin rs es s (sbPutBody s) := by
  unfold sbPutBody
  split
  · exact .refl
  · exact (framerPut_updates hframer hwrite _ s).endsWithin

theorem sbGetBody_endsWithin (hframer : .framer ∈ es) (hread : .read ∈ es) (h : Guarded es s) :
    EndsWithin [.result] es s (sbGetBody s) := by
  refine .bind (framerGet_updates hread hframer h).1 fun r t _ => ?_
  cases r <;> exact endsWithin_finish2 _ _ t

theorem loaded_endsWithin (hheader : .header ∈ es) (hread : .read ∈ es) (n : Nat) (h : HeaderRegs) (s : State) :
    EndsWithin rs es s (.ok () ((srcMoved n s).setHdr h)) :=
  Updates.endsWithin (r := .ok () _) (.head (srcMoved_update hread n s) (.single (.header hheader h)))

theorem hdrRdFileBody_endsWithin (hheader : .header ∈ es) (hread : .read ∈ es) (s : State) :
    EndsWithin rs es s (hdrRdFileBody s) := by
  by_cases h : srcAvail s < 13 ∨ srcBytes s s.cur.srcPos.toNat 6 ≠ Config.signature
  · rw [hdrRdFileBody_invalid h]
    exact .refl
  · obtain ⟨havail, hsig⟩ := not_or.1 h
    rw [hdrRdFileBody_loads (Nat.not_lt.1 havail) (not_not.1 hsig)]
    exact loaded_endsWithin hheader hread _ _ s

theorem hdrRdImageBody_endsWithin (hheader : .header ∈ es) (hread : .read ∈ es) (s : State) :
    EndsWithin rs es s (hdrRdImageBody s) := by
  by_cases h : srcAvail s < 9
  · rw [hdrRdImageBody_short h]
    exact .refl
  · rw [hdrRdImageBody_loads (Nat.not_lt.1 h)]
    exact loaded_endsWithin hheader hread _ _ s

theorem hdrRdGcbBody_endsWithin (hheader : .header ∈ es) (hread : .read ∈ es) (s : State) :
    EndsWithin rs es s (hdrRdGcbBody s) := by
  by_cases h : srcAvail s < 6 ∨ srcByte s s.cur.srcPos.toNat ≠ 4 ∨ srcByte s (s.cur.srcPos.toNat + 5) ≠ 0
  · rw [hdrRdGcbBody_invalid h]
    exact .refl
  · obtain ⟨havail, hrest⟩ := not_or.1 h
    obtain ⟨hsize, hzero⟩ := not_or.1 hrest
    rw [hdrRdGcbBody_loads (Nat.not_lt.1 havail) (not_not.1 hsize) (not_not.1 hzero)]
    exact loaded_endsWithin hheader hread _ _ s

theorem hdrWrCommentBody_endsWithin (hframer : .framer ∈ es) (hwrite : .write ∈ es) (hread : .read ∈ es) (s : State) :
    EndsWithin [.result] es s (hdrWrCommentBody s) := by
  have hopen := framerOpen_updates hframer s
  have hloop := commentPutLoop_updates (s := framerOpen s) hread hframer hwrite (Nat.le_refl (srcAvail s))
  refine .bind (hopen.trans hloop) fun _ t _ => ?_
  exact .bind (framerClose_updates hframer hwrite t) fun _ u _ => endsWithin_finish1 _ u

theorem hdrRdCommentBody_endsWithin (hframer : .framer ∈ es) (hwrite : .write ∈ es) (hread : .read ∈ es) (s : State) :
    EndsWithin [.result] es s (hdrRdCommentBody s) := by
  obtain ⟨hopen, hguard⟩ := framerROpen_updates hframer s
  have hloop := commentGetLoop_updates hread hframer hwrite (srcAvail s + 1) 0 hguard
  exact .bind (hopen.trans hloop) fun _ t _ => endsWithin_finish1 _ t

/-- R81: every body is made of the updates its rule names; a free value is used only where the host moved a cursor (R329). -/
theorem bodyOf_endsWithin {i : Instr} (hi : Ordinary i) (hsub : effectsOf i ⊆ es)
    (hfree : .tick ∈ es ∨ (i ≠ .sbGet ∧ i ≠ .sbSkip ∧ i ≠ .bpGet) ∨ s.sb.rrem.toNat ≤ srcAvail s) :
    EndsWithin (resultsOf i) es s (bodyOf i s) := by
  have has : ∀ e ∈ effectsOf i, e ∈ es := fun _ he => hsub he
  have hguard : i = .sbGet ∨ i = .sbSkip ∨ i = .bpGet → Guarded es s := by
    rintro (rfl | rfl | rfl) <;> simpa [Guarded] using hfree
  obtain ⟨hclr, hsoft⟩ := hi
  cases i
  case nop => exact Updates.endsWithin .refl
  case stReset => exact (tableReset_updates (has _ (by decide)) _ s).endsWithin
  case stAdd => exact stAddBody_endsWithin (has _ (by decide)) s
  case stFind => exact stFindBody_endsWithin s
  case stWrstr => exact .bind (tableWrite_updates (has _ (by decide)) _ s) fun _ t _ => endsWithin_finish1 _ t
  case stFirst => exact stFirstBody_endsWithin s
  case stUnused => exact endsWithin_finish1 _ s
  case stBase => exact stBaseBody_endsWithin s
  case lzwCompress =>
    exact lzwCompressBody_endsWithin (List.Subset.trans (l₂ := effectsOf .lzwCompress) (by decide) hsub) (has _ (by decide)) s
  case lzwEstimate => exact lzwEstimateBody_endsWithin s
  case lzwDecompress =>
    exact lzwDecompressBody_endsWithin (List.Subset.trans (l₂ := effectsOf .lzwDecompress) (by decide) hsub) (has _ (by decide)) (has _ (by decide)) (has _ (by decide)) s
  case bpInit => exact Updates.endsWithin (r := .ok () _) (.single (.packer (has _ (by decide)) _))
  case bpPut => exact bpPutBody_endsWithin (has _ (by decide)) (has _ (by decide)) (has _ (by decide)) s
  case bpFlush => exact bpFlushBody_endsWithin (has _ (by decide)) (has _ (by decide)) (has _ (by decide)) s
  case bpGet => exact bpGetBody_endsWithin (has _ (by decide)) (has _ (by decide)) (has _ (by decide)) (hguard (by simp))
  case sbOpen => exact Updates.endsWithin (r := .ok () _) (framerOpen_updates (has _ (by decide)) s)
  case sbPut => exact sbPutBody_endsWithin (has _ (by decide)) (has _ (by decide)) s
  case sbClose => exact (framerClose_updates (has _ (by decide)) (has _ (by decide)) s).endsWithin
  case sbRopen => exact Updates.endsWithin (r := .ok () _) (framerROpen_updates (has _ (by decide)) s).1
  case sbGet => exact sbGetBody_endsWithin (has _ (by decide)) (has _ (by decide)) (hguard (by simp))
  case sbSkip =>
    exact (framerSkipLoop_updates (has _ (by decide)) (has _ (by decide)) _ (hguard (by simp))).1.endsWithin
  case hdrWrFile => exact (writeRecord_updates (has _ (by decide)) _ s).endsWithin
  case hdrRdFile => exact hdrRdFileBody_endsWithin (has _ (by decide)) (has _ (by decide)) s
  case hdrWrImage => exact (writeRecord_updates (has _ (by decide)) _ s).endsWithin
  case hdrRdImage => exact hdrRdImageBody_endsWithin (has _ (by decide)) (has _ (by decide)) s
  case hdrWrGcb => exact (writeRecord_updates (has _ (by decide)) _ s).endsWithin
  case hdrRdGcb => exact hdrRdGcbBody_endsWithin (has _ (by decide)) (has _ (by decide)) s
  case hdrWrComment => exact hdrWrCommentBody_endsWithin (has _ (by decide)) (has _ (by decide)) (has _ (by decide)) s
  case hdrRdComment => exact hdrRdCommentBody_endsWithin (has _ (by decide)) (has _ (by decide)) (has _ (by decide)) s
  case clrFault => exact absurd rfl hclr
  case softReset => exact absurd rfl hsoft

end

end Sys2Proof.Machine
end

section
/-! What holds of every command because of the updates its body is made of: how it ends (spec/46_system_commands.md R273), its frame
(spec/10_state.md R20), append-only output (spec/20_memory.md R62) and the free values (R329). -/

namespace Sys2Proof.Machine

open Sys2Proof.Claims

/-- The commands whose reads a host can leave without a byte by moving a cursor (R329; log 6, log 7). -/
def freesOf : Instr → List Effect
  | .sbGet | .sbSkip | .bpGet => [.tick]
  | _ => []

/-- All kinds of update in a command's body. -/
def allEffectsOf (i : Instr) : List Effect := resultsOf i ++ (freesOf i ++ effectsOf i)

section
variable {i : Instr} {s t u : State}

/-- The state in which the body of a command starts (R273). -/
def State.begun (s : State) : State := s.setStatus (beginFlags s.status)

theorem bodyOf_endsWithin_all (hi : Ordinary i) (s : State) :
    EndsWithin (resultsOf i) (freesOf i ++ effectsOf i) s (bodyOf i s) := by
  refine bodyOf_endsWithin hi (List.subset_append_right _ _) ?_
  cases i <;> simp [freesOf]

/-- R273, R290, R294: what a command of the general form answers. -/
theorem exec_cases (hi : Ordinary i) (h : exec i s = .next t) :
    (¬ Ready s ∧ t = s) ∨
      Ready s ∧ (∃ u, bodyOf i s.begun = .ok () u ∧ t = u.setStatus (completeFlags u.status)) ∨
      Ready s ∧ ∃ k u, bodyOf i s.begun = .raise k u ∧
        t = u.setStatus (idleFlags (faultFlags k (opcodeOf i) u.status)) := by
  rw [exec_eq_runCommand hi] at h
  by_cases hs : Ready s
  · right
    cases hbody : bodyOf i s.begun with
    | ok _ u =>
      rw [runCommand_ok hs hbody] at h
      exact .inl ⟨hs, u, rfl, (Host.Outcome.next.inj h).symm⟩
    | raise k u =>
      rw [runCommand_raise hs hbody] at h
      exact .inr ⟨hs, k, u, rfl, (Host.Outcome.next.inj h).symm⟩
  · rw [runCommand_ignored hs] at h
    exact .inl ⟨hs, (Host.Outcome.next.inj h).symm⟩

/-- No body writes the flags, the operands, `SRC` or the host's port. -/
theorem Updates.status {es : List Effect} (h : Updates es s t) : t.status = s.status :=
  h.sameBut .status fun hmem => by
    obtain ⟨e, -, hg⟩ := List.mem_flatMap.1 hmem
    cases e <;> simp [Effect.groups] at hg

theorem Updates.res {es : List Effect} (hresult : .result ∉ es) (h : Updates es s t) : t.res = s.res :=
  h.sameBut .res fun hmem => by
    obtain ⟨e, he, hg⟩ := List.mem_flatMap.1 hmem
    cases e <;> simp [Effect.groups] at hg
    exact hresult he

theorem result_notMem (i : Instr) : .result ∉ freesOf i ++ effectsOf i := by
  cases i <;> decide

/-- A command's next state comes by updates of its kinds, the flags apart. -/
theorem updates_of_exec (hi : Ordinary i) (h : exec i s = .next t) :
    ∃ x y u, Updates (allEffectsOf i) (s.setStatus x) u ∧ t = u.setStatus y := by
  have hbody := bodyOf_endsWithin_all hi s.begun
  obtain ⟨-, rfl⟩ | ⟨-, u, hok, rfl⟩ | ⟨-, k, u, hraise, rfl⟩ := exec_cases hi h
  · exact ⟨t.status, t.status, _, .refl, rfl⟩
  · rw [hok] at hbody
    exact ⟨_, _, u, hbody, rfl⟩
  · rw [hraise] at hbody
    exact ⟨_, _, u, Updates.mono (List.subset_append_right _ _) hbody, rfl⟩

end

/-! ### How commands end -/

/-- Settles O16: the body leaves the flags alone, so its end decides them; only an end without a fault writes results. -/
theorem commandEndsDoneOrFaulted : Obligations.CommandEndsDoneOrFaulted := by
  unfold Obligations.CommandEndsDoneOrFaulted
  intro i s hsoft hs
  by_cases hclr : i = .clrFault
  · subst hclr
    exact ⟨_, (clrFaultAcknowledges s).2.2 hs, rfl, .inl ⟨rfl, rfl, fun h => absurd rfl h⟩⟩
  · have hi : Ordinary i := ⟨hclr, hsoft⟩
    have hbody := bodyOf_endsWithin_all hi s.begun
    rw [exec_eq_runCommand hi]
    cases hend : bodyOf i s.begun with
    | ok _ t =>
      rw [hend] at hbody
      exact ⟨_, runCommand_completes hs hend (Updates.status hbody), rfl, .inl ⟨rfl, rfl, fun _ => rfl⟩⟩
    | raise k t =>
      rw [hend] at hbody
      exact ⟨_, runCommand_faults hs hend (Updates.status hbody), rfl,
        .inr ⟨k, rfl, Updates.res (s := s.begun) (t := t) (result_notMem i) hbody⟩⟩

/-! ### The frame -/

theorem allEffectsOf_groups {i : Instr} (hi : Ordinary i) : (allEffectsOf i).flatMap Effect.groups ⊆ mayWrite i := by
  obtain ⟨hclr, hsoft⟩ := hi
  cases i
  case clrFault => exact absurd rfl hclr
  case softReset => exact absurd rfl hsoft
  all_goals decide

theorem status_mem_mayWrite (i : Instr) : .status ∈ mayWrite i := by
  cases i <;> decide

/-- R271: `CLR_FAULT` writes the flags alone, with a fault pending and without. -/
theorem exec_clrFault (s : State) : ∃ x, exec .clrFault s = .next (s.setStatus x) := by
  obtain ⟨hpending, -, hready⟩ := clrFaultAcknowledges s
  by_cases hs : Ready s
  · exact ⟨_, hready hs⟩
  · exact ⟨_, hpending hs⟩

/-- R272: `SOFT_RESET` keeps the memories, the host's port and the free values. -/
theorem softReset_frame (s : State) :
    SameBut [.status, .args, .res, .cur, .st, .bp, .sb, .lz, .hdr] s (softReset s) := by
  intro g hg
  cases g
  case src | snk => exact fun _ => rfl
  case host | free => rfl
  all_goals simp at hg

/-- Settles O17: the kinds of update of each body write groups of its list only. -/
theorem commandsChangeOnlyTheirGroups : Obligations.CommandsChangeOnlyTheirGroups := by
  unfold Obligations.CommandsChangeOnlyTheirGroups
  intro i s t h
  by_cases hclr : i = .clrFault
  · subst hclr
    obtain ⟨x, hx⟩ := exec_clrFault s
    obtain rfl := Host.Outcome.next.inj (h.symm.trans hx)
    exact sameBut_setStatus s x
  · by_cases hsoft : i = .softReset
    · subst hsoft
      obtain rfl : softReset s = t := Host.Outcome.next.inj h
      exact softReset_frame s
    · obtain ⟨x, y, u, hu, rfl⟩ := updates_of_exec ⟨hclr, hsoft⟩ h
      exact .of_body (status_mem_mayWrite i) (hu.sameBut.mono (allEffectsOf_groups ⟨hclr, hsoft⟩))

/-! ### Output -/

/-- From `s` to `t` output was appended only (R62, R69). -/
def AppendOnly (s t : State) : Prop :=
  s.cur.snkPos.toNat ≤ t.cur.snkPos.toNat ∧
    (∀ a, a < s.cur.snkPos.toNat ∨ t.cur.snkPos.toNat ≤ a → snkByte t a = snkByte s a) ∧
    (t.cur.snkPos = s.cur.snkPos ∨ t.cur.snkPos.toNat ≤ s.cur.snkCap.toNat) ∧
    t.cur.snkCap = s.cur.snkCap ∧ t.cur.srcLen = s.cur.srcLen

section
variable {s t u : State} {es : List Effect}

theorem AppendOnly.refl (s : State) : AppendOnly s s := ⟨Nat.le_refl _, fun _ _ => rfl, .inl rfl, rfl, rfl⟩

theorem AppendOnly.trans (hst : AppendOnly s t) (htu : AppendOnly t u) : AppendOnly s u := by
  obtain ⟨hle, hbytes, hmax, hcap, hlen⟩ := hst
  obtain ⟨hle', hbytes', hmax', hcap', hlen'⟩ := htu
  refine ⟨hle.trans hle', fun a ha => ?_, ?_, hcap'.trans hcap, hlen'.trans hlen⟩
  · rw [hbytes' a (by omega), hbytes a (by omega)]
  · rw [hcap] at hmax'
    obtain hsame | hin := hmax'
    · rw [hsame]
      exact hmax
    · exact .inr hin

/-- Output stays where neither `SNK` nor its cursors are written. -/
theorem AppendOnly.of_same (hsnk : SameGroup s t .snk) (hpos : t.cur.snkPos = s.cur.snkPos) (hcap : t.cur.snkCap = s.cur.snkCap)
    (hlen : t.cur.srcLen = s.cur.srcLen) : AppendOnly s t :=
  ⟨Nat.le_of_eq (by rw [hpos]), fun a _ => hsnk a, .inl hpos, hcap, hlen⟩

theorem Outputs.appendOnly {bs : List Byte} (h : Outputs s t bs) : AppendOnly s t := by
  have hpos := h.snkPos
  refine ⟨by omega, fun a ha => h.appends.2 a (by omega), ?_, h.snkCap, by rw [h.cur]; rfl⟩
  obtain hnone | hfit := h.room
  · exact .inl (BitVec.eq_of_toNat_eq (by omega))
  · exact .inr (by omega)

theorem Update.appendOnly (h : Update es s t) : AppendOnly s t := by
  cases h with
  | write h b hroom => exact (snkAppended_outputs (bs := [b]) hroom).appendOnly
  | _ => exact .of_same (fun _ => rfl) rfl rfl rfl

theorem Updates.appendOnly (h : Updates es s t) : AppendOnly s t :=
  h.invariant (P := AppendOnly s) (fun _ _ hu hs => hs.trans hu.appendOnly) (.refl s)

end

/-- Settles O18: each single update appends at the cursor or leaves the output alone. -/
theorem outputIsAppendOnly : Obligations.OutputIsAppendOnly := by
  unfold Obligations.OutputIsAppendOnly
  intro i s t hsoft h
  by_cases hclr : i = .clrFault
  · subst hclr
    obtain ⟨x, hx⟩ := exec_clrFault s
    obtain rfl := Host.Outcome.next.inj (h.symm.trans hx)
    exact AppendOnly.of_same (fun _ => rfl) rfl rfl rfl
  · obtain ⟨x, y, u, hu, rfl⟩ := updates_of_exec ⟨hclr, hsoft⟩ h
    exact Updates.appendOnly (s := s.setStatus x) (t := u) hu

/-! ### Free values -/

theorem Updates.free {s t : State} {es : List Effect} (htick : .tick ∉ es) (h : Updates es s t) : t.free = s.free :=
  h.sameBut .free fun hmem => by
    obtain ⟨e, he, hg⟩ := List.mem_flatMap.1 hmem
    cases e <;> simp [Effect.groups] at hg
    exact htick he

theorem tick_notMem (i : Instr) : .tick ∉ resultsOf i ++ effectsOf i := by
  cases i <;> decide

/-- Settles O19: with the block being read inside the input, a body needs no free value. -/
theorem freeValuesOnlyPastInput : Obligations.FreeValuesOnlyPastInput := by
  unfold Obligations.FreeValuesOnlyPastInput
  intro i s t h hin
  by_cases hclr : i = .clrFault
  · subst hclr
    obtain ⟨x, hx⟩ := exec_clrFault s
    obtain rfl := Host.Outcome.next.inj (h.symm.trans hx)
    rfl
  · by_cases hsoft : i = .softReset
    · subst hsoft
      obtain rfl : softReset s = t := Host.Outcome.next.inj h
      rfl
    · have hbody : EndsWithin (resultsOf i) (effectsOf i) s.begun _ :=
        bodyOf_endsWithin ⟨hclr, hsoft⟩ (List.Subset.refl _) (.inr hin)
      have htick := tick_notMem i
      obtain ⟨-, rfl⟩ | ⟨-, u, hok, rfl⟩ | ⟨-, k, u, hraise, rfl⟩ := exec_cases ⟨hclr, hsoft⟩ h
      · rfl
      · rw [hok] at hbody
        exact Updates.free (s := s.begun) (t := u) htick hbody
      · rw [hraise] at hbody
        exact Updates.free (s := s.begun) (t := u) (fun hmem => htick (List.mem_append_right _ hmem)) hbody

end Sys2Proof.Machine
end

section
/-! What one step of the machine can do (spec/46_system_commands.md R274), and the invariants that every step keeps: the string table
(spec/10_state.md R30), the memories and the framer's buffer (spec/20_memory.md R60), `STATUS` (spec/10_state.md R25, R26). -/

namespace Sys2Proof.Machine

open Sys2Proof.Claims

/-! ### One step -/

/-- What a host action other than a write of `CMD` and the reset input leaves of the state (R274): a store puts one byte. -/
structure HostTouched (s t : State) : Prop where
  status : t.status = s.status
  st : t.st = s.st
  bp : t.bp = s.bp
  sb : t.sb = s.sb
  src : t.src = s.src ∨ ∃ (a : Word) (b : Byte), t.src = cellPut s.src a.toNat b
  snk : t.snk = s.snk ∨ ∃ (a : Word) (b : Byte), t.snk = cellPut s.snk a.toNat b

theorem hostTouched_setHost (s : State) (x : HostPort) : HostTouched s (s.setHost x) :=
  ⟨rfl, rfl, rfl, rfl, .inl rfl, .inl rfl⟩

theorem hostTouched_setReg (r : HostReg) (v : Word) (s : State) : HostTouched s (setReg r v s) := by
  obtain ⟨hstatus, -, hst, hbp, hsb, -⟩ := setReg_frame r v s
  refine ⟨hstatus, hst, hbp, hsb, .inl ?_, .inl ?_⟩ <;> cases r <;> rfl

theorem hostTouched_hostWrite (n : Nat) (v : Word) (s : State) : HostTouched s (hostWrite n v s) := by
  unfold hostWrite
  split
  · exact hostTouched_setReg _ v s
  · exact ⟨rfl, rfl, rfl, rfl, .inl rfl, .inl rfl⟩

theorem illegalWord_next {w : Word} {s t : State} (h : illegalWord w s = .next t) : ∃ x, t = s.setStatus x := by
  by_cases hs : Ready s
  · rw [illegalWord_ready hs] at h
    exact ⟨_, (Host.Outcome.next.inj h).symm⟩
  · rw [illegalWord_ignored hs] at h
    exact ⟨s.status, (Host.Outcome.next.inj h).symm⟩

/-- R274: what each host action keeps, a step keeps. -/
theorem step_invariant {P : State → Prop} (hhost : ∀ s t, HostTouched s t → P s → P t)
    (hexec : ∀ i s t, exec i s = .next t → P s → P t) (hillegal : ∀ w s t, illegalWord w s = .next t → P s → P t)
    (hpower : ∀ s, P s → P (powerOn s)) {s t : State} (h : step s = .next t) (hs : P s) : P t := by
  rw [step, hostStep] at h
  split at h
  · exact Host.Outcome.next.inj h ▸ hs
  · next a q _ =>
    have hq : P (withPending q s) := hhost _ _ (hostTouched_setHost s _) hs
    generalize withPending q s = u at *
    rw [hostAction] at h
    split at h
    · cases a with
      | readReg n => exact Host.Outcome.next.inj h ▸ hhost _ _ (hostTouched_setHost u _) hq
      | writeReg n v =>
        simp only [performAction] at h
        split at h
        · rw [dispatchWord] at h
          split at h
          · exact hexec _ _ _ h hq
          · exact hillegal _ _ _ h hq
        · exact Host.Outcome.next.inj h ▸ hhost _ _ (hostTouched_hostWrite n v u) hq
      | storeSrc a b =>
        exact Host.Outcome.next.inj h ▸ hhost u _ ⟨rfl, rfl, rfl, rfl, .inr ⟨a, b, rfl⟩, .inl rfl⟩ hq
      | storeSnk a b =>
        exact Host.Outcome.next.inj h ▸ hhost u _ ⟨rfl, rfl, rfl, rfl, .inl rfl, .inr ⟨a, b, rfl⟩⟩ hq
      | loadSnk a => exact Host.Outcome.next.inj h ▸ hhost _ _ (hostTouched_setHost u _) hq
      | powerOn => exact Host.Outcome.next.inj h ▸ hpower _ hq
    · cases h

/-- What every update and the two resets keep, whatever the flags, every step keeps. -/
theorem step_invariant_of_updates {P : State → Prop} (hflags : ∀ s x, P s → P (s.setStatus x))
    (hupdate : ∀ es s t, Update es s t → P s → P t) (hhost : ∀ s t, HostTouched s t → P s → P t)
    (hsoft : ∀ s, P s → P (softReset s)) (hpower : ∀ s, P s → P (powerOn s)) {s t : State} (h : step s = .next t)
    (hs : P s) : P t := by
  refine step_invariant hhost (fun i s t h hs => ?_) (fun w s t h hs => ?_) hpower h hs
  · by_cases hclr : i = .clrFault
    · subst hclr
      obtain ⟨x, hx⟩ := exec_clrFault s
      exact Host.Outcome.next.inj (h.symm.trans hx) ▸ hflags s x hs
    · by_cases hsoftReset : i = .softReset
      · subst hsoftReset
        exact Host.Outcome.next.inj h ▸ hsoft s hs
      · obtain ⟨x, y, u, hu, rfl⟩ := updates_of_exec ⟨hclr, hsoftReset⟩ h
        exact hflags u y (hu.invariant (hupdate _) (hflags s x hs))
  · obtain ⟨x, rfl⟩ := illegalWord_next h
    exact hflags s x hs

/-! ### The string table -/

section
variable {t : StringTable} {base : Nat}

/-- R30 does not depend on the width but for its bounds. -/
theorem TableSet.withWidth (ht : TableSet t) {w : BitVec 4} (hlow : t.rootBits.toNat ≤ w.toNat) (hhigh : w.toNat ≤ 12)
    (hcount : t.nextFree.toNat ≤ 2 ^ w.toNat) : TableSet { t with codeBits := w } := by
  obtain ⟨⟨h3, -, -⟩, hcontrol, ⟨hfree, hmax, -⟩, hrest⟩ := ht
  exact ⟨⟨h3, hlow, hhigh⟩, hcontrol, ⟨hfree, hmax, hcount⟩, hrest⟩

/-- `Widen` changes the width alone. -/
theorem widen_eq_withWidth (fw : Bool) (t : StringTable) : widen fw t = { t with codeBits := (widen fw t).codeBits } := by
  obtain h | ⟨-, -, h⟩ := widen_cases fw t <;> rw [h]

/-- R137, R138: the width rule, of the writer and of the reader. -/
theorem TableSet.widen (ht : TableSet t) (fw : Bool) : TableSet (widen fw t) := by
  obtain hsame | ⟨hlt, -, hwide⟩ := widen_cases fw t
  · rwa [hsame]
  · have hbits : (BitVec.ofNat 4 (t.codeBits.toNat + 1)).toNat = t.codeBits.toNat + 1 := by
      rw [BitVec.toNat_ofNat]
      omega
    rw [hwide]
    obtain ⟨⟨-, hle, -⟩, -, ⟨-, -, hcount⟩, -⟩ := id ht
    refine ht.withWidth ?_ ?_ ?_ <;> rw [hbits]
    · omega
    · omega
    · rw [Nat.pow_succ]
      omega

/-- R136, R139, R30: an add under a valid base, by the writer or by the reader, whose width runs ahead. -/
theorem TableSet.addEntry_any (ht : TableSet t) (hbase : validCode t base = true) (hfree : t.nextFree.toNat < 4096) (b : Byte)
    (fw : Bool) : TableSet (Machine.addEntry base b fw t) := by
  cases fw with
  | true => exact ht.addEntry hbase hfree b
  | false =>
    have hwriter := ht.addEntry hbase hfree b
    have hbits := addEntry_codeBits hfree base b false
    obtain ⟨hcount, hroot, -⟩ := addEntry_fields (base := base) (b := b) (fw := true) hfree
    obtain ⟨⟨h3, hle, h12⟩, -, ⟨-, -, hin⟩, -⟩ := ht
    have hsame : Machine.addEntry base b false t =
        { Machine.addEntry base b true t with codeBits := (Machine.addEntry base b false t).codeBits } := by
      rw [show Machine.addEntry base b true t = _ from widen_eq_withWidth true (entered base b t)]
      exact widen_eq_withWidth false (entered base b t)
    rw [hsame]
    refine hwriter.withWidth ?_ ?_ ?_
    all_goals simp only [Bool.false_eq_true, if_false] at hbits
    · rw [hroot]
      omega
    · split at hbits <;> omega
    · rw [hcount]
      split at hbits
      · rw [hbits, Nat.pow_succ]
        have := Nat.two_pow_pos t.codeBits.toNat
        omega
      · next hnarrow =>
        rw [Nat.add_zero] at hbits
        rw [hbits]
        by_cases hlast : t.codeBits.toNat = 12
        · rw [hlast]
          omega
        · omega

theorem addEntry_canonical (h : cellsCanonical clearedEntry 4096 t.table) (hfree : t.nextFree.toNat < 4096) (b : Byte)
    (fw : Bool) : cellsCanonical clearedEntry 4096 (addEntry base b fw t).table := by
  rw [addEntry_eq_widen_entered, (widen_fields fw _).1]
  exact setEntry_canonical h hfree _

/-- R30: every update of the table keeps its invariant. -/
theorem TableUpdate.inv {x : StringTable} (h : TableUpdate t x)
    (ht : cellsCanonical clearedEntry 4096 t.table ∧ (TableUnset t ∨ TableSet t)) :
    cellsCanonical clearedEntry 4096 x.table ∧ (TableUnset x ∨ TableSet x) := by
  obtain ⟨hcells, hinv⟩ := ht
  cases h with
  | @reset rb hrb =>
    have hsize : 2 ^ (rb - 1) ≤ 2 ^ 12 := Nat.pow_le_pow_right two_pos (by omega)
    exact ⟨rootTable_canonical hsize, .inr (tableSet_resetTable hrb)⟩
  | add b fw hbase hfree =>
    have hset := hinv.resolve_left fun hunset => by
      rw [validCode_of_unset hunset] at hbase
      cases hbase
    exact ⟨addEntry_canonical hcells hfree b fw, .inr (hset.addEntry_any hbase hfree b fw)⟩
  | widen =>
    rw [(widen_fields false t).1]
    refine ⟨hcells, hinv.imp (fun hunset => ?_) fun hset => hset.widen false⟩
    rw [hunset]
    decide

end

theorem tableInv_of_st {s t : State} (h : t.st = s.st) (hs : TableInv s) : TableInv t := by
  unfold TableInv
  rw [h]
  exact hs

theorem tableInv_reset : TableInv State.reset := ⟨⟨.nil, fun _ h => by cases h⟩, .inl rfl⟩

/-- Settles O28: the table is written by resets, adds and the width rule only, each under its precondition, and each keeps R30. -/
theorem everyStepKeepsTable : Obligations.EveryStepKeepsTable := by
  unfold Obligations.EveryStepKeepsTable
  intro s t hs h
  refine step_invariant_of_updates (P := TableInv) (fun s x => tableInv_of_st rfl) (fun es s t hu hs => ?_)
    (fun s t hst => tableInv_of_st hst.st) (fun s _ => tableInv_of_st (s := State.reset) rfl tableInv_reset)
    (fun s _ => tableInv_of_st (s := State.reset) rfl tableInv_reset) h hs
  cases hu with
  | table h hx => exact hx.inv hs
  | _ => exact tableInv_of_st rfl hs

/-! ### The memories and the buffer -/

/-- The invariant of O59. -/
def MemoriesInv (s : State) : Prop := MemInv s ∧ BufferInv s

theorem memoriesInv_of_same {s t : State} (hsrc : t.src = s.src) (hsnk : t.snk = s.snk) (hsb : t.sb.wbuf = s.sb.wbuf)
    (hs : MemoriesInv s) : MemoriesInv t := by
  unfold MemoriesInv MemInv BufferInv
  rw [hsrc, hsnk, hsb]
  exact hs

theorem HostTouched.memoriesInv {s t : State} (h : HostTouched s t) (hs : MemoriesInv s) : MemoriesInv t := by
  obtain ⟨⟨hsrc, hsnk⟩, hbuffer⟩ := hs
  have stored : ∀ {m m' : Memory}, Memory.wf m → (m' = m ∨ ∃ (a : Word) (b : Byte), m' = cellPut m a.toNat b) → Memory.wf m' := by
    rintro m m' hm (rfl | ⟨a, b, rfl⟩)
    · exact hm
    · exact Memory.put_wf hm a.isLt b
  refine ⟨⟨stored hsrc h.src, stored hsnk h.snk⟩, ?_⟩
  unfold BufferInv
  rw [h.sb]
  exact hbuffer

theorem Update.memoriesInv {es : List Effect} {s t : State} (h : Update es s t) (hs : MemoriesInv s) : MemoriesInv t := by
  obtain ⟨⟨hsrc, hsnk⟩, hbuffer⟩ := id hs
  cases h with
  | write h b hroom => exact ⟨⟨hsrc, snkAppended_wf (bs := [b]) hsnk⟩, hbuffer⟩
  | framer h hx =>
    cases hx with
    | regs wcnt rrem rend => exact hs
    | push b hlt => exact ⟨⟨hsrc, hsnk⟩, cellSet_canonical hbuffer hlt b⟩
  | _ => exact memoriesInv_of_same rfl rfl rfl hs

theorem bufferInv_nil {s : State} (h : s.sb.wbuf = []) : BufferInv s := by
  unfold BufferInv
  rw [h]
  exact ⟨.nil, fun _ hmem => by cases hmem⟩

/-- Settles O59: stores and appends put bytes inside the address space, and a byte joins the buffer only below index 255. -/
theorem everyStepKeepsMemories : Obligations.EveryStepKeepsMemories := by
  unfold Obligations.EveryStepKeepsMemories
  intro s t hmem hbuffer h
  exact step_invariant_of_updates (P := MemoriesInv) (fun s x => memoriesInv_of_same rfl rfl rfl)
    (fun es s t hu => hu.memoriesInv) (fun s t hst => hst.memoriesInv) (fun s hs => ⟨hs.1, bufferInv_nil rfl⟩)
    (fun s _ => ⟨⟨Memory.nil_wf, Memory.nil_wf⟩, bufferInv_nil rfl⟩) h ⟨hmem, hbuffer⟩

/-! ### The flags -/

theorem statusInv_of_status {s t : State} (h : t.status = s.status) (hs : StatusInv s) : StatusInv t := by
  unfold StatusInv
  rw [h]
  exact hs

theorem statusInv_reset : StatusInv State.reset := ⟨rfl, fun h => (by cases h), fun _ => ⟨rfl, rfl⟩⟩

/-- R281: the kinds are numbered 1 to 6. -/
theorem FaultKind.code_range (k : FaultKind) : 1 ≤ k.code.toNat ∧ k.code.toNat ≤ 6 := by
  cases k <;> decide

/-- R290: fault entry leaves a kind, and no `DONE`. -/
theorem statusInv_faulted {t : State} (k : FaultKind) (op : BitVec 8) (h : t.status = ⟨false, true, false, k.code, op⟩) :
    StatusInv t := by
  unfold StatusInv
  rw [h]
  exact ⟨rfl, fun _ => ⟨rfl, k.code_range⟩, fun hf => by cases hf⟩

/-- R273: a completed command leaves the error registers clear. -/
theorem statusInv_completed {t : State} (h : t.status = ⟨false, false, true, 0, 0⟩) : StatusInv t := by
  unfold StatusInv
  rw [h]
  exact ⟨rfl, fun hf => (by cases hf), fun _ => ⟨rfl, rfl⟩⟩

theorem exec_statusInv {i : Instr} {s t : State} (h : exec i s = .next t) (hs : StatusInv s) : StatusInv t := by
  obtain ⟨hbusy, hpending, hclear⟩ := id hs
  by_cases hsoft : i = .softReset
  · subst hsoft
    exact Host.Outcome.next.inj h ▸ statusInv_of_status (s := State.reset) rfl statusInv_reset
  · by_cases hclr : i = .clrFault
    · subst hclr
      obtain ⟨hacknowledged, -, hdone⟩ := clrFaultAcknowledges s
      by_cases hready : Ready s
      · obtain rfl := Host.Outcome.next.inj (h.symm.trans (hdone hready))
        exact statusInv_completed rfl
      · obtain rfl := Host.Outcome.next.inj (h.symm.trans (hacknowledged hready))
        exact ⟨hbusy, fun hf => (by cases hf), fun _ => ⟨rfl, rfl⟩⟩
    · by_cases hready : Ready s
      · obtain ⟨t', ht', -, hend⟩ := commandEndsDoneOrFaulted i s hsoft hready
        obtain rfl := Host.Outcome.next.inj (h.symm.trans ht')
        obtain ⟨-, -, hcompleted⟩ | ⟨k, hfaulted, -⟩ := hend
        · obtain ⟨herr, hcmd⟩ := hclear hready
          exact statusInv_completed (by rw [hcompleted hclr, herr, hcmd])
        · exact statusInv_faulted k _ hfaulted
      · obtain ⟨-, rfl⟩ | ⟨hnot, -⟩ | ⟨hnot, -⟩ := exec_cases ⟨hclr, hsoft⟩ h
        · exact hs
        all_goals exact absurd hnot hready

theorem illegalWord_statusInv {w : Word} {s t : State} (h : illegalWord w s = .next t) (hs : StatusInv s) : StatusInv t := by
  by_cases hready : Ready s
  · rw [illegalWord_ready hready] at h
    exact Host.Outcome.next.inj h ▸ statusInv_faulted .illegalCommand _ rfl
  · rw [illegalWord_ignored hready] at h
    exact Host.Outcome.next.inj h ▸ hs

/-- Settles O60: a command ends done or in fault entry, an illegal word in fault entry, and nothing else writes the flags but the two
resets. -/
theorem everyStepKeepsStatus : Obligations.EveryStepKeepsStatus := by
  unfold Obligations.EveryStepKeepsStatus
  intro s t hs h
  exact step_invariant (P := StatusInv) (fun s t hst => statusInv_of_status hst.status) (fun i s t => exec_statusInv)
    (fun w s t => illegalWord_statusInv) (fun s _ => statusInv_of_status (s := State.reset) rfl statusInv_reset) h hs

end Sys2Proof.Machine
end

section
/-! The host's interface (spec/46_system_commands.md R273, R274; spec/10_state.md R37): what each action does as the oldest pending one,
what a pending fault lets through (spec/60_exceptions.md R294), and the operand checks of R287. -/

namespace Sys2Proof.Machine

open Sys2Proof.Claims

/-! ### Actions -/

section
variable {s t : State} {a : HostAction} {q : List HostAction}

theorem hostAction_idle (h : s.status.busy = false) (a : HostAction) : hostAction a s = performAction a s :=
  if_pos (by simp [actionAllowed, h])

/-- With a pending action a step performs it on the state whose queue has lost it (log 1). -/
theorem step_pending (h : s.host.pending = a :: q) : step s = hostAction a (withPending q s) := by
  rw [step, hostStep, h]

theorem step_pending_idle (hidle : s.status.busy = false) (h : s.host.pending = a :: q) :
    step s = performAction a (withPending q s) := by
  rw [step_pending h]
  exact hostAction_idle (s := withPending q s) hidle a

theorem performAction_command {w : Word} {i : Instr} (h : decode w = .ok i) (s : State) :
    performAction (.writeReg 0 w) s = exec i s := by
  rw [performAction, if_pos rfl, dispatchWord, h]

theorem performAction_register {n : Nat} (h : n ≠ 0) (v : Word) (s : State) :
    performAction (.writeReg n v) s = .next (hostWrite n v s) := by
  rw [performAction, if_neg h]

/-- A register read hands over a value that the host's port has no part in. -/
theorem hostRead_withPending (n : Nat) (q : List HostAction) (s : State) : hostRead n (withPending q s) = hostRead n s := by
  unfold hostRead
  split
  · next r _ => cases r <;> rfl
  · rfl

theorem tableWord_word (w : Word) : tableWord 32 w.toNat = some w := by
  have hlt := w.isLt
  rw [tableWord, Nat.mod_eq_of_lt hlt, if_pos hlt, BitVec.ofNat_toNat, BitVec.setWidth_eq]

theorem srcByte_stored (a : Nat) (b : Byte) (x : Nat) :
    srcByte (s.setSrc (cellPut s.src a b)) x = if x = a then b else srcByte s x := by
  simp only [srcByte, State.setSrc_fields, cellGet_put]
  split <;> rfl

theorem snkByte_stored (a : Nat) (b : Byte) (x : Nat) :
    snkByte (s.setSnk (cellPut s.snk a b)) x = if x = a then b else snkByte s x := by
  simp only [snkByte, State.setSnk_fields, cellGet_put]
  split <;> rfl

theorem sameBut_setHost (s : State) (x : HostPort) : SameBut [.host] s (s.setHost x) := by
  intro g hg
  cases g <;> simp_all [SameGroup, srcByte, snkByte]

theorem sameBut_setSrc (s : State) (x : Memory) : SameBut [.src] s (s.setSrc x) := by
  intro g hg
  cases g <;> simp_all [SameGroup, snkByte]

theorem sameBut_setSnk (s : State) (x : Memory) : SameBut [.snk] s (s.setSnk x) := by
  intro g hg
  cases g <;> simp_all [SameGroup, srcByte]

theorem sameBut_powerOn (s : State) : SameBut [.src, .snk, .host, .free] State.reset (powerOn s) := by
  intro g hg
  cases g
  case src | snk | host | free => simp at hg
  all_goals rfl

end

/-- Settles O4: the action is performed as a dispatch, and the queue that `withFetchWord` added to is the queue again. -/
theorem stepRunsDecodedCommand : Obligations.StepRunsDecodedCommand := by
  unfold Obligations.StepRunsDecodedCommand
  intro s w i q hidle hdecode
  refine ⟨fun hpending => ?_, ?_⟩
  · rw [step_pending_idle hidle hpending, performAction_command hdecode]
    rfl
  · have hpending : (s.withFetchWord 32 w.toNat).host.pending = .writeReg 0 w :: s.host.pending := by
      simp [State.withFetchWord, withCommandWord, withPending, tableWord_word]
    rw [step_pending_idle (s := s.withFetchWord 32 w.toNat) hidle hpending, performAction_command hdecode]
    rfl

/-- Settles O5: each action's result, on the state whose queue has lost it. -/
theorem stepPerformsHostActions : Obligations.StepPerformsHostActions := by
  unfold Obligations.StepPerformsHostActions
  intro s q hidle
  have hqueue : SameBut [.host] s (withPending q s) := sameBut_setHost s _
  refine ⟨fun h => ?_, fun n h => ?_, fun n v hn h => ?_, fun a b h => ?_, fun a b h => ?_, fun a h => ?_, fun h => ?_⟩
  · rw [step, hostStep, h]
  · rw [step_pending_idle hidle h, performAction, hostRead_withPending]
    rfl
  · rw [step_pending_idle hidle h, performAction_register hn]
    rfl
  · exact ⟨_, step_pending_idle hidle h, (hqueue.mono (by simp)).trans ((sameBut_setSrc _ _).mono (by simp)), rfl,
      srcByte_stored (s := withPending q s) a.toNat b⟩
  · exact ⟨_, step_pending_idle hidle h, (hqueue.mono (by simp)).trans ((sameBut_setSnk _ _).mono (by simp)), rfl,
      snkByte_stored (s := withPending q s) a.toNat b⟩
  · rw [step_pending_idle hidle h]
    rfl
  · exact ⟨_, step_pending_idle hidle h, sameBut_powerOn _, rfl, rfl, fun x => ⟨rfl, rfl⟩⟩

/-- Settles O8: the action is not allowed, unless it reads `STATUS`. -/
theorem busyAccessStops : Obligations.BusyAccessStops := by
  unfold Obligations.BusyAccessStops
  intro s a q hbusy h
  refine ⟨fun hread hpower => ?_, fun hread => ?_⟩
  · have hnot : ¬ actionAllowed a (withPending q s) = true := by
      simp [actionAllowed, withPending, hbusy, hread, hpower]
    rw [step_pending h, hostAction, if_neg hnot]
  · subst hread
    rw [step_pending h, hostAction, if_pos (by simp [actionAllowed]), performAction, hostRead_withPending]
    rfl

/-! ### Reading registers -/

/-- R25: the bits of `STATUS`. -/
theorem statusWord_getLsbD (f : StatusRegs) (k : Nat) :
    (statusWord f).getLsbD k = ((k = 0 && f.busy) || (k = 1 && f.fault) || (k = 2 && f.done)) := by
  have low : ∀ busy fault done : Bool, ∀ k < 3, (BitVec.ofNat 32 (busy.toNat + 2 * fault.toNat + 4 * done.toNat)).getLsbD k =
      ((k = 0 && busy) || (k = 1 && fault) || (k = 2 && done)) := by decide
  obtain hlow | hhigh := Nat.lt_or_ge k 3
  · exact low f.busy f.fault f.done k hlow
  · have hlt : (statusWord f).toNat < 2 ^ k := by
      have hbusy := f.busy.toNat_le
      have hfault := f.fault.toNat_le
      have hdone := f.done.toNat_le
      have hpow : 2 ^ 3 ≤ 2 ^ k := Nat.pow_le_pow_right two_pos hhigh
      rw [statusWord, BitVec.toNat_ofNat]
      omega
    rw [BitVec.getLsbD, Nat.testBit_lt_two_pow hlt]
    simp [show k ≠ 0 by omega, show k ≠ 1 by omega, show k ≠ 2 by omega]

theorem regOfNumber_unassigned {n : Nat} (h : n = 30 ∨ n = 31 ∨ 45 ≤ n) : regOfNumber n = none := by
  cases hr : regOfNumber n with
  | none => rfl
  | some r =>
    have range : regNumber r ≠ 30 ∧ regNumber r ≠ 31 ∧ regNumber r < 45 := by cases r <;> decide
    rw [regNumber_of_regOfNumber hr] at range
    omega

/-- Settles O6: each number names its register, whose value is the field zero-extended. -/
theorem registersReadByNumber : Obligations.RegistersReadByNumber := by
  unfold Obligations.RegistersReadByNumber
  intro s
  refine ⟨⟨rfl, statusWord_getLsbD s.status, rfl, rfl⟩, ⟨rfl, rfl, rfl⟩, ⟨rfl, rfl, rfl, rfl⟩, ⟨rfl, rfl, rfl, rfl⟩,
    ⟨rfl, rfl, rfl, rfl, rfl⟩, ⟨rfl, rfl, rfl, rfl⟩, ⟨rfl, rfl, rfl⟩, ⟨rfl, rfl, rfl⟩, ⟨rfl, rfl, rfl, rfl, rfl⟩,
    ⟨rfl, rfl, rfl, rfl, rfl⟩, ⟨rfl, rfl, rfl⟩, fun n hn => hostRead_of_unassigned (regOfNumber_unassigned hn) s⟩

/-! ### Decoding and the reset state -/

/-- Settles O2: each word has a clear zero field and the opcode of its command, or fails a check of R93. -/
theorem commandWordsDecode : Obligations.CommandWordsDecode := by
  unfold Obligations.CommandWordsDecode
  decide

/-- Settles O10: at reset nothing is listed and every register is 0 or its power-on value. -/
theorem resetMeetsInvariants : Obligations.ResetMeetsInvariants := by
  unfold Obligations.ResetMeetsInvariants
  have hpack : PackInv State.reset := by decide
  exact ⟨⟨⟨Memory.nil_wf, Memory.nil_wf⟩, statusInv_reset, tableInv_reset, hpack, bufferInv_nil rfl⟩, fun _ => ⟨rfl, rfl⟩⟩

/-! ### A pending fault -/

theorem exec_ignored {i : Instr} {s : State} (hi : Ordinary i) (hs : ¬ Ready s) : exec i s = .next s := by
  rw [exec_eq_runCommand hi, runCommand_ignored hs]

/-- Settles O14: a word that decodes to another command than the two is ignored, and so is one that does not decode; the other
actions do not look at the flags. -/
theorem faultedMachineIgnores : Obligations.FaultedMachineIgnores := by
  unfold Obligations.FaultedMachineIgnores
  intro s hs hidle
  refine ⟨fun w hclr hsoft => ?_, fun n v hn => ?_, fun n => ?_, fun a b => ?_, fun a => ?_⟩
  · rw [hostAction_idle hidle]
    by_cases hword : ∀ i, encode i ≠ w
    · rw [performAction, if_pos rfl, dispatchWord_of_not_encoded hword, illegalWord_ignored hs]
    · obtain ⟨i, rfl⟩ := not_forall_not.1 hword
      rw [performAction_command (decode_encode i)]
      exact exec_ignored ⟨fun h => hclr (h ▸ rfl), fun h => hsoft (h ▸ rfl)⟩ hs
  · rw [hostAction_idle hidle, performAction_register hn]
  · exact ⟨_, hostAction_idle hidle _, rfl, sameBut_setHost s _⟩
  · exact ⟨_, hostAction_idle hidle _, (srcByte_stored _ b _).trans (if_pos rfl), sameBut_setSrc s _⟩
  · exact ⟨_, hostAction_idle hidle _, rfl, sameBut_setHost s _⟩

/-! ### Operand checks -/

section
variable {a : ArgRegs}

theorem bpPutOperandsOk_iff : bpPutOperandsOk a = true ↔
    (1 ≤ a.arg1.toNat ∧ a.arg1.toNat ≤ 12) ∧ a.arg2.toNat ≤ 1 ∧ a.arg0.toNat < 2 ^ a.arg1.toNat := by
  simp [bpPutOperandsOk, isWidthOperand, isFlagOperand, fitsWidth, and_assoc]

theorem bpFlushOperandsOk_iff : bpFlushOperandsOk a = true ↔ a.arg2.toNat ≤ 1 := by
  simp [bpFlushOperandsOk, isFlagOperand]

theorem bpGetOperandsOk_iff : bpGetOperandsOk a = true ↔ (1 ≤ a.arg1.toNat ∧ a.arg1.toNat ≤ 12) ∧ a.arg2.toNat ≤ 1 := by
  simp [bpGetOperandsOk, isWidthOperand, isFlagOperand]

theorem sbPutOperandsOk_iff : sbPutOperandsOk a = true ↔ a.arg0.toNat ≤ 255 := by
  simp [sbPutOperandsOk, isByteOperand]

end

/-- R287: each of the six checks is the first thing its body does. -/
theorem bodyOf_illegal {i : Instr} {s : State} (h : operandsIllegal i s) : bodyOf i s = .raise .illegalCommand s := by
  cases i
  case stAdd => exact stAddBody_illegal h
  case stFind => exact stFindBody_past_input h
  case bpPut =>
    refine if_pos (Bool.eq_false_iff.2 fun hok => ?_)
    obtain ⟨⟨hlow, hhigh⟩, hflag, hfits⟩ := bpPutOperandsOk_iff.1 hok
    obtain h | h | h | h := h <;> omega
  case bpFlush => exact if_pos (Bool.eq_false_iff.2 fun hok => Nat.not_le.2 h (bpFlushOperandsOk_iff.1 hok))
  case bpGet =>
    refine if_pos (Bool.eq_false_iff.2 fun hok => ?_)
    obtain ⟨⟨hlow, hhigh⟩, hflag⟩ := bpGetOperandsOk_iff.1 hok
    obtain h | h | h := h <;> omega
  case sbPut => exact if_pos (Bool.eq_false_iff.2 fun hok => Nat.not_le.2 h (sbPutOperandsOk_iff.1 hok))
  all_goals exact False.elim h

/-- Settles O15: the check comes before any effect. -/
theorem illegalOperandsFault : Obligations.IllegalOperandsFault := by
  unfold Obligations.IllegalOperandsFault
  intro i s hs h
  have hi : Ordinary i := ⟨fun hclr => (by subst hclr; exact h), fun hsoft => (by subst hsoft; exact h)⟩
  have hbody : bodyOf i s.begun = .raise .illegalCommand s.begun := bodyOf_illegal (by cases i <;> exact h)
  rw [exec_eq_runCommand hi, runCommand_rejects hs hbody]
  rfl

end Sys2Proof.Machine
end

section
/-! Two runs of one command that differ in the contents of `SRC` and `SNK` only (spec/20_memory.md R62, R76, R77): where the bytes of
`SRC` below `SRC_LEN` are the same, the runs are the same but for those contents. -/

namespace Sys2Proof.Machine

open Sys2Proof.Claims

/-! ### Other contents of the memories -/

/-- The state with other contents of `SRC` and `SNK`. -/
def State.over (s : State) (src snk : Memory) : State := (s.setSrc src).setSnk snk

/-- A relation between a state and other contents of its memories that a command's two runs keep: it depends on the memories, their
bounds and cursors only, the input is the same, and an append to both keeps it. -/
structure Blind (R : State → Memory → Memory → Prop) : Prop where
  congr : ∀ {s t : State} {m n : Memory}, R s m n → t.src = s.src → t.snk = s.snk → t.cur.srcLen = s.cur.srcLen →
    t.cur.snkPos = s.cur.snkPos → t.free.powerOns = s.free.powerOns → R t m n
  byte : ∀ {s : State} {m n : Memory}, R s m n → ∀ a < s.cur.srcLen.toNat, srcByte (s.over m n) a = srcByte s a
  write : ∀ {s : State} {m n : Memory}, R s m n → s.cur.snkPos.toNat < s.cur.snkCap.toNat → ∀ b : Byte,
    R (snkAppended [b] s) m (cellPut n s.cur.snkPos.toNat b)

/-- Two ends of one run: the same value or the same fault, in states that differ in contents related by `R`. -/
inductive Alike {α : Type} (R : State → Memory → Memory → Prop) : Run α → Run α → Prop
  | ok {s : State} {m n : Memory} (a : α) (h : R s m n) : Alike R (.ok a s) (.ok a (s.over m n))
  | raise {s : State} {m n : Memory} (k : FaultKind) (h : R s m n) : Alike R (.raise k s) (.raise k (s.over m n))

section
variable {α β : Type} {R : State → Memory → Memory → Prop} {s : State} {m n : Memory}

theorem Alike.bind {x y : Run α} {f g : α → State → Run β} (h : Alike R x y)
    (hfg : ∀ a s m n, R s m n → Alike R (f a s) (g a (s.over m n))) : Alike R (x.bind f) (y.bind g) := by
  cases h with
  | ok a h => exact hfg a _ _ _ h
  | raise k h => exact .raise k h

/-- A branch that both runs take. -/
theorem Alike.ite {p q : Prop} [Decidable p] [Decidable q] {x x' y y' : Run α} (hpq : q ↔ p) (hx : p → Alike R x x')
    (hy : ¬ p → Alike R y y') : Alike R (if p then x else y) (if q then x' else y') := by
  by_cases hp : p
  · rw [if_pos hp, if_pos (hpq.2 hp)]
    exact hx hp
  · rw [if_neg hp, if_neg (fun hq => hp (hpq.1 hq))]
    exact hy hp

variable (hR : Blind R)
include hR

theorem Blind.setStatus (h : R s m n) (x : StatusRegs) : R (s.setStatus x) m n := hR.congr h rfl rfl rfl rfl rfl
theorem Blind.setRes (h : R s m n) (x : ResRegs) : R (s.setRes x) m n := hR.congr h rfl rfl rfl rfl rfl
theorem Blind.setSt (h : R s m n) (x : StringTable) : R (s.setSt x) m n := hR.congr h rfl rfl rfl rfl rfl
theorem Blind.setBp (h : R s m n) (x : Packer) : R (s.setBp x) m n := hR.congr h rfl rfl rfl rfl rfl
theorem Blind.setSb (h : R s m n) (x : Framer) : R (s.setSb x) m n := hR.congr h rfl rfl rfl rfl rfl
theorem Blind.setLz (h : R s m n) (x : LzwRegs) : R (s.setLz x) m n := hR.congr h rfl rfl rfl rfl rfl
theorem Blind.setHdr (h : R s m n) (x : HeaderRegs) : R (s.setHdr x) m n := hR.congr h rfl rfl rfl rfl rfl

/-! ### Reads and writes -/

theorem Blind.srcAdvance (h : R s m n) (k : Nat) :
    srcAdvance k (s.over m n) = (srcAdvance k s).over m n ∧ R (srcAdvance k s) m n := by
  unfold Machine.srcAdvance
  by_cases hfit : s.cur.srcPos.toNat + k < 2 ^ 32
  · rw [if_pos hfit, if_pos (show (s.over m n).cur.srcPos.toNat + k < 2 ^ 32 from hfit)]
    exact ⟨rfl, hR.congr h rfl rfl rfl rfl rfl⟩
  · rw [if_neg hfit, if_neg (show ¬ (s.over m n).cur.srcPos.toNat + k < 2 ^ 32 from hfit)]
    exact ⟨rfl, hR.congr h rfl rfl rfl rfl rfl⟩

/-- A byte that is available lies below `SRC_LEN` (R64). -/
theorem Blind.srcByte (h : R s m n) {k : Nat} (hk : k < srcAvail s) :
    srcByte (s.over m n) (s.cur.srcPos.toNat + k) = srcByte s (s.cur.srcPos.toNat + k) := by
  refine hR.byte h _ ?_
  unfold srcAvail at hk
  split at hk <;> omega

theorem Blind.srcRead8 (h : R s m n) : Alike R (srcRead8 s) (srcRead8 (s.over m n)) := by
  refine .ite Iff.rfl (fun havail => ?_) fun _ => ?_
  · obtain ⟨hadvance, hR'⟩ := hR.srcAdvance h 1
    have hbyte : Machine.srcByte (s.over m n) s.cur.srcPos.toNat = Machine.srcByte s s.cur.srcPos.toNat :=
      hR.srcByte h (k := 0) havail
    rw [hadvance, show (s.over m n).cur = s.cur from rfl, hbyte]
    exact .ok _ hR'
  · have hticked : R (s.setFree { s.free with tick := s.free.tick + 1 }) m n := hR.congr h rfl rfl rfl rfl rfl
    obtain ⟨hadvance, hR'⟩ := hR.srcAdvance hticked 1
    have hover : (s.over m n).setFree { s.free with tick := s.free.tick + 1 } =
      (s.setFree { s.free with tick := s.free.tick + 1 }).over m n := rfl
    rw [show (s.over m n).free = s.free from rfl, hover, hadvance]
    exact .ok _ hR'

theorem Blind.srcRead16 (h : R s m n) : Alike R (srcRead16 s) (srcRead16 (s.over m n)) :=
  .bind (hR.srcRead8 h) fun _ _ _ _ h => .bind (hR.srcRead8 h) fun _ _ _ _ h => .ok _ h

/-- Peeking at bytes that are available (R66). -/
theorem Blind.srcPeekList (h : R s m n) {k : Nat} (hk : k ≤ srcAvail s) :
    srcPeekList k (s.over m n) = srcPeekList k s :=
  List.map_congr_left fun _ hi => hR.srcByte h ((List.mem_range.1 hi).trans_le hk)

theorem Blind.snkWrite8 (h : R s m n) (b : Byte) : Alike R (snkWrite8 b s) (snkWrite8 b (s.over m n)) :=
  .ite Iff.rfl (fun _ => .raise _ h) fun hroom => .ok _ (hR.write h (Nat.not_le.1 hroom) b)

theorem Blind.snkWriteList (h : R s m n) (bs : List Byte) : Alike R (snkWriteList bs s) (snkWriteList bs (s.over m n)) := by
  induction bs generalizing s m n with
  | nil => exact .ok _ h
  | cons b bs ih => exact .bind (hR.snkWrite8 h b) fun _ _ _ _ h => ih h

/-! ### The framer -/

theorem Blind.framerEmit (h : R s m n) : Alike R (framerEmit s) (framerEmit (s.over m n)) :=
  .ite Iff.rfl (fun _ => .raise _ h) fun _ => .bind (hR.snkWriteList h _) fun _ _ _ _ h => .ok _ (hR.setSb h _)

theorem Blind.framerEmitIfFull (h : R s m n) : Alike R (framerEmitIfFull s) (framerEmitIfFull (s.over m n)) :=
  .ite Iff.rfl (fun _ => hR.framerEmit h) fun _ => .ok _ h

theorem Blind.framerPut (h : R s m n) (b : Byte) : Alike R (framerPut b s) (framerPut b (s.over m n)) :=
  .bind (hR.framerEmitIfFull h) fun _ _ _ _ h => hR.framerEmitIfFull (hR.setSb h _)

theorem Blind.framerClose (h : R s m n) : Alike R (framerClose s) (framerClose (s.over m n)) :=
  .bind (.ite Iff.rfl (fun _ => .ok _ h) fun _ => hR.framerEmit h) fun _ _ _ _ h => hR.snkWrite8 h 0

theorem Blind.framerTake (h : R s m n) : Alike R (framerTake s) (framerTake (s.over m n)) :=
  .bind (hR.srcRead8 h) fun _ _ _ _ h => .ok _ (hR.setSb h _)

theorem Blind.framerLength (h : R s m n) : Alike R (framerLength s) (framerLength (s.over m n)) :=
  .ite Iff.rfl (fun _ => .raise _ h) fun _ => .bind (hR.srcRead8 h) fun _ _ _ _ h =>
    .ite Iff.rfl (fun _ => .ok _ (hR.setSb h _)) fun _ =>
      .ite Iff.rfl (fun _ => .raise _ h) fun _ => .ok _ (hR.setSb h _)

theorem Blind.framerGet (h : R s m n) : Alike R (framerGet s) (framerGet (s.over m n)) :=
  .ite Iff.rfl (fun _ => .ok _ h) fun _ => .ite Iff.rfl (fun _ => .bind (hR.framerLength h) fun _ _ _ _ h =>
    .ite Iff.rfl (fun _ => .ok _ h) fun _ => hR.framerTake h) fun _ => hR.framerTake h

theorem Blind.framerSkipBlock (h : R s m n) :
    framerSkipBlock (s.over m n) = (framerSkipBlock s).over m n ∧ R (framerSkipBlock s) m n := by
  obtain ⟨hadvance, hR'⟩ := hR.srcAdvance h s.sb.rrem.toNat
  refine ⟨?_, hR.setSb hR' _⟩
  unfold Machine.framerSkipBlock srcSkip
  rw [show (s.over m n).sb = s.sb from rfl, hadvance]
  rfl

theorem Blind.framerSkipLoop (h : R s m n) (k : Nat) : Alike R (framerSkipLoop k s) (framerSkipLoop k (s.over m n)) := by
  induction k generalizing s m n with
  | zero => exact .ite Iff.rfl (fun _ => .ok _ h) fun _ => .raise _ h
  | succ k ih =>
    obtain ⟨hskip, hR'⟩ := hR.framerSkipBlock h
    unfold Machine.framerSkipLoop
    rw [hskip]
    exact .ite Iff.rfl (fun _ => .ok _ h) fun _ => .bind (hR.framerLength hR') fun _ _ _ _ h => ih h

/-! ### The packer -/

theorem Blind.putByte (h : R s m n) (b : Byte) (mode : Mode) : Alike R (putByte b mode s) (putByte b mode (s.over m n)) := by
  cases mode with
  | framed => exact hR.framerPut h b
  | raw => exact hR.snkWrite8 h b

theorem Blind.getByte (h : R s m n) (mode : Mode) : Alike R (getByte mode s) (getByte mode (s.over m n)) := by
  cases mode with
  | framed =>
    refine .bind (hR.framerGet h) fun r _ _ _ h => ?_
    cases r with
    | none => exact .raise _ h
    | some b => exact .ok _ h
  | raw => exact .ite Iff.rfl (fun _ => .raise _ h) fun _ => hR.srcRead8 h

theorem Blind.packDrainLoop (h : R s m n) (mode : Mode) (k : Nat) :
    Alike R (packDrainLoop mode k s) (packDrainLoop mode k (s.over m n)) := by
  induction k generalizing s m n with
  | zero => exact .ok _ h
  | succ k ih => exact .bind (hR.putByte (hR.setBp h _) _ mode) fun _ _ _ _ h => ih h

theorem Blind.packBits (h : R s m n) (c w : Nat) (mode : Mode) :
    Alike R (packBits c w mode s) (packBits c w mode (s.over m n)) :=
  .bind (hR.packDrainLoop h mode _) fun _ _ _ _ h => hR.packDrainLoop (hR.setBp h _) mode _

theorem Blind.packFlush (h : R s m n) (mode : Mode) : Alike R (packFlush mode s) (packFlush mode (s.over m n)) :=
  .bind (hR.packDrainLoop h mode _) fun _ _ _ _ h =>
    .ite Iff.rfl (fun _ => .ok _ h) fun _ => hR.putByte (hR.setBp h _) _ mode

theorem Blind.unpackFill (h : R s m n) (w : Nat) (mode : Mode) (k : Nat) :
    Alike R (unpackFill w mode k s) (unpackFill w mode k (s.over m n)) := by
  induction k generalizing s m n with
  | zero => exact .ok _ h
  | succ k ih =>
    exact .ite Iff.rfl (fun _ => .bind (hR.getByte h mode) fun _ _ _ _ h => ih (hR.setBp h _)) fun _ => .ok _ h

theorem Blind.unpackBits (h : R s m n) (w : Nat) (mode : Mode) :
    Alike R (unpackBits w mode s) (unpackBits w mode (s.over m n)) :=
  .bind (hR.unpackFill h w mode 2) fun _ _ _ _ h => .ok _ (hR.setBp h _)

/-! ### The string table -/

theorem Blind.tableReset (h : R s m n) (rb : Nat) : Alike R (tableReset rb s) (tableReset rb (s.over m n)) :=
  .ite Iff.rfl (fun _ => .raise _ h) fun _ => .ite Iff.rfl (fun _ => .raise _ h) fun _ => .ok _ (hR.setSt h _)

theorem Blind.tableAdd (h : R s m n) (base : Nat) (b : Byte) (fw : Bool) :
    Alike R (tableAdd base b fw s) (tableAdd base b fw (s.over m n)) :=
  .ite Iff.rfl (fun _ => .raise _ h) fun _ => .ite Iff.rfl (fun _ => .raise _ h) fun _ => .ok _ (hR.setSt h _)

theorem Blind.tableWrite (h : R s m n) (c : Nat) : Alike R (tableWrite c s) (tableWrite c (s.over m n)) :=
  .ite Iff.rfl (fun _ => .raise _ h) fun _ => .ite Iff.rfl (fun _ => .raise _ h) fun _ =>
    .bind (hR.snkWriteList h _) fun _ _ _ _ h => .ok _ h

/-! ### The compressor -/

/-- What `PutCode` does is the same in both runs. -/
def BlindPut (R : State → Memory → Memory → Prop) (put : PutCode α) : Prop :=
  ∀ (c : Nat) (o : α) (s : State) (m n : Memory), R s m n → Alike R (put c o s) (put c o (s.over m n))

theorem Blind.putPacked : BlindPut R putPacked := fun _ _ _ _ _ h => hR.packBits h _ _ .framed

omit hR in
theorem blindPut_putCounted : BlindPut R putCounted := fun _ _ _ _ _ h => .ok _ h

variable {put : PutCode α} (hput : BlindPut R put)
include hput

theorem Blind.capacityReset (h : R s m n) (rb : Nat) (o : α) :
    Alike R (capacityReset put rb o s) (capacityReset put rb o (s.over m n)) :=
  .ite Iff.rfl (fun _ => .bind (hput _ o _ _ _ h) fun _ _ _ _ h =>
    .bind (hR.tableReset (hR.setLz h _) rb) fun _ _ _ _ h => .ok _ h) fun _ => .ok _ h

theorem Blind.emitAndRegister (h : R s m n) (rb : Nat) (b : Byte) (o : α) :
    Alike R (emitAndRegister put rb b o s) (emitAndRegister put rb b o (s.over m n)) :=
  .bind (hput _ o _ _ _ h) fun _ _ _ _ h => .bind (hR.tableAdd h _ b true) fun _ _ _ _ h =>
    .bind (hR.capacityReset hput h rb _) fun _ _ _ _ h => .ok _ (hR.setLz h _)

theorem Blind.compressLoop (h : R s m n) (rb k : Nat) (pfx : List Byte) (o : α) :
    Alike R (compressLoop put rb k pfx o s) (compressLoop put rb k pfx o (s.over m n)) := by
  induction k generalizing s m n pfx o with
  | zero => exact .ok _ h
  | succ k ih =>
    refine .bind (hR.srcRead8 h) fun b s m n h => .ite Iff.rfl (fun _ => .raise _ h) fun _ =>
      .ite Iff.rfl (fun _ => ih (hR.setLz h _) _ o) fun _ => ?_
    rw [show (s.over m n).st = s.st from rfl]
    cases findCode s.st (pfx ++ [b]) with
    | some c => exact ih (hR.setLz h _) _ o
    | none => exact .bind (hR.emitAndRegister hput h rb b o) fun _ _ _ _ h => ih h _ _

theorem Blind.compressTail (h : R s m n) (o : α) : Alike R (compressTail put o s) (compressTail put o (s.over m n)) := by
  refine .bind (.ite Iff.rfl (fun _ => .ok _ h) fun _ => .bind (hput _ o _ _ _ h) fun o s m n h => ?_)
    fun o _ _ _ h => hput _ o _ _ _ h
  rw [widenAtEnd_eq, widenAtEnd_eq]
  exact .ok o (hR.setSt h _)

theorem Blind.compressCodes (h : R s m n) (rb : Nat) (o : α) :
    Alike R (compressCodes put rb o s) (compressCodes put rb o (s.over m n)) :=
  .bind (hput _ o _ _ _ (hR.setLz h _)) fun _ _ _ _ h =>
    .bind (hR.compressLoop hput (hR.setLz h _) rb _ [] _) fun o _ _ _ h => hR.compressTail hput h o

omit hput

theorem Blind.compressOpen (h : R s m n) (rb : Nat) : Alike R (compressOpen rb s) (compressOpen rb (s.over m n)) :=
  .bind (hR.tableReset h rb) fun _ _ _ _ h => .bind (hR.snkWrite8 h _) fun _ _ _ _ h => .ok _ (hR.setBp (hR.setSb h _) _)

/-! ### The decompressor -/

theorem Blind.decompressAdd (h : R s m n) (c : Nat) : Alike R (decompressAdd c s) (decompressAdd c (s.over m n)) :=
  .ite Iff.rfl (fun _ => .ite Iff.rfl (fun _ => .ok _ h) fun _ => .raise _ h) fun _ =>
    .ite Iff.rfl (fun _ => .bind (hR.tableAdd h _ _ false) fun _ _ _ _ h => .ok _ h) fun _ =>
      .ite Iff.rfl (fun _ => .bind (hR.tableAdd h _ _ false) fun _ _ _ _ h => .ok _ h) fun _ => .raise _ h

theorem Blind.decompressCode (h : R s m n) (c : Nat) : Alike R (decompressCode c s) (decompressCode c (s.over m n)) :=
  .ite Iff.rfl (fun _ => .bind (hR.tableReset h _) fun _ _ _ _ h => .ok _ (hR.setLz h _)) fun _ =>
    .bind (hR.decompressAdd h c) fun _ _ _ _ h => .bind (hR.tableWrite h c) fun _ _ _ _ h => .ok _ (hR.setLz h _)

theorem Blind.decompressLoop (h : R s m n) (k : Nat) : Alike R (decompressLoop k s) (decompressLoop k (s.over m n)) := by
  induction k generalizing s m n with
  | zero => exact .raise _ h
  | succ k ih =>
    rw [decompressLoop_succ, decompressLoop_succ]
    exact .bind (hR.unpackBits h _ .framed) fun c _ _ _ h => .ite Iff.rfl (fun _ => .ok _ h) fun _ =>
      .bind (hR.decompressCode h c) fun _ _ _ _ h => ih h

theorem Blind.framerDrain (h : R s m n) : Alike R (framerDrain s) (framerDrain (s.over m n)) := by
  obtain ⟨hskip, hR'⟩ := hR.framerSkipBlock h
  unfold Machine.framerDrain
  rw [hskip]
  refine .bind (.ite Iff.rfl (fun _ => .ok _ hR') fun _ => .bind (hR.srcRead8 hR') fun b s m n h => ?_)
    fun _ _ _ _ h => .ok _ (hR.setSb h _)
  obtain ⟨hadvance, hR''⟩ := hR.srcAdvance h (min b.toNat (srcAvail s))
  rw [show srcSkip (min b.toNat (srcAvail (s.over m n))) (s.over m n) = _ from hadvance]
  exact .ok _ hR''

theorem Blind.decompressOpen (h : R s m n) : Alike R (decompressOpen s) (decompressOpen (s.over m n)) :=
  .ite Iff.rfl (fun _ => .raise _ h) fun _ => .bind (hR.srcRead8 h) fun b _ _ _ h =>
    .bind (hR.tableReset h (b.toNat + 1)) fun _ _ _ _ h => .ok _ (hR.setLz (hR.setSb (hR.setBp h _) _) _)

/-! ### Records and comments -/

theorem Blind.writeRecord (h : R s m n) (bs : List Byte) : Alike R (writeRecord bs s) (writeRecord bs (s.over m n)) :=
  .ite Iff.rfl (fun _ => .raise _ h) fun _ => hR.snkWriteList h bs

theorem Blind.commentPutLoop (h : R s m n) (k : Nat) : Alike R (commentPutLoop k s) (commentPutLoop k (s.over m n)) := by
  induction k generalizing s m n with
  | zero => exact .ok _ h
  | succ k ih => exact .bind (hR.srcRead8 h) fun b _ _ _ h => .bind (hR.framerPut h b) fun _ _ _ _ h => ih h

theorem Blind.commentGetLoop (h : R s m n) (k count : Nat) :
    Alike R (commentGetLoop k count s) (commentGetLoop k count (s.over m n)) := by
  induction k generalizing s m n count with
  | zero => exact .raise _ h
  | succ k ih =>
    refine .bind (hR.framerGet h) fun r _ _ _ h => ?_
    cases r with
    | none => exact .ok _ h
    | some b => exact .bind (hR.snkWrite8 h b) fun _ _ _ _ h => ih h _

theorem Blind.finish1 (h : R s m n) (v : Nat) : Alike R (finish1 v s) (finish1 v (s.over m n)) := .ok _ (hR.setRes h _)

theorem Blind.finish2 (h : R s m n) (v w : Nat) : Alike R (finish2 v w s) (finish2 v w (s.over m n)) :=
  .ok _ (hR.setRes h _)

/-! ### Bodies -/

/-- `HDR_RD_FILE` peeks at its signature only behind the check of the length. -/
theorem Blind.hdrRdFileBody (h : R s m n) : Alike R (hdrRdFileBody s) (hdrRdFileBody (s.over m n)) := by
  refine .ite Iff.rfl (fun _ => .raise _ h) fun havail => ?_
  rw [hR.srcPeekList h (k := 6) (by have := Nat.not_lt.1 havail; simp only [Config.fileHeaderLen] at this; omega)]
  refine .ite Iff.rfl (fun _ => .raise _ h) fun _ => ?_
  obtain ⟨hadvance, hR'⟩ := hR.srcAdvance h 6
  rw [show srcSkip 6 (s.over m n) = _ from hadvance]
  exact .bind (hR.srcRead16 hR') fun _ _ _ _ h => .bind (hR.srcRead16 h) fun _ _ _ _ h =>
    .bind (hR.srcRead8 h) fun _ _ _ _ h => .bind (hR.srcRead8 h) fun _ _ _ _ h => .bind (hR.srcRead8 h) fun _ _ _ _ h =>
      .ok _ (hR.setHdr h _)

theorem Blind.hdrRdImageBody (h : R s m n) : Alike R (hdrRdImageBody s) (hdrRdImageBody (s.over m n)) :=
  .ite Iff.rfl (fun _ => .raise _ h) fun _ => .bind (hR.srcRead16 h) fun _ _ _ _ h => .bind (hR.srcRead16 h) fun _ _ _ _ h =>
    .bind (hR.srcRead16 h) fun _ _ _ _ h => .bind (hR.srcRead16 h) fun _ _ _ _ h => .bind (hR.srcRead8 h) fun _ _ _ _ h =>
      .ok _ (hR.setHdr h _)

theorem Blind.hdrRdGcbBody (h : R s m n) : Alike R (hdrRdGcbBody s) (hdrRdGcbBody (s.over m n)) := by
  refine .ite Iff.rfl (fun _ => .raise _ h) fun havail => ?_
  have hleft : 6 ≤ srcAvail s := Nat.not_lt.1 havail
  have hpeek : ∀ k < 6, srcPeek8 k (s.over m n) = srcPeek8 k s := fun k hk => hR.srcByte h (by omega)
  rw [hpeek 0 (by omega), hpeek 5 (by omega)]
  refine .ite Iff.rfl (fun _ => .raise _ h) fun _ => .ite Iff.rfl (fun _ => .raise _ h) fun _ => ?_
  obtain ⟨hadvance, hR'⟩ := hR.srcAdvance h 1
  rw [show srcSkip 1 (s.over m n) = _ from hadvance]
  refine .bind (hR.srcRead8 hR') fun flags _ _ _ h => .bind (hR.srcRead16 h) fun delay _ _ _ h =>
    .bind (hR.srcRead8 h) fun transp s m n h => ?_
  obtain ⟨hadvance', hR''⟩ := hR.srcAdvance
    (hR.setHdr h { s.hdr with gcFlags := flags, gcDelay := delay, gcTransp := transp }) 1
  exact (congrArg (fun t => Alike R _ (.ok () t)) hadvance').mpr (.ok () hR'')

theorem Blind.stFindBody (h : R s m n) : Alike R (stFindBody s) (stFindBody (s.over m n)) := by
  refine .ite Iff.rfl (fun _ => .raise _ h) fun havail => ?_
  rw [show (s.over m n).args = s.args from rfl, hR.srcPeekList h (Nat.not_lt.1 havail)]
  exact hR.finish1 h _

theorem Blind.lzwEstimateBody (h : R s m n) : Alike R (lzwEstimateBody s) (lzwEstimateBody (s.over m n)) := by
  have hbits : Alike R (estimateBits s.args.arg0.toNat s) (estimateBits s.args.arg0.toNat (s.over m n)) :=
    .bind (hR.tableReset h _) fun _ _ _ _ h => hR.compressCodes blindPut_putCounted h _ 0
  unfold Machine.lzwEstimateBody
  rw [show (s.over m n).args = s.args from rfl]
  generalize estimateBits s.args.arg0.toNat s = x, estimateBits s.args.arg0.toNat (s.over m n) = y at hbits
  cases hbits with
  | ok bits _ => exact .ok _ (hR.setRes h _)
  | raise k _ => exact .raise _ h

theorem Blind.bodyOf (h : R s m n) (i : Instr) : Alike R (bodyOf i s) (bodyOf i (s.over m n)) := by
  cases i
  case nop | softReset => exact .ok _ h
  case stReset => exact hR.tableReset h _
  case stAdd => exact .ite Iff.rfl (fun _ => .raise _ h) fun _ => .bind (hR.tableAdd h _ _ _) fun _ _ _ _ h => hR.finish1 h _
  case stFind => exact hR.stFindBody h
  case stWrstr => exact .bind (hR.tableWrite h _) fun _ _ _ _ h => hR.finish1 h _
  case stFirst | stBase => exact .ite Iff.rfl (fun _ => .raise _ h) fun _ => hR.finish1 h _
  case stUnused => exact hR.finish1 h _
  case lzwCompress =>
    exact .bind (hR.compressOpen h _) fun _ _ _ _ h => .bind (hR.compressCodes hR.putPacked h _ ()) fun _ _ _ _ h =>
      .bind (.bind (hR.packFlush h .framed) fun _ _ _ _ h => hR.framerClose h) fun _ _ _ _ h => hR.finish2 h _ _
  case lzwEstimate => exact hR.lzwEstimateBody h
  case lzwDecompress =>
    exact .bind (hR.decompressOpen h) fun _ _ _ _ h => .bind (hR.decompressLoop h _) fun _ _ _ _ h =>
      .bind (hR.framerDrain h) fun _ _ _ _ h => hR.finish2 h _ _
  case bpInit => exact .ok _ (hR.setBp h _)
  case bpPut => exact .ite Iff.rfl (fun _ => .raise _ h) fun _ => hR.packBits h _ _ _
  case bpFlush => exact .ite Iff.rfl (fun _ => .raise _ h) fun _ => hR.packFlush h _
  case bpGet =>
    exact .ite Iff.rfl (fun _ => .raise _ h) fun _ => .bind (hR.unpackBits h _ _) fun _ _ _ _ h => hR.finish1 h _
  case sbOpen | sbRopen => exact .ok _ (hR.setSb h _)
  case sbPut => exact .ite Iff.rfl (fun _ => .raise _ h) fun _ => hR.framerPut h _
  case sbClose => exact hR.framerClose h
  case sbGet =>
    refine .bind (hR.framerGet h) fun r _ _ _ h => ?_
    cases r <;> exact hR.finish2 h _ _
  case sbSkip =>
    obtain ⟨hskip, -⟩ := hR.framerSkipBlock h
    have hloop := hR.framerSkipLoop h (srcAvail (Machine.framerSkipBlock s) + 1)
    have hrounds : srcAvail (Machine.framerSkipBlock (s.over m n)) = srcAvail (Machine.framerSkipBlock s) := by
      rw [hskip]
      rfl
    show Alike R (framerSkip s) (framerSkip (s.over m n))
    rw [framerSkip, framerSkip, hrounds]
    exact hloop
  case hdrWrFile | hdrWrImage | hdrWrGcb => exact hR.writeRecord h _
  case hdrRdFile => exact hR.hdrRdFileBody h
  case hdrRdImage => exact hR.hdrRdImageBody h
  case hdrRdGcb => exact hR.hdrRdGcbBody h
  case hdrWrComment =>
    exact .bind (hR.commentPutLoop (hR.setSb h _) _) fun _ _ _ _ h => .bind (hR.framerClose h) fun _ _ _ _ h => hR.finish1 h _
  case hdrRdComment => exact .bind (hR.commentGetLoop (hR.setSb h _) _ 0) fun _ _ _ _ h => hR.finish1 h _
  case clrFault => exact .ok _ (hR.setStatus h _)

/-! ### Commands -/

theorem Blind.runCommand (h : R s m n) (i j : Instr) :
    ∃ t m' n', runCommand i (Machine.bodyOf j) s = .next t ∧
      runCommand i (Machine.bodyOf j) (s.over m n) = .next (t.over m' n') ∧ R t m' n' := by
  unfold Machine.runCommand
  rw [show (s.over m n).status = s.status from rfl]
  split
  · exact ⟨s, m, n, rfl, rfl, h⟩
  · have hbody := hR.bodyOf (hR.setStatus h (beginFlags s.status)) j
    rw [show (s.over m n).setStatus (beginFlags s.status) = (s.setStatus (beginFlags s.status)).over m n from rfl]
    generalize Machine.bodyOf j (s.setStatus (beginFlags s.status)) = x,
      Machine.bodyOf j ((s.setStatus (beginFlags s.status)).over m n) = y at hbody
    cases hbody with
    | ok _ h => exact ⟨_, _, _, rfl, rfl, hR.setStatus h _⟩
    | raise k h => exact ⟨_, _, _, rfl, rfl, hR.setStatus h _⟩

/-- R62, R76: a command other than `SOFT_RESET` with other contents of the memories. -/
theorem Blind.exec (h : R s m n) {i : Instr} (hsoft : i ≠ .softReset) {t : State} (hexec : exec i s = .next t) :
    ∃ m' n', exec i (s.over m n) = .next (t.over m' n') ∧ R t m' n' := by
  by_cases hclr : i = .clrFault
  · subst hclr
    by_cases hs : Ready s
    · obtain ⟨t', m', n', hrun, hrun', hR'⟩ := hR.runCommand h .clrFault .clrFault
      obtain rfl := Host.Outcome.next.inj (hexec.symm.trans ((execClrFault_ready hs).trans hrun))
      exact ⟨m', n', (execClrFault_ready (s := s.over m n) hs).trans hrun', hR'⟩
    · obtain rfl := Host.Outcome.next.inj (hexec.symm.trans (execClrFault_pending hs))
      exact ⟨m, n, execClrFault_pending (s := s.over m n) hs, hR.setStatus h _⟩
  · obtain ⟨t', m', n', hrun, hrun', hR'⟩ := hR.runCommand h i i
    rw [exec_eq_runCommand ⟨hclr, hsoft⟩] at hexec ⊢
    obtain rfl := Host.Outcome.next.inj (hexec.symm.trans hrun)
    exact ⟨m', n', hrun', hR'⟩

end

/-! ### Other contents of `SNK` -/

/-- `SRC` is the same; the bytes of `SNK` from address `p` up to the cursor are the same, and the others are those of `s₀`. -/
def SinkOver (p : Nat) (s₀ : State) (s : State) (src snk : Memory) : Prop :=
  src = s.src ∧ ∀ a, snkByte (s.setSnk snk) a = if p ≤ a ∧ a < s.cur.snkPos.toNat then snkByte s a else snkByte s₀ a

theorem blind_sinkOver (p : Nat) (s₀ : State) : Blind fun s m n => p ≤ s.cur.snkPos.toNat ∧ SinkOver p s₀ s m n where
  congr := by
    rintro s t m n ⟨hle, rfl, hbytes⟩ hsrc hsnk - hpos hon
    refine ⟨by rw [hpos]; exact hle, hsrc.symm, fun a => ?_⟩
    have h := hbytes a
    unfold snkByte at h ⊢
    rw [show (t.setSnk n).free = t.free from rfl, hpos, hsnk, hon]
    exact h
  byte := by
    rintro s m n ⟨-, rfl, -⟩ a -
    rfl
  write := by
    rintro s m n ⟨hle, rfl, hbytes⟩ hroom b
    have hcap := s.cur.snkCap.isLt
    have hpos : (snkAppended [b] s).cur.snkPos.toNat = s.cur.snkPos.toNat + 1 :=
      (snkAppended_outputs (bs := [b]) hroom).snkPos
    have hput : ∀ x : Memory, ∀ a, snkByte ((snkAppended [b] s).setSnk (cellPut x s.cur.snkPos.toNat b)) a =
        if a = s.cur.snkPos.toNat then b else snkByte (s.setSnk x) a := fun x => snkByte_stored (s := s.setSnk x) _ b
    refine ⟨by omega, rfl, fun a => ?_⟩
    rw [hput, hpos, show snkByte (snkAppended [b] s) a = _ from hput s.snk a, hbytes a]
    by_cases ha : a = s.cur.snkPos.toNat
    · rw [if_pos ha, if_pos ⟨by omega, by omega⟩, if_pos ha]
    · rw [if_neg ha, if_neg ha]
      exact if_congr (by omega) rfl rfl

/-- Settles O20: nothing a command does looks at `SNK`, and an append puts the same byte at the same address. -/
theorem outputIsNeverRead : Obligations.OutputIsNeverRead := by
  unfold Obligations.OutputIsNeverRead
  intro i s t m hexec
  by_cases hsoft : i = .softReset
  · subst hsoft
    obtain rfl : softReset s = t := Host.Outcome.next.inj hexec
    exact ⟨m, rfl, fun a => (if_neg fun ha => Nat.not_lt_zero _ ha.2).symm⟩
  · have hstart : SinkOver s.cur.snkPos.toNat (s.setSnk m) s s.src m :=
      ⟨rfl, fun a => (if_neg fun ha => by omega).symm⟩
    obtain ⟨m', n', hexec', -, rfl, hbytes⟩ :=
      (blind_sinkOver s.cur.snkPos.toNat (s.setSnk m)).exec ⟨Nat.le_refl _, hstart⟩ hsoft hexec
    exact ⟨n', hexec', hbytes⟩

/-! ### Other contents of `SRC` -/

/-- `SNK` is the same, and so is every byte of `SRC` below `SRC_LEN`, with the contents `m`. -/
def InputOver (m : Memory) (s : State) (src snk : Memory) : Prop :=
  src = m ∧ snk = s.snk ∧ ∀ a < s.cur.srcLen.toNat, srcByte (s.setSrc m) a = srcByte s a

theorem blind_inputOver (m : Memory) : Blind (InputOver m) where
  congr := by
    rintro s t m _ ⟨rfl, rfl, hbytes⟩ hsrc hsnk hlen - hon
    refine ⟨rfl, hsnk.symm, fun a ha => ?_⟩
    have h := hbytes a (by rwa [← hlen])
    unfold srcByte at h ⊢
    rw [show (t.setSrc m).free = t.free from rfl, hsrc, hon]
    exact h
  byte := by
    rintro s _ _ ⟨rfl, rfl, hbytes⟩ a ha
    exact hbytes a ha
  write := by
    rintro s _ _ ⟨rfl, rfl, hbytes⟩ - b
    exact ⟨rfl, rfl, hbytes⟩

/-- Settles O21: every read and every peek of a command lies below `SRC_LEN`. -/
theorem inputBeyondLengthIsNeverRead : Obligations.InputBeyondLengthIsNeverRead := by
  unfold Obligations.InputBeyondLengthIsNeverRead
  intro i s t m hbytes hexec
  by_cases hsoft : i = .softReset
  · subst hsoft
    obtain rfl : softReset s = t := Host.Outcome.next.inj hexec
    rfl
  · obtain ⟨m', n', hexec', rfl, rfl, -⟩ := (blind_inputOver m).exec ⟨rfl, rfl, hbytes⟩ hsoft hexec
    exact hexec'

end Sys2Proof.Machine
end

section
/-! Handing bytes on (spec/43_bitpacker.md R208): a list of bytes put one after the other in either mode, up to the first one that
is not taken. One relation covers the run that takes them all and the run that raises at one of them. -/

namespace Sys2Proof.Machine

open Sys2Proof.Claims

/-! ### Putting is blind to the rest of the state -/

section
variable {α β : Type}

/-- The same run, with `f` done to the state it ends in. -/
def Run.mapState (f : State → State) : Run α → Run α
  | .ok a s => .ok a (f s)
  | .raise k s => .raise k (f s)

theorem Run.mapState_bind {f : State → State} {r : Run α} {g h : α → State → Run β}
    (hg : ∀ a s, g a (f s) = (h a s).mapState f) : (r.mapState f).bind g = (r.bind h).mapState f := by
  cases r with
  | ok a s => exact hg a s
  | raise k s => rfl

end

/-- `f` writes nothing that a put reads or writes: the framer, `SNK` and its cursor. -/
structure Beside (f : State → State) : Prop where
  sb : ∀ s, (f s).sb = s.sb
  fits : ∀ n s, snkFits n (f s) = snkFits n s
  setSb : ∀ s x, (f s).setSb x = f (s.setSb x)
  write : ∀ b s, snkWrite8 b (f s) = (snkWrite8 b s).mapState f

theorem beside_setBp (x : Packer) : Beside fun s => s.setBp x where
  sb _ := rfl
  fits _ _ := rfl
  setSb _ _ := rfl
  write b s := by
    show (if s.cur.snkCap.toNat ≤ s.cur.snkPos.toNat then _ else _) = Run.mapState _ (if _ then _ else _)
    split <;> rfl

theorem beside_srcMoved (k : Nat) : Beside (srcMoved k) where
  sb _ := rfl
  fits _ _ := rfl
  setSb _ _ := rfl
  write b s := by
    show (if s.cur.snkCap.toNat ≤ s.cur.snkPos.toNat then _ else _) = Run.mapState _ (if _ then _ else _)
    split <;> rfl

section
variable {f : State → State} (hf : Beside f)
include hf

theorem Beside.writeList (bs : List Byte) (s : State) : snkWriteList bs (f s) = (snkWriteList bs s).mapState f := by
  induction bs generalizing s with
  | nil => rfl
  | cons b bs ih =>
    rw [snkWriteList, hf.write]
    exact Run.mapState_bind fun _ s => ih s

theorem Beside.emit (s : State) : framerEmit (f s) = (framerEmit s).mapState f := by
  unfold framerEmit
  rw [hf.fits, hf.sb, hf.writeList]
  split
  · rfl
  · exact Run.mapState_bind fun _ s => congrArg (Run.ok ()) ((congrArg (f s).setSb (by rw [hf.sb])).trans (hf.setSb s _))

theorem Beside.emitIfFull (s : State) : framerEmitIfFull (f s) = (framerEmitIfFull s).mapState f := by
  unfold framerEmitIfFull
  rw [hf.sb, hf.emit]
  split <;> rfl

theorem Beside.put (mode : Mode) (b : Byte) (s : State) : putByte b mode (f s) = (putByte b mode s).mapState f := by
  cases mode with
  | raw => exact hf.write b s
  | framed =>
    show framerPut b (f s) = (framerPut b s).mapState f
    unfold framerPut
    rw [hf.emitIfFull]
    refine Run.mapState_bind fun _ s => ?_
    rw [show framerBuffer b (f s) = f (framerBuffer b s) by rw [framerBuffer, hf.sb, hf.setSb]; rfl]
    exact hf.emitIfFull _

end

/-! ### Bytes in sequence -/

/-- From `s` the bytes are put in turn; `n` of them are handed over, the last of these not taken where the run `r` ends in a
raise. -/
inductive Puts (mode : Mode) : State → List Byte → Nat → Run Unit → Prop
  | done (s : State) : Puts mode s [] 0 (.ok () s)
  | lost {s t : State} {b : Byte} {k : FaultKind} (bs : List Byte) (h : putByte b mode s = .raise k t) :
      Puts mode s (b :: bs) 1 (.raise k t)
  | put {s t : State} {b : Byte} {bs : List Byte} {n : Nat} {r : Run Unit} (h : putByte b mode s = .ok () t)
      (hr : Puts mode t bs n r) : Puts mode s (b :: bs) (n + 1) r

section
variable {mode : Mode} {s t u : State} {as bs : List Byte} {m n : Nat} {r : Run Unit} {k : FaultKind}

theorem Puts.beside (h : Puts mode s bs n r) {f : State → State} (hf : Beside f) : Puts mode (f s) bs n (r.mapState f) := by
  induction h with
  | done s => exact .done _
  | lost bs h => exact .lost bs (by rw [hf.put, h]; rfl)
  | put h _ ih => exact .put (by rw [hf.put, h]; rfl) ih

/-- Whatever the sink does, the bytes are all taken or one of them is not. -/
theorem puts_total (mode : Mode) (s : State) (bs : List Byte) : ∃ n r, Puts mode s bs n r := by
  induction bs generalizing s with
  | nil => exact ⟨0, _, .done s⟩
  | cons b bs ih =>
    cases h : putByte b mode s with
    | ok _ t =>
      obtain ⟨n, r, hr⟩ := ih t
      exact ⟨n + 1, r, .put h hr⟩
    | raise k t => exact ⟨1, _, .lost bs h⟩

theorem Puts.le_length (h : Puts mode s bs n r) : n ≤ bs.length := by
  induction h with
  | done => exact Nat.le_refl 0
  | lost => exact Nat.succ_le_succ (Nat.zero_le _)
  | put _ _ ih => exact Nat.succ_le_succ ih

theorem Puts.eq_length (h : Puts mode s bs n (.ok () t)) : n = bs.length := by
  generalize hr : Run.ok () t = r at h
  induction h with
  | done => rfl
  | lost => cases hr
  | put _ _ ih => exact congrArg (· + 1) (ih hr)

theorem Puts.pos_of_raise (h : Puts mode s bs n (.raise k t)) : 1 ≤ n := by
  cases h <;> exact Nat.succ_le_succ (Nat.zero_le _)

theorem Puts.append (h : Puts mode s as m (.ok () t)) (hr : Puts mode t bs n r) :
    Puts mode s (as ++ bs) (as.length + n) r := by
  generalize hok : Run.ok () t = x at h
  induction h with
  | done s => cases hok; simpa using hr
  | lost => cases hok
  | put h _ ih =>
    rw [List.cons_append, List.length_cons, Nat.add_right_comm]
    exact .put h (ih hok)

/-- A byte that is not taken ends the run, whatever was to come behind it. -/
theorem Puts.append_raise (h : Puts mode s as n (.raise k t)) (bs : List Byte) :
    Puts mode s (as ++ bs) n (.raise k t) := by
  generalize hr : Run.raise k t = r at h
  induction h with
  | done => cases hr
  | lost as h => exact .lost _ h
  | put h _ ih => exact .put h (ih hr)

/-- The first `j` bytes are taken and the next one is not. -/
theorem Puts.refuse {j : Nat} (h : Puts mode s (bs.take j) j (.ok () t)) (hj : j < bs.length)
    (hput : putByte bs[j] mode t = .raise k u) : Puts mode s bs (j + 1) (.raise k u) := by
  have hall := h.append (.lost (bs.drop (j + 1)) hput)
  rwa [← List.drop_eq_getElem_cons, List.take_append_drop, ← h.eq_length] at hall

/-- A byte put leaves the accumulators alone. -/
theorem Puts.bp (h : Puts mode s bs n r) : r.state.bp = s.bp := by
  have hput : ∀ (b : Byte) (s : State), (putByte b mode s).state.bp = s.bp := fun b s => by
    have hsame := (beside_setBp s.bp).put mode b s
    rw [show s.setBp s.bp = s from rfl] at hsame
    rw [hsame]
    cases putByte b mode s <;> rfl
  induction h with
  | done => rfl
  | lost bs h => exact (congrArg (fun x => x.state.bp) h.symm).trans (hput _ _)
  | put h _ ih => exact ih.trans ((congrArg (fun x => x.state.bp) h.symm).trans (hput _ _))

/-! ### Raw: the bytes go to `SNK` -/

/-- R69: with room for them all the bytes are appended. -/
theorem puts_raw (hroom : Room s bs.length) :
    ∃ t, Puts .raw s bs bs.length (.ok () t) ∧ SameBut [.cur, .snk] s t ∧ Outputs s t bs := by
  induction bs generalizing s with
  | nil => exact ⟨s, .done s, .refl _ s, .of_sameBut (by simp) (by simp) (.refl [] s)⟩
  | cons b bs ih =>
    obtain ⟨u, hwrite, hsu, hout⟩ := snkWrite8_outputs (b := b) (room_of_le hroom (by simp))
    obtain ⟨t, hputs, hut, hrest⟩ := ih (hout.room_rest hroom)
    exact ⟨t, .put hwrite hputs, hsu.trans hut, hout.trans hrest⟩

theorem roomLeft_outputs (h : Outputs s t bs) : roomLeft t = roomLeft s - bs.length := by
  unfold roomLeft
  rw [h.snkCap, h.snkPos]
  omega

/-- R69: with room for fewer, those that fit are appended and the next one raises `InsufficientSpace`. -/
theorem puts_raw_full (hfull : roomLeft s < bs.length) :
    ∃ t, Puts .raw s bs (roomLeft s + 1) (.raise .insufficientSpace t) ∧ SameBut [.cur, .snk] s t ∧
      Outputs s t (bs.take (roomLeft s)) := by
  have hlen : (bs.take (roomLeft s)).length = roomLeft s := by rw [List.length_take]; omega
  obtain ⟨t, hputs, hsame, hout⟩ := puts_raw (s := s) (bs := bs.take (roomLeft s))
    ((room_iff_le_roomLeft s _).2 hlen.le)
  have hnone : t.cur.snkCap.toNat ≤ t.cur.snkPos.toNat :=
    Nat.sub_eq_zero_iff_le.1 ((roomLeft_outputs hout).trans (by rw [hlen, Nat.sub_self]))
  rw [hlen] at hputs
  exact ⟨t, hputs.refuse hfull (snkWrite8_full hnone), hsame, hout⟩

/-- Where nothing was appended, neither the cursors nor `SNK` changed. -/
theorem SameBut.of_outputs_nil {gs : List Group} (h : SameBut (.cur :: .snk :: gs) s t) (hout : Outputs s t []) :
    SameBut gs s t := by
  intro g hg
  by_cases hcur : g = .cur
  · subst hcur
    exact hout.cur.trans (by simp [cursorsAfter])
  by_cases hsnk : g = .snk
  · subst hsnk
    exact fun a => hout.appends.2 a (by simp; omega)
  exact h g (by simp [hcur, hsnk, hg])

/-! ### Framed: the bytes go into the pending sub-block -/

/-- R222: with room for the blocks they complete, all the bytes are framed. -/
theorem puts_framed (hroom : Room s (frameBytes (wbufBytes s.sb) bs).1.length) :
    ∃ t, Puts .framed s bs bs.length (.ok () t) ∧ SameBut [.cur, .sb, .snk] s t ∧
      Framed s t (frameBytes (wbufBytes s.sb) bs) := by
  induction bs generalizing s with
  | nil => exact ⟨s, .done s, .refl _ s, .refl s⟩
  | cons b bs ih =>
    rw [frameBytes_cons] at hroom ⊢
    obtain ⟨u, hput, hsu, hframed⟩ := framerPut_framed (b := b) (room_of_le hroom (by simp))
    have hrest := hframed.outputs.room_rest hroom
    rw [← hframed.pending] at hrest ⊢
    obtain ⟨t, hputs, hut, hframed'⟩ := ih hrest
    exact ⟨t, .put hput hputs, hsu.trans hut, hframed.trans hframed'⟩

theorem framerEmitIfFull_full (h : s.sb.wcnt = 255) (hfull : s.cur.snkCap.toNat < s.cur.snkPos.toNat + 256) :
    framerEmitIfFull s = .raise .insufficientSpace s := by
  rw [framerEmitIfFull, if_pos h]
  obtain ⟨hfit, -⟩ | ⟨-, hraise⟩ := framerEmit_cases s
  · rw [h, show (255 : Byte).toNat = 255 from rfl] at hfit
    omega
  · exact hraise

theorem framerEmitIfFull_short (h : s.sb.wcnt ≠ 255) : framerEmitIfFull s = .ok () s := if_neg h

/-- R222: the block was full before and does not fit; the byte is not buffered. -/
theorem framerPut_full (h : s.sb.wcnt = 255) (hfull : s.cur.snkCap.toNat < s.cur.snkPos.toNat + 256) (b : Byte) :
    framerPut b s = .raise .insufficientSpace s := by
  rw [framerPut, framerEmitIfFull_full h hfull, Run.bind_raise]

/-- R222: the byte fills the block, which does not fit and stays pending. -/
theorem framerPut_fills (h : s.sb.wcnt = 254) (hfull : s.cur.snkCap.toNat < s.cur.snkPos.toNat + 256) (b : Byte) :
    framerPut b s = .raise .insufficientSpace (framerBuffer b s) := by
  have hcnt : (framerBuffer b s).sb.wcnt = 255 := by
    show s.sb.wcnt + 1 = 255
    rw [h]
    rfl
  rw [framerPut, framerEmitIfFull_short (by rw [h]; decide), Run.bind_ok, framerEmitIfFull_full hcnt hfull]

/-- R222: bytes that fill a block with no room for it: all up to the one that does, and nothing goes to `SNK`. -/
theorem puts_framed_full (hfull : FramerFull s bs) :
    ∃ t, Puts .framed s bs (fullAt s + 1) (.raise .insufficientSpace t) ∧ SameBut [.sb] s t ∧
      wbufBytes t.sb = fullBlock s bs ∧ t.sb.rrem = s.sb.rrem ∧ t.sb.rend = s.sb.rend := by
  obtain ⟨hne, hcount, hroom⟩ := hfull
  have hpos : 0 < bs.length := List.length_pos_iff.2 hne
  have hmax := s.sb.wcnt.isLt
  by_cases hpending : s.sb.wcnt = 255
  · have hat : fullAt s = 0 := by rw [fullAt, hpending]; rfl
    have hblock : fullBlock s bs = wbufBytes s.sb := by rw [fullBlock, if_pos (by rw [hpending]; rfl)]
    rw [hat, hblock]
    exact ⟨s, Puts.refuse (j := 0) (.done s) hpos (framerPut_full hpending hroom _), .refl _ s, rfl, rfl, rfl⟩
  · have hne255 : s.sb.wcnt.toNat ≠ 255 := fun heq => hpending (BitVec.eq_of_toNat_eq heq)
    have hj : fullAt s < bs.length := by unfold fullAt; omega
    have hlen : (bs.take (fullAt s)).length = fullAt s := by rw [List.length_take]; omega
    have hshort : frameBytes (wbufBytes s.sb) (bs.take (fullAt s)) = ([], wbufBytes s.sb ++ bs.take (fullAt s)) :=
      frameBytes_short (by rw [wbufBytes_length, hlen]; unfold fullAt; omega)
    obtain ⟨t, hputs, hsame, hframed⟩ := puts_framed (s := s) (bs := bs.take (fullAt s)) (by rw [hshort]; exact room_zero s)
    rw [hshort] at hframed
    replace hsame : SameBut [.sb] s t := SameBut.of_outputs_nil (hsame.mono (by simp)) hframed.outputs
    have hcur : t.cur = s.cur := hsame .cur (by simp)
    have hcnt : t.sb.wcnt = 254 := by
      rw [wcnt_eq_of_pending hframed.pending, List.length_append, wbufBytes_length, hlen, fullAt,
        show s.sb.wcnt.toNat + (254 - s.sb.wcnt.toNat) = 254 by omega]
      rfl
    rw [hlen] at hputs
    refine ⟨framerBuffer bs[fullAt s] t, hputs.refuse hj (framerPut_fills hcnt (by rw [hcur]; exact hroom) _),
      hsame.trans (sameBut_setSb t _), ?_, hframed.2.2⟩
    rw [framerBuffer_bytes (by rw [hcnt]; decide), hframed.pending, fullBlock, if_neg hne255, List.append_assoc,
      List.take_append_getElem hj]

end

end Sys2Proof.Machine
end

section
/-! The writer of the bit packer in either mode (spec/43_bitpacker.md R201, R204): what a drain, a put of a code and a flush make of the
run that hands their bytes on, whether it takes them all or raises at one of them. -/

namespace Sys2Proof.Machine

open Sys2Proof.Claims

/-! ### Runs over bytes, one list behind the other -/

section
variable {α : Type}

@[simp] theorem Run.mapState_ok (f : State → State) (a : α) (s : State) : (Run.ok a s).mapState f = .ok a (f s) := rfl

@[simp] theorem Run.mapState_raise (f : State → State) (k : FaultKind) (s : State) :
    (Run.raise k s : Run α).mapState f = .raise k (f s) := rfl

/-- Of two writes of the accumulators the second counts. -/
theorem Run.mapState_setBp (r : Run α) (x y : Packer) :
    (r.mapState fun s => s.setBp x).mapState (fun s => s.setBp y) = r.mapState fun s => s.setBp y := by
  cases r <;> rfl

end

section
variable {mode : Mode} {s t : State} {as bs : List Byte} {m n j k c w : Nat} {r : Run Unit} {fault : FaultKind}

/-- A run over two lists ends in a raise inside the first, or takes the first and goes on with the second. -/
theorem Puts.split (h : Puts mode s (as ++ bs) n r) :
    (∃ k t, r = .raise k t ∧ Puts mode s as n r) ∨
      ∃ t m, Puts mode s as as.length (.ok () t) ∧ Puts mode t bs m r ∧ n = as.length + m := by
  induction as generalizing s n with
  | nil => exact .inr ⟨s, n, .done s, h, (Nat.zero_add n).symm⟩
  | cons a as ih =>
    cases h with
    | lost _ h => exact .inl ⟨_, _, rfl, .lost as h⟩
    | put h hr =>
      obtain ⟨k, t, hraise, hlost⟩ | ⟨t, m, hok, hrest, hn⟩ := ih hr
      · exact .inl ⟨k, t, hraise, .put h hlost⟩
      · exact .inr ⟨t, m, .put h hok, hrest, by rw [List.length_cons, hn, Nat.add_right_comm]⟩

/-- A single byte put is the run itself. -/
theorem Puts.single {b : Byte} (h : Puts mode s [b] n r) : r = putByte b mode s := by
  cases h with
  | lost _ h => exact h.symm
  | put h hr =>
    cases hr
    exact h.symm

/-! ### The drain -/

/-- The write accumulator with its first `n` bytes shifted out (R201). -/
def shifted (bp : Packer) (n : Nat) : Packer :=
  { bp with wacc := BitVec.ofNat 19 (bp.wacc.toNat / 256 ^ n), wcnt := BitVec.ofNat 5 (bp.wcnt.toNat - 8 * n) }

theorem State.setBp_bp (s : State) (x : Packer) : (s.setBp x).bp = x := rfl

@[simp] theorem shifted_zero (bp : Packer) : shifted bp 0 = bp := by simp [shifted]

theorem shifted_wacc (bp : Packer) (n : Nat) : (shifted bp n).wacc.toNat = bp.wacc.toNat / 256 ^ n := by
  have hle := Nat.div_le_self bp.wacc.toNat (256 ^ n)
  have := bp.wacc.isLt
  exact Nat.mod_eq_of_lt (by omega)

theorem shifted_wcnt (bp : Packer) (n : Nat) : (shifted bp n).wcnt.toNat = bp.wcnt.toNat - 8 * n := by
  have := bp.wcnt.isLt
  exact Nat.mod_eq_of_lt (by omega)

theorem shifted_shifted (bp : Packer) (m n : Nat) : shifted (shifted bp m) n = shifted bp (m + n) := by
  rw [shifted, shifted_wacc, shifted_wcnt, Nat.div_div_eq_div_mul, ← Nat.pow_add, Nat.sub_sub, ← Nat.mul_add]
  rfl

theorem packShift_eq {s : State} (h : 8 ≤ s.bp.wcnt.toNat) : packShift s = s.setBp (shifted s.bp 1) := by
  obtain ⟨hwacc, hwcnt, -, -⟩ := packShift_bp h
  have hacc : s.bp.wacc >>> 8 = (shifted s.bp 1).wacc :=
    BitVec.eq_of_toNat_eq (hwacc.trans (shifted_wacc s.bp 1).symm)
  have hcnt : s.bp.wcnt - 8 = (shifted s.bp 1).wcnt :=
    BitVec.eq_of_toNat_eq (hwcnt.trans (shifted_wcnt s.bp 1).symm)
  rw [packShift, hacc, hcnt]
  rfl

/-- R201: the drain hands on the low bytes of the accumulator, each shifted out before it is handed on. -/
theorem packDrainLoop_puts (hcount : 8 * k ≤ s.bp.wcnt.toNat) (h : Puts mode s (lowBytes s.bp.wacc.toNat k) n r) :
    packDrainLoop mode k s = r.mapState fun t => t.setBp (shifted s.bp n) := by
  induction k generalizing s n r with
  | zero =>
    cases h
    rw [shifted_zero]
    rfl
  | succ k ih =>
    have hshift := packShift_eq (s := s) (by omega)
    have hput := (beside_setBp (shifted s.bp 1)).put mode (s.bp.wacc.setWidth 8) s
    rw [lowBytes_succ] at h
    rw [packDrainLoop, hshift, hput]
    cases h with
    | lost _ h =>
      rw [show s.bp.wacc.setWidth 8 = BitVec.ofNat 8 s.bp.wacc.toNat from rfl, h]
      rfl
    | @put _ t _ _ n _ h hr =>
      rw [show s.bp.wacc.setWidth 8 = BitVec.ofNat 8 s.bp.wacc.toNat from rfl, h, Run.mapState_ok, Run.bind_ok]
      have hacc : (t.setBp (shifted s.bp 1)).bp.wacc.toNat = s.bp.wacc.toNat / 256 := by
        rw [← Nat.pow_one 256]
        exact shifted_wacc s.bp 1
      have hcnt : (t.setBp (shifted s.bp 1)).bp.wcnt.toNat = s.bp.wcnt.toNat - 8 := shifted_wcnt s.bp 1
      have hrest := hr.beside (beside_setBp (shifted s.bp 1))
      rw [← hacc] at hrest
      rw [ih (by omega) hrest, Run.mapState_setBp, Nat.add_comm, ← shifted_shifted]
      rfl

/-- R201: the drain of the whole bytes. -/
theorem packDrain_puts (h : Puts mode s (lowBytes s.bp.wacc.toNat (s.bp.wcnt.toNat / 8)) n r) :
    packDrain mode s = r.mapState fun t => t.setBp (shifted s.bp n) :=
  packDrainLoop_puts (Nat.mul_div_le _ _) h

/-! ### A code -/

/-- The accumulators in bounds, their writer's half (R31). -/
def WriterInv (bp : Packer) : Prop := bp.wcnt.toNat ≤ 11 ∧ bp.wacc.toNat < 2 ^ bp.wcnt.toNat

/-- The whole bytes of the bits at hand and the code behind them (R201). -/
def putBytes (s : State) (c w : Nat) : List Byte := lowBytes (merged s c) ((s.bp.wcnt.toNat + w) / 8)

/-- The write accumulator with the code merged and the first `n` of the bytes out of it (R201). -/
def putLeft (s : State) (c w n : Nat) : Packer :=
  { s.bp with wacc := BitVec.ofNat 19 (merged s c / 256 ^ n), wcnt := BitVec.ofNat 5 (s.bp.wcnt.toNat + w - 8 * n) }

theorem putBytes_eq (s : State) (c w : Nat) :
    putBytes s c w = lowBytes s.bp.wacc.toNat (s.bp.wcnt.toNat / 8) ++
      lowBytes (s.bp.wacc.toNat / 256 ^ (s.bp.wcnt.toNat / 8) + c * 2 ^ (s.bp.wcnt.toNat % 8))
        ((s.bp.wcnt.toNat % 8 + w) / 8) := by
  rw [← lowBytes_add_code, putBytes, merged, Nat.mul_comm c,
    show (s.bp.wcnt.toNat + w) / 8 = s.bp.wcnt.toNat / 8 + (s.bp.wcnt.toNat % 8 + w) / 8 by omega]

theorem merged_div (s : State) (c : Nat) :
    merged s c / 256 ^ (s.bp.wcnt.toNat / 8) =
      s.bp.wacc.toNat / 256 ^ (s.bp.wcnt.toNat / 8) + c * 2 ^ (s.bp.wcnt.toNat % 8) := by
  rw [merged, Nat.mul_comm c, add_code_div_wholeBytes]

/-- R201: the code merged behind the bits a drain left. -/
theorem packMerge_shifted (hinv : WriterInv s.bp) (hc : c < 2 ^ w) (hw : w ≤ 12)
    (ht : t.bp = shifted s.bp (s.bp.wcnt.toNat / 8)) :
    packMerge c w t = t.setBp (putLeft s c w (s.bp.wcnt.toNat / 8)) ∧
      (putLeft s c w (s.bp.wcnt.toNat / 8)).wacc.toNat =
        s.bp.wacc.toNat / 256 ^ (s.bp.wcnt.toNat / 8) + c * 2 ^ (s.bp.wcnt.toNat % 8) ∧
      (putLeft s c w (s.bp.wcnt.toNat / 8)).wcnt.toNat = s.bp.wcnt.toNat % 8 + w := by
  obtain ⟨hcnt, hacc⟩ := hinv
  have hbits := div_wholeBytes_lt hacc
  have htacc : t.bp.wacc.toNat = s.bp.wacc.toNat / 256 ^ (s.bp.wcnt.toNat / 8) := by rw [ht, shifted_wacc]
  have htcnt : t.bp.wcnt.toNat = s.bp.wcnt.toNat % 8 := by rw [ht, shifted_wcnt]; omega
  rw [← htacc, ← htcnt] at hbits
  obtain ⟨hmacc, hmcnt, -, -⟩ := packMerge_bp hc (by omega) hbits
  rw [htacc, htcnt] at hmacc
  rw [htcnt] at hmcnt
  have hbp : (packMerge c w t).bp = putLeft s c w (s.bp.wcnt.toNat / 8) := by
    rw [putLeft, merged_div, ← hmacc,
      show s.bp.wcnt.toNat + w - 8 * (s.bp.wcnt.toNat / 8) = s.bp.wcnt.toNat % 8 + w by omega, ← hmcnt,
      BitVec.ofNat_toNat, BitVec.ofNat_toNat, BitVec.setWidth_eq, BitVec.setWidth_eq, packMerge]
    simp [ht, shifted]
  rw [← hbp]
  exact ⟨rfl, hmacc, hmcnt⟩

/-- R201: the put hands on the whole bytes. It raises at a byte that was at hand before, with the code not merged yet; or the code is
merged, whatever then becomes of the bytes. -/
theorem packBits_puts (hinv : WriterInv s.bp) (hc : c < 2 ^ w) (hw : w ≤ 12) (h : Puts mode s (putBytes s c w) n r) :
    (∃ k t, r = .raise k t ∧ n = 1 ∧ 8 ≤ s.bp.wcnt.toNat ∧
        packBits c w mode s = .raise k (t.setBp (shifted s.bp 1))) ∨
      ((∀ k t, r = .raise k t → s.bp.wcnt.toNat / 8 < n) ∧
        packBits c w mode s = r.mapState fun t => t.setBp (putLeft s c w n)) := by
  have hcnt := hinv.1
  rw [putBytes_eq] at h
  obtain ⟨k, t, rfl, hlost⟩ | ⟨t, m, hok, hrest, rfl⟩ := h.split
  · have hle := hlost.le_length
    have hpos := hlost.pos_of_raise
    rw [lowBytes_length] at hle
    obtain rfl : n = 1 := by omega
    exact .inl ⟨k, t, rfl, rfl, by omega, by rw [packBits, packDrain_puts hlost]; rfl⟩
  · rw [lowBytes_length] at hok ⊢
    obtain ⟨hmerge, hacc, hleft⟩ :=
      packMerge_shifted (t := t.setBp (shifted s.bp (s.bp.wcnt.toNat / 8))) hinv hc hw rfl
    have hput := hrest.beside (beside_setBp (putLeft s c w (s.bp.wcnt.toNat / 8)))
    rw [← hacc, ← hleft] at hput
    have hshift : shifted (putLeft s c w (s.bp.wcnt.toNat / 8)) m = putLeft s c w (s.bp.wcnt.toNat / 8 + m) := by
      rw [shifted, hacc, hleft, ← merged_div, Nat.div_div_eq_div_mul, ← Nat.pow_add,
        show s.bp.wcnt.toNat % 8 + w - 8 * m = s.bp.wcnt.toNat + w - 8 * (s.bp.wcnt.toNat / 8 + m) by omega]
      rfl
    refine .inr ⟨fun k u hraise => ?_, ?_⟩
    · subst hraise
      have := hrest.pos_of_raise
      omega
    · rw [packBits, packDrain_puts hok, Run.mapState_ok, Run.bind_ok, hmerge]
      exact (packDrain_puts hput).trans (by rw [Run.mapState_setBp, ← hshift]; rfl)

/-- R201: the bytes are all taken. -/
theorem packBits_ok (hinv : WriterInv s.bp) (hc : c < 2 ^ w) (hw : w ≤ 12)
    (h : Puts mode s (putBytes s c w) n (.ok () t)) :
    packBits c w mode s = .ok () (t.setBp (putLeft s c w ((s.bp.wcnt.toNat + w) / 8))) := by
  have hn := h.eq_length
  rw [putBytes, lowBytes_length] at hn
  subst hn
  obtain ⟨k, t, hraise, -⟩ | ⟨-, hok⟩ := packBits_puts hinv hc hw h
  · cases hraise
  · exact hok

/-- R201: byte number `j` is not taken. -/
theorem packBits_raise (hinv : WriterInv s.bp) (hc : c < 2 ^ w) (hw : w ≤ 12)
    (h : Puts mode s (putBytes s c w) (j + 1) (.raise fault t)) :
    packBits c w mode s = .raise fault (t.setBp (putLost s c w j)) := by
  obtain ⟨k, t, hraise, hj, hfull, hlost⟩ | ⟨hlt, hlost⟩ := packBits_puts hinv hc hw h
  · cases hraise
    obtain rfl : j = 0 := by omega
    rw [hlost, putLost, if_pos ⟨rfl, hfull⟩, shifted, Nat.pow_one]
  · have hnot : ¬ (j = 0 ∧ 8 ≤ s.bp.wcnt.toNat) := by
      have := hlt _ _ rfl
      omega
    rw [hlost, putLost, if_neg hnot]
    rfl

/-! ### The flush -/

/-- The bits at hand, padded with zero bits to whole bytes (R204). -/
def flushBytes (s : State) : List Byte := lowBytes s.bp.wacc.toNat ((s.bp.wcnt.toNat + 7) / 8)

/-- R204: with whole bytes at hand the flush is the drain; otherwise the bits behind it follow as one more byte. -/
theorem packFlush_puts (hinv : WriterInv s.bp) (h : Puts mode s (flushBytes s) n r) :
    (∃ k t, r = .raise k t ∧ n = 1 ∧ 8 ≤ s.bp.wcnt.toNat ∧
        packFlush mode s = .raise k (t.setBp (shifted s.bp 1))) ∨
      ((∀ k t, r = .raise k t → s.bp.wcnt.toNat / 8 < n) ∧
        packFlush mode s = r.mapState fun t => t.setBp { s.bp with wacc := 0, wcnt := 0 }) := by
  obtain ⟨hcnt, hacc⟩ := hinv
  have hsplit : flushBytes s = lowBytes s.bp.wacc.toNat (s.bp.wcnt.toNat / 8) ++
      lowBytes (s.bp.wacc.toNat / 256 ^ (s.bp.wcnt.toNat / 8)) ((s.bp.wcnt.toNat % 8 + 7) / 8) := by
    rw [← lowBytes_add, flushBytes,
      show (s.bp.wcnt.toNat + 7) / 8 = s.bp.wcnt.toNat / 8 + (s.bp.wcnt.toNat % 8 + 7) / 8 by omega]
  rw [hsplit] at h
  obtain ⟨k, t, rfl, hlost⟩ | ⟨t, m, hok, hrest, rfl⟩ := h.split
  · have hle := hlost.le_length
    have hpos := hlost.pos_of_raise
    rw [lowBytes_length] at hle
    obtain rfl : n = 1 := by omega
    exact .inl ⟨k, t, rfl, rfl, by omega, by rw [packFlush, packDrain_puts hlost]; rfl⟩
  · rw [lowBytes_length] at hok ⊢
    refine .inr ⟨fun k u hraise => ?_, ?_⟩
    · subst hraise
      have := hrest.pos_of_raise
      omega
    have hleft : (shifted s.bp (s.bp.wcnt.toNat / 8)).wcnt.toNat = s.bp.wcnt.toNat % 8 := by rw [shifted_wcnt]; omega
    rw [packFlush, packDrain_puts hok, Run.mapState_ok, Run.bind_ok, State.setBp_bp]
    by_cases hwhole : s.bp.wcnt.toNat % 8 = 0
    · rw [hwhole] at hrest hleft
      cases hrest
      have hnone : (shifted s.bp (s.bp.wcnt.toNat / 8)).wcnt = 0 := BitVec.eq_of_toNat_eq hleft
      have hbits := div_wholeBytes_lt hacc
      rw [hwhole, ← shifted_wacc, Nat.pow_zero, Nat.lt_one_iff] at hbits
      have hzero : (shifted s.bp (s.bp.wcnt.toNat / 8)).wacc = 0 := BitVec.eq_of_toNat_eq hbits
      rw [if_pos hnone, Run.mapState_ok, ← hnone, ← hzero]
      rfl
    · have hsome : (shifted s.bp (s.bp.wcnt.toNat / 8)).wcnt ≠ 0 := fun heq =>
        hwhole (hleft.symm.trans (congrArg BitVec.toNat heq))
      rw [show (s.bp.wcnt.toNat % 8 + 7) / 8 = 0 + 1 by omega, lowBytes_succ, lowBytes_zero, ← shifted_wacc] at hrest
      rw [if_neg hsome, hrest.single]
      exact (beside_setBp { s.bp with wacc := 0, wcnt := 0 }).put mode _ t

/-- R204: the bytes are all taken, and the accumulator is empty. -/
theorem packFlush_ok (hinv : WriterInv s.bp) (h : Puts mode s (flushBytes s) n (.ok () t)) :
    packFlush mode s = .ok () (t.setBp { s.bp with wacc := 0, wcnt := 0 }) := by
  obtain ⟨k, t, hraise, -⟩ | ⟨-, hok⟩ := packFlush_puts hinv h
  · cases hraise
  · exact hok

/-- R204: byte number `j` is not taken. -/
theorem packFlush_raise (hinv : WriterInv s.bp) (h : Puts mode s (flushBytes s) (j + 1) (.raise fault t)) :
    packFlush mode s = .raise fault (t.setBp (flushLost s j)) := by
  obtain ⟨k, t, hraise, hj, hfull, hlost⟩ | ⟨hlt, hlost⟩ := packFlush_puts hinv h
  · cases hraise
    obtain rfl : j = 0 := by omega
    rw [hlost, flushLost, if_pos ⟨rfl, hfull⟩, shifted, Nat.pow_one]
  · have hnot : ¬ (j = 0 ∧ 8 ≤ s.bp.wcnt.toNat) := by
      have := hlt _ _ rfl
      omega
    rw [hlost, flushLost, if_neg hnot]
    rfl

end

/-! ### The commands -/

theorem modeOperand_raw {v : Word} (h : v = 1) : modeOperand v = .raw := by
  subst h
  decide

theorem modeOperand_framed {v : Word} (h : v = 0) : modeOperand v = .framed := by
  subst h
  decide

theorem PackInv.writer {s : State} (h : PackInv s) : WriterInv s.bp := h.1

section
variable {s : State} {mode : Mode}

/-- R203: a put with legal operands runs the packer. -/
theorem bpPutBody_legal (h : bpPutOperandsOk s.args = true) :
    bpPutBody s = packBits s.args.arg0.toNat s.args.arg1.toNat (modeOperand s.args.arg2) s :=
  if_neg (by simp [h])

theorem bpFlushBody_legal (h : bpFlushOperandsOk s.args = true) : bpFlushBody s = packFlush (modeOperand s.args.arg2) s :=
  if_neg (by simp [h])

/-- The body hands the bytes `bs` on, and leaves the accumulators as `done` where they are all taken and as `lost j` where byte number
`j` is not. -/
structure HandsOn (body : State → Run Unit) (s : State) (mode : Mode) (bs : List Byte) (done : Packer)
    (lost : Nat → Packer) : Prop where
  ok : ∀ n t, Puts mode s bs n (.ok () t) → body s = .ok () (t.setBp done)
  raise : ∀ j k t, Puts mode s bs (j + 1) (.raise k t) → body s = .raise k (t.setBp (lost j))

/-- R203: the bytes of the bits at hand and the code behind them. -/
theorem bpPutBody_handsOn (hoperands : bpPutOperandsOk s.args = true) (hmode : modeOperand s.args.arg2 = mode)
    (hinv : PackInv s) :
    HandsOn bpPutBody s mode (putBytes s s.args.arg0.toNat s.args.arg1.toNat)
      { s.bp with
        wacc := BitVec.ofNat 19 (merged s s.args.arg0.toNat / 256 ^ (putBytes s s.args.arg0.toNat s.args.arg1.toNat).length)
        wcnt := BitVec.ofNat 5 ((s.bp.wcnt.toNat + s.args.arg1.toNat) % 8) }
      (putLost s s.args.arg0.toNat s.args.arg1.toNat) := by
  obtain ⟨⟨-, hhigh⟩, -, hfit⟩ := bpPutOperandsOk_iff.1 hoperands
  have hbody := bpPutBody_legal hoperands
  rw [hmode] at hbody
  refine ⟨fun n t hputs => ?_, fun j k t hputs => hbody.trans (packBits_raise hinv.writer hfit hhigh hputs)⟩
  rw [hbody, packBits_ok hinv.writer hfit hhigh hputs, putLeft, putBytes, lowBytes_length,
    show s.bp.wcnt.toNat + s.args.arg1.toNat - 8 * ((s.bp.wcnt.toNat + s.args.arg1.toNat) / 8) =
      (s.bp.wcnt.toNat + s.args.arg1.toNat) % 8 by omega]

/-- R204: the padded bytes of the bits at hand. -/
theorem bpFlushBody_handsOn (hoperands : bpFlushOperandsOk s.args = true) (hmode : modeOperand s.args.arg2 = mode)
    (hinv : PackInv s) :
    HandsOn bpFlushBody s mode (flushBytes s) { s.bp with wacc := 0, wcnt := 0 } (flushLost s) := by
  have hbody := bpFlushBody_legal hoperands
  rw [hmode] at hbody
  exact ⟨fun _ _ hputs => hbody.trans (packFlush_ok hinv.writer hputs),
    fun _ _ _ hputs => hbody.trans (packFlush_raise hinv.writer hputs)⟩

variable {i : Instr} {body : State → Run Unit} {bs : List Byte} {done : Packer} {lost : Nat → Packer}

/-- A command that hands bytes on raw: they go to `SNK` as far as there is room. -/
theorem HandsOn.raw (hs : Ready s) (h : HandsOn body s.begun .raw bs done lost) :
    (Room s bs.length →
      ∃ t, runCommand i body s = .next t ∧ Completed s t ∧ SameBut [.status, .bp, .cur, .snk] s t ∧
        SnkAppends s t bs ∧ t.cur = cursorsAfter 0 bs.length s.cur ∧ t.bp = done) ∧
    (roomLeft s < bs.length →
      ∃ t, runCommand i body s = .next t ∧ FaultedWith .insufficientSpace i t ∧
        SameBut [.status, .bp, .cur, .snk] s t ∧ SnkAppends s t (bs.take (roomLeft s)) ∧
        t.cur = cursorsAfter 0 (roomLeft s) s.cur ∧ t.bp = lost (roomLeft s)) := by
  have hframe : ∀ {t : State} (x : Packer), SameBut [.cur, .snk] s.begun t →
      SameBut [.status, .bp, .cur, .snk] s.begun (t.setBp x) := fun x hsame =>
    (hsame.mono (by simp)).trans ((sameBut_setBp _ x).mono (by simp))
  refine ⟨fun hroom => ?_, fun hfull => ?_⟩
  · obtain ⟨t, hputs, hsame, hout⟩ := puts_raw (s := s.begun) hroom
    exact ⟨_, runCommand_completes hs (h.ok _ t hputs) (hsame .status (by simp)), rfl,
      .of_body (by simp) (hframe _ hsame), hout.appends, hout.cur, rfl⟩
  · obtain ⟨t, hputs, hsame, hout⟩ := puts_raw_full (s := s.begun) hfull
    refine ⟨_, runCommand_faults hs (h.raise _ _ t hputs) (hsame .status (by simp)), rfl,
      .of_body (by simp) (hframe _ hsame), hout.appends, ?_, rfl⟩
    exact hout.cur.trans (congrArg (cursorsAfter 0 · s.cur) (List.length_take_of_le hfull.le))

/-- A command that hands bytes on framed: they join the pending sub-block, and the first block that does not fit ends the run. -/
theorem HandsOn.framed (hs : Ready s) (h : HandsOn body s.begun .framed bs done lost) :
    (∀ out p, frameBytes (wbufBytes s.sb) bs = (out, p) → Room s out.length →
      ∃ t, runCommand i body s = .next t ∧ Completed s t ∧ SameBut [.status, .bp, .sb, .cur, .snk] s t ∧
        SnkAppends s t out ∧ t.cur = cursorsAfter 0 out.length s.cur ∧
        (wbufBytes t.sb = p ∧ t.sb.rrem = s.sb.rrem ∧ t.sb.rend = s.sb.rend) ∧ t.bp = done) ∧
    (FramerFull s bs →
      ∃ t, runCommand i body s = .next t ∧ FaultedWith .insufficientSpace i t ∧ SameBut [.status, .bp, .sb] s t ∧
        (wbufBytes t.sb = fullBlock s bs ∧ t.sb.rrem = s.sb.rrem ∧ t.sb.rend = s.sb.rend) ∧ t.bp = lost (fullAt s)) := by
  refine ⟨fun out p hchain hroom => ?_, fun hfull => ?_⟩
  · replace hchain : frameBytes (wbufBytes s.begun.sb) bs = (out, p) := hchain
    obtain ⟨t, hputs, hsame, hframed⟩ := puts_framed (s := s.begun) (bs := bs) (by rw [hchain]; exact hroom)
    rw [hchain] at hframed
    obtain ⟨hout, hpending⟩ := hframed
    exact ⟨_, runCommand_completes hs (h.ok _ t hputs) (hsame .status (by simp)), rfl,
      .of_body (by simp) ((hsame.mono (by simp)).trans ((sameBut_setBp t _).mono (by simp))), hout.appends, hout.cur,
      hpending, rfl⟩
  · obtain ⟨t, hputs, hsame, hpending⟩ := puts_framed_full (s := s.begun) hfull
    exact ⟨_, runCommand_faults hs (h.raise _ _ t hputs) (hsame .status (by simp)), rfl,
      .of_body (by simp) ((hsame.mono (by simp)).trans ((sameBut_setBp t _).mono (by simp))), hpending, rfl⟩

end

/-- Settles O30: the bytes go to `SNK` as far as there is room, and the packer makes of that run what R201 says. -/
theorem bpPutRaw : Obligations.BpPutRaw := by
  unfold Obligations.BpPutRaw
  intro s hs hinv hlow hhigh hraw hfit bs hbs
  have hoperands : bpPutOperandsOk s.args = true :=
    bpPutOperandsOk_iff.2 ⟨⟨hlow, hhigh⟩, by rw [hraw]; decide, hfit⟩
  subst hbs
  exact (bpPutBody_handsOn (s := s.begun) hoperands (modeOperand_raw hraw) hinv).raw hs

/-- Settles O31: the same put over the framer, whose first block that does not fit ends it. -/
theorem bpPutFramed : Obligations.BpPutFramed := by
  unfold Obligations.BpPutFramed
  intro s hs hinv hlow hhigh hframed hfit bs hbs
  have hoperands : bpPutOperandsOk s.args = true :=
    bpPutOperandsOk_iff.2 ⟨⟨hlow, hhigh⟩, by rw [hframed]; decide, hfit⟩
  subst hbs
  exact (bpPutBody_handsOn (s := s.begun) hoperands (modeOperand_framed hframed) hinv).framed hs

/-- Settles O32: the padded bytes over `SNK` and over the framer, each with and without room. -/
theorem bpFlushPads : Obligations.BpFlushPads := by
  unfold Obligations.BpFlushPads
  intro s hs hinv bs hbs
  subst hbs
  refine ⟨fun hraw => ?_, fun hframed => ?_⟩
  · exact (bpFlushBody_handsOn (s := s.begun) (bpFlushOperandsOk_iff.2 (by show s.args.arg2.toNat ≤ 1; rw [hraw]; decide))
      (modeOperand_raw hraw) hinv).raw hs
  · exact (bpFlushBody_handsOn (s := s.begun) (bpFlushOperandsOk_iff.2 (by show s.args.arg2.toNat ≤ 1; rw [hframed]; decide))
      (modeOperand_framed hframed) hinv).framed hs

end Sys2Proof.Machine
end

section
/-! The framer's writer in limited room (spec/44_subblock_framer.md R221 to R223): how long a chain is, which byte fills the first
block that does not fit, and what a chain in progress and its close leave then. -/

namespace Sys2Proof.Machine

open Sys2Proof.Claims

/-! ### Lengths -/

/-- R222: every 255 bytes make a block of 256, and the bytes behind the whole blocks are pending. -/
theorem frameBytes_nil_eq (bs : List Byte) :
    (frameBytes [] bs).1.length = 256 * (bs.length / 255) ∧ (frameBytes [] bs).2 = bs.drop (255 * (bs.length / 255)) := by
  induction hn : bs.length using Nat.strong_induction_on generalizing bs with
  | _ n ih =>
    subst hn
    obtain hshort | hlong := Nat.lt_or_ge bs.length 255
    · rw [frameBytes_short (by simpa using hshort), Nat.div_eq_of_lt hshort]
      simp
    · obtain ⟨hlen, hpending⟩ := ih (bs.drop 255).length (by rw [List.length_drop]; omega) (bs.drop 255) rfl
      have hcount : bs.length / 255 = (bs.drop 255).length / 255 + 1 := by rw [List.length_drop]; omega
      have hfull : frameBytes [] (bs.take 255) = (255 :: bs.take 255, []) := frameBytes_full (List.length_take_of_le hlong)
      have happend := frameBytes_append [] (bs.take 255) (bs.drop 255)
      rw [List.take_append_drop, hfull] at happend
      rw [happend, hcount, Nat.mul_succ, Nat.mul_succ]
      refine ⟨?_, hpending.trans ?_⟩
      · rw [List.length_append, hlen, List.length_cons, List.length_take_of_le hlong, Nat.add_comm]
      · rw [List.drop_drop, Nat.add_comm]

theorem closeBytes_length (p : List Byte) : (closeBytes p).length = p.length + (if p.length = 0 then 1 else 2) := by
  unfold closeBytes
  cases p <;> simp

/-- R97: a chain of `n` bytes has a length byte for every block and a terminator. -/
theorem chainBytes_length (bs : List Byte) : (chainBytes bs).length = bs.length + (bs.length + 254) / 255 + 1 := by
  obtain ⟨hout, hpending⟩ := frameBytes_nil_eq bs
  have hrest : (frameBytes [] bs).2.length = bs.length - 255 * (bs.length / 255) := by rw [hpending, List.length_drop]
  rw [chainBytes, List.length_append, hout, closeBytes_length, hrest]
  split <;> omega

/-- Bytes that do not fill the pending block leave what is out as it is. -/
theorem frameBytes_out_short {bs cs : List Byte} (h : bs.length % 255 + cs.length < 255) :
    (frameBytes [] (bs ++ cs)).1 = (frameBytes [] bs).1 := by
  have hrest : (frameBytes [] bs).2.length = bs.length % 255 := by
    rw [(frameBytes_nil_eq bs).2, List.length_drop]
    omega
  rw [frameBytes_append, frameBytes_short (p := (frameBytes [] bs).2) (by rw [hrest]; exact h), List.append_nil]

/-! ### A chain in progress -/

section
variable {s t : State} {room : Nat} {as bs : List Byte}

/-- Fewer bytes than the limit need no more room than there is. -/
theorem room_frameBytes (h : bs.length < frameLimit (roomLeft s)) : Room s (frameBytes [] bs).1.length := by
  rw [room_iff_le_roomLeft, (frameBytes_nil_eq bs).1]
  unfold frameLimit at h
  omega

theorem Framed.room_left {x : List Byte × List Byte} (h : Framed s t x) : roomLeft t = roomLeft s - x.1.length :=
  roomLeft_outputs h.outputs

/-- R222: bytes put behind a chain in progress, short of the limit, are all taken. -/
theorem Framed.puts_below (h : Framed s t (frameBytes [] as)) (hlt : (as ++ bs).length < frameLimit (roomLeft s)) :
    ∃ u, Puts .framed t bs bs.length (.ok () u) ∧ SameBut [.cur, .sb, .snk] t u ∧
      Framed s u (frameBytes [] (as ++ bs)) := by
  have hroom := room_frameBytes hlt
  rw [frameBytes_append] at hroom ⊢
  have hrest := h.outputs.room_rest hroom
  rw [← h.pending] at hrest ⊢
  obtain ⟨u, hputs, hsame, hframed⟩ := puts_framed hrest
  exact ⟨u, hputs, hsame, h.trans hframed⟩

/-- R222: with less than a block to the limit, the byte that fills the block ends the run, and the block stays pending. -/
theorem Framed.puts_fills (h : Framed s t (frameBytes [] as)) (hroom : roomLeft s = room)
    (hlow : frameLimit room ≤ as.length + 255) (hlt : as.length < frameLimit room)
    (hge : frameLimit room ≤ (as ++ bs).length) :
    ∃ u, Puts .framed t bs (frameLimit room - as.length) (.raise .insufficientSpace u) ∧ SameBut [.sb] t u ∧
      Framed s u (frameInto room (as ++ bs)) := by
  have hblocks : as.length / 255 = room / 256 ∧ as.length % 255 + (frameLimit room - as.length) = 255 := by
    unfold frameLimit at hlow hlt ⊢
    omega
  obtain ⟨hquot, hfill⟩ := hblocks
  obtain ⟨hlen, hpending⟩ := frameBytes_nil_eq as
  have hcount : t.sb.wcnt.toNat = as.length % 255 := by
    rw [← wbufBytes_length, h.pending, hpending, List.length_drop]
    omega
  have hleft := h.room_left
  rw [hroom, hlen, hquot] at hleft
  rw [List.length_append] at hge
  have hfull : FramerFull t bs := by
    refine ⟨fun hnil => ?_, by omega, ?_⟩
    · rw [hnil, List.length_nil] at hge
      omega
    · unfold roomLeft at hleft
      omega
  have hat : fullAt t + 1 = frameLimit room - as.length := by unfold fullAt; omega
  have hlimit : frameLimit room - 255 = 255 * (as.length / 255) := by unfold frameLimit; omega
  obtain ⟨u, hputs, hsame, hblock, hreader⟩ := puts_framed_full hfull
  rw [fullBlock, if_neg (by omega), hat, h.pending, hpending] at hblock
  rw [hat] at hputs
  have hinto : frameInto room (as ++ bs) =
      ((frameBytes [] as).1, as.drop (255 * (as.length / 255)) ++ bs.take (frameLimit room - as.length)) := by
    rw [frameInto, if_neg (by rw [List.length_append]; omega), List.take_append, List.take_append,
      List.take_of_length_le hlt.le, List.take_of_length_le (by omega), frameBytes_out_short (by
        rw [List.length_take]; omega), hlimit, List.drop_append_of_le_length (Nat.mul_div_le _ _)]
  refine ⟨u, hputs, hsame, ?_⟩
  have hframed := h.trans (⟨.of_sameBut (by simp) (by simp) hsame, hblock, hreader⟩ : Framed t u ([], _))
  rwa [List.append_nil, ← hinto] at hframed

/-- R222: a chain in progress in limited room. All of the bytes are taken, or the one with the limit's number is the last that is. -/
theorem Framed.puts_into (h : Framed s t (frameBytes [] as)) (hroom : roomLeft s = room) (hlt : as.length < frameLimit room) :
    ((as ++ bs).length < frameLimit room →
      ∃ u, Puts .framed t bs bs.length (.ok () u) ∧ SameBut [.cur, .sb, .snk] t u ∧
        Framed s u (frameInto room (as ++ bs))) ∧
    (frameLimit room ≤ (as ++ bs).length →
      ∃ u, Puts .framed t bs (frameLimit room - as.length) (.raise .insufficientSpace u) ∧
        SameBut [.cur, .sb, .snk] t u ∧ Framed s u (frameInto room (as ++ bs))) := by
  subst hroom
  refine ⟨fun hbelow => ?_, fun hge => ?_⟩
  · rw [frameInto, if_pos hbelow]
    exact h.puts_below hbelow
  · have hfirst : (bs.take (frameLimit (roomLeft s) - 255 - as.length)).length = frameLimit (roomLeft s) - 255 - as.length := by
      rw [List.length_append] at hge
      rw [List.length_take]
      omega
    have hpos : 255 ≤ frameLimit (roomLeft s) := by unfold frameLimit; omega
    obtain ⟨u, hputs, htu, hframed⟩ := h.puts_below (bs := bs.take (frameLimit (roomLeft s) - 255 - as.length))
      (by rw [List.length_append, hfirst]; omega)
    obtain ⟨v, hlost, huv, hinto⟩ := hframed.puts_fills (bs := bs.drop (frameLimit (roomLeft s) - 255 - as.length)) rfl
      (by rw [List.length_append, hfirst]; omega) (by rw [List.length_append, hfirst]; omega)
      (by rwa [List.append_assoc, List.take_append_drop])
    rw [List.append_assoc, List.take_append_drop] at hinto
    have hall := hputs.append hlost
    rw [List.take_append_drop, List.length_append, ← Nat.sub_sub, ← Nat.add_sub_assoc (by omega), Nat.add_sub_cancel_left] at hall
    exact ⟨v, hall, htu.trans (huv.mono (by simp)), hinto⟩

/-- R223: a chain whose bytes are all taken and whose close has no room for all it writes. -/
theorem Framed.close_into (h : Framed s t (frameBytes [] bs)) (hroom : roomLeft s = room) (hlt : bs.length < frameLimit room)
    (hfull : room < (chainBytes bs).length) :
    ∃ u, framerClose t = .raise .insufficientSpace u ∧ SameBut [.cur, .sb, .snk] t u ∧ Framed s u (chainInto room bs) := by
  have hpending := h.pending
  have hleft := h.room_left
  have hfits := (room_iff_le_roomLeft s _).1 h.outputs.room
  rw [hroom] at hleft hfits
  rw [chainBytes, List.length_append] at hfull
  have hinto : chainInto room bs =
      if room + 1 < (frameBytes [] bs).1.length + (closeBytes (frameBytes [] bs).2).length then frameBytes [] bs
      else (((frameBytes [] bs).1 ++ closeBytes (frameBytes [] bs).2).take room, []) := by
    rw [chainInto, show frameInto room bs = frameBytes [] bs from if_pos hlt]
    exact if_congr (or_iff_right (Nat.not_le.2 hlt)) rfl rfl
  rw [hinto]
  generalize frameBytes [] bs = x at *
  obtain ⟨out, p⟩ := x
  simp only at *
  by_cases hnone : p = []
  · subst hnone
    rw [show closeBytes [] = [0] from rfl, List.length_singleton] at hfull ⊢
    have hempty : t.sb.wcnt = 0 := wcnt_eq_of_pending hpending
    have hnospace : t.cur.snkCap.toNat ≤ t.cur.snkPos.toNat := by
      unfold roomLeft at hleft
      omega
    have hout : (out ++ [0]).take room = out := List.take_left' (by omega)
    rw [if_neg (by omega), hout]
    exact ⟨t, framerClose_no_room hempty hnospace, .refl _ t, h⟩
  · have hlen : t.sb.wcnt.toNat = p.length := by rw [← hpending, wbufBytes_length]
    have hpos : p.length ≠ 0 := fun hzero => hnone (List.length_eq_zero_iff.1 hzero)
    have hsome : t.sb.wcnt ≠ 0 := fun hzero => hpos (by rw [← hlen, hzero]; rfl)
    have hclose : (closeBytes p).length = p.length + 2 := by rw [closeBytes_length, if_neg hpos]
    rw [hclose] at hfull ⊢
    split
    · have hnospace : t.cur.snkCap.toNat < t.cur.snkPos.toNat + 1 + t.sb.wcnt.toNat := by
        unfold roomLeft at hleft
        omega
      exact ⟨t, framerClose_block_full hsome hnospace, .refl _ t, h⟩
    · have hfill : t.cur.snkPos.toNat + 1 + t.sb.wcnt.toNat = t.cur.snkCap.toNat := by
        unfold roomLeft at hleft
        omega
      obtain ⟨u, hraise, hsame, hout, hsb⟩ := framerClose_terminator_full hsome hfill
      have hframed := h.trans (⟨hout, by rw [hsb, wbufBytes_empty], by rw [hsb], by rw [hsb]⟩ : Framed t u (_, []))
      have hbytes : (out ++ closeBytes p).take room = out ++ t.sb.wcnt :: wbufBytes t.sb := by
        rw [closeBytes, if_neg hnone, hpending, wcnt_eq_of_pending hpending, ← List.append_assoc]
        exact List.take_left' (by rw [List.length_append, List.length_cons]; omega)
      rw [hbytes]
      exact ⟨u, hraise, hsame, hframed⟩

end

/-! ### `SB_PUT` -/

theorem sbPutBody_legal {s : State} (h : s.args.arg0.toNat ≤ 255) :
    sbPutBody s = framerPut (s.args.arg0.setWidth 8) s :=
  if_neg (by simp [sbPutOperandsOk_iff.2 h])

/-- Settles O39: the put with room for what it completes, and the two ends of a block of 255 that does not fit. -/
theorem sbPutBuffers : Obligations.SbPutBuffers := by
  unfold Obligations.SbPutBuffers
  intro s hs hbyte
  have hbody := sbPutBody_legal (s := s.begun) hbyte
  refine ⟨fun out p hframe hroom => ?_, fun hcount hfull => ?_, fun hcount hfull => ?_⟩
  · replace hframe : framePush ([], wbufBytes s.begun.sb) (s.args.arg0.setWidth 8) = (out, p) := hframe
    obtain ⟨t, hput, hsame, hframed⟩ := framerPut_framed (s := s.begun) (by rw [hframe]; exact hroom)
    rw [hframe] at hframed
    obtain ⟨hout, hpending⟩ := hframed
    exact ⟨_, runCommand_completes hs (hbody.trans hput) (hsame .status (by simp)), rfl,
      .of_body (by simp) (hsame.mono (by simp)), hout.appends, hout.cur, hpending⟩
  · have hsame : SameBut [.sb] s.begun (framerBuffer (s.args.arg0.setWidth 8) s.begun) := sameBut_setSb _ _
    refine ⟨_, runCommand_faults hs (hbody.trans (framerPut_fills (s := s.begun) hcount hfull _)) rfl, rfl,
      .of_body (by simp) (hsame.mono (by simp)), ?_, framerBuffer_bytes (s := s.begun) ?_, rfl, rfl⟩
    · show s.sb.wcnt + 1 = 255
      rw [hcount]
      rfl
    · rw [show s.begun.sb.wcnt = 254 from hcount]
      decide
  · exact runCommand_rejects hs (hbody.trans (framerPut_full (s := s.begun) hcount hfull _))

/-! ### `HDR_WR_COMMENT` -/

theorem Beside.close {f : State → State} (hf : Beside f) (s : State) : framerClose (f s) = (framerClose s).mapState f := by
  unfold framerClose
  rw [hf.sb, hf.emit]
  split
  · exact hf.write 0 s
  · exact Run.mapState_bind fun _ s => hf.write 0 s

theorem beside_setSource (p n : Word) : Beside fun s => s.setCur { s.cur with srcPos := p, srcLen := n } where
  sb _ := rfl
  fits _ _ := rfl
  setSb _ _ := rfl
  write b s := by
    show (if s.cur.snkCap.toNat ≤ s.cur.snkPos.toNat then _ else _) = Run.mapState _ (if _ then _ else _)
    split <;> rfl

section
variable {s t : State} {m n : Nat} {r : Run Unit} {bs : List Byte} {mode : Mode}

/-- Putting bytes leaves the read cursor where it is. -/
theorem Puts.source (h : Puts mode s bs m r) : r.state.cur.srcPos = s.cur.srcPos ∧ r.state.cur.srcLen = s.cur.srcLen := by
  have hput : ∀ (b : Byte) (s : State), (putByte b mode s).state.cur.srcPos = s.cur.srcPos ∧
      (putByte b mode s).state.cur.srcLen = s.cur.srcLen := fun b s => by
    have hsame := (beside_setSource s.cur.srcPos s.cur.srcLen).put mode b s
    rw [show s.setCur { s.cur with srcPos := s.cur.srcPos, srcLen := s.cur.srcLen } = s from rfl] at hsame
    rw [hsame]
    cases putByte b mode s <;> exact ⟨rfl, rfl⟩
  induction h with
  | done => exact ⟨rfl, rfl⟩
  | @lost s t b k bs h =>
    have hsource := hput b s
    rwa [h] at hsource
  | @put s t b bs n r h _ ih =>
    have hsource := hput b s
    rw [h] at hsource
    exact ⟨ih.1.trans hsource.1, ih.2.trans hsource.2⟩

theorem Puts.srcAvail (h : Puts mode s bs m r) : srcAvail r.state = srcAvail s := by
  obtain ⟨hpos, hlen⟩ := h.source
  unfold Machine.srcAvail
  rw [hpos, hlen]

/-- R247: the loop puts the rest of `SRC`, with the cursor past every byte handed over. -/
theorem commentPutLoop_puts (hn : srcAvail s = n) (h : Puts .framed s (inputBytes s) m r) :
    commentPutLoop n s = r.mapState (srcMoved m) := by
  induction n generalizing s m r with
  | zero =>
    have hnone : inputBytes s = [] := List.length_eq_zero_iff.1 ((inputBytes_length s).trans hn)
    rw [hnone] at h
    cases h
    exact congrArg (Run.ok ()) (srcMoved_zero s).symm
  | succ n ih =>
    rw [inputBytes_eq_cons (by omega)] at h
    have hput := (beside_srcMoved 1).put .framed (srcByte s s.cur.srcPos.toNat) s
    rw [commentPutLoop, srcRead8_eq (by omega), Run.bind_ok, ← putByte_framed, hput]
    cases h with
    | lost _ h => rw [h]; rfl
    | @put _ t _ _ m _ h hr =>
      obtain ⟨y, hok, hsame, hframed⟩ := framerPut_framed (room_of_framerPut h)
      obtain ⟨-, rfl⟩ := Run.ok.inj (h.symm.trans hok)
      have havail : Machine.srcAvail t = Machine.srcAvail s := hframed.outputs.srcAvail
      have hinput : inputBytes t = inputBytes s :=
        inputBytes_congr hsame (by simp) (by rw [hframed.outputs.cur]; rfl) hframed.outputs.srcPos
      rw [inputBytes_eq_cons (s := t) (by omega), inputBytes_eq_cons (s := s) (by omega), List.cons.injEq] at hinput
      rw [← hinput.2] at hr
      have hle := hr.le_length
      rw [inputBytes_length, srcAvail_srcMoved (by omega)] at hle
      have hleft : Machine.srcAvail (srcMoved 1 t) = n := by rw [srcAvail_srcMoved (by omega)]; omega
      rw [h, Run.mapState_ok, Run.bind_ok, ih hleft (hr.beside (beside_srcMoved 1))]
      have hend := hr.srcAvail
      cases r <;>
      · rw [Run.state] at hend
        simp only [Run.mapState]
        rw [srcMoved_srcMoved (by omega), Nat.add_comm]

/-- Bytes appended, and then the read cursor moved. -/
theorem Outputs.srcMoved_cur (h : Outputs s t bs) (k : Nat) : (srcMoved k t).cur = cursorsAfter k bs.length s.cur := by
  have hpos : BitVec.ofNat 32 (t.cur.snkPos.toNat + 0) = BitVec.ofNat 32 (s.cur.snkPos.toNat + bs.length) := by
    rw [h.snkPos, Nat.add_zero]
  rw [Machine.srcMoved_cur, cursorsAfter, hpos, h.srcPos, h.cur]
  rfl

/-- R247: a text whose bytes are all taken, up to the close. -/
theorem commentPutLoop_ok (hputs : Puts .framed (framerOpen s) (inputBytes s) (inputBytes s).length (.ok () t)) :
    commentPutLoop (srcAvail s) (framerOpen s) = .ok () (srcMoved (srcAvail s) t) := by
  have hloop := commentPutLoop_puts (s := framerOpen s) rfl hputs
  rwa [inputBytes_length] at hloop

/-- R247: the text and its close, with room for them. -/
theorem hdrWrCommentBody_fits (hroom : Room s (chainBytes (inputBytes s)).length) :
    ∃ t, hdrWrCommentBody s = .ok () ((srcMoved (srcAvail s) t).setRes
        { s.res with res0 := BitVec.ofNat 32 (srcAvail s) }) ∧ SameBut [.cur, .sb, .snk] s t ∧
      Outputs s t (chainBytes (inputBytes s)) ∧ t.sb.wcnt = 0 ∧ t.sb.rrem = s.sb.rrem ∧ t.sb.rend = s.sb.rend := by
  have hopen : wbufBytes (framerOpen s).sb = [] := wbufBytes_empty s.sb
  rw [chainBytes] at hroom ⊢
  obtain ⟨t, hputs, hst, hframed⟩ := puts_framed (s := framerOpen s) (bs := inputBytes s)
    (by rw [hopen]; exact room_of_le hroom (by simp))
  rw [hopen] at hframed
  rw [← hframed.pending] at hroom ⊢
  obtain ⟨u, hclose, htu, hclosed⟩ := framerClose_framed (hframed.outputs.room_rest hroom)
  have hsame : SameBut [.cur, .sb, .snk] s u := ((sameBut_setSb s _).mono (by simp)).trans (hst.trans htu)
  have hres : u.res = s.res := hsame .res (by simp)
  have hreader := (hframed.trans hclosed).2.2
  refine ⟨u, ?_, hsame, hframed.outputs.trans hclosed.outputs, by rw [framerClose_sb hclose], hreader⟩
  rw [hdrWrCommentBody, commentPutLoop_ok hputs, Run.bind_ok, (beside_srcMoved _).close, hclose, ← hres]
  rfl

/-- R247: in less room the block that does not fit ends it, or the close. -/
theorem hdrWrCommentBody_full (hfull : roomLeft s < (chainBytes (inputBytes s)).length) :
    ∃ t, hdrWrCommentBody s = .raise .insufficientSpace
        (srcMoved (min (srcAvail s) (frameLimit (roomLeft s))) t) ∧ SameBut [.cur, .sb, .snk] s t ∧
      Framed s t (chainInto (roomLeft s) (inputBytes s)) := by
  have hopen : Framed s (framerOpen s) (frameBytes [] []) :=
    ⟨.of_sameBut (by simp) (by simp) (sameBut_setSb s _), wbufBytes_empty s.sb, rfl, rfl⟩
  have hpos : ([] : List Byte).length < frameLimit (roomLeft s) := by simp [frameLimit]
  obtain ⟨hbelow, hbeyond⟩ := hopen.puts_into (bs := inputBytes s) rfl hpos
  rw [List.nil_append] at hbelow hbeyond
  obtain hlt | hge := Nat.lt_or_ge (inputBytes s).length (frameLimit (roomLeft s))
  · obtain ⟨t, hputs, hst, hframed⟩ := hbelow hlt
    rw [frameInto, if_pos hlt] at hframed
    obtain ⟨u, hclose, htu, hinto⟩ := hframed.close_into rfl hlt hfull
    rw [inputBytes_length] at hlt
    refine ⟨u, ?_, ((sameBut_setSb s _).mono (by simp)).trans (hst.trans htu), hinto⟩
    rw [hdrWrCommentBody, commentPutLoop_ok hputs, Run.bind_ok, (beside_srcMoved _).close, hclose, min_eq_left hlt.le]
    rfl
  · obtain ⟨t, hputs, hst, hframed⟩ := hbeyond hge
    have hinto : chainInto (roomLeft s) (inputBytes s) = frameInto (roomLeft s) (inputBytes s) := if_pos (.inl hge)
    have hloop := commentPutLoop_puts (s := framerOpen s) rfl hputs
    rw [inputBytes_length] at hge
    refine ⟨t, ?_, ((sameBut_setSb s _).mono (by simp)).trans hst, hinto ▸ hframed⟩
    rw [min_eq_right hge, hdrWrCommentBody, show srcAvail s = srcAvail (framerOpen s) from rfl, hloop]
    rfl

end

/-- Settles O49: the length of a chain, the text that fits, and the ends of one that does not. -/
theorem hdrWrCommentChains : Obligations.HdrWrCommentChains := by
  unfold Obligations.HdrWrCommentChains
  intro s hs
  refine ⟨by rw [chainBytes_length, inputBytes_length], fun hroom => ?_, fun hfull out p hinto => ?_⟩
  · obtain ⟨t, hbody, hsame, hout, hcount, hreader⟩ := hdrWrCommentBody_fits (s := s.begun) (.inr hroom)
    exact ⟨_, runCommand_completes hs hbody (hsame .status (by simp)), rfl,
      .of_body (by simp) ((hsame.mono (by simp)).trans (((sameBut_srcMoved _ t).mono (by simp)).trans
        ((sameBut_setRes _ _).mono (by simp)))), hout.appends, hout.srcMoved_cur _, rfl, hcount, hreader⟩
  · obtain ⟨t, hbody, hsame, hframed⟩ := hdrWrCommentBody_full (s := s.begun) hfull
    rw [show chainInto (roomLeft s.begun) (inputBytes s.begun) = (out, p) from hinto] at hframed
    obtain ⟨hout, hpending⟩ := hframed
    exact ⟨_, runCommand_faults hs hbody (hsame .status (by simp)), rfl,
      .of_body (by simp) ((hsame.mono (by simp)).trans ((sameBut_srcMoved _ t).mono (by simp))), hout.appends,
      hout.srcMoved_cur _, hpending⟩

end Sys2Proof.Machine
end

section
/-! Fetching bytes (spec/43_bitpacker.md R208, spec/44_subblock_framer.md R227): a number of bytes got one after the other in either
mode, up to the first that is not there; in framed mode over any chain, as the function `chainRead` of Claims.lean says. -/

namespace Sys2Proof.Machine

open Sys2Proof.Claims

/-! ### Getting is blind to the rest of the state -/

/-- `f` writes nothing that a get reads or writes: the framer, `SRC`, its cursors and the free values. -/
structure BesideReader (f : State → State) : Prop where
  sb : ∀ s, (f s).sb = s.sb
  avail : ∀ s, srcAvail (f s) = srcAvail s
  setSb : ∀ s x, (f s).setSb x = f (s.setSb x)
  read : ∀ s, srcRead8 (f s) = (srcRead8 s).mapState f

theorem besideReader_setBp (x : Packer) : BesideReader fun s => s.setBp x where
  sb _ := rfl
  avail _ := rfl
  setSb _ _ := rfl
  read s := by
    have hadvance : ∀ s : State, srcAdvance 1 (s.setBp x) = (srcAdvance 1 s).setBp x := fun s => by
      show (if s.cur.srcPos.toNat + 1 < 2 ^ 32 then _ else _) = State.setBp (if _ then _ else _) x
      split <;> rfl
    show (if 1 ≤ srcAvail s then _ else _) = Run.mapState _ (if _ then _ else _)
    split
    · exact congrArg (Run.ok _) (hadvance s)
    · exact congrArg (Run.ok _) (hadvance (s.setFree { s.free with tick := s.free.tick + 1 }))

section
variable {f : State → State} (hf : BesideReader f)
include hf

theorem BesideReader.length (s : State) : framerLength (f s) = (framerLength s).mapState f := by
  unfold framerLength
  rw [hf.avail, hf.read]
  split
  · rfl
  · refine Run.mapState_bind fun n s => ?_
    rw [hf.avail, hf.sb, hf.setSb, hf.setSb]
    split
    · rfl
    · split <;> rfl

theorem BesideReader.take (s : State) : framerTake (f s) = (framerTake s).mapState f := by
  unfold framerTake
  rw [hf.read]
  refine Run.mapState_bind fun b s => ?_
  rw [hf.sb, hf.setSb]
  rfl

theorem BesideReader.framerGet (s : State) : framerGet (f s) = (framerGet s).mapState f := by
  unfold Machine.framerGet
  rw [hf.sb, hf.length, hf.take]
  split
  · rfl
  · split
    · refine Run.mapState_bind fun _ s => ?_
      rw [hf.sb, hf.take]
      split <;> rfl
    · rfl

theorem BesideReader.get (mode : Mode) (s : State) : getByte mode (f s) = (getByte mode s).mapState f := by
  cases mode with
  | framed =>
    show (Machine.framerGet (f s)).bind _ = Run.mapState f ((Machine.framerGet s).bind _)
    rw [hf.framerGet]
    exact Run.mapState_bind fun r s => by cases r <;> rfl
  | raw =>
    show (if srcAvail (f s) = 0 then _ else _) = Run.mapState f (if srcAvail s = 0 then _ else _)
    rw [hf.avail, hf.read]
    split <;> rfl

end

/-! ### Bytes in sequence -/

/-- Of `n` bytes to be got from `s` the bytes `bs` are there; where they are fewer than `n` the run `r` ends in the raise of the next
get. -/
inductive Gets (mode : Mode) : Nat → State → List Byte → Run Unit → Prop
  | done (s : State) : Gets mode 0 s [] (.ok () s)
  | short {s t : State} {k : FaultKind} (n : Nat) (h : getByte mode s = .raise k t) : Gets mode (n + 1) s [] (.raise k t)
  | got {s t : State} {b : Byte} {n : Nat} {bs : List Byte} {r : Run Unit} (h : getByte mode s = .ok b t)
      (hr : Gets mode n t bs r) : Gets mode (n + 1) s (b :: bs) r

section
variable {mode : Mode} {s t : State} {n : Nat} {bs : List Byte} {r : Run Unit} {k : FaultKind}

theorem Gets.beside (h : Gets mode n s bs r) {f : State → State} (hf : BesideReader f) : Gets mode n (f s) bs (r.mapState f) := by
  induction h with
  | done s => exact .done _
  | short n h => exact .short n (by rw [hf.get, h]; rfl)
  | got h _ ih => exact .got (by rw [hf.get, h]; rfl) ih

theorem gets_total (mode : Mode) (n : Nat) (s : State) : ∃ bs r, Gets mode n s bs r := by
  induction n generalizing s with
  | zero => exact ⟨[], _, .done s⟩
  | succ n ih =>
    cases h : getByte mode s with
    | ok b t =>
      obtain ⟨bs, r, hr⟩ := ih t
      exact ⟨b :: bs, r, .got h hr⟩
    | raise k t => exact ⟨[], _, .short n h⟩

theorem Gets.length_le (h : Gets mode n s bs r) : bs.length ≤ n := by
  induction h with
  | done => exact Nat.le_refl 0
  | short => exact Nat.zero_le _
  | got _ _ ih => exact Nat.succ_le_succ ih

theorem Gets.length_eq (h : Gets mode n s bs (.ok () t)) : bs.length = n := by
  generalize hr : Run.ok () t = r at h
  induction h with
  | done => rfl
  | short => cases hr
  | got _ _ ih => exact congrArg (· + 1) (ih hr)

theorem Gets.length_lt (h : Gets mode n s bs (.raise k t)) : bs.length < n := by
  generalize hr : Run.raise k t = r at h
  induction h with
  | done => cases hr
  | short n => exact Nat.succ_pos n
  | got _ _ ih => exact Nat.succ_lt_succ (ih hr)

/-- A byte got leaves the accumulators alone. -/
theorem Gets.bp (h : Gets mode n s bs r) : r.state.bp = s.bp := by
  have hget : ∀ s : State, (getByte mode s).state.bp = s.bp := fun s => by
    have hsame := (besideReader_setBp s.bp).get mode s
    rw [show s.setBp s.bp = s from rfl] at hsame
    rw [hsame]
    cases getByte mode s <;> rfl
  induction h with
  | done => rfl
  | short n h => exact (congrArg (fun x => x.state.bp) h.symm).trans (hget _)
  | got h _ ih => exact ih.trans ((congrArg (fun x => x.state.bp) h.symm).trans (hget _))

/-! ### Raw: the bytes come from `SRC` -/

theorem srcBytes_succ (s : State) (p n : Nat) : srcBytes s p (n + 1) = srcByte s p :: srcBytes s (p + 1) n := by
  simp only [srcBytes, List.range_succ_eq_map, List.map_cons, List.map_map]
  refine congrArg _ (List.map_congr_left fun i _ => ?_)
  rw [Function.comp_apply, Nat.succ_eq_add_one, Nat.add_assoc, Nat.add_comm 1]

@[simp] theorem srcBytes_length (s : State) (p n : Nat) : (srcBytes s p n).length = n := by simp [srcBytes]

theorem gets_raw (h : n ≤ srcAvail s) : Gets .raw n s (srcBytes s s.cur.srcPos.toNat n) (.ok () (srcMoved n s)) := by
  induction n generalizing s with
  | zero =>
    rw [srcMoved_zero]
    exact .done s
  | succ n ih =>
    have hrest := ih (s := srcMoved 1 s) (by rw [srcAvail_srcMoved (by omega)]; omega)
    rw [srcMoved_srcPos (by omega), srcMoved_srcMoved (by omega), Nat.add_comm 1] at hrest
    rw [srcBytes_succ]
    exact .got (getByte_raw (by omega)) hrest

/-- R208: too few bytes are left. -/
theorem gets_raw_short (h : srcAvail s < n) :
    Gets .raw n s (srcBytes s s.cur.srcPos.toNat (srcAvail s)) (.raise .truncatedStream (srcMoved (srcAvail s) s)) := by
  induction hn : srcAvail s generalizing s n with
  | zero =>
    obtain ⟨n, rfl⟩ := Nat.exists_eq_add_one_of_ne_zero (Nat.ne_zero_of_lt h)
    rw [srcMoved_zero]
    exact .short n (if_pos hn)
  | succ m ih =>
    obtain ⟨n, rfl⟩ := Nat.exists_eq_add_one_of_ne_zero (Nat.ne_zero_of_lt h)
    have hleft : srcAvail (srcMoved 1 s) = m := by rw [srcAvail_srcMoved (by omega)]; omega
    have hrest := ih (s := srcMoved 1 s) (n := n) (by omega) hleft
    rw [srcMoved_srcPos (by omega), srcMoved_srcMoved (by omega), Nat.add_comm 1] at hrest
    rw [srcBytes_succ]
    exact .got (getByte_raw (by omega)) hrest

/-! ### Framed: the bytes come from the chain -/

/-- The reader where `x` says reading a chain came to an end. -/
def atChain (s : State) (x : ChainRead) : State :=
  (s.setCur (srcAt x.pos s.cur)).setSb
    { s.sb with rrem := BitVec.ofNat 8 x.rem, rend := if x.stop = .ended then true else s.sb.rend }

theorem atChain_here (s : State) (bs : List Byte) :
    atChain s ⟨bs, s.cur.srcPos.toNat, s.sb.rrem.toNat, .got⟩ = s := by
  simp [atChain, srcAt, State.setCur, State.setSb]

/-- The reader put at an address twice stands at the second. -/
theorem atChain_atChain (s : State) (bs : List Byte) (p r : Nat) (x : ChainRead) :
    atChain (atChain s ⟨bs, p, r, .got⟩) x = atChain s x := by
  simp [atChain, srcAt, State.setCur, State.setSb]

/-- A byte of a block is due and none is left in `SRC`. -/
theorem chainRead_past {k p r : Nat} (h : s.cur.srcLen.toNat ≤ p) : chainRead s (k + 1) p (r + 1) = ⟨[], p, r + 1, .past⟩ :=
  if_pos h

/-- The length byte of the next block claims more than remains. -/
theorem chainRead_too_long {k p : Nat} (hp : p < s.cur.srcLen.toNat) (hz : srcByte s p ≠ 0)
    (h : s.cur.srcLen.toNat < p + 1 + (srcByte s p).toNat) : chainRead s (k + 1) p 0 = ⟨[], p + 1, 0, .truncated⟩ := by
  rw [chainRead, if_neg (Nat.not_le.2 hp), if_neg hz, if_pos h]

/-- A read of a chain depends on `SRC` and its length only. -/
theorem chainRead_congr (hbytes : ∀ a, srcByte t a = srcByte s a) (hlen : t.cur.srcLen = s.cur.srcLen) (k p r : Nat) :
    chainRead t k p r = chainRead s k p r := by
  fun_induction chainRead s k p r with
  | case1 => rfl
  | case2 k p r h => exact chainRead_past (by rwa [hlen])
  | case3 k p r h x ih => rw [chainRead_inside (by rw [hlen]; omega), ih, hbytes]
  | case4 k p h => exact chainRead_no_length (by rwa [hlen])
  | case5 k p h hz => exact chainRead_end (by rw [hlen]; omega) ((hbytes p).trans hz)
  | case6 k p h hz hlong => exact chainRead_too_long (by rw [hlen]; omega) (by rwa [hbytes]) (by rwa [hlen, hbytes])
  | case7 k p h hz hfit x ih =>
    rw [chainRead_block (by rwa [hbytes]) (by rw [hlen, hbytes]; omega), hbytes, hbytes, ih]

/-- A read that got its bytes goes on from where they end. -/
theorem chainRead_add {j p r : Nat} (k : Nat) (h : (chainRead s j p r).stop = .got) :
    chainRead s (j + k) p r =
      { chainRead s k (chainRead s j p r).pos (chainRead s j p r).rem with
        bytes := (chainRead s j p r).bytes ++ (chainRead s k (chainRead s j p r).pos (chainRead s j p r).rem).bytes } := by
  induction j generalizing p r with
  | zero => simp
  | succ j ih =>
    rw [Nat.add_right_comm]
    cases r with
    | succ r =>
      obtain hout | hin := Nat.lt_or_ge p s.cur.srcLen.toNat
      · rw [chainRead_inside hout] at h ⊢
        rw [chainRead_inside hout, ih h]
        rfl
      · rw [chainRead_past hin] at h
        cases h
    | zero =>
      obtain hin | hout := Nat.lt_or_ge p s.cur.srcLen.toNat
      case inr =>
        rw [chainRead_no_length hout] at h
        cases h
      by_cases hz : srcByte s p = 0
      · rw [chainRead_end hin hz] at h
        cases h
      obtain hlong | hfit := Nat.lt_or_ge s.cur.srcLen.toNat (p + 1 + (srcByte s p).toNat)
      · rw [chainRead_too_long hin hz hlong] at h
        cases h
      · rw [chainRead_block hz hfit] at h ⊢
        rw [chainRead_block hz hfit, ih h]
        rfl

/-- A read that ended before its bytes were there ends so however many more are asked for. -/
theorem chainRead_ended {j p r : Nat} (k : Nat) (h : (chainRead s j p r).stop ≠ .got) :
    chainRead s (j + k) p r = chainRead s j p r := by
  induction j generalizing p r with
  | zero => exact absurd (congrArg ChainRead.stop (chainRead_none s p r)) h
  | succ j ih =>
    rw [Nat.add_right_comm]
    cases r with
    | succ r =>
      obtain hin | hout := Nat.lt_or_ge p s.cur.srcLen.toNat
      · rw [chainRead_inside hin] at h ⊢
        rw [chainRead_inside hin, ih h]
      · rw [chainRead_past hout, chainRead_past hout]
    | zero =>
      obtain hin | hout := Nat.lt_or_ge p s.cur.srcLen.toNat
      case inr => rw [chainRead_no_length hout, chainRead_no_length hout]
      by_cases hz : srcByte s p = 0
      · rw [chainRead_end hin hz, chainRead_end hin hz]
      obtain hlong | hfit := Nat.lt_or_ge s.cur.srcLen.toNat (p + 1 + (srcByte s p).toNat)
      · rw [chainRead_too_long hin hz hlong, chainRead_too_long hin hz hlong]
      · rw [chainRead_block hz hfit] at h ⊢
        rw [chainRead_block hz hfit, ih h]

theorem srcAvail_eq_sub (s : State) : srcAvail s = s.cur.srcLen.toNat - s.cur.srcPos.toNat := by
  unfold srcAvail
  split <;> omega

/-- What the next get of a chain does, and how a read of the chain goes on then (R227). -/
inductive ChainStep (s : State) : Prop
  | got (b : Byte) (p r : Nat) (hmoved : s.cur.srcPos.toNat < p) (hp : p ≤ s.cur.srcLen.toNat) (hr : r < 256)
      (hget : framerGet s = .ok (some b) (atChain s ⟨[b], p, r, .got⟩))
      (hread : ∀ k, chainRead s (k + 1) s.cur.srcPos.toNat s.sb.rrem.toNat =
        { chainRead s k p r with bytes := b :: (chainRead s k p r).bytes })
  | ended (x : ChainRead) (hx : x.stop = .ended) (hnil : x.bytes = []) (hget : framerGet s = .ok none (atChain s x))
      (hread : ∀ k, chainRead s (k + 1) s.cur.srcPos.toNat s.sb.rrem.toNat = x)
  | truncated (x : ChainRead) (hx : x.stop = .truncated) (hnil : x.bytes = [])
      (hget : framerGet s = .raise .truncatedStream (atChain s x))
      (hread : ∀ k, chainRead s (k + 1) s.cur.srcPos.toNat s.sb.rrem.toNat = x)
  | past (x : ChainRead) (hx : x.stop = .past) (hnil : x.bytes = [])
      (hread : ∀ k, chainRead s (k + 1) s.cur.srcPos.toNat s.sb.rrem.toNat = x)

theorem atChain_truncated (hrem : s.sb.rrem = 0) (p : Nat) :
    atChain s ⟨[], p, 0, .truncated⟩ = s.setCur (srcAt p s.cur) := by
  have hsb : { s.sb with rrem := BitVec.ofNat 8 0 } = s.sb := by rw [show BitVec.ofNat 8 0 = s.sb.rrem from hrem.symm]
  exact congrArg (s.setCur (srcAt p s.cur)).setSb hsb

theorem chainStep_due (hend : s.sb.rend = false) (hrem : s.sb.rrem = 0) : ChainStep s := by
  have hlen := s.cur.srcLen.isLt
  have havail := srcAvail_eq_sub s
  have hzero : s.sb.rrem.toNat = 0 := congrArg BitVec.toNat hrem
  obtain hnone | hsome := Nat.eq_zero_or_pos (srcAvail s)
  · refine .truncated ⟨[], s.cur.srcPos.toNat, 0, .truncated⟩ rfl rfl ?_ fun k => ?_
    · rw [framerGet_no_length hend hrem hnone, atChain_truncated hrem, srcAt, BitVec.ofNat_toNat, BitVec.setWidth_eq]
      rfl
    · rw [hzero, chainRead_no_length (by omega)]
  by_cases hz : srcByte s s.cur.srcPos.toNat = 0
  · refine .ended ⟨[], s.cur.srcPos.toNat + 1, 0, .ended⟩ rfl rfl ?_ fun k => ?_
    · rw [framerGet_zero hend hrem hsome hz]
      simp [atChain, srcAt, srcMoved, hrem]
    · rw [hzero, chainRead_end (by omega) hz]
  obtain hlong | hfit := Nat.lt_or_ge (srcAvail s - 1) (srcByte s s.cur.srcPos.toNat).toNat
  · refine .truncated ⟨[], s.cur.srcPos.toNat + 1, 0, .truncated⟩ rfl rfl ?_ fun k => ?_
    · rw [framerGet_too_long hend hrem hsome hlong, atChain_truncated hrem]
      rfl
    · rw [hzero, chainRead_too_long (by omega) hz (by omega)]
  · have hn := (srcByte s s.cur.srcPos.toNat).isLt
    have hpos : (srcByte s s.cur.srcPos.toNat).toNat ≠ 0 := fun h => hz (BitVec.eq_of_toNat_eq h)
    refine .got (srcByte s (s.cur.srcPos.toNat + 1)) (s.cur.srcPos.toNat + 2) ((srcByte s s.cur.srcPos.toNat).toNat - 1)
      (by omega) (by omega) (by omega) ?_ fun k => ?_
    · rw [framerGet_first hend hrem hz (by omega)]
      have hdec : BitVec.ofNat 8 ((srcByte s s.cur.srcPos.toNat).toNat - 1) = srcByte s s.cur.srcPos.toNat - 1 := by
        bv_omega
      simp [atChain, srcAt, srcMoved, hdec]
    · rw [hzero, chainRead_block hz (by omega)]

theorem chainStep_inside (hend : s.sb.rend = false) (hrem : s.sb.rrem ≠ 0) : ChainStep s := by
  have hlen := s.cur.srcLen.isLt
  have havail := srcAvail_eq_sub s
  have hmax := s.sb.rrem.isLt
  have hpos : s.sb.rrem.toNat ≠ 0 := fun h => hrem (BitVec.eq_of_toNat_eq h)
  obtain ⟨r, hr⟩ := Nat.exists_eq_add_one_of_ne_zero hpos
  obtain hnone | hsome := Nat.eq_zero_or_pos (srcAvail s)
  · refine .past ⟨[], s.cur.srcPos.toNat, r + 1, .past⟩ rfl rfl fun k => ?_
    rw [hr, chainRead_past (by omega)]
  · refine .got (srcByte s s.cur.srcPos.toNat) (s.cur.srcPos.toNat + 1) r (by omega) (by omega) (by omega) ?_ fun k => ?_
    · rw [framerGet_block hend hrem hsome]
      have hdec : BitVec.ofNat 8 r = s.sb.rrem - 1 := by bv_omega
      simp [atChain, srcAt, srcMoved, hdec]
    · rw [hr, chainRead_inside (by omega)]

theorem chainStep (hend : s.sb.rend = false) : ChainStep s := by
  by_cases hrem : s.sb.rrem = 0
  · exact chainStep_due hend hrem
  · exact chainStep_inside hend hrem

/-- The chain read on from where the reader was put. -/
theorem chainRead_atChain {p r : Nat} (hp : p < 2 ^ 32) (hr : r < 256) (bs : List Byte) (k : Nat) :
    chainRead (atChain s ⟨bs, p, r, .got⟩) k (atChain s ⟨bs, p, r, .got⟩).cur.srcPos.toNat
      (atChain s ⟨bs, p, r, .got⟩).sb.rrem.toNat = chainRead s k p r := by
  have hpos : (atChain s ⟨bs, p, r, .got⟩).cur.srcPos.toNat = p := Nat.mod_eq_of_lt hp
  have hrem : (atChain s ⟨bs, p, r, .got⟩).sb.rrem.toNat = r := Nat.mod_eq_of_lt hr
  rw [hpos, hrem]
  exact chainRead_congr (s := s) (t := atChain s ⟨bs, p, r, .got⟩) (fun _ => rfl) rfl k p r

/-- The raise that a read of a chain ends in, if it ends before its bytes are there. -/
def chainFault : ChainStop → FaultKind
  | .ended => .corruptStream
  | _ => .truncatedStream

/-- R208, R227: bytes got in framed mode, as `chainRead` has them. -/
theorem gets_chain {x : ChainRead} (hend : n = 0 ∨ s.sb.rend = false)
    (hx : x = chainRead s n s.cur.srcPos.toNat s.sb.rrem.toNat) (hpast : x.stop ≠ .past) :
    Gets .framed n s x.bytes (if x.stop = .got then .ok () (atChain s x) else .raise (chainFault x.stop) (atChain s x)) := by
  induction n generalizing s x with
  | zero =>
    subst hx
    rw [chainRead_none, atChain_here]
    exact .done s
  | succ n ih =>
    subst hx
    have hend := hend.resolve_left (Nat.succ_ne_zero n)
    cases chainStep hend with
    | got b p r _ hp hr hget hread =>
      replace hp : p < 2 ^ 32 := hp.trans_lt s.cur.srcLen.isLt
      rw [hread] at hpast ⊢
      have hrest := ih (s := atChain s ⟨[b], p, r, .got⟩) (.inr (by simpa [atChain] using hend)) rfl
        (by rw [chainRead_atChain hp hr]; exact hpast)
      rw [chainRead_atChain hp hr, atChain_atChain] at hrest
      refine .got (t := atChain s ⟨[b], p, r, .got⟩) ?_ hrest
      show (framerGet s).bind _ = _
      rw [hget]
      rfl
    | ended x hx hnil hget hread =>
      rw [hread, hnil, hx]
      refine .short n ?_
      show (framerGet s).bind _ = _
      rw [hget]
      rfl
    | truncated x hx hnil hget hread =>
      rw [hread, hnil, hx]
      refine .short n ?_
      show (framerGet s).bind _ = _
      rw [hget]
      rfl
    | past x hx hnil hread =>
      rw [hread] at hpast
      exact absurd hx hpast

end

end Sys2Proof.Machine
end

section
/-! The reader of the bit packer in either mode (spec/43_bitpacker.md R205, R206): the bytes a get fetches, what it takes of them, and
what stays at hand where they are too few. -/

namespace Sys2Proof.Machine

open Sys2Proof.Claims

/-! ### The fetches -/

/-- The accumulators in bounds, their reader's half (R31). -/
def ReaderInv (bp : Packer) : Prop := bp.rcnt.toNat ≤ 11 ∧ bp.racc.toNat < 2 ^ bp.rcnt.toNat

theorem PackInv.reader {s : State} (h : PackInv s) : ReaderInv s.bp := h.2

/-- The read accumulator with the bytes `bs` behind its bits (R205). -/
def filled (s : State) (bs : List Byte) : Packer := afterGet s.bp (fetched s bs) (s.bp.rcnt.toNat + 8 * bs.length) 0

theorem leValue_lt (bs : List Byte) : leValue bs < 2 ^ (8 * bs.length) := by
  induction bs with
  | nil => exact Nat.one_pos
  | cons b bs ih =>
    have hb := b.isLt
    rw [leValue, List.length_cons, Nat.mul_succ, Nat.pow_add]
    omega

/-- What is at hand after a fetch fits the bits there are. -/
theorem fetched_lt {s : State} (h : s.bp.racc.toNat < 2 ^ s.bp.rcnt.toNat) (bs : List Byte) :
    fetched s bs < 2 ^ (s.bp.rcnt.toNat + 8 * bs.length) := by
  rw [fetched, Nat.mul_comm]
  exact add_code_lt h (leValue_lt bs)

section
variable {mode : Mode} {s t : State} {w n : Nat} {bs : List Byte} {r : Run Unit} {k : FaultKind}

theorem filled_nil (s : State) : filled s [] = s.bp := by
  simp [filled, afterGet, fetched, leValue]

/-- R205: a byte merged is at hand like the first of those fetched. -/
theorem unpackMerge_eq {b : Byte} (hinv : ReaderInv s.bp) :
    unpackMerge b s = s.setBp (filled s [b]) ∧ (filled s [b]).racc.toNat = fetched s [b] ∧
      (filled s [b]).rcnt.toNat = s.bp.rcnt.toNat + 8 := by
  obtain ⟨hcnt, hacc⟩ := hinv
  obtain ⟨hmacc, hmcnt, -, -⟩ := unpackMerge_bp (b := b) hcnt hacc
  have hone : leValue [b] = b.toNat := by simp [leValue]
  rw [← hone] at hmacc
  have hbp : (unpackMerge b s).bp = filled s [b] := by
    rw [filled, afterGet, Nat.pow_zero, Nat.div_one, Nat.sub_zero, fetched, ← hmacc, List.length_singleton, Nat.mul_one,
      ← hmcnt, BitVec.ofNat_toNat, BitVec.ofNat_toNat, BitVec.setWidth_eq, BitVec.setWidth_eq]
    rfl
  rw [← hbp]
  exact ⟨rfl, hmacc, hmcnt⟩

/-- Bytes fetched behind bytes fetched. -/
theorem filled_cons {b : Byte} (hinv : ReaderInv s.bp) (ht : t.bp = filled s [b]) (bs : List Byte) :
    filled t bs = filled s (b :: bs) := by
  obtain ⟨-, hacc, hcnt⟩ := unpackMerge_eq (b := b) hinv
  have hvalue : fetched t bs = fetched s (b :: bs) := by
    rw [fetched, ht, hacc, hcnt, fetched, fetched, leValue, leValue, leValue, Nat.pow_add]
    ring
  rw [filled, hvalue, ht, hcnt, filled, List.length_cons, Nat.mul_succ, Nat.add_assoc, Nat.add_comm 8]
  rfl

theorem filled_congr (h : t.bp = s.bp) (bs : List Byte) : filled t bs = filled s bs := by
  rw [filled, filled, fetched, fetched, h]

theorem setBp_self (s : State) : s.setBp s.bp = s := rfl

/-- With enough bits at hand the loop fetches nothing. -/
theorem unpackFill_enough (h : w ≤ s.bp.rcnt.toNat) : unpackFill w mode n s = .ok () s := by
  cases n with
  | zero => rfl
  | succ n => exact if_neg (Nat.not_lt.2 h)

/-- R205: the loop fetches the bytes that are needed, as far as they are there. -/
theorem unpackFill_gets (hw : w ≤ 12) (hrounds : fetches s w ≤ n) (hacc : s.bp.racc.toNat < 2 ^ s.bp.rcnt.toNat)
    (h : Gets mode (fetches s w) s bs r) : unpackFill w mode n s = r.mapState fun t => t.setBp (filled s bs) := by
  induction n generalizing s bs r with
  | zero =>
    rw [Nat.le_zero.1 hrounds] at h
    cases h
    rw [Run.mapState_ok, filled_nil, setBp_self]
    rfl
  | succ n ih =>
    obtain hmore | henough := Nat.lt_or_ge s.bp.rcnt.toNat w
    · have hnext : fetches s w = (w - (s.bp.rcnt.toNat + 8) + 7) / 8 + 1 := by unfold fetches; omega
      rw [hnext] at h hrounds
      rw [unpackFill, if_pos hmore]
      cases h with
      | @short _ t k _ h =>
        have hbp : t.bp = s.bp := (Gets.short 0 h).bp
        rw [h, Run.bind_raise, Run.mapState_raise, filled_nil, ← hbp, setBp_self]
      | @got _ t b _ bs r h hr =>
        have hbp : t.bp = s.bp := (Gets.got h (.done t)).bp
        have hinv : ReaderInv s.bp := ⟨by omega, hacc⟩
        obtain ⟨hmerge, -, -⟩ := unpackMerge_eq (s := t) (b := b) (by rwa [hbp])
        obtain ⟨-, hvalue, hcnt⟩ := unpackMerge_eq (s := s) (b := b) hinv
        have hlt := fetched_lt hacc [b]
        rw [filled_congr hbp] at hmerge
        have hrest := hr.beside (besideReader_setBp (filled s [b]))
        rw [← hcnt] at hrest hrounds
        rw [h, Run.bind_ok, hmerge, ih (s := t.setBp (filled s [b])) (Nat.le_of_succ_le_succ hrounds)
          (by rw [State.setBp_bp, hvalue, hcnt]; exact hlt) hrest, Run.mapState_setBp, filled_cons hinv rfl]
    · rw [show fetches s w = 0 by unfold fetches; omega] at h
      cases h
      rw [unpackFill_enough henough, Run.mapState_ok, filled_nil, setBp_self]

/-! ### A code -/

theorem fetches_le (hw : w ≤ 12) : fetches s w ≤ 2 := by
  unfold fetches
  omega

/-- What is at hand after the fetches is enough for the code and fits the accumulator. -/
theorem filled_fits (hinv : ReaderInv s.bp) (hw : w ≤ 12) (hlen : bs.length ≤ fetches s w) :
    (filled s bs).racc.toNat = fetched s bs ∧ (filled s bs).rcnt.toNat = s.bp.rcnt.toNat + 8 * bs.length := by
  obtain ⟨hcnt, hacc⟩ := hinv
  have hbits : s.bp.rcnt.toNat + 8 * bs.length ≤ 19 := by
    unfold fetches at hlen
    omega
  have hlt := fetched_lt hacc bs
  have hpow : 2 ^ (s.bp.rcnt.toNat + 8 * bs.length) ≤ 2 ^ 19 := Nat.pow_le_pow_right (by decide) hbits
  rw [filled, afterGet, Nat.pow_zero, Nat.div_one, Nat.sub_zero]
  exact ⟨Nat.mod_eq_of_lt (by omega), Nat.mod_eq_of_lt (by omega)⟩

/-- R205: the bytes are there; the code is the low bits, the rest stays. -/
theorem unpackBits_ok (hinv : ReaderInv s.bp) (hw : w ≤ 12) (h : Gets mode (fetches s w) s bs (.ok () t)) :
    unpackBits w mode s = .ok (fetched s bs % 2 ^ w)
      (t.setBp (afterGet s.bp (fetched s bs) (s.bp.rcnt.toNat + 8 * bs.length) w)) := by
  obtain ⟨hacc, hcnt⟩ := filled_fits hinv hw h.length_le
  have henough : w ≤ (filled s bs).rcnt.toNat := by
    rw [hcnt, h.length_eq]
    unfold fetches
    omega
  have hracc : (filled s bs).racc >>> w = BitVec.ofNat 19 (fetched s bs / 2 ^ w) := by
    refine BitVec.eq_of_toNat_eq ?_
    rw [BitVec.toNat_ushiftRight, hacc, Nat.shiftRight_eq_div_pow, BitVec.toNat_ofNat]
    refine (Nat.mod_eq_of_lt (lt_of_le_of_lt (Nat.div_le_self _ _) ?_)).symm
    rw [← hacc]
    exact (filled s bs).racc.isLt
  have hrcnt : (filled s bs).rcnt - BitVec.ofNat 5 w = BitVec.ofNat 5 (s.bp.rcnt.toNat + 8 * bs.length - w) := by
    rw [← hcnt]
    bv_omega
  rw [unpackBits, unpackFill_gets hw (fetches_le hw) hinv.2 h, Run.mapState_ok, Run.bind_ok, State.setBp_bp, hacc, hracc,
    hrcnt]
  rfl

/-- R206: bytes are missing; those that were there stay at hand. -/
theorem unpackBits_raise (hinv : ReaderInv s.bp) (hw : w ≤ 12) (h : Gets mode (fetches s w) s bs (.raise k t)) :
    unpackBits w mode s = .raise k (t.setBp (filled s bs)) := by
  rw [unpackBits, unpackFill_gets hw (fetches_le hw) hinv.2 h, Run.mapState_raise, Run.bind_raise]

/-! ### The command -/

theorem bpGetBody_legal (h : bpGetOperandsOk s.args = true) :
    bpGetBody s = (unpackBits s.args.arg1.toNat (modeOperand s.args.arg2) s).bind finish1 :=
  if_neg (by simp [h])

/-- A get with its operands checked, in the mode `mode`, and the accumulators in bounds. -/
structure LegalGet (s : State) (mode : Mode) : Prop where
  ready : Ready s
  operands : bpGetOperandsOk s.args = true
  mode : modeOperand s.args.arg2 = mode
  inv : PackInv s

theorem legalGet {s : State} {mode : Mode} (hs : Ready s) (hinv : PackInv s) (hlow : 1 ≤ s.args.arg1.toNat)
    (hhigh : s.args.arg1.toNat ≤ 12) (hflag : s.args.arg2.toNat ≤ 1) (hmode : modeOperand s.args.arg2 = mode) :
    LegalGet s mode :=
  ⟨hs, bpGetOperandsOk_iff.2 ⟨⟨hlow, hhigh⟩, hflag⟩, hmode, hinv⟩

variable {gs : List Group}

/-- R206: the bytes are there. -/
theorem LegalGet.completes (hlegal : LegalGet s mode)
    (h : Gets mode (fetches s s.args.arg1.toNat) s.begun bs (.ok () t)) (hsame : SameBut gs s.begun t)
    (hgs : .status ∉ gs ∧ .res ∉ gs) :
    ∃ u, exec .bpGet s = .next u ∧ Completed s u ∧ SameBut (.status :: .res :: .bp :: gs) s u ∧
      u.res = { s.res with res0 := BitVec.ofNat 32 (fetched s bs % 2 ^ s.args.arg1.toNat) } ∧
      u.cur = t.cur ∧ u.sb = t.sb ∧
      u.bp = afterGet s.bp (fetched s bs) (s.bp.rcnt.toNat + 8 * fetches s s.args.arg1.toNat) s.args.arg1.toNat := by
  obtain ⟨hs, hoperands, hmode, hinv⟩ := hlegal
  obtain ⟨⟨-, hhigh⟩, -⟩ := bpGetOperandsOk_iff.1 hoperands
  have hunpack := unpackBits_ok (s := s.begun) hinv.reader hhigh h
  rw [h.length_eq] at hunpack
  have hbody : bpGetBody s.begun = _ := (bpGetBody_legal (s := s.begun) hoperands).trans
    (by rw [show modeOperand s.begun.args.arg2 = mode from hmode, show s.begun.args = s.args from rfl, hunpack])
  have hres : t.res = s.res := hsame .res hgs.2
  refine ⟨_, runCommand_completes hs hbody (hsame .status hgs.1), rfl, .of_body (x := beginFlags s.status) (by simp) ?_, ?_, rfl, rfl, rfl⟩
  · have hgroups : gs ⊆ .status :: .res :: .bp :: gs := fun g hg => by simp [hg]
    exact (hsame.mono hgroups).trans (((sameBut_setBp t _).mono (by simp)).trans ((sameBut_setRes _ _).mono (by simp)))
  · exact congrArg (fun x : ResRegs => { x with res0 := BitVec.ofNat 32 (fetched s bs % 2 ^ s.args.arg1.toNat) }) hres

/-- R206: a byte is missing. -/
theorem LegalGet.faults (hlegal : LegalGet s mode)
    (h : Gets mode (fetches s s.args.arg1.toNat) s.begun bs (.raise k t)) (hsame : SameBut gs s.begun t)
    (hgs : .status ∉ gs) :
    ∃ u, exec .bpGet s = .next u ∧ FaultedWith k .bpGet u ∧ SameBut (.status :: .bp :: gs) s u ∧
      u.cur = t.cur ∧ u.sb = t.sb ∧ u.bp = filled s bs ∧
      u = (t.setBp (filled s bs)).setStatus ⟨false, true, false, k.code, opcodeOf .bpGet⟩ := by
  obtain ⟨hs, hoperands, hmode, hinv⟩ := hlegal
  obtain ⟨⟨-, hhigh⟩, -⟩ := bpGetOperandsOk_iff.1 hoperands
  have hunpack := unpackBits_raise (s := s.begun) hinv.reader hhigh h
  have hbody : bpGetBody s.begun = _ := (bpGetBody_legal (s := s.begun) hoperands).trans
    (by rw [show modeOperand s.begun.args.arg2 = mode from hmode, show s.begun.args = s.args from rfl, hunpack])
  refine ⟨_, runCommand_faults hs hbody (hsame .status hgs), rfl, .of_body (x := beginFlags s.status) (by simp) ?_, rfl, rfl, rfl, rfl⟩
  have hgroups : gs ⊆ .status :: .bp :: gs := fun g hg => by simp [hg]
  exact (hsame.mono hgroups).trans ((sameBut_setBp t _).mono (by simp))

end

/-! ### The bytes of the chain -/

section
variable {s : State} {x : ChainRead} {n : Nat}

theorem sameBut_atChain (s : State) (x : ChainRead) : SameBut [.sb, .cur] s (atChain s x) := by
  intro g hg
  cases g <;> simp_all [SameGroup, atChain, srcByte, snkByte]

/-- Where the bytes stand inside the block, they are those at the cursor. -/
theorem chainRead_within {p r : Nat} (hrem : n ≤ r) (hfit : n = 0 ∨ p + n ≤ s.cur.srcLen.toNat) :
    chainRead s n p r = ⟨srcBytes s p n, p + n, r - n, .got⟩ := by
  induction n generalizing p r with
  | zero => rw [chainRead_none]; rfl
  | succ n ih =>
    obtain ⟨r, rfl⟩ := Nat.exists_eq_add_one_of_ne_zero (Nat.ne_zero_of_lt hrem)
    rw [chainRead_inside (by omega), ih (Nat.le_of_succ_le_succ hrem) (by omega), srcBytes_succ, Nat.add_assoc,
      Nat.add_comm 1, Nat.add_sub_add_right]

/-- Bytes got in framed mode in the state a command starts in. -/
theorem gets_chain_begun (hend : n = 0 ∨ s.sb.rend = false) (hx : x = chainRead s n s.cur.srcPos.toNat s.sb.rrem.toNat)
    (hpast : x.stop ≠ .past) :
    Gets .framed n s.begun x.bytes
      (if x.stop = .got then .ok () (atChain s.begun x) else .raise (chainFault x.stop) (atChain s.begun x)) :=
  gets_chain hend (hx.trans (chainRead_congr (s := s) (t := s.begun) (fun _ => rfl) rfl _ _ _).symm) hpast

end

/-- Settles O33: the bytes are fetched from `SRC`. -/
theorem bpGetRaw : Obligations.BpGetRaw := by
  unfold Obligations.BpGetRaw
  intro s hs hinv hlow hhigh hraw havail v hv
  subst hv
  have hlegal := legalGet hs hinv hlow hhigh (by rw [hraw]; decide) (modeOperand_raw hraw)
  obtain ⟨u, hexec, hdone, hsame, hres, hcur, -, hbp⟩ :=
    hlegal.completes (gets_raw (s := s.begun) havail) (sameBut_srcMoved _ _) ⟨by simp, by simp⟩
  exact ⟨u, hexec, hdone, hsame, hres, hcur.trans (srcMoved_cur _ _), hbp⟩

/-- R205: a framed get with its bytes in the chain. -/
theorem bpGet_framed {s : State} (hlegal : LegalGet s .framed) (hend : fetches s s.args.arg1.toNat = 0 ∨ s.sb.rend = false)
    {x : ChainRead} (hx : x = chainRead s (fetches s s.args.arg1.toNat) s.cur.srcPos.toNat s.sb.rrem.toNat)
    (hgot : x.stop = .got) :
    ∃ t, exec .bpGet s = .next t ∧ Completed s t ∧ SameBut [.status, .res, .bp, .sb, .cur] s t ∧
      t.res = { s.res with res0 := BitVec.ofNat 32 (fetched s x.bytes % 2 ^ s.args.arg1.toNat) } ∧
      t.cur = srcAt x.pos s.cur ∧ t.sb = { s.sb with rrem := BitVec.ofNat 8 x.rem } ∧
      t.bp = afterGet s.bp (fetched s x.bytes) (s.bp.rcnt.toNat + 8 * fetches s s.args.arg1.toNat) s.args.arg1.toNat := by
  have hgets := gets_chain_begun hend hx (by rw [hgot]; decide)
  rw [if_pos hgot] at hgets
  obtain ⟨u, hexec, hdone, hsame, hres, hcur, hsb, hbp⟩ :=
    hlegal.completes hgets (sameBut_atChain _ x) ⟨by simp, by simp⟩
  refine ⟨u, hexec, hdone, hsame, hres, hcur, hsb.trans ?_, hbp⟩
  simp [atChain, hgot, State.begun]

/-- Settles O34: inside a block the chain's bytes are those at the cursor, so both parts are the same get. -/
theorem bpGetFramed : Obligations.BpGetFramed := by
  unfold Obligations.BpGetFramed
  intro s hs hinv hlow hhigh hframed hend
  have hlegal := legalGet hs hinv hlow hhigh (by rw [hframed]; decide) (modeOperand_framed hframed)
  refine ⟨fun hrem havail v hv => ?_, fun x v hx hgot hv => ?_⟩
  · subst hv
    have hlen := srcAvail_eq_sub s
    have hread := chainRead_within (s := s) (p := s.cur.srcPos.toNat) hrem (by omega)
    obtain ⟨t, hexec, hdone, hsame, hres, hcur, hsb, hbp⟩ := bpGet_framed hlegal hend hread.symm rfl
    exact ⟨t, hexec, hdone, hsame, hres, hcur.trans (by simp [srcAt, cursorsAfter]), hsb, hbp⟩
  · subst hv
    exact bpGet_framed hlegal hend hx hgot

/-- Settles O35: raw with too few bytes, framed after the end of the chain, and every end of a chain met in the get. -/
theorem bpGetUnderrun : Obligations.BpGetUnderrun := by
  unfold Obligations.BpGetUnderrun
  intro s hs hinv hlow hhigh
  refine ⟨fun hraw hshort => ?_, fun hframed hend hpos => ?_, fun hframed hend x k hx hstop => ?_⟩
  · have hlegal := legalGet hs hinv hlow hhigh (by rw [hraw]; decide) (modeOperand_raw hraw)
    obtain ⟨u, hexec, hfault, hsame, hcur, -, hbp, -⟩ :=
      hlegal.faults (gets_raw_short (s := s.begun) hshort) (sameBut_srcMoved _ _) (by simp)
    refine ⟨u, hexec, hfault, hsame, hcur.trans (srcMoved_cur _ _), hbp.trans ?_⟩
    rw [filled, srcBytes_length]
    rfl
  · have hlegal := legalGet hs hinv hlow hhigh (by rw [hframed]; decide) (modeOperand_framed hframed)
    obtain ⟨n, hn⟩ := Nat.exists_eq_add_one_of_ne_zero (Nat.ne_zero_of_lt hpos)
    have hget : getByte .framed s.begun = .raise .corruptStream s.begun := by
      show (framerGet s.begun).bind _ = _
      rw [framerGet_end (s := s.begun) hend]
      rfl
    have hgets : Gets .framed (fetches s s.args.arg1.toNat) s.begun [] (.raise .corruptStream s.begun) := by
      rw [hn]
      exact .short n hget
    obtain ⟨u, hexec, -, -, -, -, -, rfl⟩ := hlegal.faults hgets (.refl [] _) (by simp)
    rw [hexec, filled_nil]
    rfl
  · have hlegal := legalGet hs hinv hlow hhigh (by rw [hframed]; decide) (modeOperand_framed hframed)
    have hends : x.stop ≠ .got ∧ x.stop ≠ .past ∧ chainFault x.stop = k := by
      obtain ⟨h, rfl⟩ | ⟨h, rfl⟩ := hstop <;> rw [h] <;> decide
    obtain ⟨hgot, hpast, rfl⟩ := hends
    have hgets := gets_chain_begun (.inr hend) hx hpast
    rw [if_neg hgot] at hgets
    obtain ⟨u, hexec, hfault, hsame, hcur, hsb, hbp, -⟩ := hlegal.faults hgets (sameBut_atChain _ x) (by simp)
    have hrem : x.rem = 0 := by
      rw [hx] at hgot hpast ⊢
      exact (chainRead_rem s _ _ _ hgot).resolve_right hpast
    refine ⟨u, hexec, hfault, hsame, hcur, hsb.trans ?_, hbp⟩
    simp [atChain, hrem, State.begun, hend]

end Sys2Proof.Machine
end

section
/-! Packing and unpacking raw (spec/43_bitpacker.md R209): the codes of a list as one bit string, written to `SNK` and read back from
`SRC`. -/

namespace Sys2Proof.Machine

open Sys2Proof.Claims

/-! ### Packing -/

/-- From `s` to `t` the `n`-bit string `v` was packed raw: its whole bytes are in `SNK`, the bits behind them in the write
accumulator. -/
structure PackedRaw (s t : State) (v n : Nat) : Prop where
  lt : v < 2 ^ n
  outputs : Outputs s t (lowBytes v (n / 8))
  wacc : t.bp.wacc.toNat = v / 256 ^ (n / 8)
  wcnt : t.bp.wcnt.toNat = n % 8

section
variable {s t : State} {v n c w : Nat}

theorem PackedRaw.writer (h : PackedRaw s t v n) : WriterInv t.bp := by
  unfold WriterInv
  rw [h.wacc, h.wcnt]
  exact ⟨by omega, div_wholeBytes_lt h.lt⟩

/-- R201: a code packed behind a bit string. -/
theorem PackedRaw.packBits (h : PackedRaw s t v n) (hc : c < 2 ^ w) (hw : w ≤ 12) (hroom : Room s ((n + w) / 8)) :
    ∃ u, packBits c w .raw t = .ok () u ∧ PackedRaw s u (v + 2 ^ n * c) (n + w) := by
  have hmerged : merged t c = v / 256 ^ (n / 8) + c * 2 ^ (n % 8) := by rw [merged, h.wacc, h.wcnt]
  have hcount : (n + w) / 8 = n / 8 + (n % 8 + w) / 8 := by omega
  have hbytes : lowBytes (v + 2 ^ n * c) ((n + w) / 8) = lowBytes v (n / 8) ++ putBytes t c w := by
    rw [hcount, lowBytes_add_code, putBytes, hmerged, h.wcnt]
  obtain ⟨u, hputs, -, hout⟩ := puts_raw (s := t) (bs := putBytes t c w)
    (h.outputs.room_rest (by rwa [← hbytes, lowBytes_length]))
  have hlt := add_code_lt h.lt hc
  have hleft : merged t c / 256 ^ ((n % 8 + w) / 8) = (v + 2 ^ n * c) / 256 ^ ((n + w) / 8) := by
    rw [hmerged, ← add_code_div_wholeBytes, Nat.div_div_eq_div_mul, ← Nat.pow_add, ← hcount]
  have hbits := div_wholeBytes_lt hlt
  have hbyte : 2 ^ ((n + w) % 8) ≤ 2 ^ 8 := Nat.pow_le_pow_right (by decide) (by omega)
  refine ⟨_, packBits_ok h.writer hc hw hputs, hlt, hbytes ▸ h.outputs.trans hout, ?_, ?_⟩
  · rw [State.setBp_bp, putLeft, h.wcnt, hleft]
    exact Nat.mod_eq_of_lt (by omega)
  · rw [State.setBp_bp, putLeft, h.wcnt]
    show (BitVec.ofNat 5 _).toNat = _
    rw [BitVec.toNat_ofNat]
    omega

/-- R204: the flush puts what is left of the last byte, padded with zero bits. -/
theorem PackedRaw.packFlush (h : PackedRaw s t v n) (hroom : Room s ((n + 7) / 8)) :
    ∃ u, packFlush .raw t = .ok () u ∧ Outputs s u (lowBytes v ((n + 7) / 8)) := by
  have hbytes : lowBytes v ((n + 7) / 8) = lowBytes v (n / 8) ++ flushBytes t := by
    rw [show (n + 7) / 8 = n / 8 + (n % 8 + 7) / 8 by omega, lowBytes_add, flushBytes, h.wacc, h.wcnt]
  obtain ⟨u, hputs, -, hout⟩ := puts_raw (s := t) (bs := flushBytes t)
    (h.outputs.room_rest (by rwa [← hbytes, lowBytes_length]))
  exact ⟨_, packFlush_ok h.writer hputs, hbytes ▸ h.outputs.trans hout⟩

/-- R209: the codes behind a bit string, and the flush. -/
theorem PackedRaw.packAll {cs : List (Nat × Nat)} (h : PackedRaw s t v n) (hfits : ∀ p ∈ cs, Fits p)
    (hroom : Room s ((n + totalBits cs + 7) / 8)) :
    ∃ u, packAll cs t = .ok () u ∧ Outputs s u (lowBytes (v + 2 ^ n * codesValue cs) ((n + totalBits cs + 7) / 8)) := by
  induction cs generalizing t v n with
  | nil => simpa [codesValue, totalBits, Claims.packAll] using h.packFlush (by simpa [totalBits] using hroom)
  | cons p cs ih =>
    obtain ⟨c, w⟩ := p
    obtain ⟨hp, hcs⟩ := List.forall_mem_cons.1 hfits
    obtain ⟨-, hw, hc⟩ : 1 ≤ w ∧ w ≤ 12 ∧ c < 2 ^ w := hp
    have htotal : n + totalBits ((c, w) :: cs) = n + w + totalBits cs := by simp [totalBits, Nat.add_assoc]
    rw [htotal] at hroom ⊢
    obtain ⟨u, hput, hu⟩ := h.packBits hc hw (room_of_le hroom (by omega))
    obtain ⟨x, hrest, hout⟩ := ih hu hcs hroom
    refine ⟨x, by rw [Claims.packAll, hput, Run.bind_ok, hrest], ?_⟩
    rwa [codesValue, Nat.mul_add, ← Nat.add_assoc, ← Nat.mul_assoc, ← Nat.pow_add]

end

/-! ### Unpacking -/

/-- The bit string at hand: the read accumulator, less than a byte, and the `m` bytes behind it in `SRC` have the value `v`. -/
structure BitsAtRaw (s : State) (v m : Nat) : Prop where
  rcnt : s.bp.rcnt.toNat < 8
  racc : s.bp.racc.toNat < 2 ^ s.bp.rcnt.toNat
  avail : m ≤ srcAvail s
  value : fetched s (srcBytes s s.cur.srcPos.toNat m) = v

section
variable {s : State} {v m c w : Nat}

theorem srcBytes_add (s : State) (p j k : Nat) : srcBytes s p (j + k) = srcBytes s p j ++ srcBytes s (p + j) k := by
  simp [srcBytes, List.range_add, Nat.add_assoc]

theorem leValue_append (as bs : List Byte) : leValue (as ++ bs) = leValue as + 256 ^ as.length * leValue bs := by
  induction as with
  | nil => simp [leValue]
  | cons a as ih => rw [List.cons_append, leValue, ih, leValue, List.length_cons, Nat.pow_succ]; ring

theorem fetched_append (s : State) (as bs : List Byte) :
    fetched s (as ++ bs) = fetched s as + 2 ^ (s.bp.rcnt.toNat + 8 * as.length) * leValue bs := by
  rw [fetched, fetched, leValue_append, Nat.pow_add, Nat.pow_mul]
  ring

theorem cursorsAfter_cursorsAfter (j k : Nat) (c : Cursors) : cursorsAfter k 0 (cursorsAfter j 0 c) = cursorsAfter (j + k) 0 c := by
  simp only [cursorsAfter, Cursors.mk.injEq, true_and]
  refine ⟨BitVec.eq_of_toNat_eq ?_, BitVec.eq_of_toNat_eq ?_⟩ <;> simp [Nat.add_assoc]

/-- R205: the next code of the bit string. -/
theorem BitsAtRaw.unpackBits (h : BitsAtRaw s v m) (hw : w ≤ 12) (henough : w ≤ s.bp.rcnt.toNat + 8 * m) :
    fetches s w ≤ m ∧ ∃ t, unpackBits w .raw s = .ok (v % 2 ^ w) t ∧ BitsAtRaw t (v / 2 ^ w) (m - fetches s w) ∧
      t.bp.rcnt.toNat = s.bp.rcnt.toNat + 8 * fetches s w - w ∧ t.cur = cursorsAfter (fetches s w) 0 s.cur := by
  obtain ⟨hcnt, hacc, havail, hvalue⟩ := h
  have hle : fetches s w ≤ m := by unfold fetches; omega
  refine ⟨hle, ?_⟩
  have hgets := gets_raw (s := s) (n := fetches s w) (hle.trans havail)
  have hunpack := unpackBits_ok ⟨by omega, hacc⟩ hw hgets
  rw [srcBytes_length] at hunpack
  generalize hbs : srcBytes s s.cur.srcPos.toNat (fetches s w) = bs at *
  have hlen : bs.length = fetches s w := by rw [← hbs, srcBytes_length]
  have hwidth : w + (s.bp.rcnt.toNat + 8 * fetches s w - w) = s.bp.rcnt.toNat + 8 * fetches s w := by
    unfold fetches
    omega
  have hsplit : v = fetched s bs + 2 ^ w * (2 ^ (s.bp.rcnt.toNat + 8 * fetches s w - w) *
      leValue (srcBytes s (s.cur.srcPos.toNat + fetches s w) (m - fetches s w))) := by
    rw [← Nat.mul_assoc, ← Nat.pow_add, hwidth, ← hlen, ← fetched_append, hlen, ← hbs, ← srcBytes_add,
      Nat.add_sub_cancel' hle, hvalue]
  have hmod : v % 2 ^ w = fetched s bs % 2 ^ w := by rw [hsplit, Nat.add_mul_mod_self_left]
  have hdiv : v / 2 ^ w = fetched s bs / 2 ^ w + 2 ^ (s.bp.rcnt.toNat + 8 * fetches s w - w) *
      leValue (srcBytes s (s.cur.srcPos.toNat + fetches s w) (m - fetches s w)) := by
    rw [hsplit, Nat.add_mul_div_left _ _ (Nat.two_pow_pos w)]
  have hbits : s.bp.rcnt.toNat + 8 * fetches s w ≤ 19 := by unfold fetches; omega
  have hlt := fetched_lt hacc bs
  rw [hlen] at hlt
  have hmax : 2 ^ (s.bp.rcnt.toNat + 8 * fetches s w) ≤ 2 ^ 19 := Nat.pow_le_pow_right (by decide) hbits
  have hracc : (BitVec.ofNat 19 (fetched s bs / 2 ^ w)).toNat = fetched s bs / 2 ^ w :=
    Nat.mod_eq_of_lt (lt_of_le_of_lt (Nat.div_le_self _ _) (by omega))
  have hrcnt : (BitVec.ofNat 5 (s.bp.rcnt.toNat + 8 * fetches s w - w)).toNat = s.bp.rcnt.toNat + 8 * fetches s w - w :=
    Nat.mod_eq_of_lt (by omega)
  rw [← hmod] at hunpack
  refine ⟨(srcMoved (fetches s w) s).setBp (afterGet s.bp (fetched s bs) (s.bp.rcnt.toNat + 8 * fetches s w) w), hunpack,
    ⟨?_, ?_, ?_, ?_⟩, hrcnt, srcMoved_cur _ s⟩
  · refine hrcnt.trans_lt ?_
    unfold fetches
    omega
  · show (BitVec.ofNat 19 _).toNat < 2 ^ (BitVec.ofNat 5 _).toNat
    rw [hracc, hrcnt]
    exact Nat.div_lt_of_lt_mul (by rwa [← Nat.pow_add, hwidth])
  · show m - fetches s w ≤ srcAvail (srcMoved (fetches s w) s)
    rw [srcAvail_srcMoved (by omega)]
    omega
  · have hpos : (srcMoved (fetches s w) s).cur.srcPos.toNat = s.cur.srcPos.toNat + fetches s w := srcMoved_srcPos (by omega)
    show (BitVec.ofNat 19 _).toNat + leValue (srcBytes s (srcMoved (fetches s w) s).cur.srcPos.toNat _) *
      2 ^ (BitVec.ofNat 5 _).toNat = v / 2 ^ w
    rw [hracc, hrcnt, hpos, hdiv, Nat.mul_comm (leValue _)]

/-- R209: all the codes of the bit string, which uses up its bytes. -/
theorem BitsAtRaw.unpackAll {cs : List (Nat × Nat)} (h : BitsAtRaw s (codesValue cs) m) (hfits : ∀ p ∈ cs, Fits p)
    (hlow : totalBits cs ≤ s.bp.rcnt.toNat + 8 * m) (hhigh : s.bp.rcnt.toNat + 8 * m < totalBits cs + 8) :
    ∃ t, unpackAll (cs.map Prod.snd) s = .ok (cs.map Prod.fst) t ∧ t.bp.racc = 0 ∧ t.cur = cursorsAfter m 0 s.cur := by
  induction cs generalizing s m with
  | nil =>
    have hnone : m = 0 := by
      simp only [totalBits, List.map_nil, List.sum_nil] at hhigh
      omega
    subst hnone
    obtain ⟨-, -, -, hvalue⟩ := h
    have hzero : s.bp.racc.toNat = 0 := by simpa [fetched, codesValue, srcBytes, leValue] using hvalue
    exact ⟨s, rfl, BitVec.eq_of_toNat_eq hzero, by simp [cursorsAfter]⟩
  | cons p cs ih =>
    obtain ⟨c, w⟩ := p
    obtain ⟨hp, hcs⟩ := List.forall_mem_cons.1 hfits
    obtain ⟨-, hw, hc⟩ : 1 ≤ w ∧ w ≤ 12 ∧ c < 2 ^ w := hp
    have htotal : totalBits ((c, w) :: cs) = w + totalBits cs := by simp [totalBits]
    rw [htotal] at hlow hhigh
    have hcode : codesValue ((c, w) :: cs) % 2 ^ w = c := by
      rw [codesValue, Nat.add_mul_mod_self_left, Nat.mod_eq_of_lt hc]
    have hrest : codesValue ((c, w) :: cs) / 2 ^ w = codesValue cs := by
      rw [codesValue, Nat.add_mul_div_left _ _ (Nat.two_pow_pos w), Nat.div_eq_of_lt hc, Nat.zero_add]
    obtain ⟨hle, t, hunpack, ht, hcnt, hcur⟩ := h.unpackBits hw (by omega)
    have hwide : w ≤ s.bp.rcnt.toNat + 8 * fetches s w := by unfold fetches; omega
    rw [hcode] at hunpack
    rw [hrest] at ht
    obtain ⟨x, hall, hracc, hx⟩ := ih ht hcs (by omega) (by omega)
    refine ⟨x, ?_, hracc, ?_⟩
    · rw [List.map_cons, List.map_cons, Claims.unpackAll, hunpack, Run.bind_ok, hall, Run.bind_ok]
    · rw [hx, hcur, cursorsAfter_cursorsAfter, Nat.add_sub_cancel' hle]

end

/-- Settles O36: packing writes the codes as one bit string, and unpacking takes it apart again. -/
theorem unpackInvertsPack : Obligations.UnpackInvertsPack := by
  unfold Obligations.UnpackInvertsPack
  intro cs s u hfits hwacc hwcnt hroom hracc hrcnt
  have hstart : PackedRaw s s 0 0 :=
    ⟨Nat.one_pos, .of_sameBut (by simp) (by simp) (.refl [] s), by rw [hwacc]; rfl, by rw [hwcnt]; rfl⟩
  obtain ⟨t, hpack, hout⟩ := hstart.packAll hfits (by rwa [Nat.zero_add])
  rw [Nat.pow_zero, Nat.one_mul, Nat.zero_add, Nat.zero_add] at hout
  have hlen := lowBytes_length (codesValue cs) ((totalBits cs + 7) / 8)
  refine ⟨t, hpack, by rw [hout.cur, hlen], fun hcopied => ?_⟩
  have hbytes := srcBytes_of_hostCopied (n := (totalBits cs + 7) / 8) hout.appends (by rwa [hlen]) hlen.ge
  rw [List.take_of_length_le hlen.le] at hbytes
  have hbits : 2 ^ totalBits cs ≤ 256 ^ ((totalBits cs + 7) / 8) := by
    rw [show 256 = 2 ^ 8 from rfl, ← Nat.pow_mul]
    exact Nat.pow_le_pow_right (by decide) (by omega)
  have hvalue : BitsAtRaw u (codesValue cs) ((totalBits cs + 7) / 8) := by
    refine ⟨by rw [hrcnt]; decide, by rw [hracc, hrcnt]; decide, hcopied.1, ?_⟩
    rw [hbytes, fetched, hracc, hrcnt, leValue_lowBytes,
      Nat.mod_eq_of_lt ((codesValue_lt hfits).trans_le hbits)]
    simp
  obtain ⟨v, hunpack, hzero, hcur⟩ := hvalue.unpackAll hfits (by rw [hrcnt]; show _ ≤ 0 + _; omega)
    (by rw [hrcnt]; show 0 + _ < _; omega)
  exact ⟨v, hunpack, hzero, hcur⟩

end Sys2Proof.Machine
end

section
/-! The bounds of the accumulators (spec/10_state.md R31): every operation of the packer keeps them, the two runs pack and unpack at
the table's width, and nothing else writes them. -/

namespace Sys2Proof.Machine

open Sys2Proof.Claims

section
variable {α β : Type}

theorem Run.state_mapState (r : Run α) (f : State → State) : (r.mapState f).state = f r.state := by
  cases r <;> rfl

theorem packInv_of_bp {s t : State} (h : t.bp = s.bp) (hs : PackInv s) : PackInv t := by
  unfold PackInv
  rw [h]
  exact hs

end

/-! ### The packer's operations -/

section
variable {s : State} {mode : Mode} {c w n : Nat}

theorem writerInv_shifted (h : WriterInv s.bp) : WriterInv (shifted s.bp 1) := by
  obtain ⟨hcnt, hacc⟩ := h
  refine ⟨by rw [shifted_wcnt]; omega, ?_⟩
  rw [shifted_wacc, shifted_wcnt, Nat.pow_one, Nat.mul_one]
  refine Nat.div_lt_of_lt_mul (hacc.trans_le ?_)
  rw [show 256 = 2 ^ 8 from rfl, ← Nat.pow_add]
  exact Nat.pow_le_pow_right (by decide) (by omega)

/-- A code merged leaves bounds once enough of its bytes are out. -/
theorem writerInv_putLeft (hacc : s.bp.wacc.toNat < 2 ^ s.bp.wcnt.toNat) (hc : c < 2 ^ w) (hn : 8 * n ≤ s.bp.wcnt.toNat + w)
    (hout : s.bp.wcnt.toNat + w ≤ 8 * n + 11) : WriterInv (putLeft s c w n) := by
  have hlt : merged s c < 2 ^ (s.bp.wcnt.toNat + w) := by
    rw [merged, Nat.mul_comm]
    exact add_code_lt hacc hc
  have hleft : merged s c / 256 ^ n < 2 ^ (s.bp.wcnt.toNat + w - 8 * n) := by
    refine Nat.div_lt_of_lt_mul ?_
    rwa [show 256 = 2 ^ 8 from rfl, ← Nat.pow_mul, ← Nat.pow_add, Nat.add_sub_cancel' hn]
  have hcnt : (putLeft s c w n).wcnt.toNat = s.bp.wcnt.toNat + w - 8 * n := Nat.mod_eq_of_lt (by omega)
  refine ⟨by omega, lt_of_le_of_lt (Nat.mod_le _ _) ?_⟩
  rw [hcnt]
  exact hleft

/-- R201: a put keeps the bounds, wherever it ends. -/
theorem packBits_packInv (h : PackInv s) (hc : c < 2 ^ w) (hw : w ≤ 12) : PackInv (packBits c w mode s).state := by
  obtain ⟨hwriter, hreader⟩ := id h
  obtain ⟨n, r, hputs⟩ := puts_total mode s (putBytes s c w)
  obtain ⟨k, t, -, -, -, hraise⟩ | ⟨hlt, hrun⟩ := packBits_puts hwriter hc hw hputs
  · rw [hraise]
    exact ⟨writerInv_shifted hwriter, hreader⟩
  · have hle := hputs.le_length
    rw [putBytes, lowBytes_length] at hle
    have hout : s.bp.wcnt.toNat + w ≤ 8 * n + 11 := by
      cases r with
      | ok _ t =>
        have hall := hputs.eq_length
        rw [putBytes, lowBytes_length] at hall
        omega
      | raise k t =>
        have := hlt k t rfl
        omega
    rw [hrun, Run.state_mapState]
    exact ⟨writerInv_putLeft hwriter.2 hc (by omega) hout, hreader⟩

/-- R204: so does a flush. -/
theorem packFlush_packInv (h : PackInv s) : PackInv (packFlush mode s).state := by
  obtain ⟨hwriter, hreader⟩ := id h
  obtain ⟨n, r, hputs⟩ := puts_total mode s (flushBytes s)
  obtain ⟨k, t, -, -, -, hraise⟩ | ⟨-, hrun⟩ := packFlush_puts hwriter hputs
  · rw [hraise]
    exact ⟨writerInv_shifted hwriter, hreader⟩
  · rw [hrun, Run.state_mapState]
    exact ⟨⟨Nat.zero_le _, Nat.one_pos⟩, hreader⟩

theorem readerInv_afterGet {bp : Packer} {v n : Nat} (hv : v < 2 ^ n) (hlow : w ≤ n) (hhigh : n ≤ w + 11) :
    ReaderInv (afterGet bp v n w) := by
  have hcnt : (afterGet bp v n w).rcnt.toNat = n - w := Nat.mod_eq_of_lt (by omega)
  refine ⟨by omega, lt_of_le_of_lt (Nat.mod_le _ _) ?_⟩
  rw [hcnt]
  exact Nat.div_lt_of_lt_mul (by rwa [← Nat.pow_add, Nat.add_sub_cancel' hlow])

/-- R205: so does a get. -/
theorem unpackBits_packInv (h : PackInv s) (hlow : 1 ≤ w) (hw : w ≤ 12) : PackInv (unpackBits w mode s).state := by
  obtain ⟨hwriter, hreader⟩ := id h
  obtain ⟨hcnt, hacc⟩ := id hreader
  obtain ⟨bs, r, hgets⟩ := gets_total mode (fetches s w) s
  have hlt := fetched_lt hacc bs
  cases r with
  | ok _ t =>
    have hlen := hgets.length_eq
    have hbounds : w ≤ s.bp.rcnt.toNat + 8 * bs.length ∧ s.bp.rcnt.toNat + 8 * bs.length ≤ w + 11 := by
      rw [hlen]
      unfold fetches
      omega
    rw [unpackBits_ok hreader hw hgets]
    exact ⟨hwriter, readerInv_afterGet hlt hbounds.1 hbounds.2⟩
  | raise k t =>
    have hlen := hgets.length_lt
    have hbound : s.bp.rcnt.toNat + 8 * bs.length ≤ 0 + 11 := by
      unfold fetches at hlen
      omega
    rw [unpackBits_raise hreader hw hgets]
    exact ⟨hwriter, readerInv_afterGet hlt (Nat.zero_le _) hbound⟩

end

/-! ### The two runs -/

/-- What the packer needs of the state: its bounds, and a table whose width addresses its codes. -/
def CodesFit (s : State) : Prop := PackInv s ∧ TableSet s.st

theorem TableUpdate.tableSet {t x : StringTable} (h : TableUpdate t x) (ht : TableSet t) : TableSet x := by
  cases h with
  | reset hrb => exact tableSet_resetTable hrb
  | add b fw hbase hfree => exact ht.addEntry_any hbase hfree b fw
  | widen => exact ht.widen false

/-- No update but the packer's own touches the bounds, and the table stays set up. -/
theorem Updates.codesFit {es : List Effect} {s t : State} (hpacker : .packer ∉ es) (h : Updates es s t) (hs : CodesFit s) :
    CodesFit t := by
  refine h.invariant (fun s t hu hs => ?_) hs
  cases hu with
  | packer h x => exact absurd h hpacker
  | table _ hx => exact ⟨hs.1, hx.tableSet hs.2⟩
  | _ => exact hs

/-- A run that ends normally in a state with `P`, or at a raise in a state with `Q`. -/
def Run.Ends {α : Type} (P Q : State → Prop) : Run α → Prop
  | .ok _ t => P t
  | .raise _ t => Q t

section
variable {α β : Type} {P P' Q Q' : State → Prop} {r : Run α}

theorem Run.Ends.bind {f : α → State → Run β} (h : r.Ends P Q) (hf : ∀ a t, P t → (f a t).Ends P' Q) :
    (r.bind f).Ends P' Q := by
  cases r with
  | ok a t => exact hf a t h
  | raise k t => exact h

theorem Run.Ends.mono (h : r.Ends P Q) (hP : ∀ t, P t → P' t) (hQ : ∀ t, Q t → Q' t) : r.Ends P' Q' := by
  cases r with
  | ok a t => exact hP t h
  | raise k t => exact hQ t h

theorem Run.Ends.state (h : r.Ends P P) : P r.state := by
  cases r <;> exact h

theorem Run.ends_of_state (h : P r.state) : r.Ends P P := by
  cases r <;> exact h

end

section
variable {s t : State} {c rb : Nat}

/-- The compressor between two codes: the current code, if any, is in the table (R163). -/
structure Coder (rb : Nat) (s : State) : Prop where
  codes : CodesFit s
  reset : s.st.resetCode.toNat = 2 ^ (rb - 1)
  cur : s.lz.cur = Config.none ∨ validCode s.st s.lz.cur.toNat = true

/-- R162: a code of the table put at the table's width. -/
theorem putPacked_coder (h : Coder rb s) (hc : c < s.st.nextFree.toNat) (o : Unit) :
    (putPacked c o s).Ends (fun t => Coder rb t ∧ t.st = s.st ∧ t.lz = s.lz) PackInv := by
  obtain ⟨hcodes, hreset, hcur⟩ := h
  obtain ⟨-, hw, hfit⟩ := hcodes.2.fits hc
  have hsame := (packBits_updates (es := [.packer, .framer, .write]) (by decide) (by decide) (by decide) c
    s.st.codeBits.toNat .framed s).sameBut
  have hinv : PackInv (putPacked c o s).state := packBits_packInv hcodes.1 hfit hw
  have hst : (putPacked c o s).state.st = s.st := hsame .st (by decide)
  have hlz : (putPacked c o s).state.lz = s.lz := hsame .lz (by decide)
  generalize putPacked c o s = r at *
  cases r with
  | raise k t => exact hinv
  | ok o t =>
    simp only [Run.state_ok] at hst hlz hinv
    refine ⟨⟨⟨hinv, ?_⟩, ?_, ?_⟩, hst, hlz⟩
    · rw [hst]
      exact hcodes.2
    · rw [hst]
      exact hreset
    · rw [hst, hlz]
      exact hcur

theorem Coder.valid_of_ne_none (h : Coder rb s) (hcur : s.lz.cur ≠ Config.none) : validCode s.st s.lz.cur.toNat = true :=
  h.cur.resolve_left hcur

theorem lt_of_valid {t : StringTable} (h : validCode t c = true) : c < t.nextFree.toNat := (validCode_iff.1 h).1

/-- The buffer restarted from a byte with a root code. -/
theorem Coder.root (hcodes : CodesFit s) (hreset : s.st.resetCode.toNat = 2 ^ (rb - 1)) {b : Byte}
    (hb : b.toNat < s.st.resetCode.toNat) : Coder rb (s.setLz { s.lz with cur := b.setWidth 16 }) :=
  ⟨hcodes, hreset, (matched_root hcodes.2 hb).imp And.left And.left⟩

/-- R164: at the capacity the code goes out and the table starts over. -/
theorem capacityReset_coder (hrb : LegalRootBits rb) (h : Coder rb s) (o : Unit) :
    (capacityReset putPacked rb o s).Ends (fun t => CodesFit t ∧ t.st.resetCode.toNat = 2 ^ (rb - 1)) PackInv := by
  unfold capacityReset
  split
  · obtain ⟨hlt, hfree⟩ := h.codes.2.control_lt
    refine (putPacked_coder h (hlt.trans hfree) o).bind fun o t ⟨ht, _⟩ => ?_
    rw [tableReset_legal hrb]
    exact ⟨⟨ht.codes.1, tableSet_resetTable hrb⟩, (resetTable_regs hrb.1 hrb.2).2.2.1⟩
  · exact ⟨h.codes, h.reset⟩

/-- R161, steps 4 and 5. -/
theorem emitAndRegister_coder (hrb : LegalRootBits rb) (h : Coder rb s) (hcur : validCode s.st s.lz.cur.toNat = true) {b : Byte}
    (hb : b.toNat < 2 ^ (rb - 1)) (o : Unit) : (emitAndRegister putPacked rb b o s).Ends (Coder rb) PackInv := by
  refine (putPacked_coder h (lt_of_valid hcur) o).bind fun o t ⟨ht, hst, hlz⟩ => ?_
  obtain ⟨hbase, hfree, hadd⟩ | ⟨-, hraise⟩ := tableAdd_cases s.lz.cur.toNat b true t
  · rw [hlz, hadd, Run.bind_ok]
    have hreset : (addEntry s.lz.cur.toNat b true t.st).resetCode = t.st.resetCode := (addEntry_fields hfree).2.2.1
    have hadded : Coder rb (t.setSt (addEntry s.lz.cur.toNat b true t.st)) :=
      ⟨⟨ht.codes.1, ht.codes.2.addEntry hbase hfree b⟩, (congrArg BitVec.toNat hreset).trans ht.reset,
        ht.cur.imp id (validCode_addEntry hfree b true)⟩
    refine (capacityReset_coder hrb hadded o).bind fun o u ⟨hu, hureset⟩ => ?_
    exact Coder.root hu hureset (by rw [hureset]; exact hb)
  · rw [hlz, hraise]
    exact ht.codes.1

/-- R161, steps 3 to 5. -/
theorem compressLoop_coder (hrb : LegalRootBits rb) {n : Nat} (hn : n ≤ srcAvail s) (h : Coder rb s) (pfx : List Byte) (o : Unit) :
    (compressLoop putPacked rb n pfx o s).Ends (Coder rb) PackInv := by
  induction n generalizing s pfx o with
  | zero => exact h
  | succ n ih =>
    have hleft : n ≤ srcAvail (srcMoved 1 s) := by rw [srcAvail_srcMoved (by omega)]; omega
    have hmoved : Coder rb (srcMoved 1 s) := ⟨h.codes, h.reset, h.cur⟩
    unfold compressLoop
    rw [srcRead8_eq (by omega), Run.bind_ok]
    generalize srcByte s s.cur.srcPos.toNat = b, srcMoved 1 s = t at *
    split
    · exact hmoved.codes.1
    next hb =>
    have hroot : Coder rb (t.setLz { t.lz with cur := b.setWidth 16 }) :=
      Coder.root hmoved.codes hmoved.reset (Nat.not_le.1 hb)
    split
    · refine ih ?_ hroot [b] o
      exact hleft
    next hcur =>
    split
    next k hfound =>
      have hmatched := matched_of_findCode hmoved.codes.2 hfound
      have hextended : Coder rb (t.setLz { t.lz with cur := BitVec.ofNat 16 k }) :=
        ⟨hmoved.codes, hmoved.reset, hmatched.imp And.left And.left⟩
      refine ih ?_ hextended (pfx ++ [b]) o
      exact hleft
    next =>
      have hupdates := emitAndRegister_updates rb b o t
      have hends := emitAndRegister_coder hrb hmoved (hmoved.valid_of_ne_none hcur) (b := b) (by rw [← hmoved.reset]; omega) o
      generalize emitAndRegister putPacked rb b o t = r at *
      cases r with
      | raise k u => exact hends
      | ok o u => exact ih (hleft.trans_eq (hupdates.srcAvail_eq (by decide)).symm) hends [b] o

/-- R161, step 6. -/
theorem compressTail_coder (h : Coder rb s) (o : Unit) : (compressTail putPacked o s).Ends PackInv PackInv := by
  have hwidened : (if s.lz.cur = Config.none then Run.ok o s
      else (putPacked s.lz.cur.toNat o s).bind fun o s => .ok o (widenAtEnd s)).Ends CodesFit PackInv := by
    split
    · exact h.codes
    next hcur =>
      refine (putPacked_coder h (lt_of_valid (h.valid_of_ne_none hcur)) o).bind fun o t ⟨ht, _⟩ => ?_
      rw [widenAtEnd_eq]
      exact ⟨ht.codes.1, ht.codes.2.widen false⟩
  refine hwidened.bind fun o t ht => Run.ends_of_state ?_
  obtain ⟨-, hw, hfit⟩ := ht.2.fits ht.2.control_lt.2
  exact packBits_packInv ht.1 hfit hw

theorem compressCodes_coder (hrb : LegalRootBits rb) (h : CodesFit s) (hreset : s.st.resetCode.toNat = 2 ^ (rb - 1)) (o : Unit) :
    (compressCodes putPacked rb o s).Ends PackInv PackInv := by
  have hstart : Coder rb (s.setLz { s.lz with cur := Config.none, resets := 0 }) := ⟨h, hreset, .inl rfl⟩
  obtain ⟨hlt, hfree⟩ := h.2.control_lt
  refine (putPacked_coder hstart (hlt.trans hfree) o).bind fun o t ⟨ht, _⟩ => ?_
  have hcounted : Coder rb (t.setLz { t.lz with resets := 1 }) := ⟨ht.codes, ht.reset, ht.cur⟩
  refine (compressLoop_coder hrb (Nat.le_refl _) hcounted [] o).bind fun o u hu => ?_
  exact compressTail_coder hu o

theorem compressOpen_coder (h : PackInv s) :
    (compressOpen rb s).Ends (fun t => LegalRootBits rb ∧ CodesFit t ∧ t.st.resetCode.toNat = 2 ^ (rb - 1)) PackInv := by
  obtain ⟨h3, h12, hreset⟩ | ⟨-, hraise⟩ | ⟨-, hraise⟩ := tableReset_cases rb s
  · rw [compressOpen, hreset, Run.bind_ok]
    by_cases hroom : Room (s.setSt (resetTable rb)) 1
    · obtain ⟨t, hwrite, hsame, -⟩ := snkWrite8_outputs (b := BitVec.ofNat 8 (rb - 1)) hroom
      have hst : t.st = resetTable rb := hsame .st (by simp)
      have hbp : t.bp = s.bp := hsame .bp (by simp)
      rw [hwrite, Run.bind_ok]
      refine ⟨⟨h3, h12⟩, ⟨⟨⟨Nat.zero_le _, Nat.one_pos⟩, ?_⟩, ?_⟩, ?_⟩
      · exact (packInv_of_bp hbp h).2
      · exact (congrArg TableSet hst).mpr (tableSet_resetTable ⟨h3, h12⟩)
      · exact (congrArg (fun x : StringTable => x.resetCode.toNat) hst).trans (resetTable_regs h3 h12).2.2.1
    · rw [snkWrite8_full (by unfold Room at hroom; omega)]
      exact h
  all_goals
    rw [compressOpen, hraise]
    exact h

/-- No update but the packer's own touches the accumulators. -/
theorem Updates.bp {es : List Effect} (hpacker : .packer ∉ es) (h : Updates es s t) : t.bp = s.bp :=
  h.sameBut .bp fun hmem => by
    obtain ⟨e, he, hg⟩ := List.mem_flatMap.1 hmem
    cases e <;> simp [Effect.groups] at hg
    exact hpacker he

theorem lzwCompressBody_packInv (h : PackInv s) : PackInv (lzwCompressBody s).state := by
  refine Run.Ends.state ((compressOpen_coder h).bind fun _ t ⟨hrb, ht, hreset⟩ => ?_)
  refine (compressCodes_coder hrb ht hreset ()).bind fun _ u hu => ?_
  have hclosed : PackInv (compressClose u).state := by
    refine Run.bind_inv (packFlush_packInv hu) fun _ v _ hv => packInv_of_bp ?_ hv
    exact (framerClose_updates (es := [.framer, .write]) (by decide) (by decide) v).bp (by decide)
  exact (Run.ends_of_state hclosed).bind fun _ v hv => hv

/-- R181: the loop of the decompressor. -/
theorem decompressLoop_packInv {n : Nat} (h : CodesFit s) : PackInv (decompressLoop n s).state := by
  induction n generalizing s with
  | zero => exact h.1
  | succ n ih =>
    obtain ⟨⟨h3, hle, h12⟩, -⟩ := id h.2
    have hst : (unpackBits s.st.codeBits.toNat .framed s).state.st = s.st :=
      (unpackBits_updates (es := [.read, .framer, .packer, .tick]) (by decide) (by decide) (by decide)
        s.st.codeBits.toNat (mode := .framed) (.inr (.inl (by decide)))).1.sameBut .st (by decide)
    rw [decompressLoop_succ]
    refine Run.bind_inv (unpackBits_packInv h.1 (by omega) h12) fun c t ht hinv => ?_
    rw [ht, Run.state_ok] at hst
    split
    · exact hinv
    · have hcodes : CodesFit (decompressCode c t).state :=
        (decompressCode_updates c t).codesFit (by decide) ⟨hinv, hst ▸ h.2⟩
      cases hcode : decompressCode c t with
      | ok _ u =>
        rw [hcode] at hcodes
        exact ih hcodes
      | raise k u =>
        rw [hcode] at hcodes
        exact hcodes.1

theorem decompressOpen_codesFit (h : PackInv s) : (decompressOpen s).Ends CodesFit PackInv := by
  unfold decompressOpen
  split
  · exact h
  · rw [srcRead8_eq (by omega), Run.bind_ok]
    obtain ⟨h3, h12, hreset⟩ | ⟨-, hraise⟩ | ⟨-, hraise⟩ :=
      tableReset_cases ((srcByte s s.cur.srcPos.toNat).toNat + 1) (srcMoved 1 s)
    · rw [hreset]
      exact ⟨⟨h.1, Nat.zero_le _, Nat.one_pos⟩, tableSet_resetTable ⟨h3, h12⟩⟩
    all_goals
      rw [hraise]
      exact h

theorem lzwDecompressBody_packInv (h : PackInv s) : PackInv (lzwDecompressBody s).state := by
  refine Run.Ends.state ((decompressOpen_codesFit h).bind fun _ t ht => ?_)
  refine (Run.ends_of_state (decompressLoop_packInv ht)).bind fun _ u hu => ?_
  have hdrained : PackInv (framerDrain u).state := packInv_of_bp
    ((framerDrain_updates (es := [.read, .framer, .tick]) (by decide) (by decide) (.inl (by decide))).bp (by decide)) hu
  exact (Run.ends_of_state hdrained).bind fun _ v hv => hv

end

/-! ### Every command -/

section
variable {i : Instr} {s t : State}

theorem bpPutBody_packInv (h : PackInv s) : PackInv (bpPutBody s).state := by
  unfold bpPutBody
  split
  · exact h
  · next hoperands =>
    obtain ⟨⟨-, hw⟩, -, hfit⟩ := bpPutOperandsOk_iff.1 (Bool.of_not_eq_false hoperands)
    exact packBits_packInv h hfit hw

theorem bpFlushBody_packInv (h : PackInv s) : PackInv (bpFlushBody s).state := by
  unfold bpFlushBody
  split
  · exact h
  · exact packFlush_packInv h

theorem bpGetBody_packInv (h : PackInv s) : PackInv (bpGetBody s).state := by
  unfold bpGetBody
  split
  · exact h
  · next hoperands =>
    obtain ⟨⟨hlow, hw⟩, -⟩ := bpGetOperandsOk_iff.1 (Bool.of_not_eq_false hoperands)
    exact Run.bind_inv (unpackBits_packInv h hlow hw) fun _ t _ ht => ht

theorem bodyOf_packInv (hi : Ordinary i) (h : PackInv s) : PackInv (bodyOf i s).state := by
  by_cases hpacker : .packer ∈ effectsOf i
  · cases i
    case lzwCompress => exact lzwCompressBody_packInv h
    case lzwDecompress => exact lzwDecompressBody_packInv h
    case bpInit => exact ⟨⟨Nat.zero_le _, Nat.one_pos⟩, Nat.zero_le _, Nat.one_pos⟩
    case bpPut => exact bpPutBody_packInv h
    case bpFlush => exact bpFlushBody_packInv h
    case bpGet => exact bpGetBody_packInv h
    all_goals exact absurd hpacker (by decide)
  · have hbody := bodyOf_endsWithin_all hi s
    have hfree : .packer ∉ freesOf i ++ effectsOf i := fun hmem => by
      obtain hmem | hmem := List.mem_append.1 hmem
      · cases i <;> exact absurd hmem (by decide)
      · exact hpacker hmem
    have hresult : .packer ∉ resultsOf i ++ (freesOf i ++ effectsOf i) := fun hmem => by
      obtain hmem | hmem := List.mem_append.1 hmem
      · cases i <;> exact absurd hmem (by decide)
      · exact hfree hmem
    cases hend : bodyOf i s with
    | ok _ t =>
      rw [hend] at hbody
      exact packInv_of_bp (Updates.bp hresult hbody) h
    | raise k t =>
      rw [hend] at hbody
      exact packInv_of_bp (Updates.bp hfree hbody) h

/-- Settles O37: a command keeps the bounds, and the resets clear the accumulators. -/
theorem everyStepKeepsAccumulators : Obligations.EveryStepKeepsAccumulators := by
  unfold Obligations.EveryStepKeepsAccumulators
  intro s t _ hs h
  refine step_invariant (P := PackInv) (fun s t hst => packInv_of_bp hst.bp) (fun i s t h hs => ?_) (fun w s t h hs => ?_)
    (fun s _ => packInv_of_bp (s := State.reset) rfl ⟨⟨Nat.zero_le _, Nat.one_pos⟩, Nat.zero_le _, Nat.one_pos⟩) h hs
  · by_cases hclr : i = .clrFault
    · subst hclr
      obtain ⟨x, hx⟩ := exec_clrFault s
      exact Host.Outcome.next.inj (h.symm.trans hx) ▸ hs
    · by_cases hsoft : i = .softReset
      · subst hsoft
        exact Host.Outcome.next.inj h ▸
          packInv_of_bp (s := State.reset) rfl ⟨⟨Nat.zero_le _, Nat.one_pos⟩, Nat.zero_le _, Nat.one_pos⟩
      · have hbody := bodyOf_packInv (s := s.begun) ⟨hclr, hsoft⟩ hs
        obtain ⟨-, rfl⟩ | ⟨-, u, hok, rfl⟩ | ⟨-, k, u, hraise, rfl⟩ := exec_cases ⟨hclr, hsoft⟩ h
        · exact hs
        · rwa [hok] at hbody
        · rwa [hraise] at hbody
  · obtain ⟨x, rfl⟩ := illegalWord_next h
    exact hs

end

end Sys2Proof.Machine
end

section
/-! Skipping the rest of a chain (spec/44_subblock_framer.md R230, R231): `SB_SKIP` block by block, and its ends. -/

namespace Sys2Proof.Machine

open Sys2Proof.Claims

/-- The reader with nothing left of its block, at address `p`. -/
def skippedTo (p : Nat) (s : State) : State := (s.setCur (srcAt p s.cur)).setSb { s.sb with rrem := 0 }

/-- A round of the skip from a block skipped to `p`: the length byte there, and the rounds behind it. -/
def skipRound (n p : Nat) (s : State) : Run Unit := (framerLength (skippedTo p s)).bind fun _ t => framerSkipLoop n t

section
variable {s t : State} {n p : Nat}

theorem sameBut_skippedTo (p : Nat) (s : State) : SameBut [.sb, .cur] s (skippedTo p s) := by
  intro g hg
  cases g <;> simp_all [SameGroup, skippedTo, srcByte, snkByte]

theorem skippedTo_here (hrem : s.sb.rrem = 0) : skippedTo s.cur.srcPos.toNat s = s := by
  have hsb : { s.sb with rrem := 0 } = s.sb := by rw [← hrem]
  rw [skippedTo, srcAt, BitVec.ofNat_toNat, BitVec.setWidth_eq, hsb]
  rfl

theorem skippedTo_srcPos (hp : p < 2 ^ 32) : (skippedTo p s).cur.srcPos.toNat = p := Nat.mod_eq_of_lt hp

theorem srcAvail_skippedTo (hp : p < 2 ^ 32) : srcAvail (skippedTo p s) = s.cur.srcLen.toNat - p := by
  rw [srcAvail_eq_sub, skippedTo_srcPos hp]
  rfl

theorem srcMoved_skippedTo (hp : p < 2 ^ 32) : srcMoved n (skippedTo p s) = skippedTo (p + n) s := by
  rw [srcMoved, skippedTo_srcPos hp]
  rfl

/-- R230: the rest of the block is stepped over, where the sum of cursor and rest is an address. -/
theorem framerSkipBlock_eq_skippedTo (hp : s.cur.srcPos.toNat + s.sb.rrem.toNat < 2 ^ 32) :
    framerSkipBlock s = skippedTo (s.cur.srcPos.toNat + s.sb.rrem.toNat) s := by
  rw [framerSkipBlock, srcSkip, srcAdvance, if_pos hp]
  rfl

theorem framerSkipLoop_succ (hend : s.sb.rend = false) (hp : s.cur.srcPos.toNat + s.sb.rrem.toNat < 2 ^ 32) :
    framerSkipLoop (n + 1) s = skipRound n (s.cur.srcPos.toNat + s.sb.rrem.toNat) s := by
  rw [framerSkipLoop, if_neg (by simp [hend]), framerSkipBlock_eq_skippedTo hp]
  rfl

/-- Once the chain has ended the rounds that are left do nothing. -/
theorem framerSkipLoop_end (hend : s.sb.rend = true) : framerSkipLoop n s = .ok () s := by
  cases n <;> exact if_pos hend

/-! ### The ends of a skip -/

/-- The zero length byte stands at `p`. -/
theorem skipRound_zero (hp : p < s.cur.srcLen.toNat) (hz : srcByte s p = 0) :
    skipRound n p s = .ok () ((skippedTo (p + 1) s).setSb { s.sb with rrem := 0, rend := true }) := by
  have hlen := s.cur.srcLen.isLt
  have hp32 : p < 2 ^ 32 := by omega
  have hpos := skippedTo_srcPos (s := s) hp32
  have hbyte : srcByte (skippedTo p s) (skippedTo p s).cur.srcPos.toNat = 0 := by rw [hpos]; exact hz
  have havail := srcAvail_skippedTo (s := s) hp32
  obtain ⟨hnone, -⟩ | ⟨-, -, hok⟩ | ⟨-, hlong, -⟩ | ⟨hsome, -, -⟩ := framerLength_cases (skippedTo p s)
  · omega
  · rw [skipRound, hok, Run.bind_ok, framerSkipLoop_end rfl, srcMoved_skippedTo hp32]
    rfl
  · rw [hbyte, show (0 : Byte).toNat = 0 from rfl] at hlong
    omega
  · exact absurd hbyte hsome

/-- No length byte is left at `p`. -/
theorem skipRound_none (hp : p < 2 ^ 32) (hout : s.cur.srcLen.toNat ≤ p) :
    skipRound n p s = .raise .truncatedStream (skippedTo p s) := by
  rw [skipRound, framerLength, if_pos (by rw [srcAvail_skippedTo hp]; omega), Run.bind_raise]

/-- The length byte at `p` claims more than remains. -/
theorem skipRound_too_long (hp : p < s.cur.srcLen.toNat) (hlong : s.cur.srcLen.toNat < p + 1 + (srcByte s p).toNat) :
    skipRound n p s = .raise .truncatedStream (skippedTo (p + 1) s) := by
  have hlen := s.cur.srcLen.isLt
  have hp32 : p < 2 ^ 32 := by omega
  have hpos := skippedTo_srcPos (s := s) hp32
  have hbyte : srcByte (skippedTo p s) (skippedTo p s).cur.srcPos.toNat = srcByte s p := by rw [hpos]; rfl
  have havail := srcAvail_skippedTo (s := s) hp32
  obtain ⟨hnone, -⟩ | ⟨-, hz, -⟩ | ⟨-, -, hraise⟩ | ⟨-, hfit, -⟩ := framerLength_cases (skippedTo p s)
  · omega
  · rw [← hbyte, hz, show (0 : Byte).toNat = 0 from rfl] at hlong
    omega
  · rw [skipRound, hraise, Run.bind_raise, srcMoved_skippedTo hp32]
  · rw [hbyte] at hfit
    omega

/-- A sub-block stands at `p`. -/
theorem skipRound_block (hend : s.sb.rend = false) (hz : srcByte s p ≠ 0)
    (hfit : p + 1 + (srcByte s p).toNat ≤ s.cur.srcLen.toNat) :
    skipRound (n + 1) p s = skipRound n (p + 1 + (srcByte s p).toNat) s := by
  have hlen := s.cur.srcLen.isLt
  have hp32 : p < 2 ^ 32 := by omega
  have hpos := skippedTo_srcPos (s := s) hp32
  have hbyte : srcByte (skippedTo p s) (skippedTo p s).cur.srcPos.toNat = srcByte s p := by rw [hpos]; rfl
  have havail := srcAvail_skippedTo (s := s) hp32
  obtain ⟨hnone, -⟩ | ⟨-, hzero, -⟩ | ⟨-, hlong, -⟩ | ⟨-, -, hok⟩ := framerLength_cases (skippedTo p s)
  · omega
  · exact absurd (hbyte.symm.trans hzero) hz
  · rw [hbyte] at hlong
    omega
  · have hnext : (skippedTo (p + 1) s).cur.srcPos.toNat = p + 1 := skippedTo_srcPos (by omega)
    rw [skipRound, hok, Run.bind_ok, srcMoved_skippedTo hp32, hbyte]
    refine (framerSkipLoop_succ (s := (skippedTo (p + 1) s).setSb { (skippedTo p s).sb with rrem := srcByte s p })
      hend (by show (skippedTo (p + 1) s).cur.srcPos.toNat + (srcByte s p).toNat < 2 ^ 32; omega)).trans ?_
    show skipRound n ((skippedTo (p + 1) s).cur.srcPos.toNat + (srcByte s p).toNat) _ = _
    rw [hnext]
    rfl

/-- Whole sub-blocks are stepped over, a round each. -/
theorem skipRound_blocks {ns : List Nat} (hend : s.sb.rend = false) (hblocks : blocksFrom s p ns)
    (hfit : blocksPast p ns ≤ s.cur.srcLen.toNat) : skipRound (n + ns.length) p s = skipRound n (blocksPast p ns) s := by
  induction ns generalizing p with
  | nil => rfl
  | cons m ns ih =>
    obtain ⟨hlen, hne, hrest⟩ := hblocks
    have hpast : blocksPast p (m :: ns) = blocksPast (p + 1 + m) ns := by
      simp only [blocksPast, List.sum_cons, List.length_cons]
      omega
    rw [hpast] at hfit ⊢
    have hz : srcByte s p ≠ 0 := fun hz => hne (by rw [← hlen, hz]; rfl)
    have hle : p + 1 + m ≤ blocksPast (p + 1 + m) ns := by unfold blocksPast; omega
    have hround := skipRound_block (n := n + ns.length) hend hz (by rw [hlen]; omega)
    rw [hlen] at hround
    rw [List.length_cons, ← Nat.add_assoc, hround, ih hrest hfit]

/-! ### The whole skip -/

/-- R230: with the blocks of a chain behind the rest of the block at hand, the skip comes to what follows them. -/
theorem framerSkip_blocks {ns : List Nat} (hend : s.sb.rend = false)
    (hblocks : blocksFrom s (s.cur.srcPos.toNat + s.sb.rrem.toNat) ns)
    (hfit : ns = [] ∧ s.cur.srcPos.toNat + s.sb.rrem.toNat < 2 ^ 32 ∨
      blocksPast (s.cur.srcPos.toNat + s.sb.rrem.toNat) ns ≤ s.cur.srcLen.toNat) :
    ∃ n, framerSkip s = skipRound n (blocksPast (s.cur.srcPos.toNat + s.sb.rrem.toNat) ns) s := by
  have hlen := s.cur.srcLen.isLt
  have hp : s.cur.srcPos.toNat + s.sb.rrem.toNat < 2 ^ 32 := by
    obtain ⟨-, hp⟩ | hfit := hfit
    · exact hp
    · unfold blocksPast at hfit
      omega
  rw [framerSkip, framerSkipLoop_succ hend hp, framerSkipBlock_eq_skippedTo hp, srcAvail_skippedTo hp]
  obtain ⟨rfl, -⟩ | hfit := hfit
  · exact ⟨_, rfl⟩
  · have hcount : ns.length ≤ s.cur.srcLen.toNat - (s.cur.srcPos.toNat + s.sb.rrem.toNat) := by
      unfold blocksPast at hfit
      omega
    obtain ⟨n, hn⟩ := Nat.exists_eq_add_of_le' hcount
    exact ⟨n, by rw [hn, skipRound_blocks hend hblocks hfit]⟩

theorem blocksFrom_of_blocksAt {ns : List Nat} (h : blocksAt s p ns) : blocksFrom s p ns ∧ srcByte s (blocksPast p ns) = 0 := by
  induction ns generalizing p with
  | nil => exact ⟨trivial, h⟩
  | cons m ns ih =>
    obtain ⟨hlen, hne, hrest⟩ := h
    obtain ⟨hblocks, hz⟩ := ih hrest
    refine ⟨⟨hlen, hne, hblocks⟩, ?_⟩
    rwa [show blocksPast p (m :: ns) = blocksPast (p + 1 + m) ns by
      simp only [blocksPast, List.sum_cons, List.length_cons]; omega]

/-- The blocks of a chain depend on `SRC` only. -/
theorem blocksFrom_begun {ns : List Nat} (h : blocksFrom s p ns) : blocksFrom s.begun p ns := by
  induction ns generalizing p with
  | nil => trivial
  | cons m ns ih => exact ⟨h.1, h.2.1, ih h.2.2⟩

/-- R231: a skip that raised at `p`. -/
theorem execSbSkip_truncated (hs : Ready s) (h : framerSkip s.begun = .raise .truncatedStream (skippedTo p s.begun)) :
    ∃ t, exec .sbSkip s = .next t ∧ FaultedWith .truncatedStream .sbSkip t ∧ SameBut [.status, .sb, .cur] s t ∧
      t.cur = srcAt p s.cur ∧ t.sb = { s.sb with rrem := 0 } :=
  ⟨_, runCommand_faults (body := sbSkipBody) hs h rfl, rfl,
    .of_body (by simp) ((sameBut_skippedTo p _).mono (by simp)), rfl, rfl⟩

end

/-- Settles O43: the chain block by block, and what is found where a length byte is due. -/
theorem sbSkipEndsChain : Obligations.SbSkipEndsChain := by
  unfold Obligations.SbSkipEndsChain
  intro s hs
  refine ⟨fun hend => ?_, fun ns hend hat hfit => ?_, fun hend hrem hnone => ?_, fun ns q hend hblocks hq => ⟨fun hout => ?_, fun hin hlong => ?_⟩⟩
  · exact (runCommand_completes (i := .sbSkip) (body := sbSkipBody) hs (framerSkip_end (s := s.begun) hend) rfl).trans rfl
  · obtain ⟨hblocks, hz⟩ := blocksFrom_of_blocksAt hat
    have hpast : blocksPast (s.cur.srcPos.toNat + s.sb.rrem.toNat) ns + 1 ≤ s.cur.srcLen.toNat := hfit
    obtain ⟨n, hskip⟩ := framerSkip_blocks (s := s.begun) hend (blocksFrom_begun hblocks) (.inr (Nat.le_of_succ_le hpast))
    have hzero := skipRound_zero (s := s.begun) (n := n) hpast hz
    refine ⟨_, runCommand_completes (body := sbSkipBody) hs (hskip.trans hzero) rfl, rfl,
      .of_body (x := beginFlags s.status) (by simp) (((sameBut_skippedTo _ _).mono (by simp)).trans
        ((sameBut_setSb _ _).mono (by simp))), ?_, rfl⟩
    have hsum : blocksPast (s.cur.srcPos.toNat + s.sb.rrem.toNat) ns + 1 =
        s.cur.srcPos.toNat + (s.sb.rrem.toNat + ns.sum + ns.length + 1) := by
      unfold blocksPast
      omega
    exact (congrArg (srcAt · s.cur) hsum).trans (by simp [srcAt, cursorsAfter])
  · have hzero : s.sb.rrem.toNat = 0 := congrArg BitVec.toNat hrem
    have hlen := srcAvail_eq_sub s
    have hpos := s.cur.srcPos.isLt
    obtain ⟨n, hskip⟩ := framerSkip_blocks (s := s.begun) (ns := []) hend trivial
      (.inl ⟨rfl, by show s.cur.srcPos.toNat + s.sb.rrem.toNat < _; omega⟩)
    have hraise := skipRound_none (s := s.begun) (n := n) (p := s.cur.srcPos.toNat + s.sb.rrem.toNat) (by omega)
      (by show s.cur.srcLen.toNat ≤ _; omega)
    have hhere : skippedTo (s.cur.srcPos.toNat + s.sb.rrem.toNat) s.begun = s.begun := by
      rw [hzero]
      exact skippedTo_here (s := s.begun) hrem
    rw [hhere] at hraise
    exact runCommand_rejects (body := sbSkipBody) hs (hskip.trans hraise)
  · subst hq
    obtain ⟨n, hskip⟩ := framerSkip_blocks (s := s.begun) hend (blocksFrom_begun hblocks) (.inr hout.le)
    exact execSbSkip_truncated hs (hskip.trans (skipRound_none (hout.trans_lt s.cur.srcLen.isLt) hout.ge))
  · subst hq
    obtain ⟨n, hskip⟩ := framerSkip_blocks (s := s.begun) hend (blocksFrom_begun hblocks) (.inr hin.le)
    exact execSbSkip_truncated hs (hskip.trans (skipRound_too_long hin hlong))

/-! ### Behind a cursor the host moved -/

section
variable {s : State}

/-- The reader after such a byte. -/
def pastByte (s : State) : State :=
  ((srcMoved 1 s).setFree { s.free with tick := s.free.tick + 1 }).setSb { s.sb with rrem := s.sb.rrem - 1 }

theorem sameBut_pastByte (s : State) : SameBut [.sb, .cur, .free] s (pastByte s) := by
  intro g hg
  cases g <;> simp_all [SameGroup, pastByte, srcByte, snkByte]

/-- Log 6: a byte is due in the block and none is left in `SRC`; the byte is a free value. -/
theorem framerGet_past (hend : s.sb.rend = false) (hrem : s.sb.rrem ≠ 0) (hnone : srcAvail s = 0)
    (hpos : s.cur.srcPos.toNat + 1 < 2 ^ 32) :
    framerGet s = .ok (some (Config.freeByte s.free.tick)) (pastByte s) := by
  have hread : srcRead8 s = .ok (Config.freeByte s.free.tick)
      ((srcMoved 1 s).setFree { s.free with tick := s.free.tick + 1 }) := by
    rw [srcRead8, if_neg (by omega), srcAdvance]
    exact congrArg (Run.ok _) (if_pos hpos)
  rw [framerGet, if_neg (by simp [hend]), if_neg hrem, framerTake, hread, Run.bind_ok]
  rfl

end

/-- Settles O42: a free byte, and a skip that finds no length byte. -/
theorem readerPastInput : Obligations.ReaderPastInput := by
  unfold Obligations.ReaderPastInput
  intro s hs hend hrem
  refine ⟨fun hnone hpos => ?_, fun hout hp => ?_⟩
  · have hbody := sbGetBody_byte (framerGet_past (s := s.begun) hend hrem hnone hpos)
    refine ⟨_, runCommand_completes hs hbody rfl, rfl, .of_body (x := beginFlags s.status) (by simp) ?_, rfl,
      srcMoved_cur 1 s.begun, rfl, rfl⟩
    exact ((sameBut_pastByte _).mono (by simp)).trans ((sameBut_setRes _ _).mono (by simp))
  · obtain ⟨n, hskip⟩ := framerSkip_blocks (s := s.begun) (ns := []) hend trivial (.inl ⟨rfl, hp⟩)
    obtain ⟨t, hexec, hfault, hsame, hcur, hsb⟩ := execSbSkip_truncated hs (hskip.trans (skipRound_none hp hout))
    exact ⟨t, hexec, hfault, hsame, hcur.trans (by simp [srcAt, cursorsAfter, blocksPast, State.begun]), hsb⟩

end Sys2Proof.Machine
end

section
/-! Reading a comment (spec/45_header_records.md R248): the data bytes of any chain, byte by byte to `SNK`, up to the end of the chain or
of the room. -/

namespace Sys2Proof.Machine

open Sys2Proof.Claims

section
variable {s t : State} {x : ChainRead} {n count : Nat}

/-- From `s` to `t` a chain was read as `x` says, and the bytes of it that fit were appended. -/
structure CopiedChain (s t : State) (x : ChainRead) : Prop where
  produces : Produces s t (x.bytes.take (roomLeft s))
  srcPos : t.cur.srcPos = BitVec.ofNat 32 x.pos
  sb : t.sb = (atChain s x).sb
  same : SameBut [.cur, .sb, .snk] s t

/-- How the loop ends (R248): at the end of the chain, at the first byte with no room, or where a length byte is wanting. -/
def copyEnd (x : ChainRead) (count : Nat) (t : State) : Run Nat :=
  match x.stop with
  | .ended => .ok (count + x.bytes.length) t
  | .got => .raise .insufficientSpace t
  | _ => .raise .truncatedStream t

/-- Cursors after bytes were appended and the read cursor was put at an address. -/
theorem Produces.cur_srcAt {p : Nat} {bs : List Byte} (h : Produces s t bs) (hpos : t.cur.srcPos = BitVec.ofNat 32 p) :
    t.cur = srcAt p (cursorsAfter 0 bs.length s.cur) := by
  rw [Outputs.cur h]
  simp [State.readTo, cursorsAfter, srcAt, hpos, -BitVec.toNat_ofNat]

theorem copiedChain_atChain (hnone : x.bytes.take (roomLeft s) = []) : CopiedChain s (atChain s x) x :=
  ⟨hnone ▸ .of_sameBut (by simp) (sameBut_atChain s x) rfl, rfl, rfl, (sameBut_atChain s x).mono (by simp)⟩

/-- A byte of the chain with room for it is appended, and the copy goes on behind it. -/
theorem CopiedChain.cons {b : Byte} {p r : Nat} {y : ChainRead} {v : State}
    (hv : Outputs (atChain s ⟨[b], p, r, .got⟩) v [b]) (hsame : SameBut [.cur, .snk] (atChain s ⟨[b], p, r, .got⟩) v)
    (h : CopiedChain v t y) (hroom : roomLeft s = roomLeft v + 1) : CopiedChain s t { y with bytes := b :: y.bytes } := by
  obtain ⟨hproduces, hpos, hsb, hrest⟩ := h
  have hread : Produces s (atChain s ⟨[b], p, r, .got⟩) [] := .of_sameBut (by simp) (sameBut_atChain s _) rfl
  have hvsb : v.sb = (atChain s ⟨[b], p, r, .got⟩).sb := hsame .sb (by simp)
  refine ⟨?_, hpos, ?_, ((sameBut_atChain s _).mono (by simp)).trans ((hsame.mono (by simp)).trans hrest)⟩
  · rw [hroom, List.take_succ_cons]
    exact hread.trans (hv.produces.trans hproduces)
  · rw [hsb]
    simp [atChain, hvsb]

/-- A read from within the input never misses a byte of a block. -/
theorem chainRead_not_past (s : State) (k : Nat) {p r : Nat} (h : r ≤ s.cur.srcLen.toNat - p) :
    (chainRead s k p r).stop ≠ .past := by
  fun_induction chainRead s k p r with
  | case1 => simp
  | case2 k p r hout => omega
  | case3 k p r hin x ih => exact ih (by omega)
  | case4 => simp
  | case5 => simp
  | case6 => simp
  | case7 k p hin hz hfit x ih => exact ih (by omega)

theorem commentGetLoop_of_succ {r : Run Nat} (h : ∀ n, srcAvail s ≤ n → commentGetLoop (n + 1) count s = r) :
    ∀ n, srcAvail s < n → commentGetLoop n count s = r := fun n hn => by
  obtain ⟨n, rfl⟩ := Nat.exists_eq_add_one_of_ne_zero (Nat.ne_zero_of_lt hn)
  exact h n (Nat.le_of_lt_succ hn)

/-- R248: the loop copies the chain at the cursor, whatever bound above the bytes left it has. -/
theorem commentGetLoop_chain (hend : s.sb.rend = false)
    (hx : x = chainRead s (roomLeft s + 1) s.cur.srcPos.toNat s.sb.rrem.toNat) (hpast : x.stop ≠ .past) :
    ∃ t, (∀ n, srcAvail s < n → commentGetLoop n count s = copyEnd x count t) ∧ CopiedChain s t x := by
  induction havail : srcAvail s using Nat.strong_induction_on generalizing s x count with
  | h m ih =>
  subst hx
  subst havail
  cases chainStep hend with
  | got b p r hmoved hp hr hget hread =>
    have hp32 : p < 2 ^ 32 := hp.trans_lt s.cur.srcLen.isLt
    rw [hread] at hpast ⊢
    cases hroom : roomLeft s with
    | zero =>
      have hfull : (atChain s ⟨[b], p, r, .got⟩).cur.snkCap.toNat ≤ (atChain s ⟨[b], p, r, .got⟩).cur.snkPos.toNat :=
        Nat.sub_eq_zero_iff_le.1 hroom
      rw [chainRead_none]
      refine ⟨atChain s ⟨[b], p, r, .got⟩, commentGetLoop_of_succ fun n _ => ?_, copiedChain_atChain (by rw [hroom]; rfl)⟩
      rw [commentGetLoop, hget, Run.bind_ok]
      exact congrArg (Run.bind · _) (snkWrite8_full hfull)
    | succ k =>
      obtain ⟨v, hwrite, hsame, hout⟩ := snkWrite8_outputs (s := atChain s ⟨[b], p, r, .got⟩) (b := b)
        ((room_iff_le_roomLeft _ _).2 (by show 1 ≤ roomLeft s; omega))
      have hleft : roomLeft v = k := (roomLeft_outputs hout).trans (by show roomLeft s - 1 = k; omega)
      have hvsb : v.sb = (atChain s ⟨[b], p, r, .got⟩).sb := hsame .sb (by simp)
      have hvpos : v.cur.srcPos.toNat = p := by
        rw [hout.srcPos]
        exact Nat.mod_eq_of_lt hp32
      have hvread : chainRead v (roomLeft v + 1) v.cur.srcPos.toNat v.sb.rrem.toNat = chainRead s (k + 1) p r := by
        rw [hleft, hvpos, hvsb, show (atChain s ⟨[b], p, r, .got⟩).sb.rrem.toNat = r from Nat.mod_eq_of_lt hr]
        exact chainRead_congr (s := s) (t := v) (hsame .src (by simp)) (by rw [hout.cur]; rfl) _ _ _
      have hvavail : srcAvail v < srcAvail s := by
        have hlen : v.cur.srcLen = s.cur.srcLen := by rw [hout.cur]; rfl
        rw [srcAvail_eq_sub, srcAvail_eq_sub, hvpos, hlen]
        omega
      rw [hroom] at hpast
      obtain ⟨t, hloop, hcopied⟩ := ih _ hvavail (count := count + 1) (by rw [hvsb]; exact hend) hvread.symm hpast rfl
      refine ⟨t, commentGetLoop_of_succ fun n hn => ?_, hcopied.cons hout hsame (by rw [hleft, hroom])⟩
      rw [commentGetLoop, hget, Run.bind_ok]
      simp only [hwrite, Run.bind_ok, hloop n (by omega)]
      unfold copyEnd
      cases (chainRead s (k + 1) p r).stop <;> simp [Nat.add_assoc, Nat.add_comm 1]
  | ended x hx hnil hget hread =>
    rw [hread]
    refine ⟨atChain s x, commentGetLoop_of_succ fun n _ => ?_, copiedChain_atChain (by rw [hnil, List.take_nil])⟩
    rw [commentGetLoop, hget, copyEnd, hx, hnil]
    rfl
  | truncated x hx hnil hget hread =>
    rw [hread]
    refine ⟨atChain s x, commentGetLoop_of_succ fun n _ => ?_, copiedChain_atChain (by rw [hnil, List.take_nil])⟩
    rw [commentGetLoop, hget, copyEnd, hx]
    rfl
  | past x hx hnil hread =>
    rw [hread] at hpast
    exact absurd hx hpast

end

section
variable {s : State} {x : ChainRead}

/-- R248: the command's body copies the chain at the cursor, as far as there is room. -/
theorem hdrRdCommentBody_copies (hx : x = chainRead s (roomLeft s + 1) s.cur.srcPos.toNat 0) (hpast : x.stop ≠ .past) :
    ∃ t, hdrRdCommentBody s = (copyEnd x 0 t).bind finish1 ∧ SameBut [.cur, .sb, .snk] s t ∧
      SnkAppends s t (x.bytes.take (roomLeft s)) ∧
      t.cur = srcAt x.pos (cursorsAfter 0 (x.bytes.take (roomLeft s)).length s.cur) ∧
      t.sb = { s.sb with rrem := BitVec.ofNat 8 x.rem, rend := if x.stop = .ended then true else false } := by
  have hopen : x = chainRead (framerROpen s) (roomLeft s + 1) s.cur.srcPos.toNat 0 :=
    hx.trans (chainRead_congr (s := s) (t := framerROpen s) (fun _ => rfl) rfl _ _ _).symm
  obtain ⟨t, hloop, hproduces, hpos, hsb, hsame⟩ :=
    commentGetLoop_chain (s := framerROpen s) (count := 0) rfl hopen hpast
  refine ⟨t, congrArg (Run.bind · finish1) (hloop _ (Nat.lt_succ_self _)), ((sameBut_setSb s _).mono (by simp)).trans (hsame.mono (by simp)),
    hproduces.appends, ?_, hsb⟩
  exact hproduces.cur_srcAt hpos

theorem blocksData_length (s : State) (p : Nat) (ns : List Nat) : (blocksData s p ns).length = ns.sum := by
  induction ns generalizing p with
  | nil => rfl
  | cons n ns ih => rw [blocksData, List.length_append, srcBytes_length, ih, List.sum_cons]

/-- A read of more bytes than a chain of named blocks has meets its end. -/
theorem chainRead_blocks {k p : Nat} {ns : List Nat} (hblocks : blocksAt s p ns) (hfit : blocksEnd p ns ≤ s.cur.srcLen.toNat)
    (hk : ns.sum < k) : chainRead s k p 0 = ⟨blocksData s p ns, blocksEnd p ns, 0, .ended⟩ := by
  induction ns generalizing p k with
  | nil =>
    obtain ⟨k, rfl⟩ := Nat.exists_eq_add_one_of_ne_zero (Nat.ne_zero_of_lt hk)
    exact chainRead_end hfit hblocks
  | cons n ns ih =>
    obtain ⟨hlen, hne, hrest⟩ := hblocks
    obtain ⟨m, rfl⟩ := Nat.exists_eq_add_one_of_ne_zero hne
    have hend : blocksEnd p ((m + 1) :: ns) = blocksEnd (p + 1 + (m + 1)) ns := by
      simp only [blocksEnd, List.sum_cons, List.length_cons]
      omega
    rw [hend] at hfit ⊢
    rw [List.sum_cons] at hk
    have hinside : p + 1 + (m + 1) < s.cur.srcLen.toNat := by
      unfold blocksEnd at hfit
      omega
    obtain ⟨j, rfl⟩ := Nat.exists_eq_add_of_lt hk
    have hread := chainRead_within (s := s) (n := m) (p := p + 2) (Nat.le_refl m) (.inr (by omega))
    have hadd := chainRead_add (ns.sum + j + 1) (show (chainRead s m (p + 2) m).stop = .got by rw [hread])
    rw [hread, show p + 2 + m = p + 1 + (m + 1) by omega, Nat.sub_self, ih hrest hfit (by omega)] at hadd
    have hz : srcByte s p ≠ 0 := fun hz => hne (by rw [← hlen, hz]; rfl)
    rw [show m + 1 + ns.sum + j + 1 = m + (ns.sum + j + 1) + 1 by omega, chainRead_block hz (by omega), hlen,
      Nat.add_sub_cancel, hadd, blocksData, srcBytes_succ]
    rfl

/-- R248: a chain that ends within the room. -/
theorem hdrRdComment_ended (hs : Ready s) (hx : x = chainRead s (roomLeft s + 1) s.cur.srcPos.toNat 0)
    (hended : x.stop = .ended) :
    ∃ t, exec .hdrRdComment s = .next t ∧ Completed s t ∧ SameBut [.status, .res, .cur, .sb, .snk] s t ∧
      SnkAppends s t x.bytes ∧ t.cur = srcAt x.pos (cursorsAfter 0 x.bytes.length s.cur) ∧
      t.res = { s.res with res0 := BitVec.ofNat 32 x.bytes.length } ∧ t.sb = { s.sb with rrem := 0, rend := true } := by
  have hbegun : x = chainRead s.begun (roomLeft s + 1) s.cur.srcPos.toNat 0 :=
    hx.trans (chainRead_congr (s := s) (t := s.begun) (fun _ => rfl) rfl _ _ _).symm
  obtain ⟨t, hbody, hsame, happends, hcur, hsb⟩ := hdrRdCommentBody_copies (s := s.begun) hbegun (by rw [hended]; decide)
  have hall : x.bytes.take (roomLeft s) = x.bytes := by
    obtain ⟨hle, hgot⟩ := chainRead_length s (roomLeft s + 1) s.cur.srcPos.toNat 0
    rw [← hx] at hle hgot
    have hne : x.bytes.length ≠ roomLeft s + 1 := fun heq => by rw [hgot.2 heq] at hended; cases hended
    exact List.take_of_length_le (by omega)
  have hrem : x.rem = 0 := by
    have h := chainRead_rem s (roomLeft s + 1) s.cur.srcPos.toNat 0
    rw [← hx, hended] at h
    exact (h (by decide)).resolve_right (by decide)
  have hres : t.res = s.res := hsame .res (by simp)
  rw [show roomLeft s.begun = roomLeft s from rfl, hall] at happends hcur
  rw [copyEnd, hended, Run.bind_ok, Nat.zero_add] at hbody
  refine ⟨_, runCommand_completes (body := hdrRdCommentBody) hs hbody (hsame .status (by simp)), rfl,
    .of_body (by simp) ((hsame.mono (by simp)).trans ((sameBut_setRes _ _).mono (by simp))), happends, hcur,
    congrArg (fun r : ResRegs => { r with res0 := BitVec.ofNat 32 x.bytes.length }) hres, hsb.trans ?_⟩
  rw [hended, hrem]
  rfl

end

/-- Settles O50: a chain of named blocks is read to its end, and the read of any chain says how the copy ends. -/
theorem hdrRdCommentReads : Obligations.HdrRdCommentReads := by
  unfold Obligations.HdrRdCommentReads
  refine ⟨fun s ns hs hblocks hfit hroom => ?_, fun s x hs hx => ⟨hdrRdComment_ended hs hx, fun k bs hstop => ?_⟩⟩
  · have hread := chainRead_blocks hblocks hfit (Nat.lt_succ_of_le ((room_iff_le_roomLeft s _).1 hroom))
    obtain ⟨t, hexec, hdone, hsame, happends, hcur, hres, hsb⟩ := hdrRdComment_ended hs hread.symm rfl
    rw [blocksData_length] at hcur hres
    refine ⟨t, hexec, hdone, hsame, happends, hcur.trans ?_, hres, hsb⟩
    simp [srcAt, cursorsAfter, blocksEnd, Nat.add_assoc]
  · have hbegun : x = chainRead s.begun (roomLeft s + 1) s.cur.srcPos.toNat 0 :=
      hx.trans (chainRead_congr (s := s) (t := s.begun) (fun _ => rfl) rfl _ _ _).symm
    obtain ⟨t, hbody, hsame, happends, hcur, hsb⟩ := hdrRdCommentBody_copies (s := s.begun) hbegun
      (by obtain ⟨h, -⟩ | ⟨h, -⟩ := hstop <;> rw [h] <;> decide)
    have hraise : hdrRdCommentBody s.begun = .raise k t ∧ bs = x.bytes.take (roomLeft s) ∧ x.stop ≠ .ended := by
      obtain ⟨h, rfl, rfl⟩ | ⟨h, rfl, rfl⟩ := hstop
      · have hlen := chainRead_length s (roomLeft s + 1) s.cur.srcPos.toNat 0
        rw [← hx, h] at hlen
        have hne : x.bytes.length ≠ roomLeft s + 1 := fun heq => by simp [heq] at hlen
        exact ⟨hbody.trans (by rw [copyEnd, h]; rfl), (List.take_of_length_le (by omega)).symm, by rw [h]; decide⟩
      · exact ⟨hbody.trans (by rw [copyEnd, h]; rfl), rfl, by rw [h]; decide⟩
    obtain ⟨hraise, rfl, hnot⟩ := hraise
    rw [if_neg hnot] at hsb
    exact ⟨_, runCommand_faults hs hraise (hsame .status (by simp)), rfl, .of_body (by simp) (hsame.mono (by simp)),
      happends, hcur, hsb⟩

/-! ### The bounds of the loops -/

section
variable {s t : State} {m n w c : Nat} {bs : List Byte}

/-- R230: every round of the skip takes a length byte. -/
theorem framerSkipLoop_bound (hm : srcAvail s ≤ m) (hn : srcAvail s ≤ n) :
    (framerLength s).bind (fun _ t => framerSkipLoop m t) = (framerLength s).bind fun _ t => framerSkipLoop n t := by
  induction m generalizing n s with
  | zero =>
    have hnone : framerLength s = .raise .truncatedStream s := if_pos (by omega)
    rw [hnone]
    rfl
  | succ m ih =>
    obtain ⟨-, hraise⟩ | ⟨-, -, hok⟩ | ⟨-, -, hraise⟩ | ⟨-, hfit, hok⟩ := framerLength_cases s
    · rw [hraise]
      rfl
    · rw [hok, Run.bind_ok, Run.bind_ok, framerSkipLoop_end rfl, framerSkipLoop_end rfl]
    · rw [hraise]
      rfl
    · obtain ⟨n, rfl⟩ := Nat.exists_eq_add_one_of_ne_zero (show n ≠ 0 by omega)
      rw [hok, Run.bind_ok, Run.bind_ok]
      have hlen := s.cur.srcLen.isLt
      have havail := srcAvail_eq_sub s
      have hpos : (srcMoved 1 s).cur.srcPos.toNat = s.cur.srcPos.toNat + 1 := srcMoved_srcPos (by omega)
      have hsum : ∀ u, u = (srcMoved 1 s).setSb { s.sb with rrem := srcByte s s.cur.srcPos.toNat } →
          u.cur.srcLen = s.cur.srcLen ∧ s.cur.srcPos.toNat + 1 ≤ u.cur.srcPos.toNat + u.sb.rrem.toNat ∧
            u.cur.srcPos.toNat + u.sb.rrem.toNat ≤ s.cur.srcLen.toNat := by
        rintro u rfl
        simp only [State.setSb_fields, hpos]
        exact ⟨rfl, by omega, by omega⟩
      obtain ⟨hlen', hlow, hhigh⟩ := hsum _ rfl
      generalize (srcMoved 1 s).setSb { s.sb with rrem := srcByte s s.cur.srcPos.toNat } = u at *
      cases hend : u.sb.rend with
      | true => rw [framerSkipLoop_end hend, framerSkipLoop_end hend]
      | false =>
        have hrest : srcAvail (skippedTo (u.cur.srcPos.toNat + u.sb.rrem.toNat) u) ≤ srcAvail s - 1 := by
          rw [srcAvail_skippedTo (by omega), hlen']
          omega
        rw [framerSkipLoop_succ hend (by omega), framerSkipLoop_succ hend (by omega)]
        exact ih (by omega) (by omega)

/-- R227: a byte got from a block that lies in the input is a byte of the input. -/
theorem srcAvail_of_framerGet {b : Byte} (hguard : s.sb.rrem.toNat ≤ srcAvail s) (h : framerGet s = .ok (some b) t) :
    srcAvail t < srcAvail s := by
  cases hend : s.sb.rend with
  | true =>
    rw [framerGet_end hend] at h
    cases h
  | false =>
    cases chainStep hend with
    | got b p r hmoved hp _ hget _ =>
      obtain ⟨-, rfl⟩ := Run.ok.inj (hget.symm.trans h)
      have hpos : (atChain s ⟨[b], p, r, .got⟩).cur.srcPos.toNat = p := Nat.mod_eq_of_lt (hp.trans_lt s.cur.srcLen.isLt)
      rw [srcAvail_eq_sub, srcAvail_eq_sub, hpos, show (atChain s ⟨[b], p, r, .got⟩).cur.srcLen = s.cur.srcLen from rfl]
      omega
    | ended _ _ _ hget _ => cases hget.symm.trans h
    | truncated _ _ _ hget _ => cases hget.symm.trans h
    | past x hx _ hread =>
      rw [srcAvail_eq_sub] at hguard
      exact absurd (hread 0 ▸ hx) (chainRead_not_past s 1 hguard)

/-- R208: so are several bytes. -/
theorem Gets.srcAvail_framed (h : Gets .framed n s bs (.ok () t)) (hguard : Guarded [.read, .framer] s) :
    srcAvail t + n ≤ srcAvail s := by
  generalize hr : Run.ok () t = r at h
  induction h with
  | done => cases hr; exact Nat.le_refl _
  | short => cases hr
  | @got s u b n bs r hget _ ih =>
    have hmoved := framerGet_updates (es := [.read, .framer]) (by decide) (by decide) hguard
    replace hget : (framerGet s).bind _ = .ok b u := hget
    obtain ⟨o, v, hsome, hv⟩ := Run.bind_eq_ok.1 hget
    cases o with
    | none => cases hv
    | some c =>
      obtain ⟨rfl, rfl⟩ := Run.ok.inj hv
      have hone := srcAvail_of_framerGet (hguard.resolve_left (by decide)) hsome
      rw [hsome] at hmoved
      have := ih hmoved.2 hr
      omega

/-- The bits of the reading side: those at hand and those of the input left. -/
def bitsLeft (s : State) : Nat := 8 * srcAvail s + s.bp.rcnt.toNat

/-- What the loop of the decompressor keeps: the accumulator in bounds, a width of the table that codes can have, and the block being
read within the input. -/
structure ReadsCodes (s : State) : Prop where
  reader : ReaderInv s.bp
  table : TableSet s.st
  guarded : Guarded [.read, .framer, .packer] s

/-- R188, R205: a code takes as many of the bits left as it is wide. -/
theorem ReadsCodes.unpackBits (hs : ReadsCodes s) (h : unpackBits s.st.codeBits.toNat .framed s = .ok c t) :
    ReadsCodes t ∧ bitsLeft t < bitsLeft s := by
  obtain ⟨hreader, htable, hguard⟩ := hs
  obtain ⟨⟨h3, hle, hw⟩, -⟩ := id htable
  obtain ⟨hupdates, hguard'⟩ := unpackBits_updates (es := [.read, .framer, .packer]) (by decide) (by decide) (by decide)
    s.st.codeBits.toNat (mode := .framed) (.inr hguard)
  obtain ⟨bs, r, hgets⟩ := gets_total .framed (fetches s s.st.codeBits.toNat) s
  cases r with
  | raise k u => cases (unpackBits_raise hreader hw hgets).symm.trans h
  | ok _ u =>
    rw [h] at hupdates hguard'
    obtain ⟨-, rfl⟩ := Run.ok.inj ((unpackBits_ok hreader hw hgets).symm.trans h)
    have hst : u.st = s.st := hupdates.sameBut .st (by decide)
    have hlen := hgets.length_eq
    have havail := hgets.srcAvail_framed (hguard.imp (fun h => absurd h (by decide)) id)
    have hlt := fetched_lt hreader.2 bs
    have hcnt := hreader.1
    have hbounds : s.st.codeBits.toNat ≤ s.bp.rcnt.toNat + 8 * bs.length ∧
        s.bp.rcnt.toNat + 8 * bs.length ≤ s.st.codeBits.toNat + 11 := by
      rw [hlen]
      unfold fetches
      omega
    refine ⟨⟨readerInv_afterGet hlt hbounds.1 hbounds.2, ?_, hguard'.resolve_left (by decide)⟩, ?_⟩
    · exact (congrArg TableSet hst).mpr htable
    · have hleft : (afterGet s.bp (fetched s bs) (s.bp.rcnt.toNat + 8 * bs.length) s.st.codeBits.toNat).rcnt.toNat =
          s.bp.rcnt.toNat + 8 * bs.length - s.st.codeBits.toNat := Nat.mod_eq_of_lt (by omega)
      show 8 * srcAvail u + (afterGet s.bp _ _ _).rcnt.toNat < 8 * srcAvail s + s.bp.rcnt.toNat
      omega

/-- Taking in a code reads nothing. -/
theorem ReadsCodes.decompressCode (hs : ReadsCodes s) (c : Nat) :
    ReadsCodes (decompressCode c s).state ∧ bitsLeft (decompressCode c s).state = bitsLeft s := by
  have hupdates := decompressCode_updates c s
  have hbp := hupdates.bp (by decide)
  refine ⟨⟨?_, ?_, hs.guarded.of_updates hupdates (by decide) (by decide)⟩, ?_⟩
  · rw [hbp]
    exact hs.reader
  · refine hupdates.invariant (P := fun s => TableSet s.st) (fun s t hu hs => ?_) hs.table
    cases hu with
    | table _ hx => exact hx.tableSet hs
    | _ => exact hs
  · rw [bitsLeft, bitsLeft, hbp, hupdates.srcAvail_eq (by decide)]

/-- R188: a round takes a bit at least. -/
theorem ReadsCodes.decompressLoop_bound (hs : ReadsCodes s) (hm : bitsLeft s < m) (hn : bitsLeft s < n) :
    decompressLoop m s = decompressLoop n s := by
  induction m generalizing n s with
  | zero => omega
  | succ m ih =>
    obtain ⟨n, rfl⟩ := Nat.exists_eq_add_one_of_ne_zero (Nat.ne_zero_of_lt hn)
    rw [decompressLoop_succ, decompressLoop_succ]
    cases hget : Machine.unpackBits s.st.codeBits.toNat .framed s with
    | raise k t => rfl
    | ok c t =>
      obtain ⟨ht, hlt⟩ := hs.unpackBits hget
      obtain ⟨hu, heq⟩ := ht.decompressCode c
      rw [Run.bind_ok, Run.bind_ok]
      cases hcode : Machine.decompressCode c t with
      | raise k u => rfl
      | ok _ u =>
        rw [hcode, Run.state_ok] at hu heq
        rw [Run.bind_ok, Run.bind_ok, ih hu (n := n) (by omega) (by omega)]

/-- How step 1 (R181) ends: no code-size byte, a legal one, one too small, one too large (R183). -/
theorem decompressOpen_cases (s : State) :
    (srcAvail s = 0 ∧ decompressOpen s = .raise .truncatedStream s) ∨
      (1 ≤ srcAvail s ∧ LegalRootBits ((srcByte s s.cur.srcPos.toNat).toNat + 1) ∧
        decompressOpen s = .ok () (decompressOpened ((srcByte s s.cur.srcPos.toNat).toNat + 1) s)) ∨
      (1 ≤ srcAvail s ∧ (srcByte s s.cur.srcPos.toNat).toNat < 2 ∧
        decompressOpen s = .raise .invalidFormat (srcMoved 1 s)) ∨
      (1 ≤ srcAvail s ∧ 11 < (srcByte s s.cur.srcPos.toNat).toNat ∧
        decompressOpen s = .raise .tableTooLarge (srcMoved 1 s)) := by
  obtain hnone | hsome := Nat.eq_zero_or_pos (srcAvail s)
  · exact .inl ⟨hnone, if_pos hnone⟩
  · obtain ⟨h3, h12, -⟩ | ⟨hsmall, hraise⟩ | ⟨hlarge, hraise⟩ :=
      tableReset_cases ((srcByte s s.cur.srcPos.toNat).toNat + 1) (srcMoved 1 s)
    · exact .inr (.inl ⟨hsome, ⟨h3, h12⟩, decompressOpen_eq ⟨h3, h12⟩ hsome rfl⟩)
    · refine .inr (.inr (.inl ⟨hsome, by omega, ?_⟩))
      rw [decompressOpen, if_neg (by omega), srcRead8_eq hsome, Run.bind_ok, hraise, Run.bind_raise]
    · refine .inr (.inr (.inr ⟨hsome, by omega, ?_⟩))
      rw [decompressOpen, if_neg (by omega), srcRead8_eq hsome, Run.bind_ok, hraise, Run.bind_raise]

theorem readsCodes_opened {rb : Nat} (hrb : LegalRootBits rb) (s : State) : ReadsCodes (decompressOpened rb s) :=
  ⟨⟨Nat.zero_le _, Nat.one_pos⟩, tableSet_resetTable hrb, .inr (Nat.zero_le _)⟩

end

/-- Settles O57: every round of a loop takes a length byte, a data byte or a bit. -/
theorem loopBoundsSuffice : Obligations.LoopBoundsSuffice := by
  unfold Obligations.LoopBoundsSuffice
  refine fun s k => ⟨?_, ?_, fun t ht => ?_⟩
  · cases hend : s.sb.rend with
    | true => rw [framerSkip, framerSkipLoop_end hend, framerSkipLoop_end hend]
    | false =>
      rw [framerSkip, Nat.add_right_comm, framerSkipLoop, framerSkipLoop, if_neg (by simp [hend]), if_neg (by simp [hend])]
      exact framerSkipLoop_bound (Nat.le_add_right _ _) (Nat.le_refl _)
  · obtain ⟨t, hloop, -⟩ := commentGetLoop_chain (s := framerROpen s) (count := 0) rfl rfl
      (chainRead_not_past _ _ (Nat.zero_le _))
    exact (hloop _ (show srcAvail s < _ by omega)).trans (hloop _ (Nat.lt_succ_self _)).symm
  · obtain ⟨-, hraise⟩ | ⟨-, hrb, hok⟩ | ⟨-, -, hraise⟩ | ⟨-, -, hraise⟩ := decompressOpen_cases s
    case inr.inl =>
      obtain ⟨-, rfl⟩ := Run.ok.inj (hok.symm.trans ht)
      exact (readsCodes_opened hrb s).decompressLoop_bound (Nat.lt_add_right _ (Nat.lt_succ_self _)) (Nat.lt_succ_self _)
    all_goals cases hraise.symm.trans ht

end Sys2Proof.Machine
end

section
/-! The strings of a table (spec/40_string_table.md R134, R136, R141) against the list of strings Claims.lean keeps in its place, and
the width of the next code in closed form (R95, R137). -/

namespace Sys2Proof.Machine

open Sys2Proof.Claims

/-! ### Widths -/

/-- The least width that holds the code `n`, at most 12 (R95, R137). -/
def widthOf (n : Nat) : Nat := min 12 (Nat.log2 n + 1)

theorem log2_two_pow_add {j k : Nat} (h : j < 2 ^ k) : Nat.log2 (2 ^ k + j) = k :=
  (Nat.log2_eq_iff (by omega)).2 ⟨by omega, by rw [Nat.pow_succ]; omega⟩

/-- The width grows where the next number is a power of two. -/
theorem widthOf_succ {n : Nat} (hn : n ≠ 0) :
    widthOf (n + 1) = widthOf n + if 2 ^ widthOf n ≤ n + 1 ∧ widthOf n < 12 then 1 else 0 := by
  obtain ⟨hlow, hhigh⟩ := (Nat.log2_eq_iff hn).1 rfl
  unfold widthOf
  generalize Nat.log2 n = k at *
  have hnext : Nat.log2 (n + 1) = if n + 1 = 2 ^ (k + 1) then k + 1 else k := by
    split
    · next heq => rw [heq, Nat.log2_two_pow]
    · exact (Nat.log2_eq_iff (Nat.succ_ne_zero n)).2 ⟨by omega, by omega⟩
  rw [hnext]
  obtain hshort | hlong := Nat.lt_or_ge (k + 1) 12
  · rw [min_eq_right hshort.le]
    by_cases heq : n + 1 = 2 ^ (k + 1)
    · rw [if_pos heq, if_pos ⟨by omega, hshort⟩]
      omega
    · rw [if_neg heq, if_neg (by omega)]
      omega
  · rw [min_eq_left hlong, if_neg (fun h : _ ∧ 12 < 12 => absurd h.2 (by omega))]
    split <;> omega

section
variable {t : StringTable} {base c rb : Nat} {b : Byte} {fw : Bool}

/-- R137: the reader's width after an add is that of the count. -/
theorem addEntry_widthOf_reader (hfree : t.nextFree.toNat < 4096) (hpos : t.nextFree.toNat ≠ 0)
    (hw : t.codeBits.toNat = widthOf t.nextFree.toNat) :
    (addEntry base b false t).codeBits.toNat = widthOf (t.nextFree.toNat + 1) := by
  have hpow := Nat.two_pow_pos t.codeBits.toNat
  rw [addEntry_codeBits hfree, widthOf_succ hpos, ← hw]
  refine congrArg _ (if_congr (and_congr_left' ?_) rfl rfl)
  simp only [Bool.false_eq_true, if_false]
  omega

/-- R137: the writer's is that of the last code. -/
theorem addEntry_widthOf_writer (hfree : t.nextFree.toNat < 4096) (hpos : 2 ≤ t.nextFree.toNat)
    (hw : t.codeBits.toNat = widthOf (t.nextFree.toNat - 1)) :
    (addEntry base b true t).codeBits.toNat = widthOf t.nextFree.toNat := by
  have hsucc := widthOf_succ (show t.nextFree.toNat - 1 ≠ 0 by omega)
  rw [Nat.sub_add_cancel (by omega), ← hw] at hsucc
  rw [addEntry_codeBits hfree, hsucc]
  refine congrArg _ (if_congr (and_congr_left' ?_) rfl rfl)
  simp only [if_true]
  omega

/-- R165: at the end of input the writer's width becomes the reader's. -/
theorem widen_widthOf (hpos : 2 ≤ t.nextFree.toNat) (hw : t.codeBits.toNat = widthOf (t.nextFree.toNat - 1)) :
    (widen false t).codeBits.toNat = widthOf t.nextFree.toNat := by
  have hpow := Nat.two_pow_pos t.codeBits.toNat
  have hsucc := widthOf_succ (show t.nextFree.toNat - 1 ≠ 0 by omega)
  rw [Nat.sub_add_cancel (by omega), ← hw] at hsucc
  rw [widen_codeBits, hsucc]
  refine congrArg _ (if_congr (and_congr_left' ?_) rfl rfl)
  simp only [Bool.false_eq_true, if_false]
  omega

/-- R135: right after a reset both are `rootBits`. -/
theorem widthOf_root (hrb : LegalRootBits rb) {j : Nat} (hj : j ≤ 2) : widthOf (2 ^ (rb - 1) + j) = rb := by
  obtain ⟨h3, h12⟩ := hrb
  have hlow : 2 ^ 2 ≤ 2 ^ (rb - 1) := Nat.pow_le_pow_right two_pos (by omega)
  rw [widthOf, log2_two_pow_add (by omega)]
  omega

/-! ### Strings of codes -/

/-- R136: an add leaves the strings of the codes there are. -/
theorem TableSet.stringOf_addEntry_old (ht : TableSet t) (hbase : validCode t base = true) (hfree : t.nextFree.toNat < 4096)
    (b : Byte) (fw : Bool) :
    ∀ c, validCode t c = true → stringOf (Machine.addEntry base b fw t).table c = stringOf t.table c := by
  have hnew := ht.addEntry_any hbase hfree b fw
  obtain ⟨-, -, -, hend, hentry⟩ := addEntry_fields (base := base) (b := b) (fw := fw) hfree
  have hsame : ∀ c, validCode t c = true → entryAt (Machine.addEntry base b fw t).table c = entryAt t.table c :=
    fun c hc => (hentry c).trans (if_neg (Nat.ne_of_lt (validCode_iff.1 hc).1))
  refine ht.induction (fun c hroot => ?_) (fun c hc hdyn ih => ?_)
  · have hprev := ht.prev_root hroot
    have heq := hsame c (ht.valid_root hroot)
    rw [stringOf_no_parent (heq ▸ hprev), stringOf_no_parent hprev, heq]
  · rw [hnew.stringOf_dynamic (validCode_addEntry hfree b fw hc) (by rwa [hend]), ht.stringOf_dynamic hc hdyn, hsame c hc, ih]

/-- R136, R134: the new code's string is its base's and the byte. -/
theorem TableSet.stringOf_addEntry_new (ht : TableSet t) (hbase : validCode t base = true) (hfree : t.nextFree.toNat < 4096)
    (b : Byte) (fw : Bool) :
    stringOf (Machine.addEntry base b fw t).table t.nextFree.toNat = stringOf t.table base ++ [b] := by
  have hnew := ht.addEntry_any hbase hfree b fw
  have hold := ht.stringOf_addEntry_old hbase hfree b fw base hbase
  have hbasefree := ht.lt_of_valid hbase
  obtain ⟨-, hcontrol, ⟨hlow, -⟩, -⟩ := ht
  obtain ⟨hcount, -, hreset, hend, hentry⟩ := addEntry_fields (base := base) (b := b) (fw := fw) hfree
  have hvalid : validCode (Machine.addEntry base b fw t) t.nextFree.toNat = true := by
    rw [validCode_iff, hcount, hreset, hend]
    omega
  rw [hnew.stringOf_dynamic hvalid (by rw [hend]; omega), hentry, if_pos rfl,
    show (BitVec.ofNat 16 base).toNat = base from Nat.mod_eq_of_lt (by omega), hold]

end

end Sys2Proof.Machine
end

section
/-! The strings a table holds (spec/40_string_table.md R135, R136, R141), as Claims.lean lists them. -/

namespace Sys2Proof.Claims

open Sys2Proof.Machine

section
variable {t : StringTable} {d : Strings} {w base c rb : Nat} {x : List Byte} {b : Byte} {fw : Bool}

theorem StringsHeld.count (h : StringsHeld t d w) : t.nextFree.toNat = d.count := h.2.2.1

theorem StringsHeld.resetCode (h : StringsHeld t d w) : t.resetCode.toNat = d.resetCode := h.2.2.2.1

theorem StringsHeld.endCode (h : StringsHeld t d w) : t.endCode.toNat = d.endCode := h.2.2.2.2.1

theorem StringsHeld.width (h : StringsHeld t d w) : t.codeBits.toNat = w := h.2.1

theorem StringsHeld.rootBits (h : StringsHeld t d w) : t.rootBits.toNat = d.rootBits := h.1

/-- A table at another width holds the same strings. -/
theorem StringsHeld.widen (h : StringsHeld t d w) (fw : Bool) :
    StringsHeld (Machine.widen fw t) d (Machine.widen fw t).codeBits.toNat := by
  obtain ⟨htable, hroot, hfree, hreset, hend⟩ := widen_fields fw t
  refine ⟨?_, rfl, ?_, ?_, ?_, fun c => ?_⟩
  · rw [hroot]
    exact h.rootBits
  · rw [hfree]
    exact h.count
  · rw [hreset]
    exact h.resetCode
  · rw [hend]
    exact h.endCode
  · rw [validCode_widen, htable]
    exact h.2.2.2.2.2 c

theorem StringsHeld.string_valid (h : StringsHeld t d w) (hc : validCode t c = true) : d.string c = some (stringOf t.table c) := by
  rw [h.2.2.2.2.2 c, if_pos hc]

theorem StringsHeld.string_invalid (h : StringsHeld t d w) (hc : validCode t c = false) : d.string c = none := by
  rw [h.2.2.2.2.2 c, if_neg (by simp [hc])]

theorem StringsHeld.of_string (h : StringsHeld t d w) (hc : d.string c = some x) :
    validCode t c = true ∧ stringOf t.table c = x := by
  cases hvalid : validCode t c with
  | true => exact ⟨rfl, Option.some.inj ((h.string_valid hvalid).symm.trans hc)⟩
  | false => cases (h.string_invalid hvalid).symm.trans hc

/-- R135: a table just reset holds the root codes only. -/
theorem stringsHeld_resetTable (hrb : LegalRootBits rb) : StringsHeld (resetTable rb) ⟨rb, []⟩ rb := by
  obtain ⟨hroot, hwidth, hreset, hend, hfree⟩ := resetTable_regs hrb.1 hrb.2
  have hset := tableSet_resetTable hrb
  refine ⟨hroot, hwidth, hfree, hreset, hend, fun c => ?_⟩
  show (if c < 2 ^ (rb - 1) then some [BitVec.ofNat 8 c] else if c ≤ 2 ^ (rb - 1) + 1 then none else [][c - _]?) = _
  split
  · next hlt =>
    rw [← hreset] at hlt
    rw [if_pos (hset.valid_root hlt), hset.stringOf_root hlt]
  · have hinvalid : ¬ validCode (resetTable rb) c = true := fun hvalid => by
      have := validCode_iff.1 hvalid
      omega
    rw [if_neg hinvalid]
    split <;> rfl

/-- R136: an add puts the base's string and the byte behind the strings there are. -/
theorem StringsHeld.addEntry (h : StringsHeld t d w) (ht : TableSet t) (hbase : validCode t base = true)
    (hfree : t.nextFree.toNat < 4096) (b : Byte) (fw : Bool) :
    StringsHeld (addEntry base b fw t) ⟨d.rootBits, d.dict ++ [stringOf t.table base ++ [b]]⟩
      (addEntry base b fw t).codeBits.toNat := by
  obtain ⟨hcount, hroot, hreset, hend, -⟩ := addEntry_fields (base := base) (b := b) (fw := fw) hfree
  have hnext : t.nextFree.toNat = (Strings.mk d.rootBits d.dict).count := h.count
  refine ⟨?_, rfl, ?_, ?_, ?_, fun c => ?_⟩
  · rw [hroot]
    exact h.rootBits
  · rw [hcount, h.count]
    simp [Strings.count, Strings.resetCode, Nat.add_assoc]
  · rw [hreset]
    exact h.resetCode
  · rw [hend]
    exact h.endCode
  · obtain ⟨-, -, ⟨hlow, -⟩, -⟩ := id ht
    rw [string_append, ← hnext]
    by_cases hnew : c = t.nextFree.toNat
    · have hvalid : validCode (Machine.addEntry base b fw t) c = true := by
        obtain ⟨-, ⟨-, hends⟩, -⟩ := ht
        rw [validCode_iff, hcount, hreset, hend]
        omega
      rw [if_pos hnew, if_pos hvalid, hnew, ht.stringOf_addEntry_new hbase hfree]
    · rw [if_neg hnew]
      have hsame : validCode (Machine.addEntry base b fw t) c = validCode t c := by
        rw [Bool.eq_iff_iff, validCode_iff, validCode_iff, hcount, hreset, hend]
        omega
      rw [hsame]
      refine (h.2.2.2.2.2 c).trans ?_
      split
      · next hc => rw [ht.stringOf_addEntry_old hbase hfree b fw c hc]
      · rfl

theorem code_of_two_le (h : 2 ≤ x.length) : d.code x = (d.dict.idxOf? x).map (d.resetCode + 2 + ·) := by
  match x, h with
  | _ :: _ :: _, _ => rfl

theorem code_singleton {b : Byte} (h : b.toNat < d.resetCode) : d.code [b] = some b.toNat := if_pos h

/-- The string of a dynamic code. -/
theorem string_dynamic (d : Strings) (i : Nat) : d.string (d.resetCode + 2 + i) = d.dict[i]? := by
  rw [Strings.string, if_neg (by omega), if_neg (by unfold Strings.endCode; omega), Nat.add_sub_cancel_left]

/-- R141: `Find` of a string of two bytes or more is the first of the dynamic codes with it. -/
theorem StringsHeld.findCode (h : StringsHeld t d w) (ht : TableSet t) (hx : 2 ≤ x.length) : findCode t x = d.code x := by
  rw [code_of_two_le hx]
  cases hfound : Machine.findCode t x with
  | none =>
    have hnot : x ∉ d.dict := fun hmem => by
      obtain ⟨i, hi, hget⟩ := List.getElem_of_mem hmem
      obtain ⟨hvalid, hstring⟩ := h.of_string ((string_dynamic d i).trans ((List.getElem?_eq_getElem hi).trans (congrArg some hget)))
      exact findCode_eq_none hfound hvalid hstring
    rw [List.idxOf?_eq_none_iff.2 hnot, Option.map_none]
  | some c =>
    obtain ⟨hvalid, hstring⟩ := findCode_eq_some hfound
    have hdyn : t.endCode.toNat < c := by
      obtain hroot | hdyn := ht.root_or_dynamic hvalid
      · rw [ht.stringOf_root hroot] at hstring
        rw [← hstring] at hx
        exact absurd hx (by simp)
      · exact hdyn
    rw [h.endCode, Strings.endCode] at hdyn
    obtain ⟨i, rfl⟩ := Nat.exists_eq_add_of_le (show d.resetCode + 2 ≤ c by omega)
    have hget := (string_dynamic d i).symm.trans ((h.string_valid hvalid).trans (congrArg some hstring))
    obtain ⟨hi, hget⟩ := List.getElem?_eq_some_iff.1 hget
    have hfirst : d.dict.idxOf? x = some i := List.idxOf?_eq_some_iff.2 ⟨hi, hget, fun j hj heq => by
      obtain ⟨hvalid', hstring'⟩ := h.of_string ((string_dynamic d j).trans
        ((List.getElem?_eq_getElem (hj.trans hi)).trans (congrArg some heq)))
      exact findCode_smallest hfound (by omega) hvalid' hstring'⟩
    rw [hfirst, Option.map_some]

end

end Sys2Proof.Claims
end

section
/-! The decompressor against the reader of Claims.lean (spec/42_decompressor.md R181 to R184, R187): code by code, each got from the
bytes of the chain, and the drain. -/

namespace Sys2Proof.Machine

open Sys2Proof.Claims

/-! ### Where decoding stands on the machine -/

/-- From `s` to `t` decoding came to `d`, with `x` read of the chain. -/
structure DecodedAt (s t : State) (d : Decoding) (x : ChainRead) : Prop where
  produces : Produces s t d.out
  srcPos : t.cur.srcPos = BitVec.ofNat 32 x.pos
  sb : t.sb = { s.sb with rrem := BitVec.ofNat 8 x.rem, rend := x.stop = .ended }
  bp : t.bp = leftover s.bp x d.used
  table : TableHolds t.st d
  lz : t.lz = ⟨s.lz.cur, BitVec.ofNat 16 (d.prev.getD 0xFFFF), BitVec.ofNat 32 d.resets⟩
  same : SameBut [.cur, .st, .bp, .sb, .lz, .snk] s t

/-- Between two codes of the chain at `p`: the bytes its codes need are read, the table is set up, the last code is in it. -/
structure Decodes (s : State) (p : Nat) (t : State) (d : Decoding) : Prop where
  at_ : DecodedAt s t d (chainRead s ((d.used + 7) / 8) p 0)
  got : (chainRead s ((d.used + 7) / 8) p 0).stop = .got
  inside : p ≤ s.cur.srcLen.toNat
  set : TableSet t.st
  prev : ∀ c, d.prev = some c → validCode t.st c = true

section
variable {s t : State} {d : Decoding} {x : ChainRead} {p r k w : Nat} {bs : List Byte}

/-- Reading a chain stays within the input. -/
theorem chainRead_bounds (h : p + r ≤ s.cur.srcLen.toNat) (hr : r < 256) :
    (chainRead s k p r).pos + (chainRead s k p r).rem ≤ s.cur.srcLen.toNat ∧ (chainRead s k p r).rem < 256 := by
  fun_induction chainRead s k p r with
  | case1 => exact ⟨h, hr⟩
  | case2 => exact ⟨h, hr⟩
  | case3 k p r hin x ih => exact ih (by omega) (by omega)
  | case4 => exact ⟨h, hr⟩
  | case5 k p => exact ⟨by show p + 1 + 0 ≤ _; omega, hr⟩
  | case6 k p => exact ⟨by show p + 1 + 0 ≤ _; omega, hr⟩
  | case7 k p hin hz hfit x ih =>
    have hn := (srcByte s p).isLt
    have hpos : (srcByte s p).toNat ≠ 0 := fun h => hz (BitVec.eq_of_toNat_eq h)
    exact ih (by omega) (by omega)

/-- The bits at hand that the codes of the bytes `x` left, as numbers. -/
theorem leftover_nat {bp : Packer} {used : Nat} (hlow : used ≤ 8 * x.bytes.length) (hhigh : 8 * x.bytes.length < used + 8) :
    (leftover bp x used).rcnt.toNat = 8 * x.bytes.length - used ∧
      (leftover bp x used).racc.toNat = leValue x.bytes / 2 ^ used ∧
      leValue x.bytes / 2 ^ used < 2 ^ (8 * x.bytes.length - used) := by
  have hvalue : leValue x.bytes / 2 ^ used < 2 ^ (8 * x.bytes.length - used) :=
    Nat.div_lt_of_lt_mul (by rw [← Nat.pow_add, Nat.add_sub_cancel' hlow]; exact leValue_lt x.bytes)
  have hpow : 2 ^ (8 * x.bytes.length - used) ≤ 2 ^ 7 := Nat.pow_le_pow_right two_pos (by omega)
  exact ⟨Nat.mod_eq_of_lt (by omega), Nat.mod_eq_of_lt (by omega), hvalue⟩

/-- R205: bytes fetched behind them. -/
theorem fetched_leftover {bp : Packer} {used : Nat} (hbp : t.bp = leftover bp x used) (hlow : used ≤ 8 * x.bytes.length)
    (hhigh : 8 * x.bytes.length < used + 8) (bs : List Byte) :
    fetched t bs = leValue (x.bytes ++ bs) / 2 ^ used := by
  obtain ⟨hcnt, hacc, -⟩ := leftover_nat (bp := bp) hlow hhigh
  have hsplit : 256 ^ x.bytes.length = 2 ^ used * 2 ^ (8 * x.bytes.length - used) := by
    rw [← Nat.pow_add, Nat.add_sub_cancel' hlow, show 256 = 2 ^ 8 from rfl, Nat.pow_mul]
  rw [fetched, hbp, hcnt, hacc, leValue_append, hsplit, Nat.mul_assoc, Nat.add_mul_div_left _ _ (Nat.two_pow_pos _),
    Nat.mul_comm (leValue bs)]

/-- R205: what a code of width `w` leaves of them. -/
theorem afterGet_leftover {bp : Packer} {used : Nat} {y : ChainRead} (hbp : t.bp = leftover bp x used)
    (hlow : used ≤ 8 * x.bytes.length) (hhigh : 8 * x.bytes.length < used + 8) (hy : y.bytes = x.bytes ++ bs) :
    afterGet t.bp (fetched t bs) (t.bp.rcnt.toNat + 8 * bs.length) w = leftover bp y (used + w) := by
  obtain ⟨hcnt, -, -⟩ := leftover_nat (bp := bp) hlow hhigh
  have hbits : t.bp.rcnt.toNat + 8 * bs.length - w = 8 * y.bytes.length - (used + w) := by
    rw [hbp, hcnt, hy, List.length_append]
    omega
  rw [afterGet, hbits, fetched_leftover hbp hlow hhigh, Nat.div_div_eq_div_mul, ← Nat.pow_add, ← hy, hbp]
  rfl

/-- The reader moved along the chain, and the accumulator. -/
theorem DecodedAt.advance {y : ChainRead} {used : Nat} (h : DecodedAt s t d x) (hx : x.stop = .got) :
    DecodedAt s ((atChain t y).setBp (leftover s.bp { y with bytes := x.bytes ++ y.bytes } used)) { d with used := used }
      { y with bytes := x.bytes ++ y.bytes } := by
  obtain ⟨hproduces, -, hsb, -, htable, hlz, hsame⟩ := h
  have hmoved : SameBut [.cur, .bp, .sb] t
      ((atChain t y).setBp (leftover s.bp { y with bytes := x.bytes ++ y.bytes } used)) :=
    ((sameBut_atChain t y).mono (by simp)).trans ((sameBut_setBp _ _).mono (by simp))
  refine ⟨?_, rfl, ?_, rfl, htable, hlz, hsame.trans (hmoved.mono (by simp))⟩
  · have hnone : Produces t _ [] := .of_sameBut (by simp) hmoved rfl
    simpa using hproduces.trans hnone
  · show ({ t.sb with rrem := _, rend := _ } : Framer) = _
    rw [hsb, hx]
    by_cases hend : y.stop = .ended <;> simp [hend]

/-- R205: the next code is got from the chain as the reader has it, or the chain's end is met. -/
theorem Decodes.unpackBits (h : Decodes s p t d) (hx : x = chainRead s ((d.used + d.width + 7) / 8) p 0) :
    (x.stop = .got ∧ ∃ u, unpackBits t.st.codeBits.toNat .framed t =
        .ok (leValue x.bytes / 2 ^ d.used % 2 ^ d.width) u ∧ DecodedAt s u { d with used := d.used + d.width } x ∧
        u.st = t.st) ∨
      (x.stop ≠ .got ∧ x.stop ≠ .past ∧ ∃ u, unpackBits t.st.codeBits.toNat .framed t = .raise (chainFault x.stop) u ∧
        DecodedAt s u d x) := by
  obtain ⟨hat, hgot, hinside, hset, -⟩ := h
  generalize hx0 : chainRead s ((d.used + 7) / 8) p 0 = x0 at *
  have hlen : x0.bytes.length = (d.used + 7) / 8 := by
    rw [← hx0] at hgot ⊢
    exact (chainRead_length s _ p 0).2.1 hgot
  have hlow : d.used ≤ 8 * x0.bytes.length := by omega
  have hhigh : 8 * x0.bytes.length < d.used + 8 := by omega
  obtain ⟨hcnt, hacc, hlt⟩ := leftover_nat (bp := s.bp) hlow hhigh
  rw [← hat.bp] at hcnt hacc
  have hwidth : t.st.codeBits.toNat = d.width := hat.table.width
  obtain ⟨⟨-, -, hw⟩, -⟩ := id hset
  rw [hwidth] at hw ⊢
  have hreader : ReaderInv t.bp := ⟨by omega, by rw [hcnt, hacc]; exact hlt⟩
  have hneed : (d.used + d.width + 7) / 8 = (d.used + 7) / 8 + fetches t d.width := by
    rw [fetches, hcnt]
    omega
  obtain ⟨hpos, hrem⟩ := chainRead_bounds (s := s) (k := (d.used + 7) / 8) (p := p) (r := 0) hinside (by decide)
  rw [hx0] at hpos hrem
  have hsource := Outputs.cur hat.produces
  have hread : chainRead t (fetches t d.width) t.cur.srcPos.toNat t.sb.rrem.toNat =
      chainRead s (fetches t d.width) x0.pos x0.rem := by
    have hlenlt := s.cur.srcLen.isLt
    rw [hat.srcPos, hat.sb, show (BitVec.ofNat 32 x0.pos).toNat = x0.pos from Nat.mod_eq_of_lt (by omega),
      show (BitVec.ofNat 8 x0.rem).toNat = x0.rem from Nat.mod_eq_of_lt hrem]
    exact chainRead_congr (s := s) (t := t) (hat.same .src (by simp)) (by rw [hsource]; rfl) _ _ _
  have hadd := chainRead_add (fetches t d.width) (hx0 ▸ hgot)
  rw [hx0, ← hneed, ← hx] at hadd
  have hnotpast : x.stop ≠ .past := by rw [hx]; exact chainRead_not_past s _ (Nat.zero_le _)
  generalize hy : chainRead s (fetches t d.width) x0.pos x0.rem = y at *
  have hend : t.sb.rend = false := by
    rw [hat.sb, hgot]
    rfl
  have hgets := gets_chain (.inr hend) hread.symm (by rw [hadd] at hnotpast; exact hnotpast)
  have hafter : ∀ w, afterGet t.bp (fetched t y.bytes) (t.bp.rcnt.toNat + 8 * y.bytes.length) w =
      leftover s.bp { y with bytes := x0.bytes ++ y.bytes } (d.used + w) :=
    fun w => afterGet_leftover hat.bp hlow hhigh rfl
  subst hadd
  by_cases hstop : y.stop = .got
  · rw [if_pos hstop] at hgets
    refine .inl ⟨hstop, _, ?_, hat.advance hgot, rfl⟩
    rw [unpackBits_ok hreader hw hgets, hafter, fetched_leftover hat.bp hlow hhigh]
  · rw [if_neg hstop] at hgets
    refine .inr ⟨hstop, hnotpast, _, ?_, hat.advance hgot⟩
    rw [unpackBits_raise hreader hw hgets, filled, hafter]
    rfl

end

/-! ### One code -/

section
variable {s t u : State} {d : Decoding} {x : ChainRead} {p c q : Nat}

theorem TableSet.rootBits_legal {t : StringTable} (h : TableSet t) : LegalRootBits t.rootBits.toNat := by
  obtain ⟨⟨h3, hle, h12⟩, -⟩ := h
  exact ⟨h3, hle.trans h12⟩

/-- R136: registering under the valid code `q` the string and the byte, or a full table. -/
theorem tableAdd_extend (htable : TableHolds u.st d) (hset : TableSet u.st) (hq : validCode u.st q = true) (b : Byte) :
    (d.extend (stringOf u.st.table q ++ [b]) = none ∧ tableAdd q b false u = .raise .corruptStream u) ∨
      ∃ dict y, d.extend (stringOf u.st.table q ++ [b]) = some { d with dict := dict } ∧
        tableAdd q b false u = .ok u.st.nextFree.toNat (u.setSt y) ∧ TableHolds y { d with dict := dict } ∧ TableSet y ∧
        ∀ c, validCode u.st c = true ∨ c = u.st.nextFree.toNat → validCode y c = true := by
  have hcount := htable.count
  obtain ⟨-, hfree, hok⟩ | ⟨hbad, hraise⟩ := tableAdd_cases q b false u
  · have hheld := htable.addEntry hset hq hfree b false
    have hnew := hset.addEntry_any hq hfree b false
    obtain ⟨hcount', -, hreset, hend, -⟩ := addEntry_fields (base := q) (b := b) (fw := false) hfree
    obtain ⟨-, ⟨-, hends⟩, ⟨hlow, -⟩, -⟩ := hset
    refine .inr ⟨d.dict ++ [stringOf u.st.table q ++ [b]], _, if_neg (by omega), hok, ?_, hnew, fun c hc => ?_⟩
    · have hwidth : (addEntry q b false u.st).codeBits.toNat =
          Decoding.width { d with dict := d.dict ++ [stringOf u.st.table q ++ [b]] } :=
        (addEntry_widthOf_reader hfree (by omega) (by rw [hcount]; exact htable.width)).trans
          (by rw [← hcount', hheld.count]; rfl)
      rwa [hwidth] at hheld
    · obtain hold | rfl := hc
      · exact validCode_addEntry hfree b false hold
      · rw [validCode_iff, hcount', hreset, hend]
        omega
  · refine .inl ⟨if_pos ?_, hraise⟩
    obtain hinvalid | hfull := hbad
    · cases hq.symm.trans hinvalid
    · rwa [← hcount]

theorem register_first {y : List Byte} (hlast : d.prev.bind d.string = none) (hc : d.string c = some y) :
    d.register c = some d := by
  rw [Decoding.register, hlast, hc]

theorem register_nothing (hlast : d.prev.bind d.string = none) (hc : d.string c = none) : d.register c = none := by
  rw [Decoding.register, hlast, hc]

theorem register_known {y z : List Byte} (hlast : d.prev.bind d.string = some y) (hc : d.string c = some z) :
    d.register c = d.extend (y ++ z.take 1) := by
  rw [Decoding.register, hlast, hc]

theorem register_unknown {y : List Byte} (hlast : d.prev.bind d.string = some y) (hc : d.string c = none) :
    d.register c = if c = d.count then d.extend (y ++ y.take 1) else none := by
  rw [Decoding.register, hlast, hc]

/-- R181, R182: what a data code registers. -/
theorem decompressAdd_register (htable : TableHolds u.st d) (hset : TableSet u.st)
    (hlz : u.lz.prev = BitVec.ofNat 16 (d.prev.getD 0xFFFF)) (hprev : ∀ q, d.prev = some q → validCode u.st q = true) (c : Nat) :
    (d.register c = none ∧ decompressAdd c u = .raise .corruptStream u) ∨
      ∃ dict y, d.register c = some { d with dict := dict } ∧ decompressAdd c u = .ok () (u.setSt y) ∧
        TableHolds y { d with dict := dict } ∧ TableSet y ∧ validCode y c = true := by
  unfold decompressAdd
  obtain hlast | ⟨q, hlast⟩ := Option.eq_none_or_eq_some d.prev
  · have hstring : d.prev.bind d.string = none := by rw [hlast, Option.bind_none]
    rw [if_pos (by rw [hlz, hlast]; rfl)]
    cases hvalid : validCode u.st c with
    | true => exact .inr ⟨d.dict, u.st, register_first hstring (htable.string_valid hvalid), rfl, htable, hset, hvalid⟩
    | false => exact .inl ⟨register_nothing hstring (htable.string_invalid hvalid), rfl⟩
  · have hq := hprev q hlast
    have hlt := hset.lt_of_valid hq
    have hqnat : u.lz.prev.toNat = q := by
      rw [hlz, hlast]
      exact Nat.mod_eq_of_lt (by rw [Option.getD_some]; omega)
    have hne : u.lz.prev ≠ Config.none := fun heq => by
      rw [heq] at hqnat
      have : Config.none.toNat = 0xFFFF := rfl
      omega
    have hstring : d.prev.bind d.string = some (stringOf u.st.table q) := by
      rw [hlast]
      exact htable.string_valid hq
    have hfirst : ∀ c, validCode u.st c = true → (stringOf u.st.table c).take 1 = [(entryAt u.st.table c).first] :=
      fun c hc => by rw [List.take_one, hset.stringOf_head c hc]; rfl
    rw [if_neg hne, hqnat]
    cases hvalid : validCode u.st c with
    | true =>
      rw [if_pos rfl, register_known hstring (htable.string_valid hvalid), hfirst c hvalid]
      obtain ⟨hnone, hraise⟩ | ⟨dict, y, hsome, hok, hheld, hnew, hvalids⟩ :=
        tableAdd_extend htable hset hq (entryAt u.st.table c).first
      · exact .inl ⟨hnone, by rw [hraise]; rfl⟩
      · exact .inr ⟨dict, y, hsome, by rw [hok]; rfl, hheld, hnew, hvalids c (.inl hvalid)⟩
    | false =>
      rw [if_neg (by simp), register_unknown hstring (htable.string_invalid hvalid), ← htable.count]
      by_cases hnew : c = u.st.nextFree.toNat
      · rw [if_pos hnew, if_pos hnew, hfirst q hq]
        obtain ⟨hnone, hraise⟩ | ⟨dict, y, hsome, hok, hheld, hnew', hvalids⟩ :=
          tableAdd_extend htable hset hq (entryAt u.st.table q).first
        · exact .inl ⟨hnone, by rw [hraise]; rfl⟩
        · exact .inr ⟨dict, y, hsome, by rw [hok]; rfl, hheld, hnew', hvalids c (.inr hnew)⟩
      · rw [if_neg hnew, if_neg hnew]
        exact .inl ⟨rfl, rfl⟩

/-- R181, R185: a `ResetCode`. -/
theorem DecodedAt.reset (h : DecodedAt s u d x) (hset : TableSet u.st) :
    ∃ v, decompressReset u = .ok () v ∧
      DecodedAt s v { d with dict := [], prev := none, resets := d.resets + 1 } x ∧ TableSet v.st := by
  have hrb := hset.rootBits_legal
  obtain ⟨hproduces, hpos, hsb, hbp, htable, hlz, hsame⟩ := h
  have hcleared : SameBut [.st, .lz] u ((u.setSt (resetTable u.st.rootBits.toNat)).setLz
      { u.lz with prev := Config.none, resets := u.lz.resets + 1 }) :=
    ((sameBut_setSt u _).mono (by simp)).trans ((sameBut_setLz _ _).mono (by simp))
  have hnone : Produces u _ [] := .of_sameBut (by simp) hcleared rfl
  have hok : decompressReset u = .ok () ((u.setSt (resetTable u.st.rootBits.toNat)).setLz
      { u.lz with prev := Config.none, resets := u.lz.resets + 1 }) := by
    rw [decompressReset, tableReset_legal hrb]
    rfl
  have hproduced := hproduces.trans hnone
  rw [List.append_nil] at hproduced
  refine ⟨_, hok, ⟨hproduced, hpos, hsb, hbp, ?_, ?_, hsame.trans (hcleared.mono (by simp))⟩, tableSet_resetTable hrb⟩
  · have hheld := stringsHeld_resetTable hrb
    rw [htable.rootBits] at hrb hheld
    have hwidth : Decoding.width { d with dict := [], prev := none, resets := d.resets + 1 } = d.rootBits :=
      widthOf_root hrb (Nat.le_refl 2)
    rw [TableHolds, hwidth]
    show StringsHeld (resetTable u.st.rootBits.toNat) _ _
    rw [htable.rootBits]
    exact hheld
  · show (⟨u.lz.cur, Config.none, u.lz.resets + 1⟩ : LzwRegs) = _
    rw [hlz]
    simp [BitVec.ofNat_add]

theorem roomLeft_of_produces {out : List Byte} (h : Produces s u out) : roomLeft u = roomLeft s - out.length :=
  roomLeft_outputs (s := s.readTo u) h

/-- R181: a data code: what it registers, and its string put out whole or not at all. -/
theorem DecodedAt.data (h : DecodedAt s u d x) (hset : TableSet u.st) (hprev : ∀ q, d.prev = some q → validCode u.st q = true)
    (c : Nat) :
    (d.register c = none ∧ decompressData c u = .raise .corruptStream u) ∨
      ∃ e, d.register c = some e ∧ e.used = d.used ∧
        ((e.emit (roomLeft s) c = none ∧ ∃ v, decompressData c u = .raise .insufficientSpace v ∧ DecodedAt s v e x) ∨
          ∃ f, e.emit (roomLeft s) c = some f ∧ f.used = d.used ∧ f.prev = some c ∧
            ∃ v, decompressData c u = .ok () v ∧ DecodedAt s v f x ∧ TableSet v.st ∧ validCode v.st c = true) := by
  have hadds := decompressAdd_register h.table hset (by rw [h.lz]) hprev c
  obtain ⟨hproduces, hpos, hsb, hbp, -, hlz, hsame⟩ := h
  obtain ⟨hnone, hraise⟩ | ⟨dict, y, hsome, hadd, htable, hset', hvalid⟩ := hadds
  · exact .inl ⟨hnone, by rw [decompressData, hraise]; rfl⟩
  · refine .inr ⟨_, hsome, rfl, ?_⟩
    have hentered := sameBut_setSt u y
    have hregistered : DecodedAt s (u.setSt y) { d with dict := dict } x :=
      ⟨by simpa using hproduces.trans (.of_sameBut (by simp) hentered rfl), hpos, hsb, hbp, htable, hlz,
        hsame.trans (hentered.mono (by simp))⟩
    have hstring : Strings.string ⟨d.rootBits, dict⟩ c = some (stringOf y.table c) := htable.string_valid hvalid
    have hne : (stringOf y.table c).length ≠ 0 := (List.length_pos_iff.2 (stringOf_ne_nil y.table c)).ne'
    have hroom := roomLeft_of_produces hproduces
    have hout := (room_iff_le_roomLeft _ _).1 (Outputs.room hproduces)
    rw [show roomLeft (s.readTo u) = roomLeft s from rfl] at hout
    have hemit : Decoding.emit { d with dict := dict } (roomLeft s) c =
        if roomLeft s < (d.out ++ stringOf y.table c).length then none
        else some { d with dict := dict, out := d.out ++ stringOf y.table c, prev := some c } := by
      rw [Decoding.emit, hstring]
      rfl
    rw [hemit, List.length_append, decompressData, hadd, Run.bind_ok]
    obtain ⟨-, hfit, hwrite⟩ | ⟨-, hfull, hwrite⟩ | ⟨hinvalid, -⟩ := tableWrite_cases c (u.setSt y)
    · have hfit' : u.cur.snkPos.toNat + (stringOf y.table c).length ≤ u.cur.snkCap.toNat := hfit
      obtain ⟨hwritten, -⟩ := snkAppended_fields (s := u.setSt y) hfit
      have hput := snkAppended_outputs (s := u.setSt y) hfit
      obtain ⟨hproduces', -, -, -, -, -, hsame'⟩ := hregistered
      have hleft : (stringOf y.table c).length ≤ roomLeft u := by unfold roomLeft; omega
      rw [if_neg (by omega), hwrite, Run.bind_ok]
      refine .inr ⟨_, rfl, rfl, rfl, _, rfl, ⟨hproduces'.trans hput.produces, ?_, ?_, ?_, ?_, ?_, ?_⟩, ?_, ?_⟩
      · exact hput.srcPos.trans hpos
      · exact Eq.trans (hwritten .sb (by simp)) hsb
      · exact Eq.trans (hwritten .bp (by simp)) hbp
      · exact (congrArg (TableHolds · _) (hwritten .st (by simp))).mpr htable
      · have hregs : (snkAppended (stringOf y.table c) (u.setSt y)).lz = u.lz := hwritten .lz (by simp)
        show ({ (snkAppended (stringOf y.table c) (u.setSt y)).lz with prev := BitVec.ofNat 16 c } : LzwRegs) = _
        rw [hregs, hlz]
        rfl
      · exact hsame'.trans ((hwritten.mono (by simp)).trans ((sameBut_setLz _ _).mono (by simp)))
      · exact (congrArg TableSet (hwritten .st (by simp))).mpr hset'
      · exact (congrArg (validCode · c) (hwritten .st (by simp))).trans hvalid
    · have hfull' : u.cur.snkCap.toNat < u.cur.snkPos.toNat + (stringOf y.table c).length := hfull
      have hleft : roomLeft u < (stringOf y.table c).length := by unfold roomLeft; omega
      rw [if_pos (by omega), hwrite, Run.bind_raise]
      exact .inl ⟨rfl, _, rfl, hregistered⟩
    · cases hvalid.symm.trans hinvalid

end

/-! ### All codes -/

section
variable {s t u : State} {d : Decoding} {x : ChainRead} {p n rb : Nat}

/-- How a run that decoding describes ends. -/
def decodeEnd (k : Option FaultKind) (t : State) : Run Unit :=
  match k with
  | none => .ok () t
  | some k => .raise k t

/-- A code met at its end, with the codes before it decoded: the bytes its codes need are those read. -/
theorem DecodedAt.decodes {e : Decoding} (h : DecodedAt s u e x) (hx : x = chainRead s ((e.used + 7) / 8) p 0)
    (hgot : x.stop = .got) (hinside : p ≤ s.cur.srcLen.toNat) (hset : TableSet u.st)
    (hprev : ∀ c, e.prev = some c → validCode u.st c = true) : Decodes s p u e :=
  ⟨hx ▸ h, hx ▸ hgot, hinside, hset, hprev⟩

/-- R181: the loop decodes what the reader does, for the same bound on the codes. -/
theorem Decodes.decompressLoop (h : Decodes s p t d) (n : Nat) :
    ∃ u, decompressLoop n t = decodeEnd (decodeCodes s (roomLeft s) p n d).fault u ∧
      DecodedAt s u (decodeCodes s (roomLeft s) p n d).final (decodeCodes s (roomLeft s) p n d).read ∧
      ∃ k, (decodeCodes s (roomLeft s) p n d).read = chainRead s k p 0 := by
  induction n generalizing t d with
  | zero => exact ⟨t, rfl, h.at_, _, rfl⟩
  | succ n ih =>
    rw [decompressLoop_succ, decodeCodes]
    generalize hx : chainRead s ((d.used + d.width + 7) / 8) p 0 = x
    obtain ⟨hgot, u, hunpack, hat, hst⟩ | ⟨hgot, hpast, u, hunpack, hat⟩ := h.unpackBits hx.symm
    · have htable := hat.table
      have hset : TableSet u.st := hst ▸ h.set
      have hprev : ∀ q, d.prev = some q → validCode u.st q = true := fun q hq => hst ▸ h.prev q hq
      rw [hunpack, Run.bind_ok]
      simp only [hgot]
      generalize leValue x.bytes / 2 ^ d.used % 2 ^ d.width = c
      rw [show u.st.endCode.toNat = d.endCode from htable.endCode]
      by_cases hend : c = d.endCode
      · rw [if_pos hend, if_pos (show c = Strings.endCode _ from hend)]
        exact ⟨u, rfl, hat, _, hx.symm⟩
      · rw [if_neg hend, if_neg (show ¬ c = Strings.endCode _ from hend), decompressCode,
          show u.st.resetCode.toNat = d.resetCode from htable.resetCode]
        by_cases hreset : c = d.resetCode
        · obtain ⟨v, hok, hcleared, hvset⟩ := hat.reset hset
          rw [if_pos hreset, if_pos (show c = Strings.resetCode _ from hreset), hok, Run.bind_ok]
          exact ih (hcleared.decodes hx.symm hgot h.inside hvset fun c hc => by cases hc)
        · rw [if_neg hreset, if_neg (show ¬ c = Strings.resetCode _ from hreset)]
          obtain ⟨hnone, hraise⟩ | ⟨e, hsome, heused, hemit⟩ := hat.data hset hprev c
          · rw [hnone, hraise]
            exact ⟨u, rfl, hat, _, hx.symm⟩
          · obtain ⟨hnone, v, hraise, hv⟩ | ⟨f, hf, hfused, hfprev, v, hok, hv, hvset, hvalid⟩ := hemit
            · simp only [hsome, hnone, hraise]
              exact ⟨v, rfl, hv, _, hx.symm⟩
            · simp only [hsome, hf, hok, Run.bind_ok]
              refine ih (hv.decodes ?_ hgot h.inside hvset fun q hq => ?_)
              · rw [hfused]
                exact hx.symm
              · obtain rfl := Option.some.inj (hfprev.symm.trans hq)
                exact hvalid
    · rw [hunpack, Run.bind_raise]
      cases hstop : x.stop with
      | got => exact absurd hstop hgot
      | past => exact absurd hstop hpast
      | ended => exact ⟨u, rfl, hat, _, hx.symm⟩
      | truncated => exact ⟨u, rfl, hat, _, hx.symm⟩

/-! ### The drain -/

/-- R184: one more block from the cursor on, as far as it exists. -/
theorem drainTail_eq (s : State) :
    drainTail s = .ok () ((s.setCur (srcAt (drainedTo s s.cur.srcPos.toNat) s.cur)).setSb { s.sb with rend := true }) := by
  have havail := srcAvail_eq_sub s
  obtain hnone | hsome := Nat.eq_zero_or_pos (srcAvail s)
  · rw [drainTail, if_pos hnone, Run.bind_ok, drainedTo, if_pos (by omega), srcAt, BitVec.ofNat_toNat, BitVec.setWidth_eq]
    rfl
  · have hleft := srcAvail_srcMoved (s := s) hsome
    have hmin : min (srcByte s s.cur.srcPos.toNat).toNat (srcAvail (srcMoved 1 s)) =
        min (srcByte s s.cur.srcPos.toNat).toNat (s.cur.srcLen.toNat - (s.cur.srcPos.toNat + 1)) := by
      rw [hleft]
      congr 1
      omega
    rw [drainTail, if_neg (by omega), srcRead8_eq hsome, Run.bind_ok, Run.bind_ok,
      srcSkip_eq (Nat.min_le_right _ _), srcMoved_srcMoved (by rw [hleft]; omega), hmin, drainedTo, if_neg (by omega)]
    simp [srcMoved, srcAt, Nat.add_assoc]

theorem drainedTo_congr (hbytes : ∀ a, srcByte t a = srcByte s a) (hlen : t.cur.srcLen = s.cur.srcLen) (q : Nat) :
    drainedTo t q = drainedTo s q := by
  rw [drainedTo, drainedTo, hlen, hbytes]

theorem drainedTo_le {q : Nat} (h : q ≤ s.cur.srcLen.toNat) : drainedTo s q ≤ s.cur.srcLen.toNat := by
  unfold drainedTo
  split <;> omega

/-- R184: after the `EndCode` the rest of its block and one more are stepped over. -/
theorem DecodedAt.framerDrain (h : DecodedAt s u d x) (hin : x.pos + x.rem ≤ s.cur.srcLen.toNat) (hrem : x.rem < 256) :
    ∃ v, framerDrain u = .ok () v ∧ v.cur = srcAt (drainedTo s (x.pos + x.rem)) u.cur ∧
      v.sb = { s.sb with rrem := 0, rend := true } ∧ SameBut [.cur, .sb] u v := by
  have hlen := s.cur.srcLen.isLt
  have hcur := Outputs.cur h.produces
  have hpos : u.cur.srcPos.toNat = x.pos := by
    rw [h.srcPos]
    exact Nat.mod_eq_of_lt (by omega)
  have hleft : u.sb.rrem.toNat = x.rem := by
    rw [h.sb]
    exact Nat.mod_eq_of_lt hrem
  have hskip : framerSkipBlock u = skippedTo (x.pos + x.rem) u := by
    rw [framerSkipBlock_eq_skippedTo (by omega), hpos, hleft]
  have hdrained : drainedTo (skippedTo (x.pos + x.rem) u) (skippedTo (x.pos + x.rem) u).cur.srcPos.toNat =
      drainedTo s (x.pos + x.rem) := by
    rw [skippedTo_srcPos (by omega)]
    exact drainedTo_congr (s := s) (t := skippedTo (x.pos + x.rem) u) (h.same .src (by simp))
      (by show u.cur.srcLen = _; rw [hcur]; rfl) _
  refine ⟨_, (congrArg drainTail hskip).trans (drainTail_eq _), ?_, ?_, ?_⟩
  · rw [hdrained]
    rfl
  · show ({ u.sb with rrem := 0, rend := true } : Framer) = _
    rw [h.sb]
  · refine ((sameBut_skippedTo (x.pos + x.rem) u).mono (by simp)).trans fun g hg => ?_
    cases g <;> simp_all [SameGroup, srcByte, snkByte]

/-! ### The command -/

/-- R181: the start of a stream with a legal code size. -/
theorem decodes_opened (hrb : LegalRootBits rb) (havail : 1 ≤ srcAvail s) :
    Decodes s (s.cur.srcPos.toNat + 1) (decompressOpened rb s) (.start rb) := by
  have hsame := decompressOpened_frame rb s
  have hread : chainRead s (((Decoding.start rb).used + 7) / 8) (s.cur.srcPos.toNat + 1) 0 =
      ⟨[], s.cur.srcPos.toNat + 1, 0, .got⟩ := by
    rw [show ((Decoding.start rb).used + 7) / 8 = 0 by simp [Decoding.start], chainRead_none]
  have hlen := srcAvail_eq_sub s
  refine DecodedAt.decodes ?_ hread.symm rfl (by omega) (tableSet_resetTable hrb) fun c hc => by cases hc
  refine ⟨.of_sameBut (by simp) hsame rfl, rfl, rfl, ?_, ?_, rfl, hsame.mono (by simp)⟩
  · simp [leftover, leValue, decompressOpened]
  · have hwidth : Decoding.width (.start rb) = rb := widthOf_root hrb (Nat.le_refl 2)
    rw [TableHolds, hwidth]
    exact stringsHeld_resetTable hrb

/-- Decoding depends on `SRC` and its length only. -/
theorem decodeCodes_begun (s : State) (room p n : Nat) (d : Decoding) :
    decodeCodes s.begun room p n d = decodeCodes s room p n d := by
  have hread : ∀ k p r, chainRead s.begun k p r = chainRead s k p r :=
    chainRead_congr (s := s) (t := s.begun) (fun _ => rfl) rfl
  induction n generalizing d with
  | zero => simp only [decodeCodes, hread]
  | succ n ih => simp only [decodeCodes, hread, ih]

theorem lzwDecompressBody_raise {k : FaultKind} (h : decompressOpen s = .raise k t) : lzwDecompressBody s = .raise k t := by
  rw [lzwDecompressBody, h, Run.bind_raise]

/-- R181: the body up to the drain, with any bound above the bits left. -/
theorem lzwDecompressBody_decodes (hrb : LegalRootBits rb) (havail : 1 ≤ srcAvail s)
    (hbyte : (srcByte s s.cur.srcPos.toNat).toNat + 1 = rb) (hn : 8 * srcAvail s < n) {x : Decoded}
    (hx : x = decodeCodes s (roomLeft s) (s.cur.srcPos.toNat + 1) n (.start rb)) :
    ∃ u, lzwDecompressBody s = (decodeEnd x.fault u).bind (fun _ u => (framerDrain u).bind fun _ v =>
        finish2 (v.cur.snkPos.toNat - s.cur.snkPos.toNat) (v.cur.srcPos.toNat - s.cur.srcPos.toNat) v) ∧
      DecodedAt s u x.final x.read ∧ x.read.pos + x.read.rem ≤ s.cur.srcLen.toNat ∧ x.read.rem < 256 := by
  have hleft : srcAvail (decompressOpened rb s) = srcAvail s - 1 := srcAvail_srcMoved havail
  have hbits : bitsLeft (decompressOpened rb s) = 8 * srcAvail (decompressOpened rb s) := rfl
  have hlen := srcAvail_eq_sub s
  obtain ⟨u, hloop, hat, k, hread⟩ := (decodes_opened hrb havail).decompressLoop n
  rw [← (readsCodes_opened hrb s).decompressLoop_bound (m := decompressBound (decompressOpened rb s))
    (Nat.lt_succ_self _) (by omega), ← hx] at hloop
  rw [← hx] at hat hread
  refine ⟨u, by rw [lzwDecompressBody, decompressOpen_eq hrb havail hbyte, Run.bind_ok, hloop], hat, ?_⟩
  rw [hread]
  exact chainRead_bounds (by omega) (by decide)

/-- R181 to R184: the command on a stream with a legal code size. -/
theorem lzwDecompress_decodes (hs : Ready s) (hrb : LegalRootBits rb) (havail : 1 ≤ srcAvail s)
    (hbyte : (srcByte s s.cur.srcPos.toNat).toNat + 1 = rb) (hn : 8 * srcAvail s < n) {x : Decoded}
    (hx : x = decodeCodes s (roomLeft s) (s.cur.srcPos.toNat + 1) n (.start rb)) :
    ∃ t, exec .lzwDecompress s = .next t ∧ SameBut [.status, .res, .cur, .st, .bp, .sb, .lz, .snk] s t ∧
      SnkAppends s t x.final.out ∧ TableHolds t.st x.final ∧ t.bp = leftover s.bp x.read x.final.used ∧
      t.lz = ⟨s.lz.cur, BitVec.ofNat 16 (x.final.prev.getD 0xFFFF), BitVec.ofNat 32 x.final.resets⟩ ∧
      (x.fault = none → ∀ q, q = drainedTo s (x.read.pos + x.read.rem) →
        Completed s t ∧ t.cur = srcAt q (cursorsAfter 0 x.final.out.length s.cur) ∧
        t.sb = { s.sb with rrem := 0, rend := true } ∧
        t.res = { s.res with
          res0 := BitVec.ofNat 32 x.final.out.length, res1 := BitVec.ofNat 32 (q - s.cur.srcPos.toNat) }) ∧
      ∀ k, x.fault = some k →
        FaultedWith k .lzwDecompress t ∧ t.res = s.res ∧
        t.cur = srcAt x.read.pos (cursorsAfter 0 x.final.out.length s.cur) ∧
        t.sb = { s.sb with rrem := BitVec.ofNat 8 x.read.rem, rend := x.read.stop = .ended } := by
  have hbegun : x = decodeCodes s.begun (roomLeft s.begun) (s.begun.cur.srcPos.toNat + 1) n (.start rb) :=
    hx.trans (decodeCodes_begun s _ _ n _).symm
  obtain ⟨u, hbody, hat, hin, hrem⟩ := lzwDecompressBody_decodes (s := s.begun) hrb havail hbyte hn hbegun
  have hstatus : u.status = s.begun.status := hat.same .status (by simp)
  have hcur := hat.produces.cur_srcAt hat.srcPos
  cases hfault : x.fault with
  | some k =>
    rw [hfault] at hbody
    refine ⟨_, runCommand_faults (body := lzwDecompressBody) hs hbody hstatus, .of_body (by simp) (hat.same.mono (by simp)),
      hat.produces.appends, hat.table, hat.bp, hat.lz, fun hnone => (by cases hnone), fun k' hk => ?_⟩
    obtain rfl := Option.some.inj hk
    exact ⟨rfl, hat.same .res (by simp), hcur, hat.sb⟩
  | none =>
    obtain ⟨v, hdrain, hvcur, hvsb, huv⟩ := hat.framerDrain hin hrem
    have hle := drainedTo_le (s := s) hin
    have hlen := s.cur.srcLen.isLt
    have hdrained : drainedTo s.begun (x.read.pos + x.read.rem) = drainedTo s (x.read.pos + x.read.rem) :=
      drainedTo_congr (s := s) (t := s.begun) (fun _ => rfl) rfl _
    generalize hq : drainedTo s (x.read.pos + x.read.rem) = q at *
    rw [hdrained] at hvcur
    have hpos : v.cur.srcPos.toNat = q := by
      rw [hvcur]
      exact Nat.mod_eq_of_lt (by omega)
    have hwritten : v.cur.snkPos.toNat - s.begun.cur.snkPos.toNat = x.final.out.length := by
      rw [hvcur, srcAt_snkPos, hat.produces.snkPos, Nat.add_sub_cancel_left]
    rw [hfault, decodeEnd, Run.bind_ok, hdrain, Run.bind_ok, hpos, hwritten] at hbody
    have hres : v.res = s.res := Eq.trans (huv .res (by simp)) (hat.same .res (by simp))
    have happends : SnkAppends s.begun v (x.final.out ++ []) :=
      (hat.produces.trans (.of_sameBut (by simp) huv (by rw [hvcur]; rfl))).appends
    rw [List.append_nil] at happends
    refine ⟨_, runCommand_completes (body := lzwDecompressBody) hs hbody (Eq.trans (huv .status (by simp)) hstatus),
      .of_body (by simp) ((hat.same.mono (by simp)).trans ((huv.mono (by simp)).trans ((sameBut_setRes _ _).mono (by simp)))),
      happends, (congrArg (TableHolds · _) (huv .st (by simp))).mpr hat.table, Eq.trans (huv .bp (by simp)) hat.bp,
      Eq.trans (huv .lz (by simp)) hat.lz, fun _ q' hq' => ?_, fun k hk => (by cases hk)⟩
    subst hq'
    refine ⟨rfl, hvcur.trans ?_, hvsb, ?_⟩
    · rw [hcur]
      rfl
    · exact congrArg (fun r : ResRegs => { r with
        res0 := BitVec.ofNat 32 x.final.out.length, res1 := BitVec.ofNat 32 (q' - s.cur.srcPos.toNat) }) hres

end

/-- Settles O55: step 1 finds no code-size byte, or one out of range. -/
theorem decompressRejectsCodeSize : Obligations.DecompressRejectsCodeSize := by
  unfold Obligations.DecompressRejectsCodeSize
  refine fun s hs => ⟨fun hnone => ?_, fun hsome hsmall => ?_, fun hsome hlarge => ?_⟩
  · have hopen : decompressOpen s.begun = .raise .truncatedStream s.begun := if_pos hnone
    exact runCommand_rejects (body := lzwDecompressBody) hs (lzwDecompressBody_raise hopen)
  · replace hsome : 1 ≤ srcAvail s.begun := hsome
    replace hsmall : (srcByte s.begun s.begun.cur.srcPos.toNat).toNat < 2 := hsmall
    obtain ⟨hnone, -⟩ | ⟨-, ⟨h3, -⟩, -⟩ | ⟨-, -, hopen⟩ | ⟨-, hlarge, -⟩ := decompressOpen_cases s.begun
    case inr.inr.inl =>
      refine (runCommand_faults (body := lzwDecompressBody) hs (lzwDecompressBody_raise hopen) rfl).trans ?_
      rw [← srcMoved_cur]
      rfl
    all_goals omega
  · replace hsome : 1 ≤ srcAvail s.begun := hsome
    replace hlarge : 11 < (srcByte s.begun s.begun.cur.srcPos.toNat).toNat := hlarge
    obtain ⟨hnone, -⟩ | ⟨-, ⟨-, h12⟩, -⟩ | ⟨-, hsmall, -⟩ | ⟨-, -, hopen⟩ := decompressOpen_cases s.begun
    case inr.inr.inr =>
      refine (runCommand_faults (body := lzwDecompressBody) hs (lzwDecompressBody_raise hopen) rfl).trans ?_
      rw [← srcMoved_cur]
      rfl
    all_goals omega

section
variable {s t : State} {p n k rb : Nat}

/-- Where nothing was appended `SNK` did not change. -/
theorem SameBut.of_appends_nil {gs : List Group} (h : SameBut (.snk :: gs) s t) (happends : SnkAppends s t []) :
    SameBut gs s t := by
  intro g hg
  by_cases hsnk : g = .snk
  · subst hsnk
    exact fun a => happends.2 a (by simp; omega)
  · exact h g (by simp [hsnk, hg])

/-- The first bytes of a block that holds them. -/
theorem chainRead_first (hk : 1 ≤ k) (hlen : (srcByte s p).toNat = n) (hkn : k ≤ n) (hfit : p + 1 + n ≤ s.cur.srcLen.toNat) :
    chainRead s k p 0 = ⟨srcBytes s (p + 1) k, p + 1 + k, n - k, .got⟩ := by
  obtain ⟨j, rfl⟩ := Nat.exists_eq_add_one_of_ne_zero (show k ≠ 0 by omega)
  have hz : srcByte s p ≠ 0 := fun hz => by
    rw [hz, show (0 : Byte).toNat = 0 from rfl] at hlen
    omega
  have hread := chainRead_within (s := s) (n := j) (p := p + 2) (r := n - 1) (by omega) (by omega)
  rw [chainRead_block hz (by omega), hlen, hread, srcBytes_succ, show p + 2 + j = p + 1 + (j + 1) by omega,
    show n - 1 - j = n - (j + 1) by omega]

/-- R181: a stream whose first code is `EndCode`. -/
theorem decodeCodes_end {room m : Nat} (hrb : LegalRootBits rb) (hread : chainRead s ((rb + 7) / 8) p 0 = ⟨srcBytes s (p + 1) k, p + 1 + k, n, .got⟩)
    (hcode : leValue (srcBytes s (p + 1) k) % 2 ^ rb = 2 ^ (rb - 1) + 1) :
    decodeCodes s room p (m + 1) (.start rb) =
      ⟨{ Decoding.start rb with used := rb }, ⟨srcBytes s (p + 1) k, p + 1 + k, n, .got⟩, none⟩ := by
  have hwidth : Decoding.width (.start rb) = rb := widthOf_root hrb (Nat.le_refl 2)
  have hused : (Decoding.start rb).used = 0 := rfl
  simp only [decodeCodes, hwidth, hused, Nat.zero_add, hread, Nat.pow_zero, Nat.div_one]
  exact if_pos hcode

end

/-- Settles O56: the run decodes what the reader does; a first code that is `EndCode` is the simplest case of it. -/
theorem decompressDecodesStream : Obligations.DecompressDecodesStream := by
  unfold Obligations.DecompressDecodesStream
  refine ⟨fun s rb n p hs hrb hp hbyte hlen hfew hfit hcode m hm => ?_, fun s rb n x hs hrb havail hbyte hn hx =>
    lzwDecompress_decodes hs hrb havail hbyte hn hx⟩
  subst hp
  have hsource := srcAvail_eq_sub s
  have hread := chainRead_first (s := s) (k := (rb + 7) / 8) (by omega) hlen hfew (by omega)
  obtain ⟨t, hexec, hsame, happends, htable, hbp, hlz, hcompletes, -⟩ :=
    lzwDecompress_decodes hs hrb (by omega) hbyte (Nat.lt_succ_self _) (decodeCodes_end hrb hread hcode).symm
  obtain ⟨hdone, hcur, hsb, hres⟩ := hcompletes rfl _ rfl
  have hdrained : drainedTo s (s.cur.srcPos.toNat + 1 + 1 + (rb + 7) / 8 + (n - (rb + 7) / 8)) = s.cur.srcPos.toNat + m := by
    rw [show s.cur.srcPos.toNat + 1 + 1 + (rb + 7) / 8 + (n - (rb + 7) / 8) = s.cur.srcPos.toNat + 2 + n by omega, drainedTo, hm]
    split <;> split <;> omega
  simp only [hdrained] at hcur hres
  refine ⟨t, hexec, hdone, .of_appends_nil (hsame.mono (by simp)) happends, hcur.trans ?_, hres.trans ?_, htable.rootBits, hlz, hsb,
    by rw [hbp]; rfl, by rw [hbp]; rfl, ?_⟩
  · simp [srcAt, cursorsAfter, Decoding.start]
  · rw [Nat.add_sub_cancel_left]
    rfl
  · rw [hbp, leftover, srcBytes_length]
    exact Nat.mod_eq_of_lt (by show 8 * ((rb + 7) / 8) - rb < 32; omega)

end Sys2Proof.Machine
end

section
/-! The writer of a code stream of Claims.lean by itself: the bits it puts, what it reads, and that a limit it does not reach changes
nothing. -/

namespace Sys2Proof.Claims

open Sys2Proof.Machine

section
variable {d : Strings} {e : Coding} {x y : List Byte} {b : Byte} {c l rb : Nat} {lim : Option Nat}

/-! ### Codes and widths -/

/-- A string appended leaves the codes of the others. -/
theorem code_append (h : d.code x = some c) (y : List Byte) : (Strings.mk d.rootBits (d.dict ++ [y])).code x = some c := by
  unfold Strings.code at h
  split at h
  · exact h
  · next hmany =>
    have hcode : (Strings.mk d.rootBits (d.dict ++ [y])).code x = ((d.dict ++ [y]).idxOf? x).map (d.resetCode + 2 + ·) := by
      unfold Strings.code
      split
      · next b => exact absurd rfl (hmany b)
      · rfl
    obtain ⟨i, hi, rfl⟩ := Option.map_eq_some_iff.1 h
    obtain ⟨hlt, hget, hfirst⟩ := List.idxOf?_eq_some_iff.1 hi
    refine hcode.trans (Option.map_eq_some_iff.2 ⟨i, List.idxOf?_eq_some_iff.2 ⟨by simp; omega, ?_, fun j hj => ?_⟩, rfl⟩)
    · rw [List.getElem_append_left hlt, hget]
    · rw [List.getElem_append_left (hj.trans hlt)]
      exact hfirst j hj

theorem width_le (e : Coding) : e.width ≤ 12 := Nat.min_le_left _ _

theorem rootBits_le_width (h : e.rootBits ≤ 12) : e.rootBits ≤ e.width := by
  have hlow : 2 ^ (e.rootBits - 1) ≤ e.count + e.ahead - 1 := by
    unfold Strings.count Strings.resetCode
    omega
  have hlog : e.rootBits - 1 ≤ Nat.log2 (e.count + e.ahead - 1) :=
    (Nat.le_log2 (by have := Nat.two_pow_pos (e.rootBits - 1); omega)).2 hlow
  unfold Coding.width
  omega

theorem totalBits_put (cs : List (Nat × Nat)) (c w : Nat) : totalBits (cs ++ [(c, w)]) = totalBits cs + w := by
  simp [totalBits]

/-! ### The parts of the coding -/

/-- Step 4 behind the code: the longest match and the byte that broke it get the next code. -/
def Coding.enter (b : Byte) (e : Coding) : Coding := { e with dict := e.dict ++ [e.pfx ++ [b]] }

/-- A fresh table, counted (R164). -/
def Coding.cleared (e : Coding) : Coding := { e with dict := [], resets := e.resets + 1 }

/-- The buffer restarted from a byte. -/
def Coding.restart (b : Byte) (e : Coding) : Coding := { e with pfx := [b] }

/-- Step 5 (R164): a `ResetCode` and a fresh table where the last code but one is in use; the buffer restarted. -/
def Coding.atCapacity (lim : Option Nat) (b : Byte) (e : Coding) : Coded :=
  if e.count = 4095 then (e.put lim e.resetCode).bind fun e => ⟨e.cleared.restart b, none⟩ else ⟨e.restart b, none⟩

/-- Step 6 before `EndCode`: the code of what is left in the buffer. -/
def Coding.flushBuffer (lim : Option Nat) (e : Coding) : Coded :=
  if e.pfx = [] then ⟨e, none⟩ else (e.put lim e.cur).bind fun e => ⟨{ e with ahead := 1 }, none⟩

theorem bind_assoc (x : Coded) (f g : Coding → Coded) : (x.bind f).bind g = x.bind fun e => (f e).bind g := by
  obtain ⟨e, fault⟩ := x
  cases fault <;> simp

theorem emit_eq (lim : Option Nat) (b : Byte) (e : Coding) :
    e.emit lim b = (e.put lim e.cur).bind fun e => (e.enter b).atCapacity lim b := by
  rw [Coding.emit]
  congr 1
  funext e
  show (if (e.enter b).count = 4095 then _ else _ : Coded).bind _ = _
  unfold Coding.atCapacity
  split
  · rw [bind_assoc]
    congr 1
  · rfl

theorem finish_eq (lim : Option Nat) (e : Coding) : e.finish lim = (e.flushBuffer lim).bind fun e => e.put lim e.endCode := rfl

/-! ### What a part of the coding does to the bits put, the bytes read and `rootBits` -/

/-- From `e` to `x`: as many bytes read as said, and no more bits put than so many codes have. -/
structure Codes (e : Coding) (x : Coded) (codes read : Nat) : Prop where
  low : totalBits e.codes ≤ totalBits x.final.codes
  high : totalBits x.final.codes ≤ totalBits e.codes + 12 * codes
  read : x.final.read = e.read + read
  rootBits : x.final.rootBits = e.rootBits

theorem codes_put (lim : Option Nat) (c : Nat) (e : Coding) : Codes e (e.put lim c) 1 0 := by
  have hwidth := width_le e
  refine ⟨?_, ?_, rfl, rfl⟩ <;> rw [put_final] <;> simp only [totalBits_put] <;> omega

theorem codes_done (e f : Coding) (hcodes : f.codes = e.codes) {k : Nat} (hread : f.read = e.read + k)
    (hroot : f.rootBits = e.rootBits) (fault : Option FaultKind) : Codes e ⟨f, fault⟩ 0 k :=
  ⟨by rw [hcodes], by rw [hcodes]; omega, hread, hroot⟩

theorem Codes.mono {x : Coded} {j k r : Nat} (h : Codes e x j r) (hjk : j ≤ k) : Codes e x k r :=
  ⟨h.low, h.high.trans (by omega), h.read, h.rootBits⟩

/-- A part and what follows it, which reads nothing more. -/
theorem Codes.bind {x : Coded} {f : Coding → Coded} {j k r : Nat} (h : Codes e x j r) (hf : ∀ e, Codes e (f e) k 0) :
    Codes e (x.bind f) (j + k) r := by
  obtain ⟨f', fault⟩ := x
  obtain ⟨hlow, hhigh, hread, hroot⟩ := h
  cases fault with
  | none =>
    obtain ⟨hlow', hhigh', hread', hroot'⟩ := hf f'
    rw [bind_none]
    exact ⟨hlow.trans hlow', hhigh'.trans (by simp only at hhigh; omega), hread'.trans hread, hroot'.trans hroot⟩
  | some k =>
    rw [bind_some]
    exact ⟨hlow, hhigh.trans (by omega), hread, hroot⟩

theorem codes_atCapacity (lim : Option Nat) (b : Byte) (e : Coding) : Codes e (e.atCapacity lim b) 1 0 := by
  unfold Coding.atCapacity
  split
  · exact (codes_put lim e.resetCode e).bind fun e => codes_done e _ (by rfl) (by rfl) (by rfl) none
  · exact (codes_done e _ (by rfl) (by rfl) (by rfl) none).mono (Nat.zero_le 1)

theorem codes_emit (lim : Option Nat) (b : Byte) (e : Coding) : Codes e (e.emit lim b) 2 0 := by
  rw [emit_eq]
  refine (codes_put lim e.cur e).bind (k := 1) fun e => ?_
  obtain ⟨hlow, hhigh, hread, hroot⟩ := codes_atCapacity lim b (e.enter b)
  exact ⟨hlow, hhigh, hread, hroot⟩

theorem codes_take (lim : Option Nat) (b : Byte) (e : Coding) : Codes e (e.take lim b) 2 1 := by
  unfold Coding.take
  dsimp only
  split
  · exact (codes_done e _ (by rfl) (by rfl) (by rfl) _).mono (Nat.zero_le 2)
  · split
    · exact (codes_done e _ (by rfl) (by rfl) (by rfl) _).mono (Nat.zero_le 2)
    · have hread := codes_done e { e with read := e.read + 1 } (by rfl) (by rfl) (by rfl) none
      have hall := hread.bind (codes_emit lim b)
      rwa [bind_none] at hall

theorem codes_flushBuffer (lim : Option Nat) (e : Coding) : Codes e (e.flushBuffer lim) 1 0 := by
  unfold Coding.flushBuffer
  split
  · exact (codes_done e e rfl rfl rfl none).mono (Nat.zero_le 1)
  · exact (codes_put lim e.cur e).bind fun e => codes_done e _ (by rfl) (by rfl) (by rfl) none

theorem codes_finish (lim : Option Nat) (e : Coding) : Codes e (e.finish lim) 2 0 :=
  (codes_flushBuffer lim e).bind fun e => codes_put lim e.endCode e

/-- All of an input whose coding no fault ends is read, and at most two codes are put for a byte and two at the end. -/
theorem codes_encodeBytes (lim : Option Nat) (x : List Byte) (e : Coding) :
    totalBits e.codes ≤ totalBits (encodeBytes lim x e).final.codes ∧
      totalBits (encodeBytes lim x e).final.codes ≤ totalBits e.codes + 24 * (x.length + 1) ∧
      (encodeBytes lim x e).final.rootBits = e.rootBits ∧
      ((encodeBytes lim x e).fault = none → (encodeBytes lim x e).final.read = e.read + x.length) := by
  induction x generalizing e with
  | nil =>
    obtain ⟨hlow, hhigh, hread, hroot⟩ := codes_finish lim e
    exact ⟨hlow, hhigh, hroot, fun _ => hread⟩
  | cons b x ih =>
    obtain ⟨hlow, hhigh, hread, hroot⟩ := codes_take lim b e
    rw [encodeBytes]
    generalize e.take lim b = y at *
    obtain ⟨f, fault⟩ := y
    cases fault with
    | none =>
      obtain ⟨hlow', hhigh', hroot', hread'⟩ := ih f
      rw [bind_none]
      simp only at hlow hhigh hread hroot
      refine ⟨hlow.trans hlow', hhigh'.trans ?_, hroot'.trans hroot, fun hnone => ?_⟩
      · rw [List.length_cons]
        omega
      · rw [hread' hnone, hread, List.length_cons]
        omega
    | some k =>
      rw [bind_some]
      refine ⟨hlow, hhigh.trans ?_, hroot, fun hnone => by cases hnone⟩
      rw [List.length_cons]
      omega

/-- The last code put is as wide as `rootBits` at least. -/
theorem rootBits_le_encodeBytes (x : List Byte) (h : e.rootBits ≤ 12) (hnone : (encodeBytes lim x e).fault = none) :
    totalBits e.codes + e.rootBits ≤ totalBits (encodeBytes lim x e).final.codes := by
  induction x generalizing e with
  | nil =>
    obtain ⟨hlow, -, -, hroot⟩ := codes_flushBuffer lim e
    rw [encodeBytes, finish_eq] at hnone ⊢
    generalize e.flushBuffer lim = y at *
    obtain ⟨f, fault⟩ := y
    cases fault with
    | none =>
      simp only at hlow hroot
      have hwidth := rootBits_le_width (e := f) (by rw [hroot]; exact h)
      rw [bind_none, put_final]
      simp only [totalBits_put]
      omega
    | some k =>
      rw [bind_some] at hnone
      cases hnone
  | cons b x ih =>
    obtain ⟨hlow, -, -, hroot⟩ := codes_take lim b e
    rw [encodeBytes] at hnone ⊢
    generalize e.take lim b = y at *
    obtain ⟨f, fault⟩ := y
    cases fault with
    | none =>
      rw [bind_none] at hnone ⊢
      simp only at hlow hroot
      have hrest := ih (e := f) (by rw [hroot]; exact h) hnone
      omega
    | some k =>
      rw [bind_some] at hnone
      cases hnone

/-! ### A limit that is not reached -/

theorem put_limit (h : totalBits (e.put none c).final.codes < 8 * l) : e.put (some l) c = e.put none c := by
  rw [put_final] at h
  rw [Coding.put, put_unlimited, Option.any_some, if_neg (by simpa using h)]

theorem bind_limit {u v : Coded} {f g : Coding → Coded} (hu : totalBits v.final.codes < 8 * l → u = v)
    (hf : ∀ e, totalBits (g e).final.codes < 8 * l → f e = g e)
    (hg : ∀ e, totalBits e.codes ≤ totalBits (g e).final.codes) (h : totalBits (v.bind g).final.codes < 8 * l) :
    u.bind f = v.bind g := by
  obtain ⟨e, fault⟩ := v
  cases fault with
  | none =>
    rw [bind_none] at h ⊢
    rw [hu (lt_of_le_of_lt (hg e) h), bind_none, hf e h]
  | some k =>
    rw [bind_some] at h ⊢
    rw [hu h, bind_some]

theorem atCapacity_limit (h : totalBits (e.atCapacity none b).final.codes < 8 * l) :
    e.atCapacity (some l) b = e.atCapacity none b := by
  unfold Coding.atCapacity at h ⊢
  split
  · next hfull =>
    rw [if_pos hfull] at h
    exact bind_limit put_limit (fun _ _ => rfl) (fun _ => Nat.le_refl _) h
  · rfl

theorem emit_limit (h : totalBits (e.emit none b).final.codes < 8 * l) : e.emit (some l) b = e.emit none b := by
  rw [emit_eq] at h ⊢
  rw [emit_eq]
  exact bind_limit put_limit (fun _ h => atCapacity_limit h) (fun e => (codes_atCapacity none b (e.enter b)).low) h

theorem take_limit (h : totalBits (e.take none b).final.codes < 8 * l) : e.take (some l) b = e.take none b := by
  unfold Coding.take at h ⊢
  dsimp only at h ⊢
  split
  · rfl
  · split
    · rfl
    · next hin hnot =>
      rw [if_neg hin, if_neg hnot] at h
      exact emit_limit h

theorem finish_limit (h : totalBits (e.finish none).final.codes < 8 * l) : e.finish (some l) = e.finish none := by
  rw [finish_eq] at h ⊢
  rw [finish_eq]
  refine bind_limit (fun h => ?_) (fun _ h => put_limit h) (fun e => (codes_put none e.endCode e).low) h
  unfold Coding.flushBuffer at h ⊢
  split
  · rfl
  · next hsome =>
    rw [if_neg hsome] at h
    exact bind_limit put_limit (fun _ _ => rfl) (fun _ => Nat.le_refl _) h

theorem encodeBytes_limit (x : List Byte) (h : totalBits (encodeBytes none x e).final.codes < 8 * l) :
    encodeBytes (some l) x e = encodeBytes none x e := by
  induction x generalizing e with
  | nil => exact finish_limit h
  | cons b x ih => exact bind_limit take_limit (fun _ h => ih h) (fun e => (codes_encodeBytes none x e).1) h

/-- R162: a limit that the bits of all codes stay below ends nothing. -/
theorem encodeInput_limit (x : List Byte) (h : totalBits (encodeInput none rb x).final.codes < 8 * l) :
    encodeInput (some l) rb x = encodeInput none rb x :=
  bind_limit put_limit (fun _ h => encodeBytes_limit x h) (fun e => (codes_encodeBytes none x { e with resets := 1 }).1) h

/-! ### Inputs in range -/

theorem emit_unlimited_fault (b : Byte) (e : Coding) : (e.emit none b).fault = none := by
  rw [emit_eq, put_unlimited, bind_none]
  unfold Coding.atCapacity
  split
  · rw [put_unlimited, bind_none]
  · rfl

/-- R170: without a limit a byte ends the coding exactly when it has no root code. -/
theorem take_unlimited_fault (b : Byte) (e : Coding) : (e.take none b).fault = none ↔ b.toNat < e.resetCode := by
  unfold Coding.take
  dsimp only
  split
  · next hout => exact iff_of_false (by simp) (Nat.not_lt.2 hout)
  · next hin =>
    refine iff_of_true ?_ (Nat.not_le.1 hin)
    split
    · rfl
    · exact emit_unlimited_fault b _

theorem encodeBytes_fault_none (x : List Byte) (e : Coding) :
    (encodeBytes none x e).fault = none ↔ ∀ b ∈ x, b.toNat < e.resetCode := by
  induction x generalizing e with
  | nil =>
    refine iff_of_true ?_ (by simp)
    rw [encodeBytes, finish_eq, Coding.flushBuffer]
    split
    · rw [bind_none, put_unlimited]
    · rw [put_unlimited, bind_none, bind_none, put_unlimited]
  | cons b x ih =>
    have hroot := (codes_take none b e).rootBits
    have hfault := take_unlimited_fault b e
    rw [encodeBytes, List.forall_mem_cons, ← hfault]
    generalize e.take none b = y at *
    obtain ⟨f, fault⟩ := y
    cases fault with
    | none =>
      have hreset : f.resetCode = e.resetCode := congrArg (fun n => 2 ^ (n - 1)) hroot
      rw [bind_none, ih, hreset]
      simp
    | some k =>
      rw [bind_some]
      simp

end

end Sys2Proof.Claims
end

section
/-! The compressor against the writer of a code stream of Claims.lean (spec/41_compressor.md R161 to R165, R170), whatever a put does
with the codes, as long as it takes them one by one up to a limit. -/

namespace Sys2Proof.Machine

open Sys2Proof.Claims

section
variable {α β : Type}

/-! ### Runs that a coding describes -/

/-- The run ends as the coding does, in states that `O` or `F` relates to where coding stands. -/
inductive Simulates (O : State → α → Coding → Prop) (F : State → Coding → Prop) : Coded → Run α → Prop
  | done {t : State} {o : α} {e : Coding} (h : O t o e) : Simulates O F ⟨e, none⟩ (.ok o t)
  | fault {t : State} {k : FaultKind} {e : Coding} (h : F t e) : Simulates O F ⟨e, some k⟩ (.raise k t)

theorem Simulates.bind {O : State → α → Coding → Prop} {O' : State → β → Coding → Prop} {F : State → Coding → Prop} {x : Coded}
    {r : Run α} {f : Coding → Coded} {g : α → State → Run β} (h : Simulates O F x r)
    (hf : ∀ e o t, x = ⟨e, none⟩ → O t o e → Simulates O' F (f e) (g o t)) : Simulates O' F (x.bind f) (r.bind g) := by
  cases h with
  | done h =>
    rw [Claims.bind_none]
    exact hf _ _ _ rfl h
  | fault h =>
    rw [Claims.bind_some]
    exact .fault h

theorem Simulates.map {O : State → α → Coding → Prop} {O' : State → β → Coding → Prop} {F : State → Coding → Prop} {x : Coded}
    {r : Run α} {g : α → β} (h : Simulates O F x r) (hg : ∀ t o e, O t o e → O' t (g o) e) :
    Simulates O' F x (r.bind fun o s => .ok (g o) s) := by
  cases h with
  | done h => exact .done (hg _ _ _ h)
  | fault h => exact .fault h

theorem Simulates.imp {O O' : State → α → Coding → Prop} {F F' : State → Coding → Prop} {x : Coded} {r : Run α}
    (h : Simulates O F x r) (hO : ∀ t o e, x = ⟨e, none⟩ → O t o e → O' t o e) (hF : ∀ t e, F t e → F' t e) :
    Simulates O' F' x r := by
  cases h with
  | done h => exact .done (hO _ _ _ rfl h)
  | fault h => exact .fault (hF _ _ h)

/-- A put changes what it writes, and moves no read cursor. -/
def Kept (s t : State) : Prop :=
  SameBut [.cur, .bp, .sb, .snk] s t ∧ t.cur.srcPos = s.cur.srcPos ∧ t.cur.srcLen = s.cur.srcLen

/-- Whether the code `p` behind the codes `cs` reaches the limit. -/
def reaches (lim : Option Nat) (cs : List (Nat × Nat)) (p : Nat × Nat) : Bool :=
  lim.any fun l => 8 * l ≤ totalBits (cs ++ [p])

/-- A put that takes every code short of the limit and raises at the one that reaches it: `W` says what the codes taken made, `L` what
they and the last one left. -/
structure CodeWriter (put : PutCode α) (lim : Option Nat) (W : State → α → List (Nat × Nat) → Prop)
    (L : State → List (Nat × Nat) → Prop) : Prop where
  below : ∀ {s o cs c}, W s o cs → Fits (c, s.st.codeBits.toNat) → reaches lim cs (c, s.st.codeBits.toNat) = false →
    ∃ o' t, put c o s = .ok o' t ∧ W t o' (cs ++ [(c, s.st.codeBits.toNat)]) ∧ Kept s t
  reached : ∀ {s o cs c}, W s o cs → Fits (c, s.st.codeBits.toNat) → reaches lim cs (c, s.st.codeBits.toNat) = true →
    ∃ t, put c o s = .raise .insufficientSpace t ∧ L t (cs ++ [(c, s.st.codeBits.toNat)]) ∧ Kept s t
  setSt : ∀ {s o cs}, W s o cs → ∀ x, W (s.setSt x) o cs
  setLz : ∀ {s o cs}, W s o cs → ∀ x, W (s.setLz x) o cs
  srcMoved : ∀ {s o cs}, W s o cs → W (srcMoved 1 s) o cs
  lost : ∀ {s o cs}, W s o cs → L s cs

end

/-! ### Where coding stands on the machine -/

/-- The table, the run registers and the read cursor as the coding has them, `base` being where it began. -/
structure EncodedAt (base s : State) (e : Coding) : Prop where
  table : StringsHeld s.st e.toStrings e.width
  set : TableSet s.st
  lz : s.lz = ⟨BitVec.ofNat 16 e.cur, base.lz.prev, BitVec.ofNat 32 e.resets⟩
  srcPos : s.cur.srcPos.toNat = base.cur.srcPos.toNat + e.read
  input : inputBytes s = (inputBytes base).drop e.read
  same : SameBut [.cur, .st, .bp, .sb, .lz, .snk] base s

section
variable {base s t : State} {e : Coding} {b : Byte} {c k rb : Nat}

theorem EncodedAt.put (h : EncodedAt base s e) (hkept : Kept s t) (cs : List (Nat × Nat)) :
    EncodedAt base t { e with codes := cs } := by
  obtain ⟨hsame, hpos, hlen⟩ := hkept
  have hst : t.st = s.st := hsame .st (by simp)
  have hlz : t.lz = s.lz := hsame .lz (by simp)
  refine ⟨hst ▸ h.table, hst ▸ h.set, hlz.trans h.lz, hpos ▸ h.srcPos, ?_, h.same.trans (hsame.mono (by simp))⟩
  exact (inputBytes_congr hsame (by simp) hlen hpos).trans h.input

/-- The code of the buffer is in `LZ_CUR`, and stands for it (R163). -/
theorem EncodedAt.cur (h : EncodedAt base s e) (hc : e.code e.pfx = some c) :
    s.lz.cur.toNat = c ∧ validCode s.st c = true ∧ stringOf s.st.table c = e.pfx := by
  obtain ⟨hvalid, hstring⟩ := h.table.of_string (string_of_code hc)
  have hlt := h.set.lt_of_valid hvalid
  refine ⟨?_, hvalid, hstring⟩
  rw [h.lz, Coding.cur, hc]
  exact Nat.mod_eq_of_lt (by rw [Option.getD_some]; omega)

theorem EncodedAt.setCur (h : EncodedAt base s e) {x : List Byte} {v : Half} (hv : v = BitVec.ofNat 16 ((e.code x).getD 0xFFFF)) :
    EncodedAt base (s.setLz { s.lz with cur := v }) { e with pfx := x } := by
  refine ⟨h.table, h.set, ?_, h.srcPos, (inputBytes_setLz s _).trans h.input, h.same.trans ((sameBut_setLz s _).mono (by simp))⟩
  show ({ s.lz with cur := v } : LzwRegs) = _
  rw [h.lz, hv]
  rfl

/-- The buffer restarted from a byte with a root code. -/
theorem EncodedAt.restart (h : EncodedAt base s e) (hb : b.toNat < e.resetCode) :
    EncodedAt base (s.setLz { s.lz with cur := b.setWidth 16 }) (e.restart b) := by
  refine h.setCur (x := [b]) ?_
  rw [code_singleton hb, Option.getD_some]
  exact BitVec.eq_of_toNat_eq (by simp)

theorem EncodedAt.moved (h : EncodedAt base s e) (havail : 1 ≤ srcAvail s) :
    EncodedAt base (srcMoved 1 s) { e with read := e.read + 1 } := by
  refine ⟨h.table, h.set, h.lz, ?_, ?_, h.same.trans ((sameBut_srcMoved 1 s).mono (by simp))⟩
  · rw [srcMoved_srcPos havail, h.srcPos, Nat.add_assoc]
  · have hinput := h.input
    rw [inputBytes_eq_cons havail] at hinput
    rw [← List.drop_drop, ← hinput]
    rfl

theorem two_le_count (h : TableSet s.st) : 2 ≤ s.st.nextFree.toNat := by
  obtain ⟨-, ⟨-, hend⟩, ⟨hlow, -⟩, -⟩ := h
  omega

/-- Step 4 (R161): the string registered. -/
theorem EncodedAt.enter (h : EncodedAt base s e) (hahead : e.ahead = 0) (hc : e.code e.pfx = some c)
    (hfree : s.st.nextFree.toNat < 4096) (b : Byte) :
    EncodedAt base (s.setSt (addEntry c b true s.st)) (e.enter b) := by
  obtain ⟨-, hvalid, hstring⟩ := h.cur hc
  have hheld := h.table.addEntry h.set hvalid hfree b true
  have hwidth : s.st.codeBits.toNat = widthOf (s.st.nextFree.toNat - 1) := by
    rw [h.table.width, h.table.count, Coding.width, hahead]
    rfl
  have hnew := addEntry_widthOf_writer (base := c) (b := b) hfree (two_le_count h.set) hwidth
  have hcount : (e.enter b).count = s.st.nextFree.toNat + 1 := by
    rw [h.table.count]
    simp [Coding.enter, Strings.count, Strings.resetCode, Nat.add_assoc]
  rw [hnew, hstring] at hheld
  have hsame := sameBut_setSt s (addEntry c b true s.st)
  refine ⟨?_, h.set.addEntry_any hvalid hfree b true, ?_, h.srcPos, ?_, h.same.trans (hsame.mono (by simp))⟩
  · rw [Coding.width, hcount, show (e.enter b).ahead = 0 from hahead]
    exact hheld
  · have hcur : (e.enter b).cur = e.cur := by
      rw [Coding.cur, Coding.cur, hc]
      exact congrArg (Option.getD · _) (code_append hc (e.pfx ++ [b]))
    rw [hcur]
    exact h.lz
  · exact (inputBytes_congr hsame (by simp) rfl rfl).trans h.input

/-- Step 5 (R164): the table started over, and the buffer restarted. -/
theorem EncodedAt.clear (h : EncodedAt base s e) (hrb : LegalRootBits rb) (hroot : e.rootBits = rb) (hahead : e.ahead = 0)
    (hb : b.toNat < e.resetCode) :
    EncodedAt base ((s.setLz { s.lz with resets := s.lz.resets + 1, cur := b.setWidth 16 }).setSt (resetTable rb))
      (e.cleared.restart b) := by
  subst hroot
  have hsame : SameBut [.st, .lz] s
      ((s.setLz { s.lz with resets := s.lz.resets + 1, cur := b.setWidth 16 }).setSt (resetTable e.rootBits)) :=
    ((sameBut_setLz s _).mono (by simp)).trans ((sameBut_setSt _ _).mono (by simp))
  refine ⟨?_, tableSet_resetTable hrb, ?_, h.srcPos, (inputBytes_congr hsame (by simp) rfl rfl).trans h.input,
    h.same.trans (hsame.mono (by simp))⟩
  · have hwidth : (e.cleared.restart b).width = e.rootBits := by
      rw [Coding.width, show (e.cleared.restart b).ahead = 0 from hahead]
      exact widthOf_root hrb (j := 1) (by decide)
    rw [hwidth]
    exact stringsHeld_resetTable hrb
  · have hcode : (e.cleared.restart b).cur = b.toNat :=
      congrArg (Option.getD · _) (code_singleton (d := (e.cleared.restart b).toStrings) hb)
    show ({ s.lz with resets := s.lz.resets + 1, cur := b.setWidth 16 } : LzwRegs) = _
    rw [h.lz, hcode]
    simp [Coding.restart, Coding.cleared, BitVec.ofNat_add]

/-- R165: the width at the end of input. -/
theorem EncodedAt.lookAhead (h : EncodedAt base s e) (hahead : e.ahead = 0) :
    EncodedAt base (widenAtEnd s) { e with ahead := 1 } := by
  have hwidth : s.st.codeBits.toNat = widthOf (s.st.nextFree.toNat - 1) := by
    rw [h.table.width, h.table.count, Coding.width, hahead]
    rfl
  have hheld := h.table.widen false
  rw [widen_widthOf (two_le_count h.set) hwidth, h.table.count] at hheld
  rw [widenAtEnd_eq]
  have hsame := sameBut_setSt s (widen false s.st)
  exact ⟨hheld, h.set.widen false, h.lz, h.srcPos, (inputBytes_congr hsame (by simp) rfl rfl).trans h.input,
    h.same.trans (hsame.mono (by simp))⟩

end

/-! ### The parts of the coding -/

/-- Coding came to `e`, with its codes taken. -/
def Held {α : Type} (W : State → α → List (Nat × Nat) → Prop) (base : State) (s : State) (o : α) (e : Coding) : Prop :=
  EncodedAt base s e ∧ W s o e.codes

/-- Coding came to `e`, its last code taken or not. -/
def Stopped (L : State → List (Nat × Nat) → Prop) (base : State) (s : State) (e : Coding) : Prop :=
  EncodedAt base s e ∧ L s e.codes

/-- Between two bytes of the input: a table with room for a code and the `ResetCode` (R164), the buffer empty or one of its strings. -/
structure Encodes {α : Type} (W : State → α → List (Nat × Nat) → Prop) (base : State) (rb : Nat) (s : State) (o : α)
    (e : Coding) : Prop where
  held : Held W base s o e
  rootBits : e.rootBits = rb
  count : e.count ≤ 4094
  ahead : e.ahead = 0
  buffer : (e.pfx = [] ∧ e.dict = []) ∨ (e.pfx ≠ [] ∧ ∃ c, e.code e.pfx = some c)

/-- What the loop of steps 3 to 5 (R161) does with one byte: the buffer after it. -/
def compressTake {α : Type} (put : PutCode α) (rb : Nat) (pfx : List Byte) (b : Byte) (o : α) (s : State) : Run (List Byte × α) :=
  if s.st.resetCode.toNat ≤ b.toNat then .raise .corruptStream s
  else if s.lz.cur = Config.none then .ok ([b], o) (s.setLz { s.lz with cur := b.setWidth 16 })
  else
    match findCode s.st (pfx ++ [b]) with
    | some k => .ok (pfx ++ [b], o) (s.setLz { s.lz with cur := BitVec.ofNat 16 k })
    | none => (emitAndRegister put rb b o s).bind fun o s => .ok ([b], o) s

section
variable {α : Type} {put : PutCode α} {lim : Option Nat} {W : State → α → List (Nat × Nat) → Prop}
  {L : State → List (Nat × Nat) → Prop} {base s t : State} {o : α} {e : Coding} {b : Byte} {c n rb : Nat}

theorem compressLoop_succ (put : PutCode α) (rb n : Nat) (pfx : List Byte) (o : α) (s : State) :
    compressLoop put rb (n + 1) pfx o s = (srcRead8 s).bind fun b s => (compressTake put rb pfx b o s).bind fun x s =>
      compressLoop put rb n x.1 x.2 s := by
  rw [compressLoop]
  congr 1
  funext b s
  unfold compressTake
  split
  · rfl
  · split
    · rfl
    · cases findCode s.st (pfx ++ [b]) with
      | some k => rfl
      | none => simp only [Run.bind_assoc, Run.bind_ok]

/-- R162: a code of the table is put as the coding puts it. -/
theorem CodeWriter.simulates (hw : CodeWriter put lim W L) (h : Held W base s o e) (hc : c < s.st.nextFree.toNat) :
    Simulates (Held W base) (Stopped L base) (e.put lim c) (put c o s) := by
  obtain ⟨hat, hwritten⟩ := h
  have hfits := hat.set.fits hc
  have hreach : reaches lim e.codes (c, e.width) = lim.any fun l => 8 * l ≤ totalBits (e.codes ++ [(c, e.width)]) := rfl
  rw [hat.table.width] at hfits
  unfold Coding.put
  simp only
  cases hlim : lim.any fun l => 8 * l ≤ totalBits (e.codes ++ [(c, e.width)]) with
  | false =>
    obtain ⟨o', t, hput, ht, hkept⟩ := hw.below hwritten (by rwa [hat.table.width]) (by rw [hat.table.width, hreach, hlim])
    rw [hat.table.width] at ht
    rw [hput]
    exact .done ⟨hat.put hkept _, ht⟩
  | true =>
    obtain ⟨t, hput, ht, hkept⟩ := hw.reached hwritten (by rwa [hat.table.width]) (by rw [hat.table.width, hreach, hlim])
    rw [hat.table.width] at ht
    rw [hput]
    exact .fault ⟨hat.put hkept _, ht⟩

theorem Held.reset_lt (h : Held W base s o e) : s.st.resetCode.toNat < s.st.nextFree.toNat :=
  h.1.set.control_lt.1.trans h.1.set.control_lt.2

/-- Step 5 (R161, R164). -/
theorem CodeWriter.capacityReset (hw : CodeWriter put lim W L) (hrb : LegalRootBits rb) (h : Held W base s o e)
    (hroot : e.rootBits = rb) (hcount : e.count ≤ 4095) (hahead : e.ahead = 0) (hb : b.toNat < e.resetCode) :
    Simulates (fun t o f => Encodes W base rb t o f ∧ f.pfx = [b]) (Stopped L base) (e.atCapacity lim b)
      ((Machine.capacityReset put rb o s).bind fun o s => .ok o (s.setLz { s.lz with cur := b.setWidth 16 })) := by
  have hfree := h.1.table.count
  have hbuffer : ∀ f : Coding, f.resetCode = e.resetCode → (f.restart b).pfx ≠ [] ∧ ∃ c, (f.restart b).code (f.restart b).pfx = some c :=
    fun f hf => ⟨by simp [Coding.restart], _, code_singleton (d := f.toStrings) (by rw [hf]; exact hb)⟩
  unfold Coding.atCapacity Machine.capacityReset
  by_cases hfull : e.count = 4095
  · rw [if_pos hfull, if_pos (hfree.trans hfull), Run.bind_assoc]
    rw [h.1.table.resetCode]
    refine (hw.simulates h (h.1.table.resetCode ▸ h.reset_lt)).bind fun f o t hf ⟨hat, hwritten⟩ => ?_
    obtain rfl := congrArg Coded.final hf
    rw [Run.bind_assoc, tableReset_legal hrb]
    refine .done ⟨⟨⟨hat.clear hrb hroot hahead hb, ?_⟩, hroot, ?_, hahead, .inr (hbuffer _ rfl)⟩, rfl⟩
    · exact hw.setLz (hw.setSt (hw.setLz hwritten _) _) _
    · obtain ⟨h3, h12⟩ := hrb
      have hhigh : 2 ^ (rb - 1) ≤ 2 ^ 11 := Nat.pow_le_pow_right two_pos (by omega)
      show 2 ^ (e.rootBits - 1) + 2 + 0 ≤ 4094
      rw [hroot]
      omega
  · rw [if_neg hfull, if_neg (fun heq => hfull (hfree.symm.trans heq)), Run.bind_ok]
    exact .done ⟨⟨⟨h.1.restart hb, hw.setLz h.2 _⟩, hroot, by show e.count ≤ 4094; omega, hahead, .inr (hbuffer _ rfl)⟩, rfl⟩

/-- Steps 4 and 5 (R161). -/
theorem CodeWriter.emitAndRegister (hw : CodeWriter put lim W L) (hrb : LegalRootBits rb) (h : Encodes W base rb s o e)
    (hc : e.code e.pfx = some c) (hb : b.toNat < e.resetCode) :
    Simulates (fun t o f => Encodes W base rb t o f ∧ f.pfx = [b]) (Stopped L base) (e.emit lim b)
      (Machine.emitAndRegister put rb b o s) := by
  obtain ⟨hheld, hroot, hcount, hahead, -⟩ := h
  obtain ⟨hcur, hvalid, -⟩ := hheld.1.cur hc
  have hcode : e.cur = c := by rw [Coding.cur, hc, Option.getD_some]
  rw [emit_eq, Machine.emitAndRegister, hcur, hcode]
  refine (hw.simulates hheld (lt_of_valid hvalid)).bind fun f o t hf ⟨hat, hwritten⟩ => ?_
  obtain rfl := congrArg Coded.final hf
  have htcount := hat.table.count
  obtain ⟨htcur, htvalid, -⟩ := hat.cur hc
  have hfree : t.st.nextFree.toNat < 4096 := by
    rw [htcount]
    exact lt_of_le_of_lt hcount (by decide)
  obtain ⟨-, -, hadd⟩ | ⟨hbad, -⟩ := tableAdd_cases c b true t
  · rw [htcur, hadd, Run.bind_ok]
    refine hw.capacityReset hrb ⟨hat.enter hahead hc hfree b, hw.setSt hwritten _⟩ hroot ?_ hahead hb
    show e.resetCode + 2 + (e.dict ++ [e.pfx ++ [b]]).length ≤ 4095
    unfold Strings.count at hcount
    simp only [List.length_append, List.length_singleton]
    omega
  · obtain hinvalid | hfull := hbad
    · cases htvalid.symm.trans hinvalid
    · omega

/-- The buffer is empty exactly while `LZ_CUR` is `NONE` (R163). -/
theorem Encodes.cur_none (h : Encodes W base rb s o e) : s.lz.cur = Config.none ↔ e.pfx = [] := by
  obtain ⟨⟨hat, -⟩, -, -, -, ⟨hpfx, hdict⟩ | ⟨hpfx, c, hc⟩⟩ := h
  · refine iff_of_true ?_ hpfx
    have hcode : e.code [] = none := by
      rw [Strings.code, hdict]
      · rfl
      · exact fun _ h => by cases h
    rw [hat.lz, Coding.cur, hpfx, hcode]
    rfl
  · obtain ⟨hcur, hvalid, -⟩ := hat.cur hc
    refine iff_of_false (fun hnone => ?_) hpfx
    exact hat.set.ne_none (hcur.symm ▸ hvalid) hnone

/-- Steps 3 to 5 (R161) for one byte. -/
theorem CodeWriter.compressTake (hw : CodeWriter put lim W L) (hrb : LegalRootBits rb) (h : Encodes W base rb s o e)
    (havail : 1 ≤ srcAvail s) (b : Byte) :
    Simulates (fun t x f => Encodes W base rb t x.2 f ∧ x.1 = f.pfx) (Stopped L base) (e.take lim b)
      (Machine.compressTake put rb e.pfx b o (Machine.srcMoved 1 s)) := by
  have hmoved : Encodes W base rb (Machine.srcMoved 1 s) o { e with read := e.read + 1 } :=
    ⟨⟨h.held.1.moved havail, hw.srcMoved h.held.2⟩, h.rootBits, h.count, h.ahead, h.buffer⟩
  have hnone := hmoved.cur_none
  have hreset := hmoved.held.1.table.resetCode
  unfold Coding.take Machine.compressTake
  simp only
  generalize Machine.srcMoved 1 s = u at *
  obtain ⟨⟨hat, hwritten⟩, hroot, hcount, hahead, hbuffer⟩ := id hmoved
  by_cases hout : e.resetCode ≤ b.toNat
  · rw [if_pos hout, if_pos (hreset ▸ hout)]
    exact .fault ⟨hat, hw.lost hwritten⟩
  · have hb : b.toNat < e.resetCode := Nat.not_le.1 hout
    rw [if_neg hout, if_neg (fun hle => hout (hreset ▸ hle))]
    by_cases hempty : e.pfx = []
    · rw [if_pos (.inl hempty), if_pos (hnone.2 hempty)]
      have hcode := code_singleton (d := e.toStrings) hb
      refine .done ⟨⟨⟨?_, hw.setLz hwritten _⟩, hroot, hcount, hahead, .inr ⟨by simp, ?_⟩⟩, by simp [hempty]⟩
      · simp only [hempty, List.nil_append]
        exact hat.restart hb
      · exact ⟨_, by simpa [hempty] using hcode⟩
    · obtain ⟨hnil, -⟩ | ⟨-, c, hc⟩ := hbuffer
      · exact absurd hnil hempty
      have hfind : findCode u.st (e.pfx ++ [b]) = e.code (e.pfx ++ [b]) := hat.table.findCode hat.set (by
        have := List.length_pos_iff.2 hempty
        rw [List.length_append, List.length_singleton]
        omega)
      rw [if_neg (fun heq => hempty (hnone.1 heq)), hfind]
      cases hfound : e.code (e.pfx ++ [b]) with
      | some k =>
        rw [if_pos (.inr rfl)]
        refine .done ⟨⟨⟨hat.setCur (x := e.pfx ++ [b]) ?_, hw.setLz hwritten _⟩, hroot, hcount, hahead, .inr ⟨by simp, k, hfound⟩⟩, rfl⟩
        show BitVec.ofNat 16 k = BitVec.ofNat 16 ((e.code (e.pfx ++ [b])).getD 0xFFFF)
        rw [hfound, Option.getD_some]
      | none =>
        rw [if_neg (by simp [hempty])]
        exact (hw.emitAndRegister hrb hmoved hc hb).map fun t o f ⟨hnext, hpfx⟩ => ⟨hnext, hpfx.symm⟩

/-- Coding came to its end, in a table with room for two codes. -/
def Ended {α : Type} (W : State → α → List (Nat × Nat) → Prop) (base : State) (s : State) (o : α) (e : Coding) : Prop :=
  Held W base s o e ∧ e.count ≤ 4094

/-- Step 6 (R161, R165). -/
theorem CodeWriter.compressTail (hw : CodeWriter put lim W L) (h : Encodes W base rb s o e) :
    Simulates (Ended W base) (Stopped L base) (e.finish lim) (Machine.compressTail put o s) := by
  have hnone := h.cur_none
  obtain ⟨hheld, -, hcount, hahead, hbuffer⟩ := h
  have hflush : Simulates (Ended W base) (Stopped L base) (e.flushBuffer lim)
      (if s.lz.cur = Config.none then .ok o s else (put s.lz.cur.toNat o s).bind fun o s => .ok o (widenAtEnd s)) := by
    unfold Coding.flushBuffer
    by_cases hempty : e.pfx = []
    · rw [if_pos hempty, if_pos (hnone.2 hempty)]
      exact .done ⟨hheld, hcount⟩
    · obtain ⟨hnil, -⟩ | ⟨-, c, hc⟩ := hbuffer
      · exact absurd hnil hempty
      obtain ⟨hcur, hvalid, -⟩ := hheld.1.cur hc
      rw [if_neg hempty, if_neg (fun heq => hempty (hnone.1 heq)), hcur, Coding.cur, hc, Option.getD_some]
      refine (hw.simulates hheld (lt_of_valid hvalid)).bind fun f o t hf ⟨hat, hwritten⟩ => ?_
      obtain rfl := congrArg Coded.final hf
      refine .done ⟨⟨hat.lookAhead hahead, ?_⟩, hcount⟩
      rw [widenAtEnd_eq]
      exact hw.setSt hwritten _
  rw [finish_eq, Machine.compressTail]
  refine hflush.bind fun f o t _ ⟨hheld, hcount⟩ => ?_
  rw [hheld.1.table.endCode]
  have hend := hheld.1.table.endCode ▸ hheld.1.set.control_lt.2
  refine (hw.simulates hheld hend).imp (fun u o g hg hlast => ⟨hlast, ?_⟩) fun _ _ h => h
  obtain rfl := congrArg Coded.final hg
  exact hcount

/-- Steps 3 to 6 (R161). -/
theorem CodeWriter.encodeBytes (hw : CodeWriter put lim W L) (hrb : LegalRootBits rb) (h : Encodes W base rb s o e)
    (hn : srcAvail s = n) :
    Simulates (Ended W base) (Stopped L base) (Claims.encodeBytes lim (inputBytes s) e)
      ((compressLoop put rb n e.pfx o s).bind fun o s => Machine.compressTail put o s) := by
  induction n generalizing s o e with
  | zero =>
    have hnone : inputBytes s = [] := List.length_eq_zero_iff.1 ((inputBytes_length s).trans hn)
    rw [hnone, compressLoop, Run.bind_ok]
    exact hw.compressTail h
  | succ n ih =>
    have havail : 1 ≤ srcAvail s := by omega
    rw [inputBytes_eq_cons havail, Claims.encodeBytes, compressLoop_succ, srcRead8_eq havail, Run.bind_ok, Run.bind_assoc]
    refine (hw.compressTake hrb h havail _).bind fun f x t hf ⟨hnext, hpfx⟩ => ?_
    have hread := (codes_take lim (srcByte s s.cur.srcPos.toNat) e).read
    rw [hf] at hread
    have hinput : inputBytes t = inputBytes (Machine.srcMoved 1 s) := by
      rw [hnext.held.1.input, hread]
      exact (h.held.1.moved havail).input.symm
    have hrest : srcAvail t = n := by
      rw [← inputBytes_length, hinput, inputBytes_length, srcAvail_srcMoved havail]
      omega
    rw [← hinput, hpfx]
    exact ih hnext hrest

/-- Before the first code (R161, step 2). -/
theorem EncodedAt.start (hrb : LegalRootBits rb) (hst : s.st = resetTable rb) :
    EncodedAt s (s.setLz { s.lz with cur := Config.none, resets := 0 }) (Coding.start rb) := by
  refine ⟨?_, ?_, ?_, rfl, rfl, (sameBut_setLz s _).mono (by simp)⟩
  · have hwidth : (Coding.start rb).width = rb := widthOf_root hrb (j := 1) (by decide)
    show StringsHeld s.st _ _
    rw [hwidth, hst]
    exact stringsHeld_resetTable hrb
  · show TableSet s.st
    rw [hst]
    exact tableSet_resetTable hrb
  · rfl

/-- Steps 2 to 6 (R161). -/
theorem CodeWriter.encodeInput (hw : CodeWriter put lim W L) (hrb : LegalRootBits rb) (hst : s.st = resetTable rb)
    (hs : W s o []) :
    Simulates (Ended W s) (Stopped L s) (Claims.encodeInput lim rb (inputBytes s)) (compressCodes put rb o s) := by
  have hat := EncodedAt.start hrb hst
  have hheld : Held W s (s.setLz { s.lz with cur := Config.none, resets := 0 }) o (Coding.start rb) := ⟨hat, hw.setLz hs _⟩
  have hreset : (2 ^ (rb - 1) : Nat) = s.st.resetCode.toNat := hat.table.resetCode.symm
  rw [Claims.encodeInput, compressCodes, hreset]
  refine (hw.simulates hheld hheld.reset_lt).bind fun f o t hf ⟨hat, hwritten⟩ => ?_
  obtain rfl := congrArg Coded.final hf
  have hlz : EncodedAt s (t.setLz { t.lz with resets := 1 })
      { (Coding.start rb).put lim s.st.resetCode.toNat |>.final with resets := 1 } := by
    refine ⟨hat.table, hat.set, ?_, hat.srcPos, hat.input, hat.same.trans ((sameBut_setLz t _).mono (by simp))⟩
    show ({ t.lz with resets := 1 } : LzwRegs) = _
    rw [hat.lz]
    rfl
  have hcount : 2 ^ (rb - 1) + 2 + 0 ≤ 4094 := by
    obtain ⟨h3, h12⟩ := hrb
    have hhigh : 2 ^ (rb - 1) ≤ 2 ^ 11 := Nat.pow_le_pow_right two_pos (by omega)
    omega
  have hinput : inputBytes (t.setLz { t.lz with resets := 1 }) = inputBytes s := hlz.input
  rw [← hinput]
  exact hw.encodeBytes hrb ⟨⟨hlz, hw.setLz hwritten _⟩, rfl, hcount, rfl, .inl ⟨rfl, rfl⟩⟩ rfl

end

end Sys2Proof.Machine
end

section
/-! The codes of a whole input: how many bits they have, and when there is no fault. -/

namespace Sys2Proof.Claims

open Sys2Proof.Machine

/-- Where coding stands before the first byte of the input (R161, step 2). -/
def Coding.opened (rb : Nat) : Coding := { ((Coding.start rb).put none (2 ^ (rb - 1))).final with resets := 1 }

section
variable {x : List Byte} {rb : Nat}

theorem encodeInput_unlimited (rb : Nat) (x : List Byte) : encodeInput none rb x = encodeBytes none x (Coding.opened rb) := by
  rw [encodeInput, put_unlimited, bind_none]
  rfl

theorem totalBits_opened (hrb : LegalRootBits rb) : totalBits (Coding.opened rb).codes = rb := by
  have hwidth : (Coding.start rb).width = rb := widthOf_root hrb (j := 1) (by decide)
  rw [Coding.opened, put_final, totalBits_put, hwidth]
  exact Nat.zero_add rb

theorem encodeInput_fault_none (rb : Nat) (x : List Byte) :
    (encodeInput none rb x).fault = none ↔ ∀ b ∈ x, b.toNat < 2 ^ (rb - 1) := by
  rw [encodeInput_unlimited]
  exact encodeBytes_fault_none x _

theorem encodeInput_rootBits (rb : Nat) (x : List Byte) : (encodeInput none rb x).final.rootBits = rb := by
  rw [encodeInput_unlimited]
  exact (codes_encodeBytes none x (Coding.opened rb)).2.2.1

theorem encodeInput_read (h : (encodeInput none rb x).fault = none) : (encodeInput none rb x).final.read = x.length := by
  rw [encodeInput_unlimited] at h ⊢
  exact ((codes_encodeBytes none x (Coding.opened rb)).2.2.2 h).trans (Nat.zero_add _)

theorem two_rootBits_le_encodeInput (hrb : LegalRootBits rb) (h : (encodeInput none rb x).fault = none) :
    2 * rb ≤ totalBits (encodeInput none rb x).final.codes := by
  rw [encodeInput_unlimited] at h ⊢
  have hlast := rootBits_le_encodeBytes (e := Coding.opened rb) x hrb.2 h
  rw [totalBits_opened hrb, show (Coding.opened rb).rootBits = rb from rfl] at hlast
  omega

theorem totalBits_encodeInput_le (hrb : LegalRootBits rb) (x : List Byte) :
    totalBits (encodeInput none rb x).final.codes ≤ 24 * (x.length + 2) := by
  obtain ⟨-, hhigh, -⟩ := codes_encodeBytes none x (Coding.opened rb)
  have hrb' := hrb.2
  rw [totalBits_opened hrb] at hhigh
  rw [encodeInput_unlimited]
  omega

end

end Sys2Proof.Claims
end

section
/-! `LZW_ESTIMATE` (spec/41_compressor.md R167 to R170): the compressor with a put that counts bits. -/

namespace Sys2Proof.Machine

open Sys2Proof.Claims

/-- R167: the bits counted are those of the codes. -/
theorem codeWriter_putCounted :
    CodeWriter putCounted none (fun _ bits cs => bits = totalBits cs) (fun _ _ => True) where
  below := fun {s o cs c} h _ _ => by
    refine ⟨_, s, rfl, ?_, SameBut.refl _ s, rfl, rfl⟩
    rw [totalBits_put, h]
  reached := fun _ _ h => by cases h
  setSt := fun h _ => h
  setLz := fun h _ => h
  srcMoved := fun h => h
  lost := fun _ => trivial

section
variable {s t : State} {k : FaultKind} {bits rb : Nat}

/-- R167, R169: the estimate's run on its own copy ends as the coding of the input does. -/
theorem estimateBits_simulates (hrb : LegalRootBits rb) (s : State) :
    Simulates (fun _ bits e => bits = totalBits e.codes) (fun _ _ => True) (encodeInput none rb (inputBytes s)) (estimateBits rb s) := by
  rw [estimateBits, tableReset_legal hrb, Run.bind_ok]
  exact (codeWriter_putCounted.encodeInput (s := s.setSt (resetTable rb)) hrb rfl rfl).imp
    (fun _ _ _ _ h => h.1.2) (fun _ _ _ => trivial)

theorem estimateBits_of_raise (h : tableReset rb s = .raise k t) : estimateBits rb s = .raise k t := by
  rw [estimateBits, h, Run.bind_raise]

theorem lzwEstimateBody_of_ok (h : estimateBits s.args.arg0.toNat s = .ok bits t) :
    lzwEstimateBody s = .ok () (s.setRes (estimateResults bits)) := by rw [lzwEstimateBody, h]

theorem lzwEstimateBody_of_raise (h : estimateBits s.args.arg0.toNat s = .raise k t) : lzwEstimateBody s = .raise k s := by
  rw [lzwEstimateBody, h]

/-- R167: with input in range the results are made of the bits of its codes. -/
theorem lzwEstimateBody_legal (hrb : LegalRootBits s.args.arg0.toNat) (hrange : InputInRange s s.args.arg0.toNat) :
    lzwEstimateBody s =
      .ok () (s.setRes (estimateResults (totalBits (encodeInput none s.args.arg0.toNat (inputBytes s)).final.codes))) := by
  have hnone := (encodeInput_fault_none s.args.arg0.toNat (inputBytes s)).2 hrange
  have hsim := estimateBits_simulates hrb s
  generalize encodeInput none s.args.arg0.toNat (inputBytes s) = x, hr : estimateBits s.args.arg0.toNat s = r at *
  cases hsim with
  | done h =>
    subst h
    exact lzwEstimateBody_of_ok hr
  | fault => cases hnone

/-- R170: an input byte with no root code. -/
theorem lzwEstimateBody_corrupt (hrb : LegalRootBits s.args.arg0.toNat) (hrange : ¬ InputInRange s s.args.arg0.toNat) :
    lzwEstimateBody s = .raise .corruptStream s := by
  have hsome : (encodeInput none s.args.arg0.toNat (inputBytes s)).fault = some .corruptStream := by
    have hnot := mt (encodeInput_fault_none s.args.arg0.toNat (inputBytes s)).1 hrange
    rw [encodeInput_unlimited] at hnot ⊢
    exact (encodeBytes_unlimited_fault _ _).resolve_left hnot
  have hsim := estimateBits_simulates hrb s
  generalize encodeInput none s.args.arg0.toNat (inputBytes s) = x, hr : estimateBits s.args.arg0.toNat s = r at *
  cases hsim with
  | done => cases hsome
  | fault =>
    cases hsome
    exact lzwEstimateBody_of_raise hr

/-- R167, R168: the two words of the byte count. -/
theorem estimateBytes_words (h : estimateBytes bits < 2 ^ 64) :
    (estimateResults bits).res2.toNat + 2 ^ 32 * (estimateResults bits).res3.toNat = estimateBytes bits := by
  simp only [estimateResults, BitVec.toNat_ofNat]
  omega

/-- R168: the byte count for the bits of the input's codes. -/
theorem estimatedBytes_eq (hrb : LegalRootBits rb) (hres : t.res = estimateResults bits)
    (hbits : bits = totalBits (encodeInput none rb (inputBytes s)).final.codes) : estimatedBytes t = estimateBytes bits := by
  have hhigh := totalBits_encodeInput_le hrb (inputBytes s)
  have havail := srcPos_add_srcAvail_lt s (Nat.le_refl _)
  rw [← hbits, inputBytes_length] at hhigh
  rw [estimatedBytes, hres]
  refine estimateBytes_words ?_
  unfold estimateBytes
  dsimp only
  omega

/-- Settles O51, the run on its own copy simulating the encoder of Claims.lean code by code. -/
theorem estimateIsIsolated : Obligations.EstimateIsIsolated := by
  unfold Obligations.EstimateIsIsolated
  intro s hs
  by_cases hrb : LegalRootBits s.args.arg0.toNat
  · obtain ⟨h3, h12⟩ := id hrb
    by_cases hrange : InputInRange s s.args.arg0.toNat
    · have hbody := lzwEstimateBody_legal (s := s.begun) hrb hrange
      refine ⟨_, runCommand_completes (body := lzwEstimateBody) hs hbody rfl, ?_, rfl, rfl, fun _ _ => ?_, fun _ h => absurd hrange h,
        by omega, by omega⟩
      · exact SameBut.of_body (x := beginFlags s.status) (by simp) ((sameBut_setRes _ _).mono (by simp))
      · refine ⟨rfl, _, rfl, two_rootBits_le_encodeInput hrb ((encodeInput_fault_none _ _).2 hrange), rfl, ?_⟩
        exact estimatedBytes_eq (s := s) hrb rfl rfl
    · have hbody := lzwEstimateBody_corrupt (s := s.begun) hrb hrange
      refine ⟨_, runCommand_rejects (body := lzwEstimateBody) hs hbody, (sameBut_setStatus _ _).mono (by simp), rfl, rfl,
        fun _ h => absurd h hrange, fun _ _ => ⟨rfl, rfl⟩, by omega, by omega⟩
  · obtain ⟨h3, h12, -⟩ | ⟨hlow, hreset⟩ | ⟨hhigh, hreset⟩ := tableReset_cases s.begun.args.arg0.toNat s.begun
    · exact absurd ⟨h3, h12⟩ hrb
    · change s.args.arg0.toNat < 3 at hlow
      have hbody := lzwEstimateBody_of_raise (s := s.begun) (k := .invalidFormat)
        (estimateBits_of_raise hreset)
      exact ⟨_, runCommand_rejects (body := lzwEstimateBody) hs hbody, (sameBut_setStatus _ _).mono (by simp), rfl, rfl,
        fun h => absurd h hrb, fun h => absurd h hrb, fun _ => ⟨rfl, rfl⟩, by omega⟩
    · change 12 < s.args.arg0.toNat at hhigh
      have hbody := lzwEstimateBody_of_raise (s := s.begun) (k := .tableTooLarge)
        (estimateBits_of_raise hreset)
      exact ⟨_, runCommand_rejects (body := lzwEstimateBody) hs hbody, (sameBut_setStatus _ _).mono (by simp), rfl, rfl,
        fun h => absurd h hrb, fun h => absurd h hrb, by omega, fun _ => ⟨rfl, rfl⟩⟩

end

end Sys2Proof.Machine
end

section
/-! The compressor's writer in limited room (spec/41_compressor.md R161, spec/43_bitpacker.md R201, R204, spec/44_subblock_framer.md R221
to R223): a code packed behind a bit string, the flush and the close, each up to the first block that does not fit. -/

namespace Sys2Proof.Machine

open Sys2Proof.Claims

section
variable {base s t u : State} {v n c w room : Nat} {cs : List (Nat × Nat)}

/-- The write accumulator with nothing in it. -/
def emptied (bp : Packer) : Packer := { bp with wacc := 0, wcnt := 0 }

/-- The write accumulator with what an `n`-bit string has behind its first `k` bytes (R201). -/
def heldValue (bp : Packer) (v n k : Nat) : Packer :=
  { bp with wacc := BitVec.ofNat 19 (v / 256 ^ k), wcnt := BitVec.ofNat 5 (n - 8 * k) }

/-! ### A bit string in limited room -/

theorem Packed.writer (h : Packed s t v n) : WriterInv t.bp := by
  unfold WriterInv
  rw [h.wacc, h.wcnt]
  exact ⟨by omega, div_wholeBytes_lt h.lt⟩

theorem Packed.merged (h : Packed s t v n) (c : Nat) : merged t c = v / 256 ^ (n / 8) + c * 2 ^ (n % 8) := by
  rw [Claims.merged, h.wacc, h.wcnt]

/-- R201: the bytes that a code behind the bit string completes. -/
theorem Packed.putBytes (h : Packed s t v n) (c w : Nat) :
    lowBytes (v + 2 ^ n * c) ((n + w) / 8) = lowBytes v (n / 8) ++ putBytes t c w := by
  rw [show (n + w) / 8 = n / 8 + (n % 8 + w) / 8 by omega, lowBytes_add_code, Machine.putBytes, h.merged, h.wcnt]

theorem Packed.held (h : Packed s t v n) : t.bp = heldValue s.bp v n (n / 8) := by
  rw [h.bp, heldValue, show n - 8 * (n / 8) = n % 8 by omega]

/-- R201: the accumulator after a put whose byte number `j` was not taken. -/
theorem Packed.putLost (h : Packed s t v n) (c w j : Nat) :
    putLost t c w j = heldValue s.bp (v + 2 ^ n * c) (n + w) (n / 8 + (j + 1)) := by
  have hcnt := h.wcnt
  rw [Claims.putLost, if_neg (by omega), h.merged, ← add_code_div_wholeBytes, Nat.div_div_eq_div_mul, ← Nat.pow_add, hcnt,
    show n % 8 + w - 8 * (j + 1) = n + w - 8 * (n / 8 + (j + 1)) by omega, h.bp]
  rfl

/-- R201, R222: a code packed short of the limit is taken; the one whose bytes reach it raises. -/
theorem Packed.packBits_into (h : Packed s t v n) (hroom : roomLeft s = room) (hc : c < 2 ^ w) (hw : w ≤ 12)
    (hlt : n / 8 < frameLimit room) :
    ((n + w) / 8 < frameLimit room →
      ∃ u, packBits c w .framed t = .ok () u ∧ SameBut [.cur, .bp, .sb, .snk] t u ∧ Packed s u (v + 2 ^ n * c) (n + w)) ∧
    (frameLimit room ≤ (n + w) / 8 →
      ∃ u, packBits c w .framed t = .raise .insufficientSpace u ∧ SameBut [.cur, .bp, .sb, .snk] t u ∧
        Framed s u (frameInto room (lowBytes (v + 2 ^ n * c) ((n + w) / 8))) ∧
        u.bp = heldValue s.bp (v + 2 ^ n * c) (n + w) (frameLimit room)) := by
  subst hroom
  refine ⟨fun hbelow => packBits_framed h hc hw (room_frameBytes (by rwa [lowBytes_length])), fun hreach => ?_⟩
  have hput := h.putBytes c w
  obtain ⟨u, hputs, hsame, hframed⟩ := (h.framed.puts_into (bs := Machine.putBytes t c w) rfl (by rwa [lowBytes_length])).2
    (by rwa [← hput, lowBytes_length])
  obtain ⟨j, hj⟩ := Nat.exists_eq_add_one_of_ne_zero (show frameLimit (roomLeft s) - n / 8 ≠ 0 by omega)
  rw [lowBytes_length, hj] at hputs
  rw [← hput] at hframed
  refine ⟨_, packBits_raise h.writer hc hw hputs, (hsame.mono (by simp)).trans ((sameBut_setBp u _).mono (by simp)), hframed, ?_⟩
  rw [State.setBp_bp, h.putLost, show n / 8 + (j + 1) = frameLimit (roomLeft s) by omega]

/-- R204, R222: the flush short of the limit, and the one whose byte reaches it. -/
theorem Packed.packFlush_into (h : Packed s t v n) (hroom : roomLeft s = room) (hlt : n / 8 < frameLimit room) :
    ((n + 7) / 8 < frameLimit room →
      ∃ u, packFlush .framed t = .ok () u ∧ SameBut [.cur, .bp, .sb, .snk] t u ∧
        Framed s u (frameBytes [] (lowBytes v ((n + 7) / 8))) ∧ u.bp = emptied s.bp) ∧
    (frameLimit room ≤ (n + 7) / 8 →
      ∃ u, packFlush .framed t = .raise .insufficientSpace u ∧ SameBut [.cur, .bp, .sb, .snk] t u ∧
        Framed s u (frameInto room (lowBytes v ((n + 7) / 8))) ∧ u.bp = emptied s.bp) := by
  have hbytes : lowBytes v ((n + 7) / 8) = lowBytes v (n / 8) ++ flushBytes t := by
    rw [show (n + 7) / 8 = n / 8 + (n % 8 + 7) / 8 by omega, lowBytes_add, flushBytes, h.wacc, h.wcnt]
  have hempty : ({ t.bp with wacc := 0, wcnt := 0 } : Packer) = emptied s.bp := by
    rw [h.bp]
    rfl
  have hframe : ∀ {u : State} (x : Packer), SameBut [.cur, .sb, .snk] t u → SameBut [.cur, .bp, .sb, .snk] t (u.setBp x) :=
    fun x hsame => (hsame.mono (by simp)).trans ((sameBut_setBp _ x).mono (by simp))
  obtain ⟨hbelow, hbeyond⟩ := h.framed.puts_into (bs := flushBytes t) hroom (by rwa [lowBytes_length])
  rw [← hbytes, lowBytes_length] at hbelow hbeyond
  refine ⟨fun hlow => ?_, fun hreach => ?_⟩
  · obtain ⟨u, hputs, hsame, hframed⟩ := hbelow hlow
    rw [frameInto, if_pos (by rwa [lowBytes_length])] at hframed
    exact ⟨_, packFlush_ok h.writer hputs, hframe _ hsame, hframed, hempty⟩
  · obtain ⟨u, hputs, hsame, hframed⟩ := hbeyond hreach
    obtain ⟨j, hj⟩ := Nat.exists_eq_add_one_of_ne_zero (show frameLimit room - n / 8 ≠ 0 by omega)
    rw [lowBytes_length, hj] at hputs
    have hcnt := h.wcnt
    refine ⟨_, packFlush_raise h.writer hputs, hframe _ hsame, hframed, ?_⟩
    rw [State.setBp_bp, flushLost, if_neg (by omega), hempty]

/-- Room for a chain is room for its whole blocks. -/
theorem length_lt_frameLimit {bs : List Byte} (h : (chainBytes bs).length ≤ room) : bs.length < frameLimit room := by
  rw [chainBytes_length] at h
  unfold frameLimit
  omega

/-- R161 step 7, R223: the flush and the close. -/
theorem Packed.close_into (h : Packed s t v n) (hroom : roomLeft s = room) (hlt : n / 8 < frameLimit room) :
    ((chainBytes (lowBytes v ((n + 7) / 8))).length ≤ room →
      ∃ u, compressClose t = .ok () u ∧ SameBut [.cur, .bp, .sb, .snk] t u ∧
        Framed s u (chainBytes (lowBytes v ((n + 7) / 8)), []) ∧ u.bp = emptied s.bp ∧ u.sb.wcnt = 0) ∧
    (room < (chainBytes (lowBytes v ((n + 7) / 8))).length →
      ∃ u, compressClose t = .raise .insufficientSpace u ∧ SameBut [.cur, .bp, .sb, .snk] t u ∧
        Framed s u (chainInto room (lowBytes v ((n + 7) / 8))) ∧ u.bp = emptied s.bp) := by
  obtain ⟨hbelow, hbeyond⟩ := h.packFlush_into hroom hlt
  have hlen := lowBytes_length v ((n + 7) / 8)
  refine ⟨fun hfits => ?_, fun hfull => ?_⟩
  · have hshort := length_lt_frameLimit hfits
    rw [hlen] at hshort
    obtain ⟨y, hflush, hty, hframed, hbp⟩ := hbelow hshort
    have hrest : Room s (chainBytes (lowBytes v ((n + 7) / 8))).length := (room_iff_le_roomLeft s _).2 (hroom ▸ hfits)
    rw [chainBytes, ← hframed.pending] at hrest
    obtain ⟨z, hclose, hyz, hclosed⟩ := framerClose_framed (hframed.outputs.room_rest hrest)
    have hall := hframed.trans hclosed
    rw [hframed.pending] at hall
    have hzbp : z.bp = y.bp := hyz .bp (by simp)
    refine ⟨z, by rw [compressClose, hflush, Run.bind_ok, hclose], hty.trans (hyz.mono (by simp)), hall, hzbp.trans hbp, ?_⟩
    rw [framerClose_sb hclose]
  · obtain hshort | hlong := Nat.lt_or_ge ((n + 7) / 8) (frameLimit room)
    · obtain ⟨y, hflush, hty, hframed, hbp⟩ := hbelow hshort
      obtain ⟨z, hclose, hyz, hinto⟩ := hframed.close_into hroom (by rwa [hlen]) hfull
      have hzbp : z.bp = y.bp := hyz .bp (by simp)
      exact ⟨z, by rw [compressClose, hflush, Run.bind_ok, hclose], hty.trans (hyz.mono (by simp)), hinto, hzbp.trans hbp⟩
    · obtain ⟨y, hflush, hty, hframed, hbp⟩ := hbeyond hlong
      have hinto : chainInto room (lowBytes v ((n + 7) / 8)) = frameInto room (lowBytes v ((n + 7) / 8)) :=
        if_pos (.inl (by rwa [hlen]))
      exact ⟨y, by rw [compressClose, hflush, Run.bind_raise], hty, hinto ▸ hframed, hbp⟩

/-! ### The packer as a writer of codes -/

/-- The codes put since `base`, short of the limit. -/
def PutBelow (base s : State) (_ : Unit) (cs : List (Nat × Nat)) : Prop :=
  Written base s cs ∧ totalBits cs < 8 * frameLimit (roomLeft base)

/-- The codes put since `base`, the last one taken or not (R222, R201). -/
def PutInto (base s : State) (cs : List (Nat × Nat)) : Prop :=
  Framed (base.readTo s) s (frameInto (roomLeft base) (lowBytes (codesValue cs) (totalBits cs / 8))) ∧
    s.bp = heldValue base.bp (codesValue cs) (totalBits cs) (min (totalBits cs / 8) (frameLimit (roomLeft base)))

theorem PutBelow.into (h : PutBelow base s () cs) : PutInto base s cs := by
  obtain ⟨hwritten, hbelow⟩ := h
  unfold PutInto
  rw [frameInto, if_pos (by rw [lowBytes_length]; omega), min_eq_left (by omega)]
  exact ⟨hwritten.framed, hwritten.held⟩

/-- Bytes put leave the read cursor where it is. -/
theorem kept_of_framed {x y : List Byte × List Byte} (hs : Framed (base.readTo s) s x) (ht : Framed (base.readTo s) t y)
    (hsame : SameBut [.cur, .bp, .sb, .snk] s t) : Kept s t := by
  refine ⟨hsame, ht.outputs.srcPos, ?_⟩
  rw [ht.outputs.cur, hs.outputs.cur]
  rfl

theorem codesValue_snoc (cs : List (Nat × Nat)) (c w : Nat) : codesValue (cs ++ [(c, w)]) = codesValue cs + 2 ^ totalBits cs * c := by
  rw [codesValue_append]
  simp [codesValue]

/-- R162: the packer takes every code short of the framer's limit. -/
theorem codeWriter_putPacked (base : State) :
    CodeWriter putPacked (some (frameLimit (roomLeft base))) (PutBelow base) (PutInto base) where
  below := fun {s o cs c} h hfits hlow => by
    obtain ⟨hwritten, hbelow⟩ := h
    obtain ⟨-, hmax, hlt⟩ := hfits
    have hshort : totalBits (cs ++ [(c, s.st.codeBits.toNat)]) < 8 * frameLimit (roomLeft base) := by
      simpa [reaches] using hlow
    have htotal := totalBits_put cs c s.st.codeBits.toNat
    have hlim : totalBits cs / 8 < frameLimit (roomLeft base) := by omega
    have hfit : (totalBits cs + s.st.codeBits.toNat) / 8 < frameLimit (roomLeft base) := by omega
    obtain ⟨t, hput, hsame, hpacked⟩ := (hwritten.packBits_into rfl hlt hmax hlim).1 hfit
    have hkept := kept_of_framed hwritten.framed hpacked.framed hsame
    refine ⟨(), t, hput, ⟨?_, hshort⟩, hkept⟩
    rw [Written, readTo_congr base hkept.2.1, codesValue_snoc, htotal]
    exact hpacked
  reached := fun {s o cs c} h hfits hreach => by
    obtain ⟨hwritten, hbelow⟩ := h
    obtain ⟨-, hmax, hlt⟩ := hfits
    have hlong : 8 * frameLimit (roomLeft base) ≤ totalBits (cs ++ [(c, s.st.codeBits.toNat)]) := by
      simpa [reaches] using hreach
    have htotal := totalBits_put cs c s.st.codeBits.toNat
    have hlim : totalBits cs / 8 < frameLimit (roomLeft base) := by omega
    have hfill : frameLimit (roomLeft base) ≤ (totalBits cs + s.st.codeBits.toNat) / 8 := by omega
    obtain ⟨t, hput, hsame, hframed, hbp⟩ := (hwritten.packBits_into rfl hlt hmax hlim).2 hfill
    have hkept := kept_of_framed hwritten.framed hframed hsame
    refine ⟨t, hput, ?_, hkept⟩
    rw [PutInto, readTo_congr base hkept.2.1, codesValue_snoc, htotal, min_eq_right (by omega)]
    exact ⟨hframed, hbp⟩
  setSt := fun h _ => h
  setLz := fun h _ => h
  srcMoved := fun h => ⟨h.1.srcMoved, h.2⟩
  lost := PutBelow.into

end

end Sys2Proof.Machine
end

section
/-! `LZW_COMPRESS` (spec/41_compressor.md R161 to R170): the opening, the codes and the close put together. -/

namespace Sys2Proof.Machine

open Sys2Proof.Claims

/-- Step 1 (R161) took `s` to `t`. -/
structure Opened (rb : Nat) (s t : State) : Prop where
  same : SameBut [.cur, .st, .bp, .sb, .snk] s t
  outputs : Outputs s t [BitVec.ofNat 8 (rb - 1)]
  st : t.st = resetTable rb
  packed : Packed t t 0 0
  bp : t.bp = emptied s.bp
  rrem : t.sb.rrem = s.sb.rrem
  rend : t.sb.rend = s.sb.rend

/-- From `s` the coding came to `e`: `out` and its chain's code-size byte are in `SNK`, `p` is pending, `bp` is at hand. -/
structure Compressed (rb : Nat) (s u : State) (e : Coding) (out p : List Byte) (bp : Packer) : Prop where
  same : SameBut [.cur, .st, .bp, .sb, .lz, .snk] s u
  produces : Produces s u (BitVec.ofNat 8 (rb - 1) :: out)
  srcPos : u.cur.srcPos.toNat = s.cur.srcPos.toNat + e.read
  bp : u.bp = bp
  sb : wbufBytes u.sb = p ∧ u.sb.rrem = s.sb.rrem ∧ u.sb.rend = s.sb.rend
  table : StringsHeld u.st e.toStrings e.width
  lz : u.lz = ⟨BitVec.ofNat 16 e.cur, s.lz.prev, BitVec.ofNat 32 e.resets⟩

section
variable {s t u v : State} {e : Coding} {x : Coded} {out p : List Byte} {bp : Packer} {k : FaultKind} {rb room : Nat}

/-! ### The opening -/

/-- R161 step 1, with room for the code-size byte. -/
theorem compressOpen_opened (hrb : LegalRootBits rb) (hroom : 1 ≤ roomLeft s) :
    ∃ t, compressOpen rb s = .ok () t ∧ Opened rb s t := by
  have hfit : Room s 1 := (room_iff_le_roomLeft s 1).2 hroom
  obtain ⟨t, hopen, hsame, hout, hst, hpacked⟩ := compressOpen_ok hrb hfit
  obtain ⟨u, hwrite, hsu, -⟩ := snkWrite8_outputs (s := s.setSt (resetTable rb)) (b := BitVec.ofNat 8 (rb - 1)) hfit
  have hsb : u.sb = s.sb := hsu .sb (by simp)
  have hbp : u.bp = s.bp := hsu .bp (by simp)
  refine ⟨t, hopen, ?_⟩
  rw [compressOpen, tableReset_legal hrb, Run.bind_ok, hwrite, Run.bind_ok] at hopen
  obtain ⟨-, rfl⟩ := Run.ok.inj hopen
  exact ⟨hsame, hout, hst, hpacked, congrArg emptied hbp, congrArg (·.rrem) hsb, congrArg (·.rend) hsb⟩

/-- R161 step 1, with no room for it: the table is reset first. -/
theorem compressOpen_full (hrb : LegalRootBits rb) (hfull : s.cur.snkCap.toNat ≤ s.cur.snkPos.toNat) :
    compressOpen rb s = .raise .insufficientSpace (s.setSt (resetTable rb)) := by
  have hwrite : snkWrite8 (BitVec.ofNat 8 (rb - 1)) (s.setSt (resetTable rb)) = _ := snkWrite8_full hfull
  rw [compressOpen, tableReset_legal hrb, Run.bind_ok, hwrite, Run.bind_raise]

/-- R161 step 1: a `rootBits` out of range. -/
theorem compressOpen_of_raise (h : tableReset rb s = .raise k t) : compressOpen rb s = .raise k t := by
  rw [compressOpen, h, Run.bind_raise]

theorem Opened.roomLeft (h : Opened rb s t) : roomLeft t = roomLeft s - 1 := roomLeft_outputs h.outputs

theorem Opened.input (h : Opened rb s t) : inputBytes t = inputBytes s :=
  inputBytes_congr h.same (by simp) (by rw [h.outputs.cur]; rfl) h.outputs.srcPos

/-- What the framer and the packer did since the opening, from where the command began. -/
theorem Opened.compressed (h : Opened rb s t) (hat : EncodedAt t u e) (hframed : Framed (t.readTo u) u (out, p)) (hbp : u.bp = bp) :
    Compressed rb s u e out p bp := by
  obtain ⟨hout, hpending, hrem, hend⟩ := hframed
  have hall : Produces s u (BitVec.ofNat 8 (rb - 1) :: out) := h.outputs.produces.trans (bs := out) hout
  have hpos : u.cur.srcPos.toNat = s.cur.srcPos.toNat + e.read := by rw [hat.srcPos, h.outputs.srcPos]
  have hlz : t.lz = s.lz := h.same .lz (by simp)
  exact ⟨(h.same.mono (by simp)).trans hat.same, hall, hpos, hbp, ⟨hpending, hrem.trans h.rrem, hend.trans h.rend⟩, hat.table,
    hlz ▸ hat.lz⟩

theorem Compressed.cur (h : Compressed rb s u e out p bp) : u.cur = cursorsAfter e.read (1 + out.length) s.cur := by
  rw [h.produces.cur h.srcPos, List.length_cons, Nat.add_comm]

/-- R162 to R165: the codes, as far as the framer has room for their bytes. -/
theorem Opened.codes (h : Opened rb s t) (hrb : LegalRootBits rb) (hroom : Claims.roomLeft s = room + 1) :
    Simulates (Ended (PutBelow t) t) (Stopped (PutInto t) t) (encodeInput (some (frameLimit room)) rb (inputBytes s))
      (compressCodes putPacked rb () t) := by
  have hbase : PutBelow t t () [] := by
    refine ⟨h.packed, ?_⟩
    unfold frameLimit
    show 0 < _
    omega
  have hsim := (codeWriter_putPacked t).encodeInput hrb h.st hbase
  rwa [h.roomLeft, hroom, Nat.add_sub_cancel, h.input] at hsim

/-- What the bits at hand are, from the accumulator before the opening. -/
theorem Opened.held (h : Opened rb s t) (e : Coding) (n : Nat) :
    heldValue t.bp (codesValue e.codes) (totalBits e.codes) n = heldBits s.bp e n := by
  rw [h.bp]
  rfl

/-- The close leaves what the coding has. -/
theorem Opened.closed (h : Opened rb s t) (hat : EncodedAt t u e) (hwritten : Written t u e.codes)
    (hsame : SameBut [.cur, .bp, .sb, .snk] u v) (hframed : Framed (t.readTo u) v (out, p)) (hbp : v.bp = emptied t.bp) :
    Compressed rb s v e out p (emptied s.bp) := by
  have hkept := kept_of_framed hwritten.framed hframed hsame
  have hframed' : Framed (t.readTo v) v (out, p) := by rwa [readTo_congr t hkept.2.1]
  refine h.compressed (hat.put hkept e.codes) hframed' (hbp.trans ?_)
  rw [h.bp]
  rfl

/-! ### The body -/

/-- Step 7 and the results (R161) of a run that began in `s`. -/
def compressEnd (s t : State) : Run Unit :=
  (compressClose t).bind fun _ t => finish2 (t.cur.snkPos.toNat - s.cur.snkPos.toNat) (t.cur.srcPos.toNat - s.cur.srcPos.toNat) t

/-- R161: with room for the code-size byte the run is that of the codes and what ends it. -/
theorem lzwCompressBody_opened (hrb : LegalRootBits s.args.arg0.toNat) (hroom : roomLeft s = room + 1) :
    ∃ t r, Opened s.args.arg0.toNat s t ∧ roomLeft t = room ∧ lzwCompressBody s = r.bind (fun _ t => compressEnd s t) ∧
      Simulates (Ended (PutBelow t) t) (Stopped (PutInto t) t)
        (encodeInput (some (frameLimit room)) s.args.arg0.toNat (inputBytes s)) r := by
  obtain ⟨t, hopen, hopened⟩ := compressOpen_opened (s := s) hrb (by omega)
  refine ⟨t, compressCodes putPacked s.args.arg0.toNat () t, hopened, ?_, ?_, hopened.codes hrb hroom⟩
  · rw [hopened.roomLeft, hroom, Nat.add_sub_cancel]
  · rw [lzwCompressBody, hopen, Run.bind_ok]
    rfl

/-- R161: a run whose codes end in a fault. -/
theorem lzwCompressBody_stops (hrb : LegalRootBits s.args.arg0.toNat) (hroom : roomLeft s = room + 1)
    (hx : encodeInput (some (frameLimit room)) s.args.arg0.toNat (inputBytes s) = ⟨e, some k⟩)
    (hinto : frameInto room (wholeBytes e) = (out, p)) :
    ∃ u, lzwCompressBody s = .raise k u ∧ Compressed s.args.arg0.toNat s u e out p
      (heldBits s.bp e (min (wholeBytes e).length (frameLimit room))) := by
  obtain ⟨t, r, hopened, hleft, hbody, hsim⟩ := lzwCompressBody_opened hrb hroom
  rw [hx] at hsim
  cases hsim with
  | @fault u _ _ h =>
    obtain ⟨hat, hframed, hbp⟩ := h
    rw [hleft] at hframed hbp
    rw [hopened.held, ← lowBytes_length (codesValue e.codes) (totalBits e.codes / 8)] at hbp
    exact ⟨u, hbody, hopened.compressed hat (hinto ▸ hframed) hbp⟩

/-- R161: a run that codes all its input and has no room for what the close writes. -/
theorem lzwCompressBody_full (hrb : LegalRootBits s.args.arg0.toNat) (hroom : roomLeft s = room + 1)
    (hx : encodeInput (some (frameLimit room)) s.args.arg0.toNat (inputBytes s) = ⟨e, none⟩)
    (hfull : room < (chainBytes (paddedBytes e)).length) (hinto : chainInto room (paddedBytes e) = (out, p)) :
    ∃ u, lzwCompressBody s = .raise .insufficientSpace u ∧ Compressed s.args.arg0.toNat s u e out p (emptied s.bp) := by
  obtain ⟨t, r, hopened, hleft, hbody, hsim⟩ := lzwCompressBody_opened hrb hroom
  rw [hx] at hsim
  cases hsim with
  | @done u _ _ h =>
    obtain ⟨⟨hat, hwritten, hbelow⟩, -⟩ := h
    rw [hleft] at hbelow
    obtain ⟨v, hclose, hsame, hframed, hbp⟩ := (hwritten.close_into hleft (by omega)).2 hfull
    exact ⟨v, by rw [hbody, Run.bind_ok, compressEnd, hclose, Run.bind_raise],
      hopened.closed hat hwritten hsame (hinto ▸ hframed) hbp⟩

/-- R161: a run with room for its stream. -/
theorem lzwCompressBody_fits (hrb : LegalRootBits s.args.arg0.toNat)
    (hx : encodeInput none s.args.arg0.toNat (inputBytes s) = ⟨e, none⟩) (hfits : (streamBytes e).length ≤ roomLeft s) :
    ∃ u, lzwCompressBody s = finish2 (streamBytes e).length (srcAvail s) u ∧ u.sb.wcnt = 0 ∧ u.st.nextFree.toNat ≤ 4094 ∧
      Compressed s.args.arg0.toNat s u e (chainBytes (paddedBytes e)) [] (emptied s.bp) ∧ e.read = srcAvail s := by
  rw [streamBytes, List.length_cons] at hfits ⊢
  obtain ⟨room, hroom⟩ := Nat.exists_eq_add_of_le' (Nat.le_of_add_left_le hfits)
  have hchain : (chainBytes (paddedBytes e)).length ≤ room := by omega
  have hshort := length_lt_frameLimit hchain
  rw [paddedBytes, lowBytes_length] at hshort
  have hlimit : encodeInput (some (frameLimit room)) s.args.arg0.toNat (inputBytes s) = ⟨e, none⟩ :=
    hx ▸ encodeInput_limit _ (by rw [hx]; show totalBits e.codes < _; omega)
  have hread := encodeInput_read (rb := s.args.arg0.toNat) (x := inputBytes s) (by rw [hx])
  rw [hx, inputBytes_length] at hread
  obtain ⟨t, r, hopened, hleft, hbody, hsim⟩ := lzwCompressBody_opened hrb hroom
  rw [hlimit] at hsim
  cases hsim with
  | @done u _ _ h =>
    obtain ⟨⟨hat, hwritten, hbelow⟩, hcount⟩ := h
    rw [hleft] at hbelow
    obtain ⟨v, hclose, hsame, hframed, hbp, hwcnt⟩ := (hwritten.close_into hleft (by omega)).1 hchain
    have hcompressed := hopened.closed hat hwritten hsame hframed hbp
    refine ⟨v, ?_, hwcnt, ?_, hcompressed, hread⟩
    · rw [hbody, Run.bind_ok, compressEnd, hclose, Run.bind_ok, hcompressed.produces.snkPos, hcompressed.srcPos,
        Nat.add_sub_cancel_left, Nat.add_sub_cancel_left, List.length_cons, hread]
      rfl
    · rw [hcompressed.table.count]
      exact hcount

end

theorem streamBytes_length (e : Coding) : (streamBytes e).length =
    1 + (totalBits e.codes + 7) / 8 + ((totalBits e.codes + 7) / 8 + 254) / 255 + 1 := by
  rw [streamBytes, List.length_cons, chainBytes_length, paddedBytes, lowBytes_length]
  omega

/-- R168: the estimate is the length of the encoder's stream. -/
theorem estimatedBytes_of_next {s u : State} {e : Coding} (hs : Ready s) (hrb : LegalRootBits s.args.arg0.toNat)
    (hx : encodeInput none s.args.arg0.toNat (inputBytes s) = ⟨e, none⟩) (h : exec .lzwEstimate s = .next u) :
    estimatedBytes u = (streamBytes e).length := by
  obtain ⟨t, hexec, -, -, -, hlegal, -⟩ := estimateIsIsolated s hs
  obtain rfl := Host.Outcome.next.inj (h.symm.trans hexec)
  obtain ⟨-, bits, -, -, hbits, hbytes⟩ := hlegal hrb ((encodeInput_fault_none _ _).1 (by rw [hx]))
  rw [hx] at hbits
  rw [hbytes, hbits, streamBytes_length]

/-- Settles O52: the run simulates the encoder of Claims.lean, whose stream the estimate counts and no limit cuts short. -/
theorem compressWritesTheEstimate : Obligations.CompressWritesTheEstimate := by
  unfold Obligations.CompressWritesTheEstimate
  intro s u hs hrb hrange hestimate hroom
  obtain ⟨e, hx⟩ : ∃ e, encodeInput none s.args.arg0.toNat (inputBytes s) = ⟨e, none⟩ :=
    ⟨_, congrArg (Coded.mk _) ((encodeInput_fault_none _ _).2 hrange)⟩
  have hroot := encodeInput_rootBits s.args.arg0.toNat (inputBytes s)
  have hbytes := estimatedBytes_of_next hs hrb hx hestimate
  have hlen : (streamBytes e).length = 1 + (chainBytes (paddedBytes e)).length := by
    rw [streamBytes, List.length_cons, Nat.add_comm]
  rw [hbytes] at hroom ⊢
  rw [hx] at hroot ⊢
  obtain ⟨v, hbody, hwcnt, hcount, hdone, hread⟩ := lzwCompressBody_fits (s := s.begun) hrb hx (Nat.le_sub_of_add_le' hroom)
  have hres : v.res = s.res := hdone.same .res (by simp)
  have happends := hdone.produces.appends
  have hcur := hdone.cur
  rw [hread, ← hlen] at hcur
  refine ⟨_, runCommand_completes (body := lzwCompressBody) hs hbody (hdone.same .status (by simp)), rfl,
    SameBut.of_body (x := beginFlags s.status) (by simp) ((hdone.same.mono (by simp)).trans ((sameBut_setRes v _).mono (by simp))),
    hcur, ?_, ?_, hdone.bp, hwcnt, hdone.sb.2.1, hdone.sb.2.2, congrArg (·.prev) hdone.lz, hcount, fun f hf => ?_⟩
  · rw [← hres]
    rfl
  · rw [hlen, Nat.add_comm 1]
    exact happends.2
  · subst hf
    refine ⟨?_, rfl, hdone.table, hdone.lz⟩
    rw [streamBytes, hroot]
    exact happends

/-- R170: a byte with no root code is read, and ends the coding. -/
theorem take_out {e : Coding} {b : Byte} (lim : Option Nat) (h : e.resetCode ≤ b.toNat) :
    e.take lim b = ⟨{ e with read := e.read + 1 }, some .corruptStream⟩ := if_pos h

/-- R170: a first byte with no root code ends the coding after the `ResetCode`. -/
theorem encodeInput_first_out {room rb : Nat} {b : Byte} {x : List Byte} (hrb : LegalRootBits rb) (hb : 2 ^ (rb - 1) ≤ b.toNat) :
    encodeInput (some (frameLimit room)) rb (b :: x) = ⟨{ Coding.opened rb with read := 1 }, some .corruptStream⟩ := by
  have hwidth : (Coding.start rb).width = rb := widthOf_root hrb (j := 1) (by decide)
  have hput : (Coding.start rb).put (some (frameLimit room)) (2 ^ (rb - 1)) = (Coding.start rb).put none (2 ^ (rb - 1)) := by
    refine put_limit ?_
    rw [put_final, totalBits_put, hwidth]
    have hrb' := hrb.2
    show 0 + rb < _
    unfold frameLimit
    omega
  have hopened : encodeInput (some (frameLimit room)) rb (b :: x) = encodeBytes (some (frameLimit room)) (b :: x) (Coding.opened rb) := by
    rw [encodeInput, hput, put_unlimited, bind_none]
    rfl
  rw [hopened, encodeBytes, take_out (e := Coding.opened rb) _ hb, bind_some]
  rfl

section
variable {s t : State} {e : Coding} {out p : List Byte} {bp : Packer} {k : FaultKind}

/-- R291: a run that raised leaves what the coding came to. -/
theorem compressed_faults (hs : Ready s) (hbody : lzwCompressBody s.begun = .raise k t)
    (h : Compressed s.args.arg0.toNat s.begun t e out p bp) :
    ∃ t, exec .lzwCompress s = .next t ∧ FaultedWith k .lzwCompress t ∧ SameBut [.status, .cur, .st, .bp, .sb, .lz, .snk] s t ∧
      SnkAppends s t (BitVec.ofNat 8 (s.args.arg0.toNat - 1) :: out) ∧ t.cur = cursorsAfter e.read (1 + out.length) s.cur ∧
      t.bp = bp ∧ (wbufBytes t.sb = p ∧ t.sb.rrem = s.sb.rrem ∧ t.sb.rend = s.sb.rend) ∧
      StringsHeld t.st e.toStrings e.width ∧ t.lz = ⟨BitVec.ofNat 16 e.cur, s.lz.prev, BitVec.ofNat 32 e.resets⟩ :=
  ⟨_, runCommand_faults (body := lzwCompressBody) hs hbody (h.same .status (by simp)), rfl,
    SameBut.of_body (x := beginFlags s.status) (by simp) (h.same.mono (by simp)), h.produces.appends, h.cur, h.bp, h.sb, h.table,
    h.lz⟩

theorem lzwCompressBody_of_reset_raise (h : tableReset s.args.arg0.toNat s = .raise k t) : lzwCompressBody s = .raise k t := by
  rw [lzwCompressBody, compressOpen_of_raise h, Run.bind_raise]

end

/-- Settles O54: the faults before the first code, and the simulation of the encoder of Claims.lean up to where it ends. -/
theorem compressRejects : Obligations.CompressRejects := by
  unfold Obligations.CompressRejects
  intro s hs
  refine ⟨fun hlow => ?_, fun hhigh => ?_, fun hrb havail hout hroom => ?_, fun hrb hfull => ?_,
    fun room lim x hrb hroom hlim hx k out p bp hends => ?_⟩
  · have hreset : tableReset s.begun.args.arg0.toNat s.begun = _ := if_pos hlow
    exact runCommand_rejects (body := lzwCompressBody) hs (lzwCompressBody_of_reset_raise hreset)
  · replace hhigh : 12 < s.begun.args.arg0.toNat := hhigh
    obtain ⟨-, hlow, -⟩ | ⟨hlow, -⟩ | ⟨-, hreset⟩ := tableReset_cases s.begun.args.arg0.toNat s.begun
    case inr.inr => exact runCommand_rejects (body := lzwCompressBody) hs (lzwCompressBody_of_reset_raise hreset)
    all_goals omega
  · have hroom' : roomLeft s.begun = (roomLeft s - 1) + 1 := by
      show roomLeft s = _
      unfold roomLeft
      omega
    have hx := encodeInput_first_out (room := roomLeft s - 1) (x := inputBytes (srcMoved 1 s)) hrb hout
    rw [← inputBytes_eq_cons havail] at hx
    have hbytes : (wholeBytes { Coding.opened s.args.arg0.toNat with read := 1 }).length < 255 := by
      have htotal := totalBits_opened hrb
      have hrb' := hrb.2
      rw [wholeBytes, lowBytes_length]
      show totalBits (Coding.opened _).codes / 8 < 255
      omega
    have hinto : frameInto (roomLeft s - 1) (wholeBytes { Coding.opened s.args.arg0.toNat with read := 1 }) = ([], _) :=
      (if_pos (hbytes.trans_le (by unfold frameLimit; omega))).trans (frameBytes_short (by simpa using hbytes))
    obtain ⟨u, hbody, hdone⟩ := lzwCompressBody_stops (s := s.begun) hrb hroom' hx hinto
    obtain ⟨t, hexec, hfault, hsame, happends, hcur, -, -, -, hlz⟩ := compressed_faults hs hbody hdone
    exact ⟨t, hexec, hfault, hsame .res (by simp), happends, hcur, hlz⟩
  · have hopen := compressOpen_full (s := s.begun) hrb hfull
    have hbody : lzwCompressBody s.begun = .raise .insufficientSpace (s.begun.setSt (resetTable s.args.arg0.toNat)) := by
      rw [lzwCompressBody, show s.begun.args = s.args from rfl, hopen, Run.bind_raise]
    refine ⟨_, runCommand_faults (body := lzwCompressBody) hs hbody rfl, rfl,
      SameBut.of_body (x := beginFlags s.status) (by simp) ((sameBut_setSt _ _).mono (by simp)), ?_⟩
    have hwidth : (Decoding.start s.args.arg0.toNat).width = s.args.arg0.toNat := widthOf_root hrb (Nat.le_refl 2)
    rw [TableHolds, hwidth]
    exact stringsHeld_resetTable hrb
  · subst hlim
    obtain ⟨e, fault⟩ := x
    obtain ⟨hfault, hinto, hbp⟩ | ⟨hfault, hk, hfull, hinto, hbp⟩ := hends
    · obtain rfl : fault = some k := hfault
      obtain ⟨u, hbody, hdone⟩ := lzwCompressBody_stops (s := s.begun) hrb hroom hx.symm hinto
      subst hbp
      exact compressed_faults hs hbody hdone
    · obtain rfl : fault = none := hfault
      obtain ⟨u, hbody, hdone⟩ := lzwCompressBody_full (s := s.begun) hrb hroom hx.symm hfull hinto
      subst hk hbp
      exact compressed_faults hs hbody hdone

end Sys2Proof.Machine
end
